-- ==== Sys2Proof/Word.lean ====
section
/-! DEFINITION. The word and the byte of the К1801ВМ1 (spec/00_scope.md R9: word width 16 bits, byte 8 bits,
addresses 16 bits) and their plainest arithmetic. -/

namespace Sys2Proof

/-- A 16-bit machine word or bus address (R9, R70). -/
abbrev Word := BitVec 16

/-- An 8-bit byte (R9). -/
abbrev Byte := BitVec 8

/-- The low byte of a word: the byte at the even address (R71). -/
def loByte (w : Word) : Byte := w.extractLsb' 0 8

/-- The high byte of a word: the byte at the odd address (R71). -/
def hiByte (w : Word) : Byte := w.extractLsb' 8 8

/-- The word whose low byte is `lo` and whose high byte is `hi` (R71, little-endian). -/
def mkWord (lo hi : Byte) : Word := hi ++ lo

end Sys2Proof
end

