-- ==== Sys2Proof/Syntax.lean ====
section
/-! DEFINITION. The instructions as syntax: one constructor for each row of spec/opcode_table.json. An instruction is
its first word; the extension words that its operand fields own (spec/30_encoding.md R150) are read by the operand
access itself, at PC, when the instruction executes (R182). -/

namespace Sys2Proof

/-- The eight program-accessible registers (R20): R6 is the stack pointer (R21), R7 the program counter (R22). -/
inductive Reg where
  | r0 | r1 | r2 | r3 | r4 | r5 | sp | pc
deriving DecidableEq, Repr

/-- The seven addressing modes that name a memory operand (R180, modes 1 to 7). -/
inductive MemMode where
  /-- Mode 1, `@Rn` (R183). -/
  | deferred
  /-- Mode 2, `(Rn)+`, with R7 `#E` (R184). -/
  | autoInc
  /-- Mode 3, `@(Rn)+`, with R7 `@#E` (R185). -/
  | autoIncDef
  /-- Mode 4, `-(Rn)` (R186). -/
  | autoDec
  /-- Mode 5, `@-(Rn)` (R187). -/
  | autoDecDef
  /-- Mode 6, `E(Rn)`, with R7 `E` (R188). -/
  | index
  /-- Mode 7, `@E(Rn)`, with R7 `@E` (R188). -/
  | indexDef
deriving DecidableEq, Repr

/-- A 6-bit operand field `ss` or `dd` (R153): a register (mode 0, R181), or a memory mode with its register. -/
inductive Operand where
  | reg (r : Reg)
  | mem (m : MemMode) (r : Reg)
deriving DecidableEq, Repr

/-- The instruction set: one constructor for each row of spec/opcode_table.json, operands as the formats of R152 lay
them out. The rows that are a second name of words of another row (NOP, CLC … SCC beside CLx and SEx; BHIS and BLO
beside BCC and BCS, R166) have constructors of their own; see `Instr.wf` for which spelling the decoder gives. -/
inductive Instr where
  -- system control (spec/41_system_control.md)
  | halt
  | wait
  | rti
  | bpt
  | iot
  | reset
  | rtt
  /-- START 000010..000013; `x` is IR[1:0], ignored by the hardware (R219). -/
  | start (x : BitVec 2)
  /-- STEP 000014..000017; `x` is IR[1:0], ignored by the hardware (R220). -/
  | step (x : BitVec 2)
  -- jumps and subroutines (spec/42_jump_subroutine.md)
  | jmp (dd : Operand)
  | rts (r : Reg)
  -- condition codes (spec/43_condition_codes.md)
  /-- The clear-flags code with mask `m` = IR[3:0] = nzvc (R240). -/
  | clx (m : BitVec 4)
  /-- The set-flags code with mask `m` = IR[3:0] = nzvc (R240). -/
  | sex (m : BitVec 4)
  /-- NOP 000240 (R241). -/
  | nop
  | clc
  | clv
  | clz
  | cln
  | ccc
  /-- NOP 000260, the second NOP row (R241). -/
  | nopSet
  | sec
  | sev
  | sez
  | sen
  | scc
  | swab (dd : Operand)
  -- branches (spec/44_branches.md); `bb` is the signed word offset
  | br (bb : BitVec 8)
  | bne (bb : BitVec 8)
  | beq (bb : BitVec 8)
  | bge (bb : BitVec 8)
  | blt (bb : BitVec 8)
  | bgt (bb : BitVec 8)
  | ble (bb : BitVec 8)
  | jsr (r : Reg) (dd : Operand)
  -- single-operand word instructions (spec/45_single_operand.md)
  | clr (dd : Operand)
  | com (dd : Operand)
  | inc (dd : Operand)
  | dec (dd : Operand)
  | neg (dd : Operand)
  | adc (dd : Operand)
  | sbc (dd : Operand)
  | tst (dd : Operand)
  | ror (dd : Operand)
  | rol (dd : Operand)
  | asr (dd : Operand)
  | asl (dd : Operand)
  /-- MARK with `nn` = IR[5:0], unsigned (R233). -/
  | mark (nn : BitVec 6)
  | sxt (dd : Operand)
  -- double-operand word instructions (spec/46_double_operand.md)
  | mov (ss dd : Operand)
  | cmp (ss dd : Operand)
  | bit (ss dd : Operand)
  | bic (ss dd : Operand)
  | bis (ss dd : Operand)
  | add (ss dd : Operand)
  /-- MUL ss, r of К1801ВМ1Г (spec/47_mul_vm1g.md R330); illegal on ВМ1А. -/
  | mul (r : Reg) (ss : Operand)
  | xor (r : Reg) (dd : Operand)
  /-- SOB with `uu` = IR[5:0], the unsigned word count backwards (R234). -/
  | sob (r : Reg) (uu : BitVec 6)
  | bpl (bb : BitVec 8)
  | bmi (bb : BitVec 8)
  | bhi (bb : BitVec 8)
  | blos (bb : BitVec 8)
  | bvc (bb : BitVec 8)
  | bvs (bb : BitVec 8)
  | bcc (bb : BitVec 8)
  | bcs (bb : BitVec 8)
  /-- BHIS, the second name of BCC (R264). -/
  | bhis (bb : BitVec 8)
  /-- BLO, the second name of BCS (R265). -/
  | blo (bb : BitVec 8)
  | emt (nn : BitVec 8)
  | trap (nn : BitVec 8)
  -- single-operand byte instructions and PSW access (spec/45_single_operand.md)
  | clrb (dd : Operand)
  | comb (dd : Operand)
  | incb (dd : Operand)
  | decb (dd : Operand)
  | negb (dd : Operand)
  | adcb (dd : Operand)
  | sbcb (dd : Operand)
  | tstb (dd : Operand)
  | rorb (dd : Operand)
  | rolb (dd : Operand)
  | asrb (dd : Operand)
  | aslb (dd : Operand)
  | mtps (ss : Operand)
  | mfps (dd : Operand)
  -- double-operand byte instructions and SUB (spec/46_double_operand.md)
  | movb (ss dd : Operand)
  | cmpb (ss dd : Operand)
  | bitb (ss dd : Operand)
  | bicb (ss dd : Operand)
  | bisb (ss dd : Operand)
  | sub (ss dd : Operand)
deriving DecidableEq, Repr

end Sys2Proof
end

