-- ==== Sys2Proof/WellFormed.lean ====
section
/-! DEFINITION. Well-formed instructions: those the decoder gives. Every operand field admits every value
(spec/30_encoding.md R152, R199), so what the check refuses is a second spelling of words that have a name of their
own in spec/opcode_table.json. -/

namespace Sys2Proof

/-- The masks of CLx and SEx that have a mnemonic of their own: none (NOP), one flag, all four (R166). -/
def namedMask (m : BitVec 4) : Bool :=
  m == 0 || m == 1 || m == 2 || m == 4 || m == 8 || m == 15

/-- The canonical spelling of an instruction word. The generic forms CLx and SEx are not well-formed on a mask that
has a name (R166: 000240 is NOP, 000241 CLC, …, 000257 CCC, and so for the set forms); BHIS and BLO are second names
of BCC and BCS (R264, R265). -/
def Instr.wf : Instr → Bool
  | .clx m => !namedMask m
  | .sex m => !namedMask m
  | .bhis _ => false
  | .blo _ => false
  | _ => true

/-- The canonical spelling of the same word (R166). -/
def Instr.canon : Instr → Instr
  | .clx m =>
    if m = 0 then .nop else if m = 1 then .clc else if m = 2 then .clv else if m = 4 then .clz
    else if m = 8 then .cln else if m = 15 then .ccc else .clx m
  | .sex m =>
    if m = 0 then .nopSet else if m = 1 then .sec else if m = 2 then .sev else if m = 4 then .sez
    else if m = 8 then .sen else if m = 15 then .scc else .sex m
  | .bhis bb => .bcc bb
  | .blo bb => .bcs bb
  | i => i

end Sys2Proof
end

