-- ==== Sys2Proof/Decode.lean ====
section
/-! DEFINITION. Decoding the first word of an instruction (spec/30_encoding.md R152, R157, R158, R160) and encoding
it again. Both are written from the opcode map of R157. -/

namespace Sys2Proof

/-- The blocks of illegal first words, named as R160 lists them. `eis` is 071000..073777; the codes 070000..070777
are decoded as MUL, whose meaning raises the same exception on ВМ1А (R163). -/
inductive IllegalBlock where
  /-- 000007, labelled MFPT by the source (R218). -/
  | mfpt
  /-- 000020..000077. -/
  | low
  /-- 000210..000237. -/
  | afterRts
  /-- 006500..006677, MFPI and MTPI elsewhere. -/
  | mfpiMtpi
  /-- 007000..007777. -/
  | op007
  /-- 071000..073777, DIV, ASH, ASHC elsewhere. -/
  | eis
  /-- 075000..076777. -/
  | op075
  /-- 106500..106677, MFPD and MTPD elsewhere. -/
  | mfpdMtpd
  /-- 107000..107777. -/
  | op107
  /-- 170000..177777. -/
  | op17
deriving DecidableEq, Repr

/-- Why bytes are no instruction. -/
inductive DecodeError where
  /-- Fewer bytes than one word. -/
  | tooShort
  /-- An illegal first word (R160). -/
  | illegal (b : IllegalBlock)
deriving DecidableEq, Repr

/-- A 3-bit register field (R151). -/
def Reg.ofBits (b : BitVec 3) : Reg :=
  match b.toNat with
  | 0 => .r0
  | 1 => .r1
  | 2 => .r2
  | 3 => .r3
  | 4 => .r4
  | 5 => .r5
  | 6 => .sp
  | _ => .pc

/-- The number of a register (R20). -/
def Reg.toBits : Reg → BitVec 3
  | .r0 => 0
  | .r1 => 1
  | .r2 => 2
  | .r3 => 3
  | .r4 => 4
  | .r5 => 5
  | .sp => 6
  | .pc => 7

/-- An operand field: bits 5:3 the mode, bits 2:0 the register (R153, R180). -/
def Operand.ofBits (b : BitVec 6) : Operand :=
  let r := Reg.ofBits (b.extractLsb' 0 3)
  match (b.extractLsb' 3 3).toNat with
  | 0 => .reg r
  | 1 => .mem .deferred r
  | 2 => .mem .autoInc r
  | 3 => .mem .autoIncDef r
  | 4 => .mem .autoDec r
  | 5 => .mem .autoDecDef r
  | 6 => .mem .index r
  | _ => .mem .indexDef r

/-- The mode number of a memory mode (R180). -/
def MemMode.toBits : MemMode → BitVec 3
  | .deferred => 1
  | .autoInc => 2
  | .autoIncDef => 3
  | .autoDec => 4
  | .autoDecDef => 5
  | .index => 6
  | .indexDef => 7

/-- The 6-bit field of an operand (R153). -/
def Operand.toBits : Operand → BitVec 6
  | .reg r => (0 : BitVec 3) ++ r.toBits
  | .mem m r => m.toBits ++ r.toBits

/-- The operand field `ss`, bits 11:6 of format D2 (R152). -/
def fieldSs (w : Word) : Operand := Operand.ofBits (w.extractLsb' 6 6)

/-- The operand field in bits 5:0 (R152). -/
def fieldDd (w : Word) : Operand := Operand.ofBits (w.extractLsb' 0 6)

/-- The register field of formats RD and SB, bits 8:6 (R152). -/
def fieldR (w : Word) : Reg := Reg.ofBits (w.extractLsb' 6 3)

/-- The clear-flags word with mask `m` under its own name (R166, R240 to R245). -/
def clearForm (m : BitVec 4) : Instr := (Instr.clx m).canon

/-- The set-flags word with mask `m` under its own name (R166, R240, R246 to R249). -/
def setForm (m : BitVec 4) : Instr := (Instr.sex m).canon

/-- Words 000000..000377 (R157). -/
def decode0000 (w : Word) : Except DecodeError Instr :=
  match (w.extractLsb' 6 2).toNat with
  | 0 =>
    match (w.extractLsb' 2 4).toNat with
    | 0 =>
      match (w.extractLsb' 0 2).toNat with
      | 0 => .ok .halt
      | 1 => .ok .wait
      | 2 => .ok .rti
      | _ => .ok .bpt
    | 1 =>
      match (w.extractLsb' 0 2).toNat with
      | 0 => .ok .iot
      | 1 => .ok .reset
      | 2 => .ok .rtt
      | _ => .error (.illegal .mfpt)
    | 2 => .ok (.start (w.extractLsb' 0 2))
    | 3 => .ok (.step (w.extractLsb' 0 2))
    | _ => .error (.illegal .low)
  | 1 => .ok (.jmp (fieldDd w))
  | 2 =>
    match (w.extractLsb' 3 3).toNat with
    | 0 => .ok (.rts (Reg.ofBits (w.extractLsb' 0 3)))
    | 4 => .ok (clearForm (w.extractLsb' 0 4))
    | 5 => .ok (clearForm (w.extractLsb' 0 4))
    | 6 => .ok (setForm (w.extractLsb' 0 4))
    | 7 => .ok (setForm (w.extractLsb' 0 4))
    | _ => .error (.illegal .afterRts)
  | _ => .ok (.swab (fieldDd w))

/-- Words 005000..005777, selected by bits 8:6 (R157). -/
def decode005 (w : Word) : Except DecodeError Instr :=
  match (w.extractLsb' 6 3).toNat with
  | 0 => .ok (.clr (fieldDd w))
  | 1 => .ok (.com (fieldDd w))
  | 2 => .ok (.inc (fieldDd w))
  | 3 => .ok (.dec (fieldDd w))
  | 4 => .ok (.neg (fieldDd w))
  | 5 => .ok (.adc (fieldDd w))
  | 6 => .ok (.sbc (fieldDd w))
  | _ => .ok (.tst (fieldDd w))

/-- Words 006000..006777, selected by bits 8:6 (R157). -/
def decode006 (w : Word) : Except DecodeError Instr :=
  match (w.extractLsb' 6 3).toNat with
  | 0 => .ok (.ror (fieldDd w))
  | 1 => .ok (.rol (fieldDd w))
  | 2 => .ok (.asr (fieldDd w))
  | 3 => .ok (.asl (fieldDd w))
  | 4 => .ok (.mark (w.extractLsb' 0 6))
  | 7 => .ok (.sxt (fieldDd w))
  | _ => .error (.illegal .mfpiMtpi)

/-- Words 000000..007777, selected by bits 11:8 (R157). -/
def decode00 (w : Word) : Except DecodeError Instr :=
  match (w.extractLsb' 8 4).toNat with
  | 0 => decode0000 w
  | 1 => .ok (.br (w.extractLsb' 0 8))
  | 2 => .ok (.bne (w.extractLsb' 0 8))
  | 3 => .ok (.beq (w.extractLsb' 0 8))
  | 4 => .ok (.bge (w.extractLsb' 0 8))
  | 5 => .ok (.blt (w.extractLsb' 0 8))
  | 6 => .ok (.bgt (w.extractLsb' 0 8))
  | 7 => .ok (.ble (w.extractLsb' 0 8))
  | 8 => .ok (.jsr (fieldR w) (fieldDd w))
  | 9 => .ok (.jsr (fieldR w) (fieldDd w))
  | 10 => decode005 w
  | 11 => decode005 w
  | 12 => decode006 w
  | 13 => decode006 w
  | _ => .error (.illegal .op007)

/-- Words 105000..105777, selected by bits 8:6 (R157). -/
def decode105 (w : Word) : Except DecodeError Instr :=
  match (w.extractLsb' 6 3).toNat with
  | 0 => .ok (.clrb (fieldDd w))
  | 1 => .ok (.comb (fieldDd w))
  | 2 => .ok (.incb (fieldDd w))
  | 3 => .ok (.decb (fieldDd w))
  | 4 => .ok (.negb (fieldDd w))
  | 5 => .ok (.adcb (fieldDd w))
  | 6 => .ok (.sbcb (fieldDd w))
  | _ => .ok (.tstb (fieldDd w))

/-- Words 106000..106777, selected by bits 8:6 (R157). -/
def decode106 (w : Word) : Except DecodeError Instr :=
  match (w.extractLsb' 6 3).toNat with
  | 0 => .ok (.rorb (fieldDd w))
  | 1 => .ok (.rolb (fieldDd w))
  | 2 => .ok (.asrb (fieldDd w))
  | 3 => .ok (.aslb (fieldDd w))
  | 4 => .ok (.mtps (fieldDd w))
  | 7 => .ok (.mfps (fieldDd w))
  | _ => .error (.illegal .mfpdMtpd)

/-- Words 100000..107777, selected by bits 11:8 (R157). -/
def decode10 (w : Word) : Except DecodeError Instr :=
  match (w.extractLsb' 8 4).toNat with
  | 0 => .ok (.bpl (w.extractLsb' 0 8))
  | 1 => .ok (.bmi (w.extractLsb' 0 8))
  | 2 => .ok (.bhi (w.extractLsb' 0 8))
  | 3 => .ok (.blos (w.extractLsb' 0 8))
  | 4 => .ok (.bvc (w.extractLsb' 0 8))
  | 5 => .ok (.bvs (w.extractLsb' 0 8))
  | 6 => .ok (.bcc (w.extractLsb' 0 8))
  | 7 => .ok (.bcs (w.extractLsb' 0 8))
  | 8 => .ok (.emt (w.extractLsb' 0 8))
  | 9 => .ok (.trap (w.extractLsb' 0 8))
  | 10 => decode105 w
  | 11 => decode105 w
  | 12 => decode106 w
  | 13 => decode106 w
  | _ => .error (.illegal .op107)

/-- Words 070000..077777, selected by bits 11:9 (R157). -/
def decode07 (w : Word) : Except DecodeError Instr :=
  match (w.extractLsb' 9 3).toNat with
  | 0 => .ok (.mul (fieldR w) (fieldDd w))
  | 1 => .error (.illegal .eis)
  | 2 => .error (.illegal .eis)
  | 3 => .error (.illegal .eis)
  | 4 => .ok (.xor (fieldR w) (fieldDd w))
  | 7 => .ok (.sob (fieldR w) (w.extractLsb' 0 6))
  | _ => .error (.illegal .op075)

/-- The instruction that the first word `w` encodes (R157, R158); a word that matches no row is illegal (R160). -/
def decodeWord (w : Word) : Except DecodeError Instr :=
  match (w.extractLsb' 12 4).toNat with
  | 0 => decode00 w
  | 1 => .ok (.mov (fieldSs w) (fieldDd w))
  | 2 => .ok (.cmp (fieldSs w) (fieldDd w))
  | 3 => .ok (.bit (fieldSs w) (fieldDd w))
  | 4 => .ok (.bic (fieldSs w) (fieldDd w))
  | 5 => .ok (.bis (fieldSs w) (fieldDd w))
  | 6 => .ok (.add (fieldSs w) (fieldDd w))
  | 7 => decode07 w
  | 8 => decode10 w
  | 9 => .ok (.movb (fieldSs w) (fieldDd w))
  | 10 => .ok (.cmpb (fieldSs w) (fieldDd w))
  | 11 => .ok (.bitb (fieldSs w) (fieldDd w))
  | 12 => .ok (.bicb (fieldSs w) (fieldDd w))
  | 13 => .ok (.bisb (fieldSs w) (fieldDd w))
  | 14 => .ok (.sub (fieldSs w) (fieldDd w))
  | _ => .error (.illegal .op17)

/-- The instruction at the head of a list of bytes, low byte of the word first (R71), with the bytes after its first
word (its extension words, where its operand fields own some, R150). -/
def decode : List Byte → Except DecodeError (Instr × List Byte)
  | lo :: hi :: rest =>
    match decodeWord (mkWord lo hi) with
    | .ok i => .ok (i, rest)
    | .error e => .error e
  | _ => .error .tooShort

/-- Format D1: a 10-bit opcode and an operand field (R152). -/
def encD1 (op : BitVec 10) (dd : Operand) : Word := op ++ dd.toBits

/-- Format D2: a 4-bit opcode, source field, destination field (R152). -/
def encD2 (op : BitVec 4) (ss dd : Operand) : Word := op ++ (ss.toBits ++ dd.toBits)

/-- Format RD: a 7-bit opcode, a register, an operand field (R152). -/
def encRD (op : BitVec 7) (r : Reg) (dd : Operand) : Word := op ++ (r.toBits ++ dd.toBits)

/-- Formats BR and TR: an 8-bit opcode and eight operand bits (R152). -/
def encBR (op : BitVec 8) (bb : BitVec 8) : Word := op ++ bb

/-- Format CC: twelve opcode bits (bit 4 set or clear) and the flag mask (R152). -/
def encCC (op : BitVec 12) (m : BitVec 4) : Word := op ++ m

/-- The first word of an instruction, from the match values of R158. -/
def encodeWord : Instr → Word
  | .halt => 0o000000
  | .wait => 0o000001
  | .rti => 0o000002
  | .bpt => 0o000003
  | .iot => 0o000004
  | .reset => 0o000005
  | .rtt => 0o000006
  | .start x => (0o00002 : BitVec 14) ++ x
  | .step x => (0o00003 : BitVec 14) ++ x
  | .jmp dd => encD1 0o0001 dd
  | .rts r => (0o00020 : BitVec 13) ++ r.toBits
  | .clx m => encCC 0o0012 m
  | .sex m => encCC 0o0013 m
  | .nop => encCC 0o0012 0
  | .clc => encCC 0o0012 1
  | .clv => encCC 0o0012 2
  | .clz => encCC 0o0012 4
  | .cln => encCC 0o0012 8
  | .ccc => encCC 0o0012 15
  | .nopSet => encCC 0o0013 0
  | .sec => encCC 0o0013 1
  | .sev => encCC 0o0013 2
  | .sez => encCC 0o0013 4
  | .sen => encCC 0o0013 8
  | .scc => encCC 0o0013 15
  | .swab dd => encD1 0o0003 dd
  | .br bb => encBR 0o001 bb
  | .bne bb => encBR 0o002 bb
  | .beq bb => encBR 0o003 bb
  | .bge bb => encBR 0o004 bb
  | .blt bb => encBR 0o005 bb
  | .bgt bb => encBR 0o006 bb
  | .ble bb => encBR 0o007 bb
  | .jsr r dd => encRD 0o004 r dd
  | .clr dd => encD1 0o0050 dd
  | .com dd => encD1 0o0051 dd
  | .inc dd => encD1 0o0052 dd
  | .dec dd => encD1 0o0053 dd
  | .neg dd => encD1 0o0054 dd
  | .adc dd => encD1 0o0055 dd
  | .sbc dd => encD1 0o0056 dd
  | .tst dd => encD1 0o0057 dd
  | .ror dd => encD1 0o0060 dd
  | .rol dd => encD1 0o0061 dd
  | .asr dd => encD1 0o0062 dd
  | .asl dd => encD1 0o0063 dd
  | .mark nn => (0o0064 : BitVec 10) ++ nn
  | .sxt dd => encD1 0o0067 dd
  | .mov ss dd => encD2 0o01 ss dd
  | .cmp ss dd => encD2 0o02 ss dd
  | .bit ss dd => encD2 0o03 ss dd
  | .bic ss dd => encD2 0o04 ss dd
  | .bis ss dd => encD2 0o05 ss dd
  | .add ss dd => encD2 0o06 ss dd
  | .mul r ss => encRD 0o070 r ss
  | .xor r dd => encRD 0o074 r dd
  | .sob r uu => (0o077 : BitVec 7) ++ (r.toBits ++ uu)
  | .bpl bb => encBR 0o200 bb
  | .bmi bb => encBR 0o201 bb
  | .bhi bb => encBR 0o202 bb
  | .blos bb => encBR 0o203 bb
  | .bvc bb => encBR 0o204 bb
  | .bvs bb => encBR 0o205 bb
  | .bcc bb => encBR 0o206 bb
  | .bcs bb => encBR 0o207 bb
  | .bhis bb => encBR 0o206 bb
  | .blo bb => encBR 0o207 bb
  | .emt nn => encBR 0o210 nn
  | .trap nn => encBR 0o211 nn
  | .clrb dd => encD1 0o1050 dd
  | .comb dd => encD1 0o1051 dd
  | .incb dd => encD1 0o1052 dd
  | .decb dd => encD1 0o1053 dd
  | .negb dd => encD1 0o1054 dd
  | .adcb dd => encD1 0o1055 dd
  | .sbcb dd => encD1 0o1056 dd
  | .tstb dd => encD1 0o1057 dd
  | .rorb dd => encD1 0o1060 dd
  | .rolb dd => encD1 0o1061 dd
  | .asrb dd => encD1 0o1062 dd
  | .aslb dd => encD1 0o1063 dd
  | .mtps ss => encD1 0o1064 ss
  | .mfps dd => encD1 0o1067 dd
  | .movb ss dd => encD2 0o11 ss dd
  | .cmpb ss dd => encD2 0o12 ss dd
  | .bitb ss dd => encD2 0o13 ss dd
  | .bicb ss dd => encD2 0o14 ss dd
  | .bisb ss dd => encD2 0o15 ss dd
  | .sub ss dd => encD2 0o16 ss dd

/-- The bytes of an instruction's first word, the low byte at the lower address (R71). -/
def encode (i : Instr) : List Byte := [loByte (encodeWord i), hiByte (encodeWord i)]

/-- `n` bytes of the number `w`, the low byte first: the words laid out as the hardware stores them (R71). -/
def tableBytes : Nat → Nat → List Byte
  | 0, _ => []
  | n + 1, w => BitVec.ofNat 8 w :: tableBytes n (w / 256)

/-- The instruction the decoder reads from the bits `w` of a row of spec/opcode_table.json, `nbits` bits wide, every
bit above them 0; the longest instruction has three words, six bytes (R150). -/
def decodeTableWord (nbits w : Nat) : Option Instr :=
  match decode (tableBytes 6 (w % 2 ^ nbits)) with
  | .ok (i, _) => some i
  | .error _ => none

end Sys2Proof
end

