-- ==== Sys2Proof/Config.lean ====
section
/-! DEFINITION. The parameters of the model (spec/00_scope.md R10) and its free values. A configuration is constant
while a machine runs (R11, spec/92_eei_decisions.md D2); the state carries it, so that a claim ranges over every
configuration. -/

namespace Sys2Proof

/-- `VARIANT` (R2, R10): `vm1a` also stands for Б and В (D1). -/
inductive Variant where
  | vm1a
  | vm1g
deriving DecidableEq, Repr

/-- `ODD_WORD_POLICY` (R10, R74, D5): what a word transaction at an odd external address does. -/
inductive OddWordPolicy where
  /-- The model declines to give a result. -/
  | refuse
  /-- The slave ignores address bit 0. -/
  | ignoreBit0
  /-- The platform decides: a read gives a free value, a write leaves free values behind. -/
  | platform
deriving DecidableEq, Repr

/-- `MUL_NZV` (R10, R332, D10): N, Z, V after MUL. -/
inductive MulNzv where
  /-- N and Z follow the 32-bit product, V is 0. -/
  | product
  /-- The three flags take free values. -/
  | any
deriving DecidableEq, Repr

/-- What stands behind nSEL1 or nSEL2 (R58, R420, D7). -/
inductive SelKind where
  /-- An external register: a read gives the word it holds, a write stores. -/
  | register
  /-- Nothing drives the lines: a read gives a free value (spec/93_implementation_defined.md U8). -/
  | undriven
deriving DecidableEq, Repr

/-- The parameters of R10. -/
structure Config where
  variant : Variant
  /-- `NCPU`, the processor number from the pins nPA1, nPA0 (R11). -/
  ncpu : BitVec 2
  /-- `TIMER_WORKS` (R390); a ВМ1Г timer always works, see `Config.timerAlive`. -/
  timerWorks : Bool
  /-- `SUB_CARRY_IS_BORROW` (R31, D3). -/
  subCarryIsBorrow : Bool
  oddWord : OddWordPolicy
  /-- `ERRATUM_FRC` (R440, D11). -/
  erratumFrc : Bool
  /-- `MTPS_CLEARS_SRC_BIT4` (R300, D20). -/
  mtpsClearsSrcBit4 : Bool
  mulNzv : MulNzv
  sel1Kind : SelKind
  sel2Kind : SelKind
deriving DecidableEq, Repr

/-- The defaults of R10. What stands behind the select pins is the platform's (D7): DESIGN CHOICE (assumption 6),
external registers. -/
def Config.default : Config where
  variant := .vm1a
  ncpu := 0
  timerWorks := true
  subCarryIsBorrow := true
  oddWord := .refuse
  erratumFrc := true
  mtpsClearsSrcBit4 := false
  mulNzv := .product
  sel1Kind := .register
  sel2Kind := .register

/-- Whether the timer works: "always true for VM1G" (R10, R390, D23). -/
def Config.timerAlive (c : Config) : Bool := c.timerWorks || c.variant == .vm1g

/-- Free words (assumption 3): the value the model uses where the spec gives none. Nothing is known of it. -/
opaque Config.freeWord : Nat → BitVec 16

/-- Free bits (assumption 3): the choice the spec leaves open. Nothing is known of it. -/
opaque Config.freeBit : Nat → Bool

end Sys2Proof
end

