-- ==== Sys2Proof/Machine/State.lean ====
section
/-! DEFINITION. The state of one К1801ВМ1 with the platform around it, as plain data (spec/10_state.md), why a step
can stop, and the state after the hardware reset (R60). -/

namespace Sys2Proof.Machine

/-- Why the machine stops for good: never. The chip has no such state (spec/70_reset_and_hazards.md R449): every error is
an exception that it takes, and a hang on nRPLY (R81, U9) is the state `Sequencer.hung`, which a hardware reset ends. Nothing
raises a fault, so the type is empty. Safe. -/
inductive Fault where
deriving DecidableEq, Repr

/-- Why the model gives no successor state. -/
inductive Refusal where
  /-- Raised by an arm of `exec` for an instruction that has no meaning yet. Safe. No arm raises it now. -/
  | notModelled (mnemonic : String)
  /-- Raised by a word transaction at an odd external address when the parameter `ODD_WORD_POLICY` is `refuse`
  (R74, D5, U12), by the chip or by another master. Safe. -/
  | oddWordAccess
  /-- Raised by the dispatch of a processor whose wait was ended by a bus write of 0 to WT (R412, D12, U5, treatment
  `refuse`). Safe. -/
  | waitEndedByBus
deriving DecidableEq, Repr

/-- The program-accessible register file (R20). R6 is SP (R21), R7 is PC (R22). -/
structure Regs where
  r0 : Word
  r1 : Word
  r2 : Word
  r3 : Word
  r4 : Word
  r5 : Word
  sp : Word
  pc : Word
deriving DecidableEq, Repr

/-- The instruction sequencer (R27, R28, R29, R38). -/
structure Sequencer where
  /-- IR, the instruction register (R28). -/
  ir : Word
  /-- The shadow register of IR: the next instruction word, when it was prefetched (R28, R462). -/
  shadow : Option Word
  /-- IR holds a word that has been fetched and not dispatched (R27). -/
  irLoaded : Bool
  /-- The next dispatch polls the interrupt block (R29). -/
  pollEnabled : Bool
  /-- FR.C holds 0 in place of PSW.C (R38, R440). -/
  frcStale : Bool
  /-- The processor is in the wait state: WAIT has executed, or a poll answered 000 because WT = 1 (R211, R412). The
  model's own field: it tells apart a wait that a bus write of WT = 0 has ended (D12). -/
  waiting : Bool
  /-- An entry for the double error has itself timed out and is attempted again at the next step (R372, D13). The
  model's own field. -/
  retry : Bool
  /-- The bus hangs on a slave that does not release nRPLY: the processor does nothing until a hardware reset (R81, R382,
  R449, U9). -/
  hung : Bool
deriving DecidableEq, Repr

/-- The kinds of transaction the processor block can start (spec/80_microarchitecture.md R467, R470). -/
inductive BusOp where
  | readWord
  | readByte
  | writeWord
  | writeByte
  | rmwWord
  | rmwByte
  | ackRead
deriving DecidableEq, Repr

/-- The registers of the microprogram block and of the bus interface that no program sees (R40 to R42, R47, R48, R462, R471,
R472). -/
structure Micro where
  /-- MA, the micro-address (R48, R462): 00 after the hardware reset, 01 wherever a step ends, and in a hang inside
  an entry, a return or a fetch the micro-address that waits (R27, R463, R473; assumption 23). -/
  ma : BitVec 7
  /-- MCIR, the answer of the interrupt block, or what the microprogram wrote over it (R40). -/
  mcir : BitVec 3
  /-- VSEL, the index of the vector (R41, R347). -/
  vsel : BitVec 4
  /-- REARM, the latch named by the last poll (R42). -/
  rearm : BitVec 3
  /-- A, the address of the last transaction (R47, R472). -/
  a : Word
  /-- Q, the data of the last transaction (R47, R472). -/
  q : Word
  /-- The latched types of the last transactions, the last one first, at most two (R472). -/
  ops : List BusOp
deriving DecidableEq, Repr

/-- The interrupt block (R43, R45, R46). -/
structure Interrupts where
  /-- ACOK, power is good and the start has been performed (R43). -/
  acok : Bool
  /-- ACIN, the latch of the rising edge of nACLO (R45, R346). -/
  acin : Bool
  /-- The latch of the falling edge of nACLO (R45). -/
  aclo : Bool
  /-- The latch of the falling edge of nIRQ2 (R45). -/
  irq2 : Bool
  /-- The latch of the falling edge of nIRQ3 (R45). -/
  irq3 : Bool
  /-- UERR, request of an illegal instruction (R46). -/
  uerr : Bool
  /-- QBTO, request of a bus timeout (R46). -/
  qbto : Bool
  /-- IATO, request of a timeout of the acknowledge read (R46). -/
  iato : Bool
  /-- DBLE, double error (R46). -/
  dble : Bool
deriving DecidableEq, Repr

/-- The stored bits of CPU_MODE (R51), CPU_IVEC (R52) and CPU_ERROR (R53). -/
structure Peripheral where
  /-- CPU_MODE.WT, the same flip-flop as WCPU (R44, R51). -/
  wcpu : Bool
  /-- CPU_MODE.ST, single step (R51). -/
  st : Bool
  /-- CPU_MODE.HLT, stop of the pipeline (R51). -/
  hlt : Bool
  /-- IVEC_REQ, the request flip-flop of CPU_IVEC (R52). -/
  ivecReq : Bool
  /-- The flag bits 7, 6, 4..0 of CPU_ERROR: ER7, OAT, QTO, ER3, ER2, UOP, DBL (R53); bit 5 is kept 0 here. -/
  errFlags : Byte
deriving DecidableEq, Repr

/-- The timer (R54 to R57). -/
structure Timer where
  /-- TVE_LIMIT (R54). -/
  limit : Word
  /-- TVE_COUNT (R55). -/
  count : Word
  /-- The low byte of TVE_CSR: FL D4 D16 RUN OS MON CAP SP (R56). -/
  csr : Byte
  /-- TVE_REQ, the timer request flip-flop (R57, R396). -/
  req : Bool
  /-- The CLC/4 prescaler and the divide-by-32 stage, together CLC/128 (R57, R391). -/
  pre : BitVec 7
  /-- The divide-by-4 stage (R57). -/
  div4 : BitVec 2
  /-- The divide-by-16 stage (R57). -/
  div16 : BitVec 4
  /-- CLC periods left in which a read of TVE_COUNT may still see the 0 before a reload (R393, D26, U17). -/
  window : Nat
deriving DecidableEq, Repr

/-- What the device answers to one interrupt-acknowledge read (R99): its vector address, whether it removes its
request from nVIRQ with it, and whether it holds nRPLY for ever, so that the read never ends (R81, R117, U9). -/
structure IackReply where
  vector : Word
  release : Bool
  holds : Bool
deriving DecidableEq, Repr

/-- What a part of the platform does: a change of an input level, of what it answers, or of its map (R12 agents 4 and 5, R95,
D6). -/
inductive Reaction where
  /-- The level of nACLO. -/
  | aclo (high : Bool)
  /-- The level of nIRQ1, `low` when it requests. -/
  | irq1 (low : Bool)
  /-- The level of nIRQ2. -/
  | irq2 (low : Bool)
  /-- The level of nIRQ3. -/
  | irq3 (low : Bool)
  /-- The level of nVIRQ. -/
  | virq (low : Bool)
  /-- The level of the timer input nSP. -/
  | sp (low : Bool)
  /-- The level of nINIT as driven from outside (R430 b). -/
  | init (low : Bool)
  /-- A device gets an answer ready for an acknowledge read. -/
  | iack (r : IackReply)
  /-- External circuits change the register behind nSEL1 (`first`) or nSEL2. -/
  | selSet (first : Bool) (w : Word)
  /-- The platform switches its map mode (R87, R365). -/
  | mode (n : Nat)
deriving DecidableEq, Repr

/-- How the external slave at an address behaves (R87, R95, D6). -/
inductive Slave where
  /-- Answers reads and writes, stores. -/
  | ram
  /-- Answers reads and stores nothing; `writeReplies` says whether it answers a write. -/
  | rom (writeReplies : Bool)
  /-- Answers; what it returns is not known (a free value), and it reacts to a read and to a write (R82, R95, D6). -/
  | device (onRead onWrite : List Reaction)
  /-- Gives no reply: the transaction ends in a bus timeout (R81). -/
  | absent
  /-- Replies and never releases nRPLY (R81, U9). -/
  | hang
deriving DecidableEq, Repr

/-- When a region of the map is switched in (R87, R365, D6). -/
inductive Gate where
  | always
  /-- While bit 3 of the register behind nSEL1 of processor 0, at 177716, is `on` (R59). -/
  | pult (on : Bool)
  /-- While the platform's map mode is `n`. -/
  | mode (n : Nat)
deriving DecidableEq, Repr

/-- The slave that serves the word addresses from `lo` to `hi` while `gate` is open, and the bank of memory cells behind
it. -/
structure Region where
  lo : Word
  hi : Word
  slave : Slave
  bank : BitVec 8
  gate : Gate
deriving DecidableEq, Repr

/-- The peripheral block of another chip that is present on the bus, with what stands behind its select lines (R12 agent 2,
R86, R95). Its number and its parameters are `cfg`. -/
structure Chip where
  cfg : Config
  per : Peripheral
  timer : Timer
  sel1 : Word
  sel2 : Word
deriving DecidableEq, Repr

/-- The sampled input levels, and the one output that acts back on the chip (R18, R95, R110). -/
structure Pins where
  /-- nDCLO: the hardware reset is held (R430 a, R431). -/
  dcloLow : Bool
  /-- nINIT, driven low from outside (R430 b). -/
  initLow : Bool
  /-- The one-bit register of the output nINIT: the chip drives the line low (R110, R470). It is set through a hardware
  reset (R430 a); RESET, one step, leaves it inactive (R216, D27). -/
  initOut : Bool
  acloHigh : Bool
  irq1Low : Bool
  irq2Low : Bool
  irq3Low : Bool
  virqLow : Bool
  spLow : Bool
deriving DecidableEq, Repr

/-- The platform outside the chip (R95, D6, D7): plain data in place of the spec's functions. -/
structure Platform where
  /-- The address map: the first region that holds the word address and is switched in decides; an address in none is RAM
  of bank 0. -/
  map : List Region
  /-- The map mode that `Gate.mode` looks at. -/
  mode : Nat
  /-- The other chips on the bus (R95). -/
  chips : List Chip
  /-- The external register behind nSEL1, at BASE + 16 (R58). -/
  sel1 : Word
  /-- The external register behind nSEL2, at BASE + 14 (R58). -/
  sel2 : Word
  pins : Pins
  /-- The answers the devices will give to the next acknowledge reads; none left, no reply. -/
  iack : List IackReply
  /-- How many nINIT pulses the chip has driven (R216, R430, D27). -/
  initPulses : Nat
deriving DecidableEq, Repr

/-- What the environment can do before a step or before a bus transaction (R12 agents 2, 3 and 5, R80, R95, R134,
R397). -/
inductive Event where
  /-- A part of the platform acts. -/
  | act (r : Reaction)
  /-- The level of nDCLO: low is the hardware reset (R430 a). -/
  | dclo (low : Bool)
  /-- `n` CLC periods pass (`CLC_PER_STEP`, R397, D17). -/
  | clocks (n : Nat)
  /-- Another bus master reads a word. -/
  | busRead (a : Word)
  /-- Another bus master writes a word. -/
  | busWrite (a w : Word)
  /-- Another bus master writes a byte. -/
  | busWriteByte (a : Word) (b : Byte)
  /-- Another chip changes its own peripheral block: the block with the number of `c` becomes `c` (R98). -/
  | chip (c : Chip)
  /-- The platform changes its address map (R365, R87). -/
  | remap (map : List Region)
deriving DecidableEq, Repr

/-- Memory outside the chip: the bytes that differ from what an unlisted cell reads as, cells rising. The cell of a byte is
its address plus 2^16 times its bank. -/
abbrev Memory := List Host.Cell

/-- The machine. -/
structure State where
  /-- The parameters (R10), constant. -/
  cfg : Config
  regs : Regs
  /-- PSW without bits 9:8, which are the pins nPA1, nPA0 (R30, R36). -/
  psw : Word
  seq : Sequencer
  micro : Micro
  ints : Interrupts
  per : Peripheral
  timer : Timer
  mem : Memory
  plat : Platform
  /-- What the environment does at each of the next points at which it may act: the start of a step, and the start of a
  bus transaction of the processor block. The first list is for the next point. -/
  inputs : List (List Event)
  /-- How many free values have been used; the model's own counter. -/
  freeCtr : Nat
deriving DecidableEq, Repr

/-- What cuts an instruction or an entry sequence short. -/
inductive BusKind where
  /-- A data transaction (R81). -/
  | data
  /-- The interrupt-acknowledge read (R99). -/
  | iack
deriving DecidableEq, Repr

/-- Why an activity was abandoned. -/
inductive Abort where
  /-- `raise BusTimeout(kind)` (R341). -/
  | timeout (k : BusKind)
  | refused (r : Refusal)
  /-- A hardware reset came: the step ends in the state it left (R382). -/
  | reset
  /-- The bus hangs, and the step ends there (R81, R449, U9): in a transaction of the processor block that was `granted` the
  bus, or in one of another master, while the processor block waits for the grant (R134, R472). -/
  | hang (granted : Bool)
deriving DecidableEq, Repr

/-- The result of an activity that may be cut short: every register and memory change made before the cut stays in
the state (R341, R371). -/
inductive Res (α : Type) where
  | ok (a : α) (s : State)
  | abort (e : Abort) (s : State)

/-- The interrupt block with no latch and no flag set (R60). -/
def Interrupts.clear : Interrupts :=
  { acok := false, acin := false, aclo := false, irq2 := false, irq3 := false, uerr := false, qbto := false, iato := false,
    dble := false }

/-- The registers CPU_MODE, CPU_IVEC and CPU_ERROR after the hardware reset (R60). -/
def Peripheral.clear : Peripheral := { wcpu := false, st := false, hlt := false, ivecReq := false, errFlags := 0 }

/-- The state after the hardware reset (R60, column "after nDCLO"). Where the spec gives no value the assumption log
names the one used: registers, IR, MCIR, VSEL, REARM, A, Q, TVE_LIMIT, TVE_COUNT and the prescalers 0, the buffer of
latched transaction types and the shadow of IR empty (assumption 1), the platform (assumptions 5 to 7). The environment's
power sequence (R431) is pending: before the first step nACLO rises (assumption 8). -/
def State.reset : State where
  cfg := Config.default
  regs := { r0 := 0, r1 := 0, r2 := 0, r3 := 0, r4 := 0, r5 := 0, sp := 0, pc := 0 }
  psw := 0
  seq := { ir := 0, shadow := none, irLoaded := true, pollEnabled := true, frcStale := false, waiting := false,
           retry := false, hung := false }
  micro := { ma := 0, mcir := 0, vsel := 0, rearm := 0, a := 0, q := 0, ops := [] }
  ints := Interrupts.clear
  per := Peripheral.clear
  timer := { limit := 0, count := 0, csr := 0, req := false, pre := 0, div4 := 0, div16 := 0, window := 0 }
  mem := []
  plat := { map := [], mode := 0, chips := [], sel1 := 0, sel2 := 0,
            pins := { dcloLow := false, initLow := false, initOut := false, acloHigh := false, irq1Low := false, irq2Low := false,
                      irq3Low := false, virqLow := false, spLow := false },
            iack := [], initPulses := 0 }
  inputs := [[.act (.aclo true)]]
  freeCtr := 0

end Sys2Proof.Machine
end

