-- ==== Sys2Proof/Machine/Memory.lean ====
section
/-! DEFINITION. The address map and the memory outside the chip: banks of 2^16 bytes (spec/20_memory.md R70, R87, R95), kept
in one canonical form. -/

namespace Sys2Proof.Machine

/-! ### The list of cells -/

/-- What a byte of memory that nothing has written reads as. DESIGN CHOICE (assumption 2), unsafe: the spec leaves
memory contents to the platform (R87). -/
def Memory.unlisted : Byte := 0

/-- The byte in cell `a`. -/
def Memory.read : Memory → Nat → Byte
  | [], _ => Memory.unlisted
  | (b, v) :: rest, a => if b = a then v else Memory.read rest a

/-- Memory with the byte `v` in cell `a`, in canonical form. -/
def Memory.write : Memory → Nat → Byte → Memory
  | [], a, v => if v = Memory.unlisted then [] else [(a, v)]
  | (b, u) :: rest, a, v =>
    if a < b then (if v = Memory.unlisted then (b, u) :: rest else (a, v) :: (b, u) :: rest)
    else if a = b then (if v = Memory.unlisted then rest else (a, v) :: rest)
    else (b, u) :: Memory.write rest a v

/-- How many cells there are: 256 banks of 2^16 bytes. -/
def Memory.cells : Nat := 16777216

/-- Every listed cell is at least `lo`, cells rise strictly and lie in the 256 banks, and no entry equals what an unlisted
cell reads as. -/
def Memory.wfFrom (lo : Nat) : Memory → Bool
  | [] => true
  | (a, v) :: rest =>
    decide (lo ≤ a) && decide (a < Memory.cells) && (v != Memory.unlisted) && Memory.wfFrom (a + 1) rest

/-- The canonical form. -/
def Memory.wf (m : Memory) : Bool := Memory.wfFrom 0 m

/-! ### The address map (R87, R95, D6) -/

/-- The word address: bit 0 ignored. -/
def evenAddr (a : Word) : Word := a &&& 0xFFFE

/-- Bit 0 of an address. -/
def isOdd (a : Word) : Bool := a.getLsbD 0

/-- The number of a chip as a word. -/
def numberWord (n : BitVec 2) : Word := n.setWidth 16

/-- `BASE = 177700 + NCPU*20` of the chip with a number (R50). -/
def blockBase (n : BitVec 2) : Word := (0xFFC0 : Word) + (numberWord n <<< 4)

/-- The address lies in the range of the peripheral block of the chip with a number (R86, R95). -/
def inBlock (n : BitVec 2) (a : Word) : Bool := a &&& 0xFFF0 == blockBase n

/-- The address lies in the range of the chip's own peripheral block (R50, R86, R95). -/
def State.ownBlock (s : State) (a : Word) : Bool := inBlock s.cfg.ncpu a

/-- The other chip whose peripheral block an address lies in (R95). -/
def State.chipAt (s : State) (a : Word) : Option Chip := s.plat.chips.find? fun c => inBlock c.cfg.ncpu a

/-- Bit 3 of the register behind nSEL1 of processor 0, at 177716 (R59); 0 where no processor 0 is present. -/
def State.pultBit (s : State) : Bool :=
  if s.cfg.ncpu = 0 then s.plat.sel1.getLsbD 3
  else match s.plat.chips.find? fun c => c.cfg.ncpu == 0 with
    | some c => c.sel1.getLsbD 3
    | none => false

/-- Whether a region with this gate is switched in. -/
def State.gateOpen (s : State) : Gate → Bool
  | .always => true
  | .pult on => s.pultBit == on
  | .mode n => s.plat.mode == n

/-- The region of the map that serves an address: the first that holds its word and is switched in. That the slave of the
even word address decides whether a word transaction at an odd address gets a reply, under `ODD_WORD_POLICY` = platform too,
where R74 and R95 leave that to the platform, is the model's choice (assumption 4). -/
def State.regionAt (s : State) (a : Word) : Option Region :=
  s.plat.map.find? fun r => decide (r.lo ≤ evenAddr a ∧ evenAddr a ≤ r.hi) && s.gateOpen r.gate

/-- The external slave at an address (R95); RAM where the map names none. -/
def State.slaveAt (s : State) (a : Word) : Slave :=
  match s.regionAt a with
  | some r => r.slave
  | none => .ram

/-- The bank of cells behind an address. -/
def State.bankAt (s : State) (a : Word) : BitVec 8 :=
  match s.regionAt a with
  | some r => r.bank
  | none => 0

/-- The address is an external RAM location. -/
def State.isRam (s : State) (a : Word) : Bool := !s.ownBlock a && (s.chipAt a).isNone && s.slaveAt a == .ram

/-! ### Bytes and words behind addresses -/

/-- The cell behind an address. -/
def State.cellOf (s : State) (a : Word) : Nat := (s.bankAt a).toNat * 65536 + a.toNat

/-- The byte of external memory at the bus address `a`. -/
def State.readByteAt (s : State) (a : Word) : Byte := Memory.read s.mem (s.cellOf a)

/-- The state with the byte `v` in external memory at `a`. -/
def State.putByte (s : State) (a : Word) (v : Byte) : State := { s with mem := Memory.write s.mem (s.cellOf a) v }

/-- The word of external memory whose low byte is at `a` (R71). -/
def State.memWord (s : State) (a : Word) : Word := mkWord (s.readByteAt a) (s.readByteAt (a + 1))

/-- The state with the word `w` in external memory, its low byte at `a` (R71, R78). -/
def State.putWord (s : State) (a w : Word) : State := (s.putByte a (loByte w)).putByte (a + 1) (hiByte w)

end Sys2Proof.Machine
end

