-- ==== Sys2Proof/Machine/Ticks.lean ====
section
/-! DEFINITION. The timer inherited from the К1801ВЕ1 (spec/61_peripheral_platform.md R390 to R399) as functions of its
own state. Bits of TVE_CSR: FL 7, D4 6, D16 5, RUN 4, OS 3, MON 2, CAP 1, SP 0 (R56). -/

namespace Sys2Proof.Machine

def Timer.d4 (t : Timer) : Bool := t.csr.getLsbD 6
def Timer.d16 (t : Timer) : Bool := t.csr.getLsbD 5
def Timer.run (t : Timer) : Bool := t.csr.getLsbD 4
def Timer.os (t : Timer) : Bool := t.csr.getLsbD 3
def Timer.mon (t : Timer) : Bool := t.csr.getLsbD 2
def Timer.cap (t : Timer) : Bool := t.csr.getLsbD 1
def Timer.spClock (t : Timer) : Bool := t.csr.getLsbD 0

/-- The timer event (R396): with MON = 1 the request is set, and FL too when the previous request was not served. -/
def Timer.event (t : Timer) : Timer :=
  if t.mon then { t with csr := if t.req then t.csr ||| 0x80 else t.csr, req := true } else t

/-- One count tick while RUN = 1 (R393). The 0 before a reload stays visible for at most 4 CLC. -/
def Timer.tick (t : Timer) : Timer :=
  if t.count = 1 then
    if t.cap then { t with count := 0 }
    else
      let t := t.event
      { t with count := t.limit, csr := if t.os then t.csr &&& 0xEF else t.csr, window := 4 }
  else { t with count := t.count - 1 }

/-- A count tick of the selected clock: it counts only while RUN = 1 (R392). -/
def Timer.countClock (t : Timer) : Timer := if t.run then t.tick else t

/-- One period of CLC/128 (R391): the divide-by-4 and divide-by-16 stages stand in series, each bypassed when its bit
is 0, and run always (R57). -/
def Timer.baseClock (t : Timer) : Timer :=
  let out4 := t.div4 == 3
  let t := { t with div4 := t.div4 + 1 }
  let in16 := if t.d4 then out4 else true
  let out16 := in16 && t.div16 == 15
  let t := if in16 then { t with div16 := t.div16 + 1 } else t
  let out := if t.d16 then out16 else in16
  if out && !t.spClock then t.countClock else t

/-- One CLC period (R391, R397). -/
def Timer.clc (t : Timer) : Timer :=
  let wrap := t.pre == 127
  let t := { t with pre := t.pre + 1, window := t.window - 1 }
  if wrap then t.baseClock else t

/-- `k` periods of CLC/128. -/
def Timer.bases : Nat → Timer → Timer
  | 0, t => t
  | k + 1, t => Timer.bases k ({ t with window := t.window - 128 } : Timer).baseClock

/-- `n` CLC periods at once: the periods up to the next base clock, the whole base periods, the rest. -/
def Timer.clocks (n : Nat) (t : Timer) : Timer :=
  let left := 128 - t.pre.toNat
  if n < left then { t with pre := t.pre + BitVec.ofNat 7 n, window := t.window - n }
  else
    let rest := (n - left) % 128
    let t := Timer.bases ((n - left) / 128) ({ t with window := t.window - left } : Timer).baseClock
    { t with pre := BitVec.ofNat 7 rest, window := t.window - rest }

/-- Capture: TVE_LIMIT takes TVE_COUNT, and this is a timer event (R394). -/
def Timer.capture (t : Timer) : Timer := ({ t with limit := t.count } : Timer).event

/-- A falling edge of nSP (R391, R394). `before` decides the open order of capture and count of one edge (U7 b);
`w` is the open value of TVE_LIMIT after an edge with CAP = 1 and RUN = 0 (U7 a). -/
def Timer.spFall (before : Bool) (w : Word) (t : Timer) : Timer :=
  if t.run then
    if t.cap && t.spClock then (if before then t.capture.tick else t.tick.capture)
    else if t.cap then t.capture
    else if t.spClock then t.tick
    else t
  else if t.cap then { t with limit := w }
  else t

/-- A bus write to TVE_CSR: the low byte is stored and TVE_LIMIT is copied to TVE_COUNT (R395). -/
def Timer.writeCsr (b : Byte) (t : Timer) : Timer := { t with csr := b, count := t.limit, window := 0 }

/-- The initial state a low nINIT puts the timer into (R399): TVE_CSR reads 177400, the rest is unchanged. -/
def Timer.init (t : Timer) : Timer := { t with csr := 0 }

end Sys2Proof.Machine
end

