-- ==== Sys2Proof/Machine/Registers.lean ====
section
/-! DEFINITION. Sequencing, and access to the registers: the register file and PSW (spec/10_state.md R20 to R39), the free
values, and the registers that no program sees (R40 to R48, spec/80_microarchitecture.md R462, R472). -/

namespace Sys2Proof.Machine

/-! ### Sequencing -/

/-- Go on with `k` unless the activity was cut short. -/
def Res.andThen {α β : Type} (r : Res α) (k : α → State → Res β) : Res β :=
  match r with
  | .ok a s => k a s
  | .abort e s => .abort e s

/-! ### Registers (R20, R21, R22) -/

/-- The contents of a register. -/
def Regs.get (g : Regs) : Reg → Word
  | .r0 => g.r0
  | .r1 => g.r1
  | .r2 => g.r2
  | .r3 => g.r3
  | .r4 => g.r4
  | .r5 => g.r5
  | .sp => g.sp
  | .pc => g.pc

/-- The register file with `v` in one register. -/
def Regs.set (g : Regs) (r : Reg) (v : Word) : Regs :=
  match r with
  | .r0 => { g with r0 := v }
  | .r1 => { g with r1 := v }
  | .r2 => { g with r2 := v }
  | .r3 => { g with r3 := v }
  | .r4 => { g with r4 := v }
  | .r5 => { g with r5 := v }
  | .sp => { g with sp := v }
  | .pc => { g with pc := v }

/-- `R[r]`, 16 bits. -/
def State.reg (s : State) (r : Reg) : Word := s.regs.get r

/-- `R[r] <- v`. -/
def State.setReg (s : State) (r : Reg) (v : Word) : State := { s with regs := s.regs.set r v }

/-- `R[r][7:0]`. -/
def State.regByte (s : State) (r : Reg) : Byte := loByte (s.reg r)

/-- `R[r][7:0] <- v`, bits 15:8 unchanged (R20). -/
def State.setRegByte (s : State) (r : Reg) (v : Byte) : State := s.setReg r (mkWord v (hiByte (s.reg r)))

/-! ### PSW (R30 to R39) -/

/-- The flags N, Z, V, C (R31 to R33). -/
structure Cc where
  n : Bool
  z : Bool
  v : Bool
  c : Bool
deriving DecidableEq, Repr

/-- A 4-bit number N Z V C, N the high bit. -/
def Cc.toBits (f : Cc) : BitVec 4 :=
  BitVec.ofBool f.n ++ (BitVec.ofBool f.z ++ (BitVec.ofBool f.v ++ BitVec.ofBool f.c))

/-- The flags as PSW holds them. -/
def State.cc (s : State) : Cc := ⟨s.psw.getLsbD 3, s.psw.getLsbD 2, s.psw.getLsbD 1, s.psw.getLsbD 0⟩

/-- `PSW[3:0] <- flags`, every other bit unchanged. -/
def State.setCc (s : State) (f : Cc) : State :=
  { s with psw := (s.psw &&& 0xFFF0) ||| (0 : BitVec 12) ++ f.toBits }

def State.flagT (s : State) : Bool := s.psw.getLsbD 4
def State.flagI (s : State) : Bool := s.psw.getLsbD 7
def State.psw10 (s : State) : Bool := s.psw.getLsbD 10
def State.psw11 (s : State) : Bool := s.psw.getLsbD 11

/-- `NCPU` as a word. -/
def State.ncpuWord (s : State) : Word := numberWord s.cfg.ncpu

/-- A full read of PSW: the stored bits, and bits 9:8 = NCPU (R30, R36). -/
def State.pswRead (s : State) : Word := (s.psw &&& 0xFCFF) ||| (s.ncpuWord <<< 8)

/-- RTI, RTT and user entries: bits 7:0 from the word, bits 15:10 cleared (R37 a, b, R39). -/
def State.loadPswLow (s : State) (w : Word) : State := { s with psw := w &&& 0x00FF }

/-- START, STEP and pult entries: bits 15:10 and 7:0 from the word, bits 9:8 read-only (R37 d, e, R39). -/
def State.loadPswWhole (s : State) (w : Word) : State := { s with psw := w &&& 0xFCFF }

/-- MTPS: bits 7:5 and 3:0 from the byte; T and bits 15:8 kept (R300, R39). -/
def State.loadPswMtps (s : State) (v : Byte) : State :=
  { s with psw := (s.psw &&& 0xFF10) ||| ((v.setWidth 16) &&& 0x00EF) }

/-! ### The line nINIT -/

/-- nINIT is low: driven from outside, or by this chip (R110, R399, R430 b). -/
def State.initLine (s : State) : Bool := s.plat.pins.initLow || s.plat.pins.initOut

/-! ### Free values (assumption 3) -/

/-- The next free word. -/
def State.freshWord (s : State) : Word := Config.freeWord s.freeCtr

/-- The next free bit. -/
def State.freshBit (s : State) : Bool := Config.freeBit s.freeCtr

/-- One free value has been used. -/
def State.useFree (s : State) : State := { s with freeCtr := s.freeCtr + 1 }

/-! ### The hidden registers -/

/-- A micro-reset or a dispatch: MA becomes 01 (R48, R464). -/
def State.atDispatch (s : State) : State := { s with micro := { s.micro with ma := 1 } }

/-- A write of MCIR by the microprogram (R40). -/
def State.setMcir (s : State) (m : BitVec 3) : State := { s with micro := { s.micro with mcir := m } }

/-- A write of VSEL by the microprogram (R41). -/
def State.setVsel (s : State) (v : BitVec 4) : State := { s with micro := { s.micro with vsel := v } }

/-- A write of A, with which the type of the transaction is latched (R467, R472). -/
def State.latch (s : State) (op : BusOp) (a : Word) : State :=
  { s with micro := { s.micro with a := a, ops := op :: s.micro.ops.take 1 } }

/-- The type of a transaction that has no address: the acknowledge read (R99, R470). -/
def State.latchOp (s : State) (op : BusOp) : State :=
  { s with micro := { s.micro with ops := op :: s.micro.ops.take 1 } }

/-- A write of Q (R472). -/
def State.setQ (s : State) (q : Word) : State := { s with micro := { s.micro with q := q } }

end Sys2Proof.Machine
end

