-- ==== Sys2Proof/Machine/Lines.lean ====
section
/-! DEFINITION. The input lines with their edge detectors, and what a part of the platform can do (spec/20_memory.md R95,
spec/60_exceptions.md R346, spec/61_peripheral_platform.md R391, R394, R399, spec/70_reset_and_hazards.md R430). -/

namespace Sys2Proof.Machine

/-- The level of nACLO and its two edge latches (R45, R346). -/
def State.setAclo (s : State) (high : Bool) : State :=
  let old := s.plat.pins.acloHigh
  { s with ints := { s.ints with acin := s.ints.acin || (!old && high), aclo := s.ints.aclo || (old && !high) }
           plat := { s.plat with pins := { s.plat.pins with acloHigh := high } } }

/-- The level of nIRQ2 and its falling-edge latch, which a low nINIT holds reset (R45, R346, R430). -/
def State.setIrq2 (s : State) (low : Bool) : State :=
  let old := s.plat.pins.irq2Low
  { s with ints := { s.ints with irq2 := s.ints.irq2 || (!old && low && !s.initLine) }
           plat := { s.plat with pins := { s.plat.pins with irq2Low := low } } }

/-- The level of nIRQ3 and its falling-edge latch, which a low nINIT holds reset (R45, R346, R430). -/
def State.setIrq3 (s : State) (low : Bool) : State :=
  let old := s.plat.pins.irq3Low
  { s with ints := { s.ints with irq3 := s.ints.irq3 || (!old && low && !s.initLine) }
           plat := { s.plat with pins := { s.plat.pins with irq3Low := low } } }

/-- The level of nIRQ1, which requests as a level (R346). -/
def State.setIrq1 (s : State) (low : Bool) : State :=
  { s with plat := { s.plat with pins := { s.plat.pins with irq1Low := low } } }

/-- The level of nVIRQ, which requests as a level (R346). -/
def State.setVirq (s : State) (low : Bool) : State :=
  { s with plat := { s.plat with pins := { s.plat.pins with virqLow := low } } }

/-- The level of nSP; a falling edge acts on the timer (R391, R394). What R394 leaves open (U7) is a free value. -/
def State.setSp (s : State) (low : Bool) : State :=
  let fell := !s.plat.pins.spLow && low
  let s1 := { s with plat := { s.plat with pins := { s.plat.pins with spLow := low } } }
  if fell then { s1 with timer := s.timer.spFall s.freshBit s.freshWord }.useFree else s1

/-- What a low level on the line nINIT resets (R216, R399, R430 b): the control register of the timer, here and in every
other chip on the line, and the nIRQ2 and nIRQ3 latches. -/
def State.peripheralReset (s : State) : State :=
  { s with timer := s.timer.init
           ints := { s.ints with irq2 := false, irq3 := false }
           plat := { s.plat with chips := s.plat.chips.map fun c => { c with timer := c.timer.init } } }

/-- The level of nINIT as driven from outside (R430 b). -/
def State.setInit (s : State) (low : Bool) : State :=
  let s1 := if low then s.peripheralReset else s
  { s1 with plat := { s1.plat with pins := { s1.plat.pins with initLow := low } } }

/-- One action of a part of the platform. -/
def State.react (s : State) : Reaction → State
  | .aclo high => s.setAclo high
  | .irq1 low => s.setIrq1 low
  | .irq2 low => s.setIrq2 low
  | .irq3 low => s.setIrq3 low
  | .virq low => s.setVirq low
  | .sp low => s.setSp low
  | .init low => s.setInit low
  | .iack r => { s with plat := { s.plat with iack := s.plat.iack ++ [r] } }
  | .selSet first w =>
    if first then { s with plat := { s.plat with sel1 := w } } else { s with plat := { s.plat with sel2 := w } }
  | .mode n => { s with plat := { s.plat with mode := n } }

/-- The actions of a list, in order. -/
def State.reacts (s : State) : List Reaction → State
  | [] => s
  | r :: rest => (s.react r).reacts rest

end Sys2Proof.Machine
end

