-- ==== Sys2Proof/Machine/Bus.lean ====
section
/-! DEFINITION. What one transaction on the bus does, whoever the master is: the registers of a peripheral block
(spec/10_state.md R51 to R58, spec/61_peripheral_platform.md R400), the external slaves (spec/20_memory.md R74 to R79) and
the decoding of an address (R95). -/

namespace Sys2Proof.Machine

/-! ### The registers of a peripheral block (R51 to R58, R400) -/

/-- The eight words of a peripheral block (R50). -/
inductive PReg where
  | mode
  | ivec
  | error
  | limit
  | count
  | csr
  | sel2
  | sel1
deriving DecidableEq, Repr

/-- The register at an address of the block: its offset is address bits 3:1 (R50, R400). -/
def pregOf (a : Word) : PReg :=
  match (a.extractLsb' 1 3).toNat with
  | 0 => .mode
  | 1 => .ivec
  | 2 => .error
  | 3 => .limit
  | 4 => .count
  | 5 => .csr
  | 6 => .sel2
  | _ => .sel1

/-- CPU_MODE as read: 177740 + NCPU*10 + WT*4 + ST*2 + HLT (R51, R400). -/
def State.modeWord (s : State) : Word :=
  (0xFFE0 : Word) ||| (s.ncpuWord <<< 3) |||
    ((0 : BitVec 13) ++ (BitVec.ofBool s.per.wcpu ++ (BitVec.ofBool s.per.st ++ BitVec.ofBool s.per.hlt)))

/-- CPU_ERROR as read: bits 15:8 and bit 5 read 1 (R53, R400). -/
def State.errorWord (s : State) : Word := (0xFF20 : Word) ||| s.per.errFlags.setWidth 16

/-- TVE_CSR as read: bits 15:8 read 1 (R56). -/
def State.csrWord (s : State) : Word := (0xFF00 : Word) ||| s.timer.csr.setWidth 16

/-- The word a register of the block shows, where the spec leaves nothing open. -/
def State.pregWord (s : State) : PReg → Word
  | .mode => s.modeWord
  | .ivec => 0xFFFF
  | .error => s.errorWord
  | .limit => s.timer.limit
  | .count => s.timer.count
  | .csr => s.csrWord
  | .sel2 => s.plat.sel2
  | .sel1 => s.plat.sel1

/-- A read gives a value the spec leaves open: a timer register of a dead timer (U6), an undriven select (U8). -/
def State.pregFree (s : State) : PReg → Bool
  | .limit => !s.cfg.timerAlive
  | .count => !s.cfg.timerAlive
  | .csr => !s.cfg.timerAlive
  | .sel2 => s.cfg.sel2Kind == .undriven
  | .sel1 => s.cfg.sel1Kind == .undriven
  | _ => false

/-- A bus read of a register of the block (R400). CPU_IVEC gives no reply while IVEC_REQ = 1 (R52). TVE_COUNT may
show the 0 before a reload for 4 CLC (R393, D26, U17). -/
def readPreg (p : PReg) (s : State) : Res Word :=
  if p = .ivec ∧ s.per.ivecReq = true then .abort (.timeout .data) s
  else if s.pregFree p then .ok s.freshWord s.useFree
  else if p = .count ∧ 0 < s.timer.window then .ok (if s.freshBit then 0 else s.timer.count) s.useFree
  else .ok (s.pregWord p) s

/-- What a bus write of the word `w` does to a register of the block that answers (R400): CPU_MODE R51, CPU_IVEC R52,
CPU_ERROR R401 and D25, the timer R395 (a dead timer's writes have no defined effect, U6; while nINIT is low its control bits
are held 0, R399), the selects R58. -/
def State.putPreg (s : State) (p : PReg) (w : Word) : State :=
  match p with
  | .mode => { s with per := { s.per with wcpu := w.getLsbD 2, st := w.getLsbD 1, hlt := w.getLsbD 0 } }
  | .ivec => { s with per := { s.per with ivecReq := true } }
  | .error => { s with per := { s.per with errFlags := loByte w &&& 0xDF } }
  | .limit => if s.cfg.timerAlive then { s with timer := { s.timer with limit := w } } else s
  | .count => s
  | .csr =>
    if s.cfg.timerAlive then { s with timer := s.timer.writeCsr (if s.initLine then 0 else loByte w) } else s
  | .sel2 => { s with plat := { s.plat with sel2 := w } }
  | .sel1 => { s with plat := { s.plat with sel1 := w } }

/-- A bus write of a word to a register of the block. -/
def writePreg (p : PReg) (w : Word) (s : State) : Res Unit :=
  if p = .ivec ∧ s.per.ivecReq = true then .abort (.timeout .data) s else .ok () (s.putPreg p w)

/-- A word with the byte `v` in the half that address bit 0 selects (R71, R72). -/
def mergeByte (odd : Bool) (v : Byte) (w : Word) : Word :=
  if odd then mkWord (loByte w) v else mkWord v (hiByte w)

/-- The byte of a word that address bit 0 selects (R71, R77). -/
def laneByte (odd : Bool) (w : Word) : Byte := if odd then hiByte w else loByte w

/-- A bus write of a byte to a register of the block: the addressed half changes, the other half stays, and TVE_CSR
copies TVE_LIMIT for either half (R400, D24). -/
def writePregByte (p : PReg) (odd : Bool) (v : Byte) (s : State) : Res Unit :=
  writePreg p (mergeByte odd v (s.pregWord p)) s

/-! ### External slaves (R74 to R79, R95) -/

/-- A slave asserts nRPLY and does not release it: the processor and the bus hang until a hardware reset, and nothing waits
or is to be repeated any more (R81, R449, U9). -/
def State.hang (s : State) : State := { s with seq := { s.seq with hung := true, waiting := false, retry := false } }

/-- A word write at an odd address that the slave decides (R74): the words at `a - 1` and `a + 1`, as far as they are
RAM, hold free values afterwards (assumption 12). -/
def State.scramble (s : State) (a : Word) : State :=
  let s1 := (s.putWord (evenAddr a) s.freshWord).useFree
  if s1.isRam (a + 1) then (s1.putWord (a + 1) s1.freshWord).useFree else s1

/-- A word read of an external slave. At an odd address the slave of the even word address replies or not, and under
`platform` what it replies is free: RAM and ROM never time out there, which is the model's choice (R74, R95; assumption 4). -/
def extReadWord (a : Word) (s : State) : Res Word :=
  match s.slaveAt a with
  | .absent => .abort (.timeout .data) s
  | .hang => .abort (.hang true) s.hang
  | .device onRead _ =>
    if isOdd a = true ∧ s.cfg.oddWord = .refuse then .abort (.refused .oddWordAccess) s
    else .ok s.freshWord (s.useFree.reacts onRead)
  | _ =>
    if isOdd a = true ∧ s.cfg.oddWord = .refuse then .abort (.refused .oddWordAccess) s
    else if isOdd a = true ∧ s.cfg.oddWord = .platform then .ok s.freshWord s.useFree
    else .ok (s.memWord (evenAddr a)) s

/-- A word write to an external slave. At an odd address the slave of the even word address replies or not, and under
`platform` RAM stores free words (`State.scramble`): that it never times out there is the model's choice (R74, R95;
assumption 4). -/
def extWriteWord (a w : Word) (s : State) : Res Unit :=
  match s.slaveAt a with
  | .absent => .abort (.timeout .data) s
  | .rom false => .abort (.timeout .data) s
  | .hang => .abort (.hang true) s.hang
  | .device _ onWrite =>
    if isOdd a = true ∧ s.cfg.oddWord = .refuse then .abort (.refused .oddWordAccess) s
    else .ok () (s.reacts onWrite)
  | .rom true =>
    if isOdd a = true ∧ s.cfg.oddWord = .refuse then .abort (.refused .oddWordAccess) s else .ok () s
  | .ram =>
    if isOdd a = true ∧ s.cfg.oddWord = .refuse then .abort (.refused .oddWordAccess) s
    else if isOdd a = true ∧ s.cfg.oddWord = .platform then .ok () (s.scramble a)
    else .ok () (s.putWord (evenAddr a) w)

/-- A byte write to an external slave: the other byte of the word is unchanged (R78). -/
def extWriteByte (a : Word) (v : Byte) (s : State) : Res Unit :=
  match s.slaveAt a with
  | .absent => .abort (.timeout .data) s
  | .rom false => .abort (.timeout .data) s
  | .hang => .abort (.hang true) s.hang
  | .device _ onWrite => .ok () (s.reacts onWrite)
  | .rom true => .ok () s
  | .ram => .ok () (s.putByte a v)

/-! ### Decoding (R95) -/

/-- The machine as the peripheral block of another chip sees it: its parameters, registers, timer and select registers
in place of the own ones. -/
def State.asChip (s : State) (c : Chip) : State :=
  { s with cfg := c.cfg, per := c.per, timer := c.timer, plat := { s.plat with sel1 := c.sel1, sel2 := c.sel2 } }

/-- What an access through `State.asChip` leaves in the block of the chip `c`. -/
def State.putChip (s : State) (c : Chip) (t : State) : State :=
  { s with
    plat := { s.plat with
      chips := s.plat.chips.map fun d =>
        if d = c then { c with per := t.per, timer := t.timer, sel1 := t.plat.sel1, sel2 := t.plat.sel2 } else d }
    freeCtr := t.freeCtr }

/-- An access to the peripheral block of another chip. -/
def chipAccess {α : Type} (c : Chip) (k : State → Res α) (s : State) : Res α :=
  match k (s.asChip c) with
  | .ok v t => .ok v (s.putChip c t)
  | .abort e _ => .abort e s

/-- The decoding of R95: the own block, the block of a chip that is present, else an external slave. -/
def decoded {α : Type} (a : Word) (block ext : State → Res α) (s : State) : Res α :=
  if s.ownBlock a then block s
  else
    match s.chipAt a with
    | some c => chipAccess c block s
    | none => ext s

/-- A word read by any master. The registers of a block ignore address bit 0 (R400). -/
def busReadWord (a : Word) (s : State) : Res Word := decoded a (readPreg (pregOf a)) (extReadWord a) s

/-- The word that a byte read transfers: the slave supplies the whole word of the addressed byte (R77). That an external
slave ignores address bit 0 on it, under every policy for word transactions, is the model's choice (assumption 26). -/
def busReadLanes (a : Word) (s : State) : Res Word := busReadWord (evenAddr a) s

/-- A word write by any master. -/
def busWriteWord (a w : Word) (s : State) : Res Unit := decoded a (writePreg (pregOf a) w) (extWriteWord a w) s

/-- A byte write by any master. -/
def busWriteByte (a : Word) (v : Byte) (s : State) : Res Unit :=
  decoded a (writePregByte (pregOf a) (isOdd a) v) (extWriteByte a v) s

end Sys2Proof.Machine
end

