-- ==== Sys2Proof/Machine/Inputs.lean ====
section
/-! DEFINITION. What the environment does (spec/00_scope.md R12, spec/20_memory.md R80, R95, spec/21_bus_mpi.md R134,
spec/61_peripheral_platform.md R397, spec/70_reset_and_hazards.md R430, R431): time passes, input levels change, other
masters use the bus. -/

namespace Sys2Proof.Machine

/-- `n` CLC periods pass, for the timer of every chip (R397). -/
def State.advance (s : State) (n : Nat) : State :=
  { s with timer := Timer.clocks n s.timer
           plat := { s.plat with chips := s.plat.chips.map fun c => { c with timer := Timer.clocks n c.timer } } }

/-- The chip drives nINIT low (R216, R430 a, D27): the platform is told, and the line resets the other chips'
timers. -/
def State.pulseInit (s : State) : State :=
  { s with plat := { s.plat with
      chips := s.plat.chips.map fun c => { c with timer := c.timer.init }
      initPulses := s.plat.initPulses + 1 } }

/-- Arbitrary registers (R60, R433, D8, U1). -/
def State.freeRegs (s : State) : Regs :=
  { r0 := Config.freeWord s.freeCtr, r1 := Config.freeWord (s.freeCtr + 1), r2 := Config.freeWord (s.freeCtr + 2),
    r3 := Config.freeWord (s.freeCtr + 3), r4 := Config.freeWord (s.freeCtr + 4), r5 := Config.freeWord (s.freeCtr + 5),
    sp := Config.freeWord (s.freeCtr + 6), pc := Config.freeWord (s.freeCtr + 7) }

/-- The hidden registers after the hardware reset: MA is 00 (R48, R60), MCIR, VSEL, REARM, A and Q are arbitrary (D8, U1). That
the buffer of latched transaction types (R472) is empty is the model's choice (assumption 15). -/
def State.freeMicro (s : State) : Micro :=
  { ma := 0, mcir := (Config.freeWord (s.freeCtr + 9)).setWidth 3, vsel := (Config.freeWord (s.freeCtr + 10)).setWidth 4,
    rearm := (Config.freeWord (s.freeCtr + 11)).setWidth 3, a := Config.freeWord (s.freeCtr + 12),
    q := Config.freeWord (s.freeCtr + 13), ops := [] }

/-- The hardware reset by nDCLO (R60, R430 a, R433): registers, IR and the hidden registers arbitrary as `State.freeMicro` says,
the shadow of IR empty (the model's choice, assumption 15), PSW 0, the interrupt block, CPU_MODE, CPU_ERROR, IVEC_REQ and the
timer's control reset, nINIT driven low; TVE_LIMIT, TVE_COUNT and the prescalers unchanged. -/
def State.hardwareReset (s : State) : State :=
  { s.pulseInit with
    regs := s.freeRegs
    psw := 0
    seq := { ir := Config.freeWord (s.freeCtr + 8), shadow := none, irLoaded := true, pollEnabled := true,
             frcStale := false, waiting := false, retry := false, hung := false }
    micro := s.freeMicro
    ints := Interrupts.clear
    per := Peripheral.clear
    timer := { s.timer.init with req := false }
    freeCtr := s.freeCtr + 14 }

/-- The level of nDCLO: its fall is the hardware reset, and the chip drives nINIT low while it lasts (R430 a, R431). -/
def State.setDclo (s : State) (low : Bool) : State :=
  let s1 := if low && !s.plat.pins.dcloLow then s.hardwareReset else s
  { s1 with plat := { s1.plat with pins := { s1.plat.pins with dcloLow := low, initOut := low } } }

/-- What a low nDCLO holds reset: the interrupt block, the registers of the peripheral block, the timer's control
(R430 a, R431). -/
def State.holdReset (s : State) : State :=
  if s.plat.pins.dcloLow then
    { s with ints := Interrupts.clear, per := Peripheral.clear, timer := { s.timer.init with req := false } }
  else s

/-- A transaction of another master. On a bus that hangs there is none; one that gets no reply ends there and changes
nothing here. -/
def foreign {α : Type} (k : State → Res α) (s : State) : Res Unit :=
  if s.seq.hung then .ok () s
  else
    match k s with
    | .ok _ t => .ok () t
    | .abort (.refused r) t => .abort (.refused r) t
    | .abort _ t => .ok () t

/-- The peripheral block of another chip changes as that chip's processor makes it (R98); a low nINIT holds the control of
its timer reset (R399). -/
def State.setChip (s : State) (c : Chip) : State :=
  let c := if s.initLine then { c with timer := c.timer.init } else c
  { s with plat := { s.plat with chips := s.plat.chips.map fun d => if d.cfg.ncpu = c.cfg.ncpu then c else d } }

/-- One action of the environment, but for what a low nDCLO holds. -/
def eventEffect (e : Event) (s : State) : Res Unit :=
  match e with
  | .act r => .ok () (s.react r)
  | .dclo low => .ok () (s.setDclo low)
  | .clocks n => .ok () (s.advance n)
  | .busRead a => foreign (busReadWord a) s
  | .busWrite a w => foreign (busWriteWord a w) s
  | .busWriteByte a b => foreign (busWriteByte a b) s
  | .chip c => .ok () (s.setChip c)
  | .remap map => .ok () { s with plat := { s.plat with map := map } }

/-- One action of the environment. -/
def applyEvent (e : Event) (s : State) : Res Unit :=
  (eventEffect e s).andThen fun _ s => .ok () s.holdReset

/-- The actions of one list, in order. -/
def applyEvents : List Event → State → Res Unit
  | [], s => .ok () s
  | e :: rest, s => (applyEvent e s).andThen fun _ s => applyEvents rest s

/-- The environment acts: the next list of its actions is taken. -/
def takeInputs (s : State) : Res Unit :=
  match s.inputs with
  | [] => .ok () s
  | now :: later => applyEvents now { s with inputs := later }

/-- The next actions of the environment contain a hardware reset. -/
def State.resetComes (s : State) : Bool := (s.inputs.headD []).any fun e => e == .dclo true

end Sys2Proof.Machine
end

