-- ==== Sys2Proof/Machine/Ops.lean ====
section
/-! DEFINITION. The named operations of the processor block: its bus transactions (spec/20_memory.md R76 to R81), the
interrupt block's poll (spec/60_exceptions.md R348), the two entry sequences (R360, R365), the errors (R341, R342, R372) and
the returns (R213, R217, R219). -/

namespace Sys2Proof.Machine

/-! ### The transactions of the processor block (R15, R76 to R81, R134) -/

/-- A bus tenure begins: the environment has acted before it, time has passed and other masters have used the bus (R80, R90,
R134, R397). After a hardware reset, or on a bus that hangs, there is no transaction and the activity ends (R382, R449). -/
def tenure (s : State) : Res Unit :=
  (takeInputs s).andThen fun _ t =>
    if s.resetComes then .abort .reset t else if t.seq.hung then .abort (.hang false) t else .ok () t

/-- A transaction of the kind `op` at the address `a`: A is written, the bus is requested and granted, then `k` (R134, R472). -/
def transact {α : Type} (op : BusOp) (a : Word) (k : State → Res α) (s : State) : Res α :=
  (tenure (s.latch op a)).andThen fun _ s => k s

/-- The data of a read are in Q (R472). -/
def readToQ (r : Res Word) : Res Word := r.andThen fun w s => .ok w (s.setQ w)

/-- `MemRead(a, 2)` (R76). -/
def readWord (a : Word) (s : State) : Res Word := transact .readWord a (fun s => readToQ (busReadWord a s)) s

/-- The byte of a word that address bit 0 selects (R71, R77). -/
def laneOf (a : Word) (w : Word) : Byte := laneByte (isOdd a) w

/-- `MemRead(a, 1)` (R77): a whole word is read, the other byte is ignored. -/
def readByte (a : Word) (s : State) : Res Byte :=
  transact .readByte a (fun s => (readToQ (busReadLanes a s)).andThen fun w s => .ok (laneOf a w) s) s

/-- `MemWrite(a, 2, w)` (R78). Q is written without waiting for the bus (R472). -/
def writeWord (a w : Word) (s : State) : Res Unit := transact .writeWord a (busWriteWord a w) (s.setQ w)

/-- A byte in the data register (assumption 23). -/
def byteInQ (v : Byte) : Word := v.setWidth 16

/-- `MemWrite(a, 1, v)` (R78). -/
def writeByte (a : Word) (v : Byte) (s : State) : Res Unit :=
  transact .writeByte a (busWriteByte a v) (s.setQ (byteInQ v))

/-- `MemRMW(a, 2, f)`: one tenure, the read phase, then the write phase, with nothing between (R79, R122). `f` gives the
word to write and what the instruction takes from the old value besides. Where a device's reaction to the read phase switches
the map, the write phase goes to what the switched map names: the model's choice (assumption 27). -/
def rmwWord {α : Type} (a : Word) (f : Word → Word × α) (s : State) : Res α :=
  transact .rmwWord a (fun s =>
    (readToQ (busReadWord a s)).andThen fun o s =>
    (busWriteWord a (f o).1 (s.setQ (f o).1)).andThen fun _ s => .ok (f o).2 s) s

/-- `MemRMW(a, 1, f)` (R79). A map that the read phase switches: assumption 27. -/
def rmwByte {α : Type} (a : Word) (f : Byte → Byte × α) (s : State) : Res α :=
  transact .rmwByte a (fun s =>
    (readToQ (busReadLanes a s)).andThen fun w s =>
    (busWriteByte a (f (laneOf a w)).1 (s.setQ (byteInQ (f (laneOf a w)).1))).andThen fun _ s =>
    .ok (f (laneOf a w)).2 s) s

/-- The micro-addresses at which a fetch, an entry or a return waits for a transaction (01: R27; 6B in MARK: the listing of
R233; the others: R473). -/
def waitPoints : List (BitVec 7) :=
  [0x01, 0x0B, 0x14, 0x1D, 0x1E, 0x1F, 0x21, 0x2A, 0x2C, 0x2E, 0x38, 0x3C, 0x40, 0x6A, 0x6B]

/-- The automaton stands at the micro-address `ma`, where it waits (R463). -/
def State.waitAt (s : State) (ma : BitVec 7) : State := { s with micro := { s.micro with ma := ma } }

/-- A transaction whose end the automaton awaits at the micro-address `ma`: a bus that hangs holds it there (R81, R463, R473). An
operand access, for which R473 prints no waiting row, leaves MA at 01, which is the model's choice (assumption 23). -/
def waitsAt {α : Type} (ma : BitVec 7) (r : Res α) : Res α :=
  match r with
  | .abort (.hang g) s => .abort (.hang g) (s.waitAt ma)
  | r => r

/-- A read of an extension word at PC; PC is advanced when the read starts (R24, R182, R361). -/
def fetchExt (s : State) : Res Word := readWord (s.reg .pc) (s.setReg .pc (s.reg .pc + 2))

/-- A read of the word at `a` whose data are discarded (R443, D16). -/
def discardedAt (a : Word) (s : State) : Res Unit := (readWord a s).andThen fun _ s => .ok () s

/-- The read of the word at PC whose data are discarded, PC unchanged (R191, R443, D16; assumption 11). -/
def discardedRead (s : State) : Res Unit := discardedAt (s.reg .pc) s

/-- A prefetched word in the shadow register of IR (R28). -/
def State.keepWord (s : State) (w : Word) : State := { s with seq := { s.seq with shadow := some w } }

/-- The prefetch of the next instruction word by an instruction whose operands are all in registers (R28, R280, R310): the
word at PC is read before the instruction writes its result, and the next fetch takes it. The micro-step that starts the read
advances PC (R190, R473), so PC is advanced where the read does not end: in a timeout (R361; assumption 10) and in a hang. -/
def prefetchNext (s : State) : Res Unit :=
  match readWord (s.reg .pc) s with
  | .ok w t => .ok () (t.keepWord w)
  | .abort .reset t => .abort .reset t
  | .abort e t => .abort e (t.setReg .pc (t.reg .pc + 2))

/-! ### The interrupt block (R340 to R353) -/

/-- VSEL, by the use R347 gives each index; `ext` is the answer for nVIRQ (C6). -/
inductive Vsel where
  | doubleError
  | iot
  | illegal
  | tBit
  | timeout
  | start
  | emt
  | iackTimeout
  | irq3OrTimer
  | powerFail
  | irq2
  | halt
  | trap
  | ext
deriving DecidableEq, Repr

/-- The number of each use in the table of R347; 15 octal stands for the external vector (C6, assumption 23). -/
def Vsel.index : Vsel → BitVec 4
  | .doubleError => 0o0
  | .iot => 0o1
  | .illegal => 0o2
  | .tBit => 0o3
  | .timeout => 0o4
  | .start => 0o5
  | .emt => 0o6
  | .iackTimeout => 0o7
  | .irq3OrTimer => 0o10
  | .powerFail => 0o11
  | .irq2 => 0o12
  | .halt => 0o13
  | .trap => 0o14
  | .ext => 0o15

/-- The vector table of R347. -/
def vectorAddr (ncpu : BitVec 2) : Vsel → Word
  | .doubleError => 0o160006
  | .iot => 0o000020
  | .illegal => 0o000010
  | .tBit => 0o000014
  | .timeout => 0o000004
  | .start => 0o177716 + (numberWord ncpu <<< 4)
  | .emt => 0o000030
  | .iackTimeout => 0o160012
  | .irq3OrTimer => 0o000270
  | .powerFail => 0o000024
  | .irq2 => 0o000100
  | .halt => 0o160002
  | .trap => 0o000034
  | .ext => 0

/-- The answer of the interrupt block to a poll: MCIR, VSEL, REARM (R40 to R42). -/
structure Answer where
  mcir : BitVec 3
  vsel : Vsel
  rearm : BitVec 3
deriving DecidableEq, Repr

/-- The unmasked timer request: ВМ1Г only, MON = 1 (R348, R351). -/
def State.tveRequest (s : State) : Bool := s.cfg.variant == .vm1g && s.timer.req && s.timer.mon

/-- The priority matrix (R348): first match wins. -/
def matrix (s : State) : Answer :=
  if s.ints.acok = false then
    (if s.ints.acin then ⟨0b111, .start, 0b100⟩ else ⟨0b000, .powerFail, 0b111⟩)
  else if s.ints.iato then ⟨0b011, .iackTimeout, 0b000⟩
  else if s.ints.dble then ⟨0b011, .doubleError, 0b000⟩
  else if s.ints.qbto then
    (if s.psw11 then ⟨if s.cfg.variant = .vm1g then 0b011 else 0b010, .halt, 0b000⟩
     else if s.psw10 then ⟨0b011, .halt, 0b000⟩
     else ⟨0b101, .timeout, 0b000⟩)
  else if s.ints.uerr then ⟨0b101, .illegal, 0b000⟩
  else if s.flagT = true ∧ s.per.wcpu = false then ⟨0b100, .tBit, 0b010⟩
  else if s.ints.aclo = true ∧ s.psw10 = false then ⟨0b100, .powerFail, 0b100⟩
  else if s.plat.pins.irq1Low = true ∧ s.psw10 = false ∧ s.psw11 = false then ⟨0b010, .halt, 0b111⟩
  else if s.tveRequest = true ∧ s.psw10 = false ∧ s.flagI = false then ⟨0b100, .irq3OrTimer, 0b101⟩
  else if s.ints.irq2 = true ∧ s.psw10 = false ∧ s.flagI = false then ⟨0b100, .irq2, 0b011⟩
  else if s.ints.irq3 = true ∧ s.psw10 = false ∧ s.flagI = false then ⟨0b100, .irq3OrTimer, 0b001⟩
  else if s.cfg.ncpu = 0 ∧ s.plat.pins.virqLow = true ∧ s.psw10 = false ∧ s.flagI = false then ⟨0b100, .ext, 0b010⟩
  else if s.per.wcpu then ⟨0b000, .halt, 0b111⟩
  else ⟨0b001, .halt, 0b111⟩

/-- Clear the latch that REARM names (R42, R346). -/
def State.rearm (s : State) (r : BitVec 3) : State :=
  match r.toNat with
  | 0 => { s with ints := { s.ints with uerr := false, qbto := false, iato := false } }
  | 1 => { s with ints := { s.ints with irq3 := false } }
  | 3 => { s with ints := { s.ints with irq2 := false } }
  | 4 => { s with ints := { s.ints with acin := false, aclo := false } }
  | 5 => if s.cfg.variant = .vm1g then { s with timer := { s.timer with req := false } } else s
  | _ => s

/-- MCIR, VSEL and REARM as a poll leaves them (R40 to R42). -/
def State.answered (s : State) (a : Answer) : State :=
  { s with micro := { s.micro with mcir := a.mcir, vsel := a.vsel.index, rearm := a.rearm } }

/-- `InterruptBlock.poll()` (R348): the matrix's answer, and the state with the latch it names cleared and ACOK set
once the rising edge of nACLO was seen (R43). -/
def poll (s : State) : Answer × State :=
  let a := matrix s
  let s1 := (s.rearm a.rearm).answered a
  (a, { s1 with ints := { s1.ints with acok := s.ints.acok || s.ints.acin } })

/-! ### The entry sequences (R360, R362, R365) -/

/-- The answer to the acknowledge read (R99): no device left to answer is a timeout of kind `iack` (R343). A device that
never releases nRPLY hangs the bus (R81, R117, U9); it keeps its request on nVIRQ, which it could remove only after the
release (R117). -/
def takeAck (s : State) : Res Word :=
  match s.plat.iack with
  | [] => .abort (.timeout .iack) s
  | r :: rest =>
    if r.holds then .abort (.hang true) ({ s with plat := { s.plat with iack := rest } } : State).hang
    else
      .ok r.vector { s with plat := { s.plat with iack := rest
                                                  pins := { s.plat.pins with
                                                    virqLow := s.plat.pins.virqLow && !r.release } } }

/-- The acknowledge read (R99, R362), a bus tenure without an address. -/
def ackRead (s : State) : Res Word := (tenure (s.latchOp .ackRead)).andThen fun _ s => readToQ (takeAck s)

/-- Micro-address 1E, the vector being the table's: its address goes into A and Q, and no transaction is started yet (R347,
R360, R365, R473). -/
def State.showVector (s : State) (v : Vsel) : State :=
  { s with micro := { s.micro with a := vectorAddr s.cfg.ncpu v, q := vectorAddr s.cfg.ncpu v } }

/-- The vector of the table (R347), which micro-address 1E leaves in A and Q (R473). -/
def tableVector (v : Vsel) (s : State) : Res Word := .ok (vectorAddr s.cfg.ncpu v) (s.showVector v)

/-- The vector address a user entry uses (R347, R362). -/
def vectorOf (v : Vsel) (s : State) : Res Word := if v = .ext then waitsAt 0x0B (ackRead s) else tableVector v s

/-- The end of every entry: MCIR is 010 and WCPU reset (R360, R365, R473), FR reloaded (R440), no prefetched word is left. -/
def State.entered (s : State) : State :=
  { s.setMcir 0b010 with
    per := { s.per with wcpu := false }
    seq := { s.seq with frcStale := false, waiting := false, shadow := none } }

/-- `PC <- PC - 2` where the entry corrects it (R40, R360). -/
def State.correctPc (s : State) (correct : Bool) : State :=
  if correct then s.setReg .pc (s.reg .pc - 2) else s

/-- The push of a word on the stack: SP is decremented when the write starts (R360, R232). -/
def push (w : State → Word) (s : State) : Res Unit :=
  let s := s.setReg .sp (s.reg .sp - 2)
  writeWord (s.reg .sp) (w s) s

/-- A pop: SP is incremented when the read starts (R213, R231). -/
def pop (s : State) : Res Word := readWord (s.reg .sp) (s.setReg .sp (s.reg .sp + 2))

/-- The write `r` of the saved PC, as the rest of the entry awaits it (R360, R365, R473). For a vector that a device supplies
1E waits for its end. For a vector of the table 1E does not wait: it writes A and Q as soon as A is free, which it is once the
bus was granted (R472), and 0B waits, so that a hang or a timeout of a granted write finds the vector in A and Q. -/
def savesPc (v : Vsel) (r : Res Unit) : Res Unit :=
  if v = .ext then waitsAt 0x1E r
  else
    match r with
    | .abort (.hang false) s => .abort (.hang false) (s.waitAt 0x1E)
    | .abort (.hang true) s => .abort (.hang true) ((s.showVector v).waitAt 0x0B)
    | .abort (.timeout k) s => .abort (.timeout k) (s.showVector v)
    | r => r

/-- The two vector words: PC from the first, then the PSW word (R84, R360). -/
def loadVector (whole : Bool) (va : Word) (s : State) : Res Unit :=
  (waitsAt 0x3C (readWord va s)).andThen fun w s =>
  (waitsAt 0x1F (readWord (va + 2) (s.setReg .pc w))).andThen fun w s =>
  .ok () (if whole then s.loadPswWhole w else s.loadPswLow w).entered

/-- `UserEntry(v, correct)` (R360, R473): taking an exception or interrupt in user fashion. -/
def userEntry (v : Vsel) (correct : Bool) (s : State) : Res Unit :=
  (waitsAt 0x14 (push State.pswRead s)).andThen fun _ s =>
  (savesPc v (push (fun s => s.reg .pc) (s.correctPc correct))).andThen fun _ s =>
  (vectorOf v s).andThen fun va s =>
  loadVector false va s

/-- Set or clear bit 3 of the word at 177716, the external pult bit (R59, R219, R365). -/
def setPultBit (on : Bool) (s : State) : Res Unit :=
  rmwWord 0o177716 (fun o => (if on then o ||| 0o000010 else o &&& 0o177767, ())) s

/-- `PultEntry(v, correct)` (R365, R473): taking an exception in pult fashion. -/
def pultEntry (v : Vsel) (correct : Bool) (s : State) : Res Unit :=
  (waitsAt 0x1D (setPultBit true s)).andThen fun _ s =>
  (waitsAt 0x14 (writeWord 0o177676 s.pswRead s)).andThen fun _ s =>
  let s := s.correctPc correct
  (savesPc v (writeWord 0o177674 (s.reg .pc) s)).andThen fun _ s =>
  (tableVector v s).andThen fun va s =>
  loadVector true va s

/-- `InitialStart()` (R432): the start register gives the high byte of PC, PSW becomes 000340. -/
def initialStart (s : State) : Res Unit :=
  (waitsAt 0x21 (readWord (vectorAddr s.cfg.ncpu .start) s)).andThen fun q s =>
  let s := s.setReg .pc (q &&& 0o177400)
  .ok () { s with
    psw := 0o000340
    seq := { s.seq with irLoaded := false, pollEnabled := true, frcStale := false, waiting := false, shadow := none } }

/-- Start what a poll's answer names (R27): MCIR 01x pult entry, 10x user entry, 11x initial start; for 000 and 001
nothing is entered and IR stays to be dispatched. -/
def enter (a : Answer) (s : State) : Res Unit :=
  match a.mcir.toNat with
  | 2 => pultEntry a.vsel true s
  | 3 => pultEntry a.vsel false s
  | 4 => userEntry a.vsel true s
  | 5 => userEntry a.vsel false s
  | 6 => initialStart s
  | 7 => initialStart s
  | _ => .ok () { s with seq := { s.seq with irLoaded := true } }

/-! ### Errors (R341, R342, R372) -/

/-- An error bit ER7, OAT, QTO or UOP is set since the last load of IR (R341). -/
def State.errorPending (s : State) : Bool := s.per.errFlags &&& 0xD2 != 0

/-- Record an error: a second one before the next load of IR is a double error (R341, R342). -/
def State.noteError (s : State) (bit : Byte) : State :=
  let twice := s.errorPending
  { s with ints := { s.ints with dble := s.ints.dble || twice }
           per := { s.per with errFlags := s.per.errFlags ||| bit ||| (if twice then 1 else 0) } }

/-- The flags of `raise BusTimeout(kind)` (R341): QBTO, QTO, and IATO for the acknowledge read. The automaton is
reset (R48), a prefetched word is lost. -/
def State.noteTimeout (s : State) (k : BusKind) : State :=
  let s := (s.noteError 0x10).atDispatch
  { s with ints := { s.ints with qbto := true, iato := s.ints.iato || k == .iack }
           seq := { s.seq with irLoaded := false, pollEnabled := true, shadow := none } }

/-- The flags of `raise IllegalInstruction` (R342): UERR, UOP. The automaton is reset (R48). -/
def State.noteIllegal (s : State) : State :=
  let s := (s.noteError 0x02).atDispatch
  { s with ints := { s.ints with uerr := true } }

/-- The forced poll of an error and the entry it answers (R341). -/
def forcedEntry (s : State) : Res Unit := enter (poll s).1 (poll s).2

/-- The entry for the double error has timed out: it is attempted again at the next step (R372, D13). -/
def State.park (s : State) (k : BusKind) : State :=
  let s := s.noteTimeout k
  { s with seq := { s.seq with retry := true } }

/-- An entry attempt that is the last of its step: a timeout in it parks the machine (R372). -/
def lastAttempt (s : State) : Host.Outcome State Fault Refusal :=
  match forcedEntry s with
  | .ok _ s => .next s
  | .abort (.timeout k) s => .next (s.park k)
  | .abort (.refused r) _ => .refused r
  | .abort .reset s => .next s
  | .abort (.hang _) s => .next s

/-- The entry for a recorded error; a timeout inside it is the double error, whose entry is attempted at once
(R341, R372). -/
def enterError (s : State) : Host.Outcome State Fault Refusal :=
  match forcedEntry s with
  | .ok _ s => .next s
  | .abort (.timeout k) s => lastAttempt (s.noteTimeout k)
  | .abort (.refused r) _ => .refused r
  | .abort .reset s => .next s
  | .abort (.hang _) s => .next s

/-- `raise BusTimeout(kind)` (R341). -/
def raiseTimeout (k : BusKind) (s : State) : Host.Outcome State Fault Refusal := enterError (s.noteTimeout k)

/-- `raise IllegalInstruction` (R342). -/
def raiseIllegal (s : State) : Host.Outcome State Fault Refusal := enterError s.noteIllegal

/-- The end of an activity: a completed one is the next state, a bus timeout is raised, and one that a hardware reset or a
hang of the bus has ended leaves the state as it is. -/
def conclude (r : Res Unit) : Host.Outcome State Fault Refusal :=
  match r with
  | .ok _ s => .next s
  | .abort (.timeout k) s => raiseTimeout k s
  | .abort (.refused r) _ => .refused r
  | .abort .reset s => .next s
  | .abort (.hang _) s => .next s

/-- The end of an executed instruction: `FRC_STALE` is written (R440). -/
def State.retire (s : State) (stale : Bool) : State := { s with seq := { s.seq with frcStale := stale } }

/-- An instruction whose activity is `r`: completed, it writes `FRC_STALE`; cut short, it raises (R341, R440). -/
def finish (stale : Bool) (r : Res Unit) : Host.Outcome State Fault Refusal :=
  conclude (r.andThen fun _ s => .ok () (s.retire stale))

/-! ### Returns (R213, R217, R219, R220) -/

/-- The pops of RTI and RTT: PC, then the low byte of PSW, bits 15:10 cleared (R213, R217). -/
def popPcPsw (s : State) : Res Unit :=
  (waitsAt 0x38 (pop s)).andThen fun w s =>
  (waitsAt 0x6B (pop (s.setReg .pc w))).andThen fun w s =>
  .ok () (s.loadPswLow w)

/-- The return of START and STEP: PC from 177674, the whole PSW from 177676, then bit 3 of 177716 cleared, in the order of the
pseudocode of R219. Row 2E of R473 prints "wait read, PC = Q" with the remark that this step loads PSW (C8), and R219 reads PC
first: that the first read, of PC, is awaited at 2E and the second, of PSW, at 2C is the model's choice (assumption 28). -/
def pultReturn (s : State) : Res Unit :=
  (waitsAt 0x2E (readWord 0o177674 s)).andThen fun w s =>
  (waitsAt 0x2C (readWord 0o177676 (s.setReg .pc w))).andThen fun w s =>
  waitsAt 0x2A (setPultBit false (s.loadPswWhole w))

/-- The next instruction is fetched without a poll (R29). -/
def State.skipPoll (s : State) : State := { s with seq := { s.seq with pollEnabled := false } }

end Sys2Proof.Machine
end

