-- ==== Sys2Proof/Machine/Operands.lean ====
section
/-! DEFINITION. The addressing modes and the operand procedures (spec/40_addressing_modes.md R180 to R198). -/

namespace Sys2Proof.Machine

/-- The width of an operand. -/
inductive Size where
  | word
  | byte
deriving DecidableEq, Repr

/-- The step of autoincrement and autodecrement: 2 for words; for bytes 1, but 2 for SP and PC (R192, D4). -/
def stepSize (sz : Size) (r : Reg) : Word :=
  match sz with
  | .word => 2
  | .byte => if r = .sp ∨ r = .pc then 2 else 1

/-- `EA(mode, reg, size)` (R182): the operand's address, with the mode's side effects. -/
def effAddr (m : MemMode) (r : Reg) (sz : Size) (s : State) : Res Word :=
  match m with
  | .deferred => .ok (s.reg r) s
  | .autoInc => .ok (s.reg r) (s.setReg r (s.reg r + stepSize sz r))
  | .autoIncDef => readWord (s.reg r) (s.setReg r (s.reg r + 2))
  | .autoDec => .ok (s.reg r - stepSize sz r) (s.setReg r (s.reg r - stepSize sz r))
  | .autoDecDef => readWord (s.reg r - 2) (s.setReg r (s.reg r - 2))
  | .index => (fetchExt s).andThen fun x s => .ok (s.reg r + x) s
  | .indexDef => (fetchExt s).andThen fun x s => readWord (s.reg r + x) s

/-- `ReadOperand(field, 2)` (R193). -/
def readOpWord (o : Operand) (s : State) : Res Word :=
  match o with
  | .reg r => .ok (s.reg r) s
  | .mem m r => (effAddr m r .word s).andThen readWord

/-- `ReadOperand(field, 1)` (R193). -/
def readOpByte (o : Operand) (s : State) : Res Byte :=
  match o with
  | .reg r => .ok (s.regByte r) s
  | .mem m r => (effAddr m r .byte s).andThen readByte

/-- The early read of the word at PC by a form whose destination is a register (R28, R280, R310): the next instruction word,
or, with R7 as a register operand (`usesPc`), a word that is discarded (R190, R191, R443, D16). -/
def prefetch (usesPc : Bool) (s : State) : Res Unit := if usesPc then discardedRead s else prefetchNext s

/-- The source operand of a two-operand instruction is R7. -/
def isPc (o : Operand) : Bool := o == .reg .pc

/-- `ModifyOperand(field, 2, f)` with the flags `f` yields, written with the result (R193, R280, R310). `pcSrc` says that
R7 is the other operand. -/
def modifyWord (pcSrc : Bool) (o : Operand) (f : Word → Word × Cc) (s : State) : Res Unit :=
  match o with
  | .reg r =>
    (prefetch (pcSrc || r == .pc) s).andThen fun _ s => .ok () ((s.setReg r (f (s.reg r)).1).setCc (f (s.reg r)).2)
  | .mem m r =>
    (effAddr m r .word s).andThen fun a s => (rmwWord a f s).andThen fun c s => .ok () (s.setCc c)

/-- `ModifyOperand(field, 1, f)`: a register keeps its bits 15:8 (R193, R281, R320). -/
def modifyByte (pcSrc : Bool) (o : Operand) (f : Byte → Byte × Cc) (s : State) : Res Unit :=
  match o with
  | .reg r =>
    (prefetch (pcSrc || r == .pc) s).andThen fun _ s =>
    .ok () ((s.setRegByte r (f (s.regByte r)).1).setCc (f (s.regByte r)).2)
  | .mem m r =>
    (effAddr m r .byte s).andThen fun a s => (rmwByte a f s).andThen fun c s => .ok () (s.setCc c)

/-- A destination that is only read: TST, CMP, BIT (R193, R195). -/
def testWord (pcSrc : Bool) (o : Operand) (f : Word → Cc) (s : State) : Res Unit :=
  match o with
  | .reg r => (prefetch (pcSrc || r == .pc) s).andThen fun _ s => .ok () (s.setCc (f (s.reg r)))
  | .mem m r =>
    (effAddr m r .word s).andThen fun a s => (readWord a s).andThen fun d s => .ok () (s.setCc (f d))

/-- A byte destination that is only read: TSTB, CMPB, BITB (R193, R195). -/
def testByte (pcSrc : Bool) (o : Operand) (f : Byte → Cc) (s : State) : Res Unit :=
  match o with
  | .reg r => (prefetch (pcSrc || r == .pc) s).andThen fun _ s => .ok () (s.setCc (f (s.regByte r)))
  | .mem m r =>
    (effAddr m r .byte s).andThen fun a s => (readByte a s).andThen fun d s => .ok () (s.setCc (f d))

/-- MOV's destination: `MemWrite` with no read (R193, R195, R311). -/
def storeWord (pcSrc : Bool) (o : Operand) (v : Word) (f : Cc) (s : State) : Res Unit :=
  match o with
  | .reg r => (prefetch (pcSrc || r == .pc) s).andThen fun _ s => .ok () ((s.setReg r v).setCc f)
  | .mem m r =>
    (effAddr m r .word s).andThen fun a s => (writeWord a v s).andThen fun _ s => .ok () (s.setCc f)

/-- MOVB's destination: a register takes the sign extension, memory is written with no read (R195, R321). -/
def storeByte (pcSrc : Bool) (o : Operand) (v : Byte) (f : Cc) (s : State) : Res Unit :=
  match o with
  | .reg r => (prefetch (pcSrc || r == .pc) s).andThen fun _ s => .ok () ((s.setReg r (v.signExtend 16)).setCc f)
  | .mem m r =>
    (effAddr m r .byte s).andThen fun a s => (writeByte a v s).andThen fun _ s => .ok () (s.setCc f)

/-- The operand is a register (mode 0). -/
def isRegForm : Operand → Bool
  | .reg _ => true
  | .mem _ _ => false

end Sys2Proof.Machine
end

