-- ==== Sys2Proof/Machine/Branch.lean ====
section
/-! DEFINITION. The branches (spec/44_branches.md). None changes a flag or touches memory; each retires like any
instruction, so it ends a stale FR.C (R250). -/

namespace Sys2Proof.Machine

/-- FR.C, which the branches test: PSW.C, or 0 while it is stale (R38, R250, R440). -/
def State.frC (s : State) : Bool := if s.cfg.erratumFrc && s.seq.frcStale then false else s.cc.c

/-- `if cond: PC <- PC + 2*sext_8(bb)` (R250). -/
def branchIf (cond : Bool) (bb : BitVec 8) (s : State) : Host.Outcome State Fault Refusal :=
  finish false (.ok () (if cond then s.setReg .pc (s.reg .pc + 2 * bb.signExtend 16) else s))

/-- BR (R251). -/
def execBr (bb : BitVec 8) (s : State) : Host.Outcome State Fault Refusal :=
  branchIf true bb s

/-- BNE (R252). -/
def execBne (bb : BitVec 8) (s : State) : Host.Outcome State Fault Refusal :=
  branchIf (!s.cc.z) bb s

/-- BEQ (R253). -/
def execBeq (bb : BitVec 8) (s : State) : Host.Outcome State Fault Refusal :=
  branchIf (s.cc.z) bb s

/-- BGE (R254). -/
def execBge (bb : BitVec 8) (s : State) : Host.Outcome State Fault Refusal :=
  branchIf (!(s.cc.n ^^ s.cc.v)) bb s

/-- BLT (R255). -/
def execBlt (bb : BitVec 8) (s : State) : Host.Outcome State Fault Refusal :=
  branchIf (s.cc.n ^^ s.cc.v) bb s

/-- BGT (R256). -/
def execBgt (bb : BitVec 8) (s : State) : Host.Outcome State Fault Refusal :=
  branchIf (!(s.cc.z || (s.cc.n ^^ s.cc.v))) bb s

/-- BLE (R257). -/
def execBle (bb : BitVec 8) (s : State) : Host.Outcome State Fault Refusal :=
  branchIf (s.cc.z || (s.cc.n ^^ s.cc.v)) bb s

/-- BPL (R258). -/
def execBpl (bb : BitVec 8) (s : State) : Host.Outcome State Fault Refusal :=
  branchIf (!s.cc.n) bb s

/-- BMI (R259). -/
def execBmi (bb : BitVec 8) (s : State) : Host.Outcome State Fault Refusal :=
  branchIf (s.cc.n) bb s

/-- BHI (R260). -/
def execBhi (bb : BitVec 8) (s : State) : Host.Outcome State Fault Refusal :=
  branchIf (!(s.cc.z || s.frC)) bb s

/-- BLOS (R261). -/
def execBlos (bb : BitVec 8) (s : State) : Host.Outcome State Fault Refusal :=
  branchIf (s.cc.z || s.frC) bb s

/-- BVC (R262). -/
def execBvc (bb : BitVec 8) (s : State) : Host.Outcome State Fault Refusal :=
  branchIf (!s.cc.v) bb s

/-- BVS (R263). -/
def execBvs (bb : BitVec 8) (s : State) : Host.Outcome State Fault Refusal :=
  branchIf (s.cc.v) bb s

/-- BCC (R264). -/
def execBcc (bb : BitVec 8) (s : State) : Host.Outcome State Fault Refusal :=
  branchIf (!s.frC) bb s

/-- BCS (R265). -/
def execBcs (bb : BitVec 8) (s : State) : Host.Outcome State Fault Refusal :=
  branchIf (s.frC) bb s

/-- BHIS, the second name of BCC (R264). -/
def execBhis (bb : BitVec 8) (s : State) : Host.Outcome State Fault Refusal :=
  branchIf (!s.frC) bb s

/-- BLO, the second name of BCS (R265). -/
def execBlo (bb : BitVec 8) (s : State) : Host.Outcome State Fault Refusal :=
  branchIf (s.frC) bb s

end Sys2Proof.Machine
end

