-- ==== Sys2Proof/Machine/Cond.lean ====
section
/-! DEFINITION. The condition-code instructions (spec/43_condition_codes.md): any subset of N Z V C is cleared or set.
-/

namespace Sys2Proof.Machine

/-- `PSW[3:0] <- PSW[3:0] & ~m` (R240). -/
def State.clearCc (s : State) (m : BitVec 4) : State := { s with psw := s.psw &&& ~~~(m.setWidth 16) }

/-- `PSW[3:0] <- PSW[3:0] | m` (R240). -/
def State.raiseCc (s : State) (m : BitVec 4) : State := { s with psw := s.psw ||| m.setWidth 16 }

/-- A condition-code instruction: the flags change while the next instruction word is read, and the end of that read is
awaited after it: "36: PSW = PSW & ~R12, MCIR poll; 01: wait read" (R28, R240, R466). A timeout of the read keeps the new
flags (D9; assumption 10). -/
def changeCc (f : State → State) (s : State) : Host.Outcome State Fault Refusal := finish false (prefetchNext (f s))

/-- CL nzvc (R240). -/
def execClx (m : BitVec 4) (s : State) : Host.Outcome State Fault Refusal := changeCc (fun s => s.clearCc m) s

/-- SE nzvc (R240). -/
def execSex (m : BitVec 4) (s : State) : Host.Outcome State Fault Refusal := changeCc (fun s => s.raiseCc m) s

/-- NOP (R241). -/
def execNop (s : State) : Host.Outcome State Fault Refusal := changeCc (fun s => s.clearCc 0) s

/-- CLC (R242). -/
def execClc (s : State) : Host.Outcome State Fault Refusal := changeCc (fun s => s.clearCc 1) s

/-- CLV (R243). -/
def execClv (s : State) : Host.Outcome State Fault Refusal := changeCc (fun s => s.clearCc 2) s

/-- CLZ (R244). -/
def execClz (s : State) : Host.Outcome State Fault Refusal := changeCc (fun s => s.clearCc 4) s

/-- CLN (R245). -/
def execCln (s : State) : Host.Outcome State Fault Refusal := changeCc (fun s => s.clearCc 8) s

/-- CCC (R240). -/
def execCcc (s : State) : Host.Outcome State Fault Refusal := changeCc (fun s => s.clearCc 15) s

/-- NOP 000260 (R241). -/
def execNopSet (s : State) : Host.Outcome State Fault Refusal := changeCc (fun s => s.raiseCc 0) s

/-- SEC (R246). -/
def execSec (s : State) : Host.Outcome State Fault Refusal := changeCc (fun s => s.raiseCc 1) s

/-- SEV (R247). -/
def execSev (s : State) : Host.Outcome State Fault Refusal := changeCc (fun s => s.raiseCc 2) s

/-- SEZ (R248). -/
def execSez (s : State) : Host.Outcome State Fault Refusal := changeCc (fun s => s.raiseCc 4) s

/-- SEN (R249). -/
def execSen (s : State) : Host.Outcome State Fault Refusal := changeCc (fun s => s.raiseCc 8) s

/-- SCC (R240). -/
def execScc (s : State) : Host.Outcome State Fault Refusal := changeCc (fun s => s.raiseCc 15) s

end Sys2Proof.Machine
end

