-- ==== Sys2Proof/Machine/Flags.lean ====
section
/-! DEFINITION. What the instructions compute: the result and the flags N, Z, V, C (spec/10_state.md R31 to R33,
spec/45_single_operand.md, spec/46_double_operand.md), for words and bytes alike. A flag an instruction leaves
unchanged is given its old value, the argument `o`. -/

namespace Sys2Proof.Machine

variable {w : Nat}

/-- `bw(b)`: the C that a subtraction with unsigned borrow `b` produces (R31, D3). -/
def borrowC (cfg : Config) (b : Bool) : Bool := if cfg.subCarryIsBorrow then b else !b

/-- The largest positive number, 077777 or 177. -/
def maxPos (w : Nat) : BitVec w := BitVec.intMax w

/-- The most negative number, 100000 or 200. -/
def minNeg (w : Nat) : BitVec w := BitVec.intMin w

/-- N and Z of a result, with V and C given (R33). -/
def ccOf (r : BitVec w) (v c : Bool) : Cc := ⟨r.msb, r == 0, v, c⟩

/-- CLR, CLRB (R271, R286). -/
def aluClr (_ : BitVec w) : BitVec w × Cc := (0, ⟨false, true, false, false⟩)

/-- COM, COMB (R272, R287, C3). -/
def aluCom (x : BitVec w) : BitVec w × Cc := (~~~x, ccOf (~~~x) false true)

/-- INC, INCB: C unchanged (R273, R288). -/
def aluInc (o : Cc) (x : BitVec w) : BitVec w × Cc := (x + 1, ccOf (x + 1) (x == maxPos w) o.c)

/-- DEC, DECB: C unchanged (R274, R289). -/
def aluDec (o : Cc) (x : BitVec w) : BitVec w × Cc := (x - 1, ccOf (x - 1) (x == minNeg w) o.c)

/-- NEG, NEGB: C is the borrow of 0 − x (R275, R290). -/
def aluNeg (cfg : Config) (x : BitVec w) : BitVec w × Cc :=
  (-x, ccOf (-x) (x == minNeg w) (borrowC cfg (x != 0)))

/-- ADC, ADCB (R276, R291, D29). -/
def aluAdc (o : Cc) (x : BitVec w) : BitVec w × Cc :=
  let r := x + (BitVec.ofBool o.c).setWidth w
  (r, ccOf r (x == maxPos w && o.c) (x == BitVec.allOnes w && o.c))

/-- SBC, SBCB (R277, R292, D29). -/
def aluSbc (cfg : Config) (o : Cc) (x : BitVec w) : BitVec w × Cc :=
  let r := x - (BitVec.ofBool o.c).setWidth w
  (r, ccOf r (x == minNeg w && o.c) (borrowC cfg (x == 0 && o.c)))

/-- TST, TSTB (R278, R293). -/
def aluTst (x : BitVec w) : Cc := ccOf x false false

/-- SXT: N and C unchanged, Z = not N (R279, C4). -/
def aluSxt (o : Cc) (_ : Word) : Word × Cc :=
  let r : Word := if o.n then 0xFFFF else 0
  (r, ⟨o.n, r == 0, false, o.c⟩)

/-- SWAB: the flags look at the new low byte (R270). -/
def aluSwab (x : Word) : Word × Cc :=
  let r := mkWord (hiByte x) (loByte x)
  (r, ccOf (loByte r) false false)

/-- The flags of a shift or rotate: C is the bit shifted out, V = C xor N (R282 to R285, R294 to R297). -/
def ccShift (r : BitVec w) (c : Bool) : Cc := ccOf r (c ^^ r.msb) c

/-- A bit in the top position. -/
def topBit (w : Nat) (b : Bool) : BitVec w := if b then minNeg w else 0

/-- ROR, RORB (R282, R294). -/
def aluRor (o : Cc) (x : BitVec w) : BitVec w × Cc :=
  let r := topBit w o.c ||| (x >>> 1)
  (r, ccShift r (x.getLsbD 0))

/-- ROL, ROLB (R283, R295). -/
def aluRol (o : Cc) (x : BitVec w) : BitVec w × Cc :=
  let r := (x <<< 1) ||| (BitVec.ofBool o.c).setWidth w
  (r, ccShift r x.msb)

/-- ASR, ASRB (R284, R296). -/
def aluAsr (x : BitVec w) : BitVec w × Cc :=
  let r := (x >>> 1) ||| (x &&& minNeg w)
  (r, ccShift r (x.getLsbD 0))

/-- ASL, ASLB (R285, R297). -/
def aluAsl (x : BitVec w) : BitVec w × Cc :=
  let r := x <<< 1
  (r, ccShift r x.msb)

/-- N, Z from the result, V = 0, C unchanged: MOV, BIT, BIC, BIS, XOR and the byte forms (R311, R313 to R315, R318,
R321, R323 to R325). -/
def ccLogic (o : Cc) (r : BitVec w) : Cc := ccOf r false o.c

/-- CMP, CMPB: s − d, nothing written (R312, R322). -/
def aluCmp (cfg : Config) (s d : BitVec w) : Cc :=
  let t := s - d
  ccOf t (s.msb != d.msb && t.msb == d.msb) (borrowC cfg (decide (s.toNat < d.toNat)))

/-- BIT, BITB (R313, R323). -/
def aluBit (o : Cc) (s d : BitVec w) : Cc := ccLogic o (s &&& d)

/-- BIC, BICB (R314, R324). -/
def aluBic (o : Cc) (s d : BitVec w) : BitVec w × Cc := (d &&& ~~~s, ccLogic o (d &&& ~~~s))

/-- BIS, BISB (R315, R325). -/
def aluBis (o : Cc) (s d : BitVec w) : BitVec w × Cc := (d ||| s, ccLogic o (d ||| s))

/-- XOR (R318, C15). -/
def aluXor (o : Cc) (s d : BitVec w) : BitVec w × Cc := (d ^^^ s, ccLogic o (d ^^^ s))

/-- ADD (R316). -/
def aluAdd (s d : BitVec w) : BitVec w × Cc :=
  let r := s + d
  (r, ccOf r (s.msb == d.msb && r.msb != s.msb) (decide (2 ^ w ≤ s.toNat + d.toNat)))

/-- SUB: d − s (R317). -/
def aluSub (cfg : Config) (s d : BitVec w) : BitVec w × Cc :=
  let r := d - s
  (r, ccOf r (d.msb != s.msb && r.msb == s.msb) (borrowC cfg (decide (d.toNat < s.toNat))))

/-- The 32-bit signed product of MUL (R330). -/
def product (m s : Word) : Int := m.toInt * s.toInt

/-- The flags of MUL with `MUL_NZV = product` (R332, D10). -/
def ccMul (p : Int) : Cc := ⟨decide (p < 0), decide (p = 0), false, !decide (-32768 ≤ p ∧ p ≤ 32767)⟩

end Sys2Proof.Machine
end

