-- ==== Sys2Proof/Machine/Double.lean ====
section
/-! DEFINITION. The double-operand word instructions (spec/46_double_operand.md, common procedure R310). -/

namespace Sys2Proof.Machine

/-- MOV (R311). -/
def execMov (ss dd : Operand) (s : State) : Host.Outcome State Fault Refusal :=
  finish false ((readOpWord ss s).andThen fun v s => storeWord (isPc ss) dd v (ccLogic s.cc v) s)

/-- CMP (R312). -/
def execCmp (ss dd : Operand) (s : State) : Host.Outcome State Fault Refusal :=
  finish false ((readOpWord ss s).andThen fun v s => testWord (isPc ss) dd (aluCmp s.cfg v) s)

/-- BIT (R313). -/
def execBit (ss dd : Operand) (s : State) : Host.Outcome State Fault Refusal :=
  finish false ((readOpWord ss s).andThen fun v s => testWord (isPc ss) dd (aluBit s.cc v) s)

/-- BIC (R314). -/
def execBic (ss dd : Operand) (s : State) : Host.Outcome State Fault Refusal :=
  finish false ((readOpWord ss s).andThen fun v s => modifyWord (isPc ss) dd (aluBic s.cc v) s)

/-- BIS (R315). -/
def execBis (ss dd : Operand) (s : State) : Host.Outcome State Fault Refusal :=
  finish false ((readOpWord ss s).andThen fun v s => modifyWord (isPc ss) dd (aluBis s.cc v) s)

/-- ADD (R316). -/
def execAdd (ss dd : Operand) (s : State) : Host.Outcome State Fault Refusal :=
  finish false ((readOpWord ss s).andThen fun v s => modifyWord (isPc ss) dd (aluAdd v) s)

/-- SUB (R317). -/
def execSub (ss dd : Operand) (s : State) : Host.Outcome State Fault Refusal :=
  finish false ((readOpWord ss s).andThen fun v s => modifyWord (isPc ss) dd (aluSub s.cfg v) s)

/-- XOR (R318): the source register is captured before the destination's side effects. -/
def execXor (r : Reg) (dd : Operand) (s : State) : Host.Outcome State Fault Refusal :=
  finish false (modifyWord (r == .pc) dd (aluXor s.cc (s.reg r)) s)

end Sys2Proof.Machine
end

