-- ==== Sys2Proof/Machine/DoubleByte.lean ====
section
/-! DEFINITION. The double-operand byte instructions (spec/46_double_operand.md, common procedure R320). -/

namespace Sys2Proof.Machine

/-- MOVB (R321): the register form leaves FR.C stale (R440). -/
def execMovb (ss dd : Operand) (s : State) : Host.Outcome State Fault Refusal :=
  finish (isRegForm dd) ((readOpByte ss s).andThen fun v s => storeByte (isPc ss) dd v (ccLogic s.cc v) s)

/-- CMPB (R322). -/
def execCmpb (ss dd : Operand) (s : State) : Host.Outcome State Fault Refusal :=
  finish false ((readOpByte ss s).andThen fun v s => testByte (isPc ss) dd (aluCmp s.cfg v) s)

/-- BITB (R323). -/
def execBitb (ss dd : Operand) (s : State) : Host.Outcome State Fault Refusal :=
  finish false ((readOpByte ss s).andThen fun v s => testByte (isPc ss) dd (aluBit s.cc v) s)

/-- BICB (R324). -/
def execBicb (ss dd : Operand) (s : State) : Host.Outcome State Fault Refusal :=
  finish false ((readOpByte ss s).andThen fun v s => modifyByte (isPc ss) dd (aluBic s.cc v) s)

/-- BISB (R325). -/
def execBisb (ss dd : Operand) (s : State) : Host.Outcome State Fault Refusal :=
  finish false ((readOpByte ss s).andThen fun v s => modifyByte (isPc ss) dd (aluBis s.cc v) s)

end Sys2Proof.Machine
end

