-- ==== Sys2Proof/Machine/Jump.lean ====
section
/-! DEFINITION. Jumps, subroutines and the loop (spec/42_jump_subroutine.md). None changes a flag. -/

namespace Sys2Proof.Machine

/-- The target of JMP and JSR: the operand's address; the operand itself is not read (R195). A register operand has
no address (R199). -/
def jumpTarget (m : MemMode) (r : Reg) (s : State) : Res Word := effAddr m r .word s

/-- JMP (R230); mode 0 is the exception through 000004. -/
def execJmp (dd : Operand) (s : State) : Host.Outcome State Fault Refusal :=
  match dd with
  | .reg _ => finish false (userEntry .timeout false s)
  | .mem m r => finish false ((jumpTarget m r s).andThen fun t s => .ok () (s.setReg .pc t))

/-- The call of JSR (R232): the link register, read after SP was decremented, is pushed; then it takes PC, and PC the
target. -/
def call (r : Reg) (t : Word) (s : State) : Res Unit :=
  (push (fun s => s.reg r) s).andThen fun _ s => .ok () ((s.setReg r (s.reg .pc)).setReg .pc t)

/-- JSR (R232); mode 0 is the exception through 000004. -/
def execJsr (r : Reg) (dd : Operand) (s : State) : Host.Outcome State Fault Refusal :=
  match dd with
  | .reg _ => finish false (userEntry .timeout false s)
  | .mem m rd => finish false ((jumpTarget m rd s).andThen (call r))

/-- RTS (R231). -/
def execRts (r : Reg) (s : State) : Host.Outcome State Fault Refusal :=
  finish false ((waitsAt 0x40 (pop (s.setReg .pc (s.reg r)))).andThen fun v s => .ok () (s.setReg r v))

/-- The stack pointer and PC that MARK sets before its pop (R233). -/
def State.markFrame (s : State) (nn : BitVec 6) : State :=
  (s.setReg .sp (s.reg .pc + 2 * nn.setWidth 16)).setReg .pc (s.reg .r5)

/-- MARK (R233). -/
def execMark (nn : BitVec 6) (s : State) : Host.Outcome State Fault Refusal :=
  finish false ((waitsAt 0x6B (pop (s.markFrame nn))).andThen fun v s => .ok () (s.setReg .r5 v))

/-- The branch of SOB: backwards by `uu` words unless the register has become 0 (R234). -/
def State.loopBack (s : State) (r : Reg) (uu : BitVec 6) : State :=
  if s.reg r = 0 then s else s.setReg .pc (s.reg .pc - 2 * uu.setWidth 16)

/-- SOB (R234). -/
def execSob (r : Reg) (uu : BitVec 6) (s : State) : Host.Outcome State Fault Refusal :=
  finish false (.ok () ((s.setReg r (s.reg r - 1)).loopBack r uu))

end Sys2Proof.Machine
end

