-- ==== Sys2Proof/Machine/Mul.lean ====
section
/-! DEFINITION. MUL of К1801ВМ1Г (spec/47_mul_vm1g.md). -/

namespace Sys2Proof.Machine

/-- The register with the lowest bit of its number set: `R[r | 1]` (R330). -/
def Reg.orOne : Reg → Reg
  | .r0 => .r1
  | .r1 => .r1
  | .r2 => .r3
  | .r3 => .r3
  | .r4 => .r5
  | .r5 => .r5
  | .sp => .pc
  | .pc => .pc

/-- The flags of MUL (R332): C always says whether the product does not fit; N, Z, V follow the product, or are free
bits with `MUL_NZV = any` (D10, U13). -/
def State.mulCc (s : State) (p : Int) : State :=
  match s.cfg.mulNzv with
  | .product => s.setCc (ccMul p)
  | .any =>
    { s.setCc ⟨Config.freeBit s.freeCtr, Config.freeBit (s.freeCtr + 1), Config.freeBit (s.freeCtr + 2), (ccMul p).c⟩
      with freeCtr := s.freeCtr + 3 }

/-- The product into the register pair (R330): the high word first, then the low word into `R[r | 1]`. -/
def State.putProduct (s : State) (r : Reg) (p : Int) : State :=
  let w := BitVec.ofInt 32 p
  (s.setReg r (w.extractLsb' 16 16)).setReg (Reg.orOne r) (w.extractLsb' 0 16)

/-- MCIR after MUL: 110 where the register operand is not negative (R331). -/
def State.mulMcir (s : State) (m : Word) : State := if m.msb then s else s.setMcir 0b110

/-- MUL (R330): illegal on ВМ1А (R163, R342). `R[r]` is read after the source operand (D10). -/
def execMul (r : Reg) (ss : Operand) (s : State) : Host.Outcome State Fault Refusal :=
  match s.cfg.variant with
  | .vm1a => raiseIllegal s
  | .vm1g =>
    finish false ((readOpWord ss s).andThen fun v s =>
      .ok () (((s.putProduct r (product (s.reg r) v)).mulCc (product (s.reg r) v)).mulMcir (s.reg r)))

end Sys2Proof.Machine
end

