-- ==== Sys2Proof/Machine/PswAccess.lean ====
section
/-! DEFINITION. MTPS and MFPS, the access to the low byte of PSW (spec/45_single_operand.md R300, R301). -/

namespace Sys2Proof.Machine

/-- `Rd = Rd & ~000020` of the register form of MTPS, with the literal reading `MTPS_CLEARS_SRC_BIT4` (R300, D20,
C18); by default the source register is unchanged. -/
def State.mtpsSource (s : State) (r : Reg) : State :=
  if s.cfg.mtpsClearsSrcBit4 then s.setReg r (s.reg r &&& 0xFFEF) else s

/-- MTPS (R300). The register form reads the word at PC early, and its listing ends with a fresh fetch: the prefetched word
is discarded (R300, R473, D16; assumption 11). PSW is written while that read is under way, so its timeout keeps the new PSW
(D9; assumption 10). -/
def execMtps (ss : Operand) (s : State) : Host.Outcome State Fault Refusal :=
  match ss with
  | .reg r =>
    finish false (discardedAt (s.reg .pc) ((s.mtpsSource r).loadPswMtps (s.regByte r)))
  | .mem m r =>
    finish false ((effAddr m r .byte s).andThen fun a s => (readByte a s).andThen fun v s => .ok () (s.loadPswMtps v))

/-- MFPS (R301): the stored byte is PSW before its flags change; the register form takes the sign extension and
leaves FR.C stale (R440), the memory form is a byte read-modify-write. -/
def execMfps (dd : Operand) (s : State) : Host.Outcome State Fault Refusal :=
  match dd with
  | .reg _ => finish true (storeByte false dd (loByte s.pswRead) (ccLogic s.cc (loByte s.pswRead)) s)
  | .mem _ _ => finish false (modifyByte false dd (fun _ => (loByte s.pswRead, ccLogic s.cc (loByte s.pswRead))) s)

end Sys2Proof.Machine
end

