-- ==== Sys2Proof/Machine/Single.lean ====
section
/-! DEFINITION. The single-operand word instructions (spec/45_single_operand.md, common procedure R280). -/

namespace Sys2Proof.Machine

/-- CLR (R271). -/
def execClr (dd : Operand) (s : State) : Host.Outcome State Fault Refusal :=
  finish false (modifyWord false dd aluClr s)

/-- COM (R272). -/
def execCom (dd : Operand) (s : State) : Host.Outcome State Fault Refusal :=
  finish false (modifyWord false dd aluCom s)

/-- INC (R273). -/
def execInc (dd : Operand) (s : State) : Host.Outcome State Fault Refusal :=
  finish false (modifyWord false dd (aluInc s.cc) s)

/-- DEC (R274). -/
def execDec (dd : Operand) (s : State) : Host.Outcome State Fault Refusal :=
  finish false (modifyWord false dd (aluDec s.cc) s)

/-- NEG (R275). -/
def execNeg (dd : Operand) (s : State) : Host.Outcome State Fault Refusal :=
  finish false (modifyWord false dd (aluNeg s.cfg) s)

/-- ADC (R276). -/
def execAdc (dd : Operand) (s : State) : Host.Outcome State Fault Refusal :=
  finish false (modifyWord false dd (aluAdc s.cc) s)

/-- SBC (R277). -/
def execSbc (dd : Operand) (s : State) : Host.Outcome State Fault Refusal :=
  finish false (modifyWord false dd (aluSbc s.cfg s.cc) s)

/-- TST (R278). -/
def execTst (dd : Operand) (s : State) : Host.Outcome State Fault Refusal :=
  finish false (testWord false dd aluTst s)

/-- ROR (R282). -/
def execRor (dd : Operand) (s : State) : Host.Outcome State Fault Refusal :=
  finish false (modifyWord false dd (aluRor s.cc) s)

/-- ROL (R283). -/
def execRol (dd : Operand) (s : State) : Host.Outcome State Fault Refusal :=
  finish false (modifyWord false dd (aluRol s.cc) s)

/-- ASR (R284). -/
def execAsr (dd : Operand) (s : State) : Host.Outcome State Fault Refusal :=
  finish false (modifyWord false dd aluAsr s)

/-- ASL (R285). -/
def execAsl (dd : Operand) (s : State) : Host.Outcome State Fault Refusal :=
  finish false (modifyWord false dd aluAsl s)

/-- SWAB (R270). -/
def execSwab (dd : Operand) (s : State) : Host.Outcome State Fault Refusal := finish false (modifyWord false dd aluSwab s)

/-- SXT (R279). -/
def execSxt (dd : Operand) (s : State) : Host.Outcome State Fault Refusal :=
  finish false (modifyWord false dd (aluSxt s.cc) s)

end Sys2Proof.Machine
end

