-- ==== Sys2Proof/Machine/SingleByte.lean ====
section
/-! DEFINITION. The single-operand byte instructions (spec/45_single_operand.md, common procedure R281). -/

namespace Sys2Proof.Machine

/-- CLRB (R286). -/
def execClrb (dd : Operand) (s : State) : Host.Outcome State Fault Refusal :=
  finish false (modifyByte false dd aluClr s)

/-- COMB (R287). -/
def execComb (dd : Operand) (s : State) : Host.Outcome State Fault Refusal :=
  finish false (modifyByte false dd aluCom s)

/-- INCB (R288). -/
def execIncb (dd : Operand) (s : State) : Host.Outcome State Fault Refusal :=
  finish false (modifyByte false dd (aluInc s.cc) s)

/-- DECB (R289). -/
def execDecb (dd : Operand) (s : State) : Host.Outcome State Fault Refusal :=
  finish false (modifyByte false dd (aluDec s.cc) s)

/-- NEGB (R290). -/
def execNegb (dd : Operand) (s : State) : Host.Outcome State Fault Refusal :=
  finish false (modifyByte false dd (aluNeg s.cfg) s)

/-- ADCB (R291). -/
def execAdcb (dd : Operand) (s : State) : Host.Outcome State Fault Refusal :=
  finish false (modifyByte false dd (aluAdc s.cc) s)

/-- SBCB (R292). -/
def execSbcb (dd : Operand) (s : State) : Host.Outcome State Fault Refusal :=
  finish false (modifyByte false dd (aluSbc s.cfg s.cc) s)

/-- TSTB (R293). -/
def execTstb (dd : Operand) (s : State) : Host.Outcome State Fault Refusal :=
  finish false (testByte false dd aluTst s)

/-- RORB (R294). -/
def execRorb (dd : Operand) (s : State) : Host.Outcome State Fault Refusal :=
  finish false (modifyByte false dd (aluRor s.cc) s)

/-- ROLB (R295). -/
def execRolb (dd : Operand) (s : State) : Host.Outcome State Fault Refusal :=
  finish false (modifyByte false dd (aluRol s.cc) s)

/-- ASRB (R296). -/
def execAsrb (dd : Operand) (s : State) : Host.Outcome State Fault Refusal :=
  finish false (modifyByte false dd aluAsr s)

/-- ASLB (R297). -/
def execAslb (dd : Operand) (s : State) : Host.Outcome State Fault Refusal :=
  finish false (modifyByte false dd aluAsl s)

end Sys2Proof.Machine
end

