-- ==== Sys2Proof/Machine/System.lean ====
section
/-! DEFINITION. The system-control instructions (spec/41_system_control.md). At the start of every meaning the
instruction's first word is in IR and PC is the address of the word after it (R24). -/

namespace Sys2Proof.Machine

/-- HALT (R210). -/
def execHalt (s : State) : Host.Outcome State Fault Refusal := finish false (pultEntry .halt false s)

/-- Enter the waiting loop: WCPU is set, and the word in IR is not executed again but polled over (R211). -/
def State.wait (s : State) : State :=
  { s with per := { s.per with wcpu := true }, seq := { s.seq with irLoaded := true, waiting := true } }

/-- WAIT (R211): PC is advanced once more and WCPU set; the polls of the next steps end the wait. -/
def execWait (s : State) : Host.Outcome State Fault Refusal :=
  finish false (.ok () (s.setReg .pc (s.reg .pc + 2)).wait)

/-- MCIR and VSEL of a trap that the microprogram of RTI raises (R213, R473). -/
def State.trapAs (s : State) (v : Vsel) : State := (s.setMcir 0b101).setVsel v.index

/-- RTI (R213): a popped T = 1 traps at once. -/
def execRti (s : State) : Host.Outcome State Fault Refusal :=
  finish false ((popPcPsw s).andThen fun _ s => if s.flagT then userEntry .tBit false (s.trapAs .tBit) else .ok () s)

/-- BPT (R214). -/
def execBpt (s : State) : Host.Outcome State Fault Refusal := finish false (userEntry .tBit false s)

/-- IOT (R215). -/
def execIot (s : State) : Host.Outcome State Fault Refusal := finish false (userEntry .iot false s)

/-- The register of the output nINIT goes inactive, unless a low nDCLO holds it (R430 a, R470). -/
def State.releaseInit (s : State) : State :=
  { s with plat := { s.plat with pins := { s.plat.pins with initOut := s.plat.pins.dcloLow } } }

/-- RESET (R216, D27): the actions of a low nINIT, the pulse told to the platform, 448 CLC periods, nINIT inactive; MCIR
ends as 110 (R473). -/
def execReset (s : State) : Host.Outcome State Fault Refusal :=
  finish false (.ok () ((s.peripheralReset.pulseInit.advance 448).releaseInit.setMcir 0b110))

/-- RTT (R217): the next instruction is fetched without a poll. -/
def execRtt (s : State) : Host.Outcome State Fault Refusal :=
  finish false ((popPcPsw s).andThen fun _ s => .ok () s.skipPoll)

/-- START (R219); IR[1:0] is ignored. -/
def execStart (_ : BitVec 2) (s : State) : Host.Outcome State Fault Refusal := finish false (pultReturn s)

/-- STEP (R220): START, and the next instruction is fetched without a poll; IR[1:0] is ignored. -/
def execStep (_ : BitVec 2) (s : State) : Host.Outcome State Fault Refusal :=
  finish false ((pultReturn s).andThen fun _ s => .ok () s.skipPoll)

/-- `IVEC_REQ <- 0` (R52, R221). -/
def State.clearIvec (s : State) : State := { s with per := { s.per with ivecReq := false } }

/-- EMT (R221): the entry through 000030, and the request flip-flop of CPU_IVEC is cleared by mistake; the operand
byte is not used. -/
def execEmt (_ : BitVec 8) (s : State) : Host.Outcome State Fault Refusal :=
  finish false (userEntry .emt false s.clearIvec)

/-- TRAP (R222); the operand byte is not used. -/
def execTrap (_ : BitVec 8) (s : State) : Host.Outcome State Fault Refusal :=
  finish false (userEntry .trap false s)

end Sys2Proof.Machine
end

