-- ==== Sys2Proof/Machine/Dispatch.lean ====
section
/-! DEFINITION. The execution of one decoded instruction: one arm per instruction. -/

namespace Sys2Proof.Machine

def exec (i : Instr) (s : State) : Host.Outcome State Fault Refusal :=
  match i with
  | .halt => Sys2Proof.Machine.execHalt s
  | .wait => Sys2Proof.Machine.execWait s
  | .rti => Sys2Proof.Machine.execRti s
  | .bpt => Sys2Proof.Machine.execBpt s
  | .iot => Sys2Proof.Machine.execIot s
  | .reset => Sys2Proof.Machine.execReset s
  | .rtt => Sys2Proof.Machine.execRtt s
  | .start x => Sys2Proof.Machine.execStart x s
  | .step x => Sys2Proof.Machine.execStep x s
  | .jmp dd => Sys2Proof.Machine.execJmp dd s
  | .rts r => Sys2Proof.Machine.execRts r s
  | .clx m => Sys2Proof.Machine.execClx m s
  | .sex m => Sys2Proof.Machine.execSex m s
  | .nop => Sys2Proof.Machine.execNop s
  | .clc => Sys2Proof.Machine.execClc s
  | .clv => Sys2Proof.Machine.execClv s
  | .clz => Sys2Proof.Machine.execClz s
  | .cln => Sys2Proof.Machine.execCln s
  | .ccc => Sys2Proof.Machine.execCcc s
  | .nopSet => Sys2Proof.Machine.execNopSet s
  | .sec => Sys2Proof.Machine.execSec s
  | .sev => Sys2Proof.Machine.execSev s
  | .sez => Sys2Proof.Machine.execSez s
  | .sen => Sys2Proof.Machine.execSen s
  | .scc => Sys2Proof.Machine.execScc s
  | .swab dd => Sys2Proof.Machine.execSwab dd s
  | .br bb => Sys2Proof.Machine.execBr bb s
  | .bne bb => Sys2Proof.Machine.execBne bb s
  | .beq bb => Sys2Proof.Machine.execBeq bb s
  | .bge bb => Sys2Proof.Machine.execBge bb s
  | .blt bb => Sys2Proof.Machine.execBlt bb s
  | .bgt bb => Sys2Proof.Machine.execBgt bb s
  | .ble bb => Sys2Proof.Machine.execBle bb s
  | .jsr r dd => Sys2Proof.Machine.execJsr r dd s
  | .clr dd => Sys2Proof.Machine.execClr dd s
  | .com dd => Sys2Proof.Machine.execCom dd s
  | .inc dd => Sys2Proof.Machine.execInc dd s
  | .dec dd => Sys2Proof.Machine.execDec dd s
  | .neg dd => Sys2Proof.Machine.execNeg dd s
  | .adc dd => Sys2Proof.Machine.execAdc dd s
  | .sbc dd => Sys2Proof.Machine.execSbc dd s
  | .tst dd => Sys2Proof.Machine.execTst dd s
  | .ror dd => Sys2Proof.Machine.execRor dd s
  | .rol dd => Sys2Proof.Machine.execRol dd s
  | .asr dd => Sys2Proof.Machine.execAsr dd s
  | .asl dd => Sys2Proof.Machine.execAsl dd s
  | .mark nn => Sys2Proof.Machine.execMark nn s
  | .sxt dd => Sys2Proof.Machine.execSxt dd s
  | .mov ss dd => Sys2Proof.Machine.execMov ss dd s
  | .cmp ss dd => Sys2Proof.Machine.execCmp ss dd s
  | .bit ss dd => Sys2Proof.Machine.execBit ss dd s
  | .bic ss dd => Sys2Proof.Machine.execBic ss dd s
  | .bis ss dd => Sys2Proof.Machine.execBis ss dd s
  | .add ss dd => Sys2Proof.Machine.execAdd ss dd s
  | .mul r ss => Sys2Proof.Machine.execMul r ss s
  | .xor r dd => Sys2Proof.Machine.execXor r dd s
  | .sob r uu => Sys2Proof.Machine.execSob r uu s
  | .bpl bb => Sys2Proof.Machine.execBpl bb s
  | .bmi bb => Sys2Proof.Machine.execBmi bb s
  | .bhi bb => Sys2Proof.Machine.execBhi bb s
  | .blos bb => Sys2Proof.Machine.execBlos bb s
  | .bvc bb => Sys2Proof.Machine.execBvc bb s
  | .bvs bb => Sys2Proof.Machine.execBvs bb s
  | .bcc bb => Sys2Proof.Machine.execBcc bb s
  | .bcs bb => Sys2Proof.Machine.execBcs bb s
  | .bhis bb => Sys2Proof.Machine.execBhis bb s
  | .blo bb => Sys2Proof.Machine.execBlo bb s
  | .emt nn => Sys2Proof.Machine.execEmt nn s
  | .trap nn => Sys2Proof.Machine.execTrap nn s
  | .clrb dd => Sys2Proof.Machine.execClrb dd s
  | .comb dd => Sys2Proof.Machine.execComb dd s
  | .incb dd => Sys2Proof.Machine.execIncb dd s
  | .decb dd => Sys2Proof.Machine.execDecb dd s
  | .negb dd => Sys2Proof.Machine.execNegb dd s
  | .adcb dd => Sys2Proof.Machine.execAdcb dd s
  | .sbcb dd => Sys2Proof.Machine.execSbcb dd s
  | .tstb dd => Sys2Proof.Machine.execTstb dd s
  | .rorb dd => Sys2Proof.Machine.execRorb dd s
  | .rolb dd => Sys2Proof.Machine.execRolb dd s
  | .asrb dd => Sys2Proof.Machine.execAsrb dd s
  | .aslb dd => Sys2Proof.Machine.execAslb dd s
  | .mtps ss => Sys2Proof.Machine.execMtps ss s
  | .mfps dd => Sys2Proof.Machine.execMfps dd s
  | .movb ss dd => Sys2Proof.Machine.execMovb ss dd s
  | .cmpb ss dd => Sys2Proof.Machine.execCmpb ss dd s
  | .bitb ss dd => Sys2Proof.Machine.execBitb ss dd s
  | .bicb ss dd => Sys2Proof.Machine.execBicb ss dd s
  | .bisb ss dd => Sys2Proof.Machine.execBisb ss dd s
  | .sub ss dd => Sys2Proof.Machine.execSub ss dd s

end Sys2Proof.Machine
end

