-- ==== Sys2Proof/Machine/Micro.lean ====
section
/-! DEFINITION. What the microprogram writes into MCIR and VSEL when it starts an instruction (spec/10_state.md R40,
spec/80_microarchitecture.md R473, and the listings of R213 to R222, R230 to R234, R250, R280, R310, R318, R331). No program
sees it. -/

namespace Sys2Proof.Machine

/-- The MCIR, and the VSEL of a trap, that the dispatch of an instruction writes (R476); none where the listing writes
nothing. Where R476 prints two codes, the listing's is taken before the transition table's, which is the model's choice
(assumption 23): 111 for SWAB with an operand in memory (the table: 100; C27 leaves both standing), 101 for MTPS with a
source in memory (the table: 111). -/
def steering : Instr → Option (BitVec 3 × Option Vsel)
  | .halt => some (0b011, some .halt)
  | .wait => some (0b000, none)
  | .rti => none
  | .bpt => some (0b101, some .tBit)
  | .iot => some (0b101, some .iot)
  | .reset => some (0b010, none)
  | .rtt => none
  | .start _ => none
  | .step _ => none
  | .jmp (.reg _) => some (0b101, some .timeout)
  | .jmp (.mem _ _) => some (0b100, none)
  | .rts _ => some (0b011, none)
  | .clx _ | .sex _ | .nop | .clc | .clv | .clz | .cln | .ccc | .nopSet | .sec | .sev | .sez | .sen | .scc => none
  | .swab (.reg _) => none
  | .swab (.mem _ _) => some (0b111, none)
  | .br _ | .bne _ | .beq _ | .bge _ | .blt _ | .bgt _ | .ble _ | .bpl _ | .bmi _ | .bhi _ | .blos _ | .bvc _ | .bvs _
  | .bcc _ | .bhis _ | .bcs _ | .blo _ => some (0b010, none)
  | .jsr _ (.reg _) => some (0b101, some .timeout)
  | .jsr _ (.mem _ _) => some (0b100, none)
  | .clr dd | .com dd | .inc dd | .dec dd | .neg dd | .adc dd | .sbc dd | .ror dd | .rol dd | .asr dd | .asl dd | .sxt dd
  | .clrb dd | .comb dd | .incb dd | .decb dd | .negb dd | .adcb dd | .sbcb dd | .rorb dd | .rolb dd | .asrb dd | .aslb dd =>
    some (match dd with | .reg _ => 0b101 | .mem _ _ => 0b111, none)
  | .tst _ | .tstb _ => some (0b101, none)
  | .mark _ => none
  | .mtps (.reg _) | .mfps (.reg _) => none
  | .mtps (.mem _ _) => some (0b101, none)
  | .mfps (.mem _ _) => some (0b111, none)
  | .mov (.reg _) (.reg _) | .cmp (.reg _) (.reg _) | .bit (.reg _) (.reg _) | .bic (.reg _) (.reg _) | .bis (.reg _) (.reg _)
  | .add (.reg _) (.reg _) | .sub (.reg _) (.reg _) | .movb (.reg _) (.reg _) | .cmpb (.reg _) (.reg _)
  | .bitb (.reg _) (.reg _) | .bicb (.reg _) (.reg _) | .bisb (.reg _) (.reg _) | .xor _ (.reg _) => none
  | .cmp _ _ | .bit _ _ | .cmpb _ _ | .bitb _ _ => some (0b001, none)
  | .add _ _ | .sub _ _ => some (0b010, none)
  | .mov _ _ | .bic _ _ | .bis _ _ | .movb _ _ | .bicb _ _ | .bisb _ _ | .xor _ _ | .sob _ _ => some (0b011, none)
  | .mul _ _ => some (0b101, none)
  | .emt _ => some (0b101, some .emt)
  | .trap _ => some (0b101, some .trap)

/-- The state after what the dispatch of an instruction writes into MCIR and VSEL. -/
def State.steer (s : State) (i : Instr) : State :=
  match steering i with
  | some (m, some v) => (s.setMcir m).setVsel v.index
  | some (m, none) => s.setMcir m
  | none => s

end Sys2Proof.Machine
end

