-- ==== Sys2Proof/Machine/Cycle.lean ====
section
/-! DEFINITION. One step of the processor block (spec/10_state.md R27): fetch, poll, and either the instruction or an
entry sequence. -/

namespace Sys2Proof.Machine

/-- The load of IR: it clears the seven bits of CPU_ERROR and DBLE (R27, R46, R53). -/
def State.loadIr (s : State) (w : Word) : State :=
  { s with seq := { s.seq with ir := w, irLoaded := true, shadow := none }
           per := { s.per with errFlags := 0 }
           ints := { s.ints with dble := false } }

/-- The micro-address at which the next instruction word is awaited: 6A after STEP and after RTT with T = 1, which are the
unpolled fetches but for that of RTT with T = 0, else 01 (R27, R220, R473). IR still holds the last instruction. -/
def State.fetchPoint (s : State) : BitVec 7 :=
  if !s.seq.pollEnabled && (s.flagT || s.seq.ir &&& 0o177774 == 0o000014) then 0x6A else 0x01

/-- The fetch of an instruction word (R24, R27): a word that the last instruction prefetched is taken from the shadow
register (R28, R462), else it is read; PC is advanced when the read starts. -/
def fetch (s : State) : Res Unit :=
  match s.seq.shadow with
  | some w => .ok () ((s.setReg .pc (s.reg .pc + 2)).loadIr w)
  | none =>
    (waitsAt s.fetchPoint (readWord (s.reg .pc) (s.setReg .pc (s.reg .pc + 2)))).andThen fun w s => .ok () (s.loadIr w)

/-- `execute(IR)`: an illegal word raises the exception through 000010 (R27, R342). -/
def execWord (s : State) : Host.Outcome State Fault Refusal :=
  match decodeWord s.seq.ir with
  | .ok i => exec i (s.steer i)
  | .error _ => raiseIllegal s

/-- The state in which the dispatch of the word in IR begins, at micro-address 01: `ir_loaded <- false` (R27). -/
def State.takeIr (s : State) : State := { s.atDispatch with seq := { s.seq with irLoaded := false } }

/-- A poll that answered 000: the dispatch polls again at the next step (R27, R211, R412). With power good this is a
wait. -/
def State.idle (s : State) : State :=
  { s with seq := { s.seq with irLoaded := true, waiting := s.ints.acok } }

/-- What the dispatch does with the answer of its poll (R27). A wait that ends in no entry is refused (R412, D12). -/
def onAnswer (a : Answer) (s : State) : Host.Outcome State Fault Refusal :=
  match a.mcir.toNat with
  | 0 => .next s.idle
  | 1 => if s.seq.waiting then .refused .waitEndedByBus else execWord s
  | _ => conclude (enter a s)

/-- The dispatch of the word in IR (R27), polled unless RTT or STEP came before (R29). -/
def dispatch (s : State) : Host.Outcome State Fault Refusal :=
  let s := s.takeIr
  if s.seq.pollEnabled then onAnswer (poll s).1 (poll s).2
  else execWord ({ s with seq := { s.seq with pollEnabled := true } }.setMcir 0b001)

/-- CPU_MODE.HLT set by the load of IR with ST = 1 (R27, R51, R411). -/
def State.stopHere (s : State) : State := { s with per := { s.per with hlt := true } }

/-- After a fetch: with ST = 1 the pipeline stops before the dispatch (R27, R411). -/
def afterFetch (s : State) : Host.Outcome State Fault Refusal :=
  if s.per.st then .next s.stopHere else dispatch s

/-- nDCLO is low, or the bus hangs: nothing happens until a hardware reset, or the end of it (R382, R431, R449). -/
def State.held (s : State) : Bool := s.plat.pins.dcloLow || s.seq.hung

/-- The step of the processor block with the environment at rest (R27). With HLT = 1 nothing happens (R410); an entry
for the double error that could not complete is attempted again (R372). -/
def cycle (s : State) : Host.Outcome State Fault Refusal :=
  if s.held then .next s
  else if s.per.hlt then .next s
  else if s.seq.retry then lastAttempt { s with seq := { s.seq with retry := false } }
  else if s.seq.irLoaded then dispatch s
  else
    match fetch s with
    | .ok _ s => afterFetch s
    | .abort e s => conclude (.abort e s)

/-- The environment acts, then the processor block takes its step. -/
def fullStep (s : State) : Host.Outcome State Fault Refusal :=
  match takeInputs s with
  | .ok _ s => cycle s
  | .abort e s => conclude (.abort e s)

/-! ### Placing an instruction -/

/-- The three words at PC are even addresses of external RAM. -/
def State.fetchable (s : State) : Bool :=
  !isOdd (s.reg .pc) && s.isRam (s.reg .pc) && s.isRam (s.reg .pc + 2) && s.isRam (s.reg .pc + 4)

/-- The state with bytes stored from the address `a` on. -/
def State.putBytes (s : State) (a : Word) : List Byte → State
  | [] => s
  | b :: rest => State.putBytes (s.putByte a b) (a + 1) rest

/-- The state in which the next step fetches at PC and executes without a poll: started, running, nothing waiting and
nothing from the environment. Where PC does not point at RAM, PC becomes 001000, and
the map all RAM with no other chip. -/
def State.readyToFetch (s : State) : State :=
  let s := if s.fetchable then s else { s.setReg .pc 0o001000 with plat := { s.plat with map := [], chips := [] } }
  { s with
    seq := { s.seq with irLoaded := false, pollEnabled := false, waiting := false, retry := false, shadow := none,
                        hung := false }
    plat := { s.plat with pins := { s.plat.pins with dcloLow := false, initOut := false } }
    ints := { s.ints with acok := true }
    per := { s.per with hlt := false, st := false }
    inputs := [] }

end Sys2Proof.Machine
end

