-- ==== Sys2Proof/Machine/Step.lean ====
section
/-! DEFINITION. The step of the machine, and how an instruction is placed where the next step fetches. -/

namespace Sys2Proof.Machine

/-- One step: the environment's actions, then one step of the processor block (R27). -/
def step (s : State) : Host.Outcome State Fault Refusal := fullStep s

/-- `s` with the instruction of the bits `w` (a row of spec/opcode_table.json, `nbits` wide) stored at PC, so that the
next step fetches and executes it (assumption 8). -/
def State.withFetchWord (s : State) (nbits w : Nat) : State :=
  s.readyToFetch.putBytes (s.readyToFetch.reg .pc) (tableBytes 6 (w % 2 ^ nbits))

end Sys2Proof.Machine
end

