-- ==== Sys2Proof/Safety.lean ====
section
/-! DEFINITION. The terms in which claims speak: the invariant of the machine, what an instruction may touch, and which
addresses are plain memory. -/

namespace Sys2Proof.Machine

/-- The chip drives nINIT exactly while nDCLO is low, and while nINIT is low the control of every timer on the line is
reset (R110, R399, R430, R470). -/
def InitHeld (s : State) : Prop :=
  s.plat.pins.initOut = s.plat.pins.dcloLow ∧
  (s.initLine = true → s.timer.csr = 0 ∧ ∀ c ∈ s.plat.chips, c.timer.csr = 0)

/-- MA is 00 after the hardware reset and 01 from the first poll on, but where the bus hangs inside an entry, a return or a
fetch: there it is the micro-address that waits (R27, R48, R60, R463, R464, R473). -/
def MaLegal (s : State) : Prop :=
  s.micro.ma = 0 ∨ s.micro.ma = 1 ∨ (s.seq.hung = true ∧ s.micro.ma ∈ waitPoints)

/-- What holds in every state that a run reaches, and is kept by every step. -/
structure Sound (s : State) : Prop where
  /-- Memory is in canonical form. -/
  mem : s.mem.wf = true
  /-- PSW bits 9:8 are never stored: they are the pins nPA1, nPA0 (R30, R36). -/
  psw : s.psw &&& 0x0300 = 0
  /-- Bit 5 of CPU_ERROR is no flag (R53). -/
  err : s.per.errFlags &&& 0x20 = 0
  /-- The 0 before a reload is visible for at most 4 CLC (R393). -/
  window : s.timer.window ≤ 4
  /-- A waiting processor polls: it holds a word in IR, or an entry is still to be repeated (R211, R372). -/
  waits : s.seq.waiting = true → s.seq.pollEnabled = true ∧ (s.seq.irLoaded = true ∨ s.seq.retry = true)
  /-- Before the start nothing is fetched and nothing is executed (R27, R43, R60). -/
  start : s.ints.acok = false → s.seq.irLoaded = true ∧ s.seq.pollEnabled = true ∧ s.seq.retry = false
  /-- A low nDCLO holds the interrupt block reset (R430, R431). -/
  hold : s.plat.pins.dcloLow = true → s.ints.acok = false
  /-- MA is where the automaton can stand between steps (R48, R60, R463, R464, R473). -/
  ma : MaLegal s
  /-- The output nINIT follows nDCLO between steps, and a low line nINIT holds the timers' control reset. -/
  init : InitHeld s

/-- Nothing comes from the environment before the next transaction, and the bus works. -/
def State.quiet (s : State) : Bool := s.inputs.isEmpty && !s.seq.hung

/-- `a` is the address of a byte of external RAM, and nothing comes before the access. At an odd address RAM ignores address
bit 0 on a read (assumption 26). -/
def State.ramByte (s : State) (a : Word) : Bool := s.quiet && s.isRam a

/-- `a` is the even address of a word of external RAM, and nothing comes before the access. -/
def State.ramWord (s : State) (a : Word) : Bool := s.ramByte a && !isOdd a

/-- Nothing answers at the address `a`: it is no chip's own, and no external slave is there; and nothing comes before the
access. -/
def State.noReply (s : State) (a : Word) : Bool :=
  s.quiet && !s.ownBlock a && (s.chipAt a).isNone && s.slaveAt a == .absent

/-- The hidden registers after a transaction of the kind `op` at `a` that moved the data `q` (R472). -/
def State.noted (s : State) (op : BusOp) (a q : Word) : State := (s.latch op a).setQ q

/-- PSW of `t` is PSW of `s` with the flags N, Z, V, C of `f`: every other bit is as before. -/
def FlagsAre (s t : State) (f : Cc) : Prop :=
  t.psw.getLsbD 3 = f.n ∧ t.psw.getLsbD 2 = f.z ∧ t.psw.getLsbD 1 = f.v ∧ t.psw.getLsbD 0 = f.c ∧
  ∀ k, 4 ≤ k → t.psw.getLsbD k = s.psw.getLsbD k

/-- The registers of `t` are those of `s` with `v` in register `r`. -/
def OnlyReg (s t : State) (r : Reg) (v : Word) : Prop := t.reg r = v ∧ ∀ q, q ≠ r → t.reg q = s.reg q

/-- Every byte of memory is as before. -/
def SameMemory (s t : State) : Prop := ∀ b, t.readByteAt b = s.readByteAt b

/-- Memory holds the word `w` at `a`, and every byte outside it is as before. -/
def OnlyWord (s t : State) (a w : Word) : Prop :=
  t.memWord a = w ∧ ∀ b, b ≠ a → b ≠ a + 1 → t.readByteAt b = s.readByteAt b

/-- Memory holds the byte `v` at `a`, and every other byte is as before. -/
def OnlyByte (s t : State) (a : Word) (v : Byte) : Prop :=
  t.readByteAt a = v ∧ ∀ b, b ≠ a → t.readByteAt b = s.readByteAt b

/-- Nothing but registers, PSW, memory, the count of free values, the registers no program sees, FRC_STALE (now `stale`) and
the prefetched word (now `shadow`) differs: the configuration, the rest of the sequencer, the interrupt block, CPU_MODE,
CPU_IVEC, CPU_ERROR, the timer, the platform and the inputs to come are as before. -/
def Rest (stale : Bool) (shadow : Option Word) (s t : State) : Prop :=
  t.cfg = s.cfg ∧ t.seq = { s.seq with frcStale := stale, shadow := shadow } ∧ t.ints = s.ints ∧ t.per = s.per ∧
  t.timer = s.timer ∧ t.plat = s.plat ∧ t.inputs = s.inputs

/-- The shadow of IR after a form whose destination is a register (R28): the word at PC, but with R7 as a register
operand (`usesPc`) that word is discarded (R191). -/
def State.prefetched (s : State) (usesPc : Bool) : Option Word :=
  if usesPc then s.seq.shadow else some (s.memWord (s.reg .pc))

/-- A prefetch that nothing answers is raised (R81, R341): with R7 as a register operand PC stays, else it counts as
advanced (assumption 10). -/
def PrefetchRaises (o : Host.Outcome State Fault Refusal) (s : State) (usesPc : Bool) : Prop :=
  ∃ m, o = raiseTimeout .data { (if usesPc then s else s.setReg .pc (s.reg .pc + 2)) with micro := m }

/-- A transaction that nothing answers is raised (R81, R341), all else being as in `s`. -/
def Raises (o : Host.Outcome State Fault Refusal) (s : State) : Prop :=
  ∃ m, o = raiseTimeout .data { s with micro := m }

/-- The activity completes with `v` in the state `s`, the registers that no program sees left out. -/
def Gives {α : Type} (r : Res α) (v : α) (s : State) : Prop := ∃ m, r = .ok v { s with micro := m }

/-- The activity ends in a bus timeout in the state `s`, the registers that no program sees left out (R81, R341). -/
def TimesOut {α : Type} (r : Res α) (s : State) : Prop := ∃ m, r = .abort (.timeout .data) { s with micro := m }

/-- At the address `a` an external device answers that reacts to a read by `onRead` and to a write by `onWrite` (R95, D6);
nothing comes before the access. -/
def IsDevice (s : State) (a : Word) (onRead onWrite : List Reaction) : Prop :=
  s.quiet = true ∧ s.ownBlock a = false ∧ s.chipAt a = none ∧ s.slaveAt a = .device onRead onWrite

/-- The register of an operand field. -/
def baseReg : Operand → Reg
  | .reg r => r
  | .mem _ r => r

/-- The instruction completed with the flags `f`, prefetched the next word, and changed nothing else. -/
def Flagged (s : State) (o : Host.Outcome State Fault Refusal) (f : Cc) : Prop :=
  ∃ t, o = .next t ∧ t.regs = s.regs ∧ FlagsAre s t f ∧ SameMemory s t ∧ Rest false (s.prefetched false) s t

/-- The timeout of a prefetch that nothing answers is raised with the flags `f` already written (R81, R240, R341, D9), and
PC counts as advanced (assumption 10). -/
def FlaggedRaises (s : State) (o : Host.Outcome State Fault Refusal) (f : Cc) : Prop :=
  ∃ p, FlagsAre s { s with psw := p } f ∧ PrefetchRaises o { s with psw := p } false

/-- A condition-code instruction that leaves the flags `f` (R240): it prefetches the next word from RAM, or raises the
timeout of that read. -/
def ChangesFlags (i : Instr) (f : State → Cc) : Prop :=
  ∀ s : State, (s.ramWord (s.reg .pc) = true → Flagged s (exec i s) (f s)) ∧
    (s.noReply (s.reg .pc) = true → FlaggedRaises s (exec i s) (f s))

/-- The instruction completed as a branch by `bb` words on `cond` (R250): PC, already past the instruction, moved by twice
the signed offset where `cond` holds, and nothing else changed. -/
def Branched (s : State) (o : Host.Outcome State Fault Refusal) (cond : Prop) (bb : BitVec 8) : Prop :=
  ∃ t, o = .next t ∧ (cond → OnlyReg s t .pc (s.reg .pc + 2 * bb.signExtend 16)) ∧ (¬ cond → t.regs = s.regs) ∧
    t.psw = s.psw ∧ SameMemory s t ∧ Rest false s.seq.shadow s t

/-- PSW of `t` is PSW of `s` with bits 7:5 and 3:0 from the byte `v`: T and bits 15:8 are as before (R300). -/
def PswLow (s t : State) (v : Byte) : Prop :=
  ∀ k, t.psw.getLsbD k = if k < 8 ∧ k ≠ 4 then v.getLsbD k else s.psw.getLsbD k

/-- `bw(b)`: the C that a subtraction with unsigned borrow `b` leaves (R31, D3). -/
def borrowFlag (s : State) (b : Bool) : Bool := if s.cfg.subCarryIsBorrow then b else !b

/-- `Cin` as a number of `w` bits. -/
def carryIn (w : Nat) (s : State) : BitVec w := if s.cc.c then 1 else 0

/-- The result `y` of a shift, with its flags: N and Z are those of `y`, C is the bit shifted out, V is C xor N
(R282). -/
def shifted {w : Nat} (y : BitVec w) (c : Bool) : BitVec w × Cc :=
  (y, ⟨y.getLsbD (w - 1), y == 0, c ^^ y.getLsbD (w - 1), c⟩)

/-- The register whose number is `r | 1` (R330). -/
def oddOf (r : Reg) : Reg := Reg.ofBits (r.toBits ||| 1)

/-- The address of the word at offset `k` of the peripheral block of the chip number `n` (R50), or of its high byte. -/
def chipAddr (n : BitVec 2) (k : Word) (odd : Bool) : Word :=
  0o177700 + (n.setWidth 16 <<< 4) + k + (if odd then 1 else 0)

/-- The address of the word at offset `k` of the own peripheral block (R50), or of its high byte. -/
def blockAddr (s : State) (k : Word) (odd : Bool) : Word := chipAddr s.cfg.ncpu k odd

/-- How many CLC periods one period of the count clock has (R391). -/
def countPeriod (t : Timer) : Nat := 128 * (if t.csr.getLsbD 6 then 4 else 1) * (if t.csr.getLsbD 5 then 16 else 1)

/-- No device of the map reacts to a read: a read of it changes nothing on the platform. -/
def State.inert (s : State) : Bool :=
  s.plat.map.all fun r => match r.slave with | .device onRead _ => onRead.isEmpty | _ => true

/-- No region of the map is switched in or out. -/
def State.fixedMap (s : State) : Bool := s.plat.map.all fun r => r.gate == .always

/-! ### What an instruction does, by shape

Each shape names the forms of one kind of instruction, where they complete and with what result, what they leave
unchanged, and where they trap. `f` is the rule of the instruction: from the state before it and its operands to the
result and the flags. The state `s1` is the one in which the address of an operand in memory has been computed, or the source
has been read; what these change besides their registers is the subject of `Obligations.OperandAccess`. -/

/-- A word operand in a register that is changed (R280, R310). The word at PC, read first (R28, R191), is RAM, or the
timeout of its read is raised. `pcSrc` says that R7 is the source besides. -/
def WordInReg (pcSrc : Bool) (mk : Operand → Instr) (f : State → Word → Word × Cc) : Prop :=
  (∀ (r : Reg) (s : State), s.ramWord (s.reg .pc) = true →
    ∃ t, exec (mk (.reg r)) s = .next t ∧ OnlyReg s t r (f s (s.reg r)).1 ∧ FlagsAre s t (f s (s.reg r)).2 ∧
      SameMemory s t ∧ Rest false (s.prefetched (pcSrc || r == .pc)) s t) ∧
  (∀ (r : Reg) (s : State), s.noReply (s.reg .pc) = true →
    PrefetchRaises (exec (mk (.reg r)) s) s (pcSrc || r == .pc))

/-- A byte operand in a register that is changed, bits 15:8 kept (R281, R320). -/
def ByteInReg (mk : Operand → Instr) (f : State → Byte → Byte × Cc) : Prop :=
  (∀ (r : Reg) (s : State), s.ramWord (s.reg .pc) = true →
    ∃ t, exec (mk (.reg r)) s = .next t ∧
      OnlyReg s t r (mkWord (f s (loByte (s.reg r))).1 (hiByte (s.reg r))) ∧
      FlagsAre s t (f s (loByte (s.reg r))).2 ∧ SameMemory s t ∧ Rest false (s.prefetched (r == .pc)) s t) ∧
  (∀ (r : Reg) (s : State), s.noReply (s.reg .pc) = true → PrefetchRaises (exec (mk (.reg r)) s) s (r == .pc))

/-- Where an instruction with an operand of size `sz` in memory traps: on the way to its address, or at it. -/
def MemTraps (sz : Size) (mk : Operand → Instr) : Prop :=
  (∀ (m : MemMode) (r : Reg) (s s1 : State) (k : BusKind), effAddr m r sz s = .abort (.timeout k) s1 →
    exec (mk (.mem m r)) s = raiseTimeout k s1) ∧
  (∀ (m : MemMode) (r : Reg) (s s1 : State) (a : Word), effAddr m r sz s = .ok a s1 → s1.noReply a = true →
    Raises (exec (mk (.mem m r)) s) s1)

/-- A word operand in memory that is changed (R280, R310): the registers are as the addressing mode leaves them, the
word at the operand's address is the result, and a timeout on the way or at the operand is raised. -/
def WordInMem (mk : Operand → Instr) (f : State → Word → Word × Cc) : Prop :=
  (∀ (m : MemMode) (r : Reg) (s s1 : State) (a : Word), s1.mem.wf = true → effAddr m r .word s = .ok a s1 →
    s1.ramWord a = true →
    ∃ t, exec (mk (.mem m r)) s = .next t ∧ t.regs = s1.regs ∧ (∀ q, q ≠ r → q ≠ .pc → t.reg q = s.reg q) ∧
      OnlyWord s1 t a (f s (s1.memWord a)).1 ∧ FlagsAre s t (f s (s1.memWord a)).2 ∧ Rest false s.seq.shadow s1 t) ∧
  MemTraps .word mk

/-- A byte operand in memory that is changed (R281, R320). -/
def ByteInMem (mk : Operand → Instr) (f : State → Byte → Byte × Cc) : Prop :=
  (∀ (m : MemMode) (r : Reg) (s s1 : State) (a : Word), s1.mem.wf = true → effAddr m r .byte s = .ok a s1 →
    s1.ramByte a = true →
    ∃ t, exec (mk (.mem m r)) s = .next t ∧ t.regs = s1.regs ∧ (∀ q, q ≠ r → q ≠ .pc → t.reg q = s.reg q) ∧
      OnlyByte s1 t a (f s (s1.readByteAt a)).1 ∧ FlagsAre s t (f s (s1.readByteAt a)).2 ∧
      Rest false s.seq.shadow s1 t) ∧
  MemTraps .byte mk

/-- A one-operand word instruction that writes its operand, in every form. -/
def WordModify (mk : Operand → Instr) (f : State → Word → Word × Cc) : Prop := WordInReg false mk f ∧ WordInMem mk f

/-- A one-operand byte instruction that writes its operand, in every form. -/
def ByteModify (mk : Operand → Instr) (f : State → Byte → Byte × Cc) : Prop := ByteInReg mk f ∧ ByteInMem mk f

/-- A one-operand word instruction that only reads its operand (R278). -/
def WordTest (mk : Operand → Instr) (f : State → Word → Cc) : Prop :=
  (∀ (r : Reg) (s : State), s.ramWord (s.reg .pc) = true →
    ∃ t, exec (mk (.reg r)) s = .next t ∧ t.regs = s.regs ∧ FlagsAre s t (f s (s.reg r)) ∧ SameMemory s t ∧
      Rest false (s.prefetched (r == .pc)) s t) ∧
  (∀ (r : Reg) (s : State), s.noReply (s.reg .pc) = true → PrefetchRaises (exec (mk (.reg r)) s) s (r == .pc)) ∧
  (∀ (m : MemMode) (r : Reg) (s s1 : State) (a : Word), effAddr m r .word s = .ok a s1 → s1.ramWord a = true →
    ∃ t, exec (mk (.mem m r)) s = .next t ∧ t.regs = s1.regs ∧ (∀ q, q ≠ r → q ≠ .pc → t.reg q = s.reg q) ∧
      FlagsAre s t (f s (s1.memWord a)) ∧ SameMemory s1 t ∧ Rest false s.seq.shadow s1 t) ∧
  MemTraps .word mk

/-- A one-operand byte instruction that only reads its operand (R293). -/
def ByteTest (mk : Operand → Instr) (f : State → Byte → Cc) : Prop :=
  (∀ (r : Reg) (s : State), s.ramWord (s.reg .pc) = true →
    ∃ t, exec (mk (.reg r)) s = .next t ∧ t.regs = s.regs ∧ FlagsAre s t (f s (loByte (s.reg r))) ∧ SameMemory s t ∧
      Rest false (s.prefetched (r == .pc)) s t) ∧
  (∀ (r : Reg) (s : State), s.noReply (s.reg .pc) = true → PrefetchRaises (exec (mk (.reg r)) s) s (r == .pc)) ∧
  (∀ (m : MemMode) (r : Reg) (s s1 : State) (a : Word), effAddr m r .byte s = .ok a s1 → s1.ramByte a = true →
    ∃ t, exec (mk (.mem m r)) s = .next t ∧ t.regs = s1.regs ∧ (∀ q, q ≠ r → q ≠ .pc → t.reg q = s.reg q) ∧
      FlagsAre s t (f s (s1.readByteAt a)) ∧ SameMemory s1 t ∧ Rest false s.seq.shadow s1 t) ∧
  MemTraps .byte mk

/-- Where a two-operand word instruction traps (R198, R310): on the source, at the prefetch of a form with a register
destination, on the way to the destination, or at it. -/
def WordPairTraps (mk : Operand → Operand → Instr) : Prop :=
  (∀ (ss dd : Operand) (s s1 : State) (k : BusKind), readOpWord ss s = .abort (.timeout k) s1 →
    exec (mk ss dd) s = raiseTimeout k s1) ∧
  (∀ (ss : Operand) (r : Reg) (s s1 : State) (v : Word), readOpWord ss s = .ok v s1 →
    s1.noReply (s1.reg .pc) = true → PrefetchRaises (exec (mk ss (.reg r)) s) s1 (isPc ss || r == .pc)) ∧
  (∀ (ss : Operand) (m : MemMode) (r : Reg) (s s1 s2 : State) (v : Word) (k : BusKind), readOpWord ss s = .ok v s1 →
    effAddr m r .word s1 = .abort (.timeout k) s2 → exec (mk ss (.mem m r)) s = raiseTimeout k s2) ∧
  (∀ (ss : Operand) (m : MemMode) (r : Reg) (s s1 s2 : State) (v a : Word), readOpWord ss s = .ok v s1 →
    effAddr m r .word s1 = .ok a s2 → s2.noReply a = true → Raises (exec (mk ss (.mem m r)) s) s2)

/-- Where a two-operand byte instruction traps (R198, R320). -/
def BytePairTraps (mk : Operand → Operand → Instr) : Prop :=
  (∀ (ss dd : Operand) (s s1 : State) (k : BusKind), readOpByte ss s = .abort (.timeout k) s1 →
    exec (mk ss dd) s = raiseTimeout k s1) ∧
  (∀ (ss : Operand) (r : Reg) (s s1 : State) (v : Byte), readOpByte ss s = .ok v s1 →
    s1.noReply (s1.reg .pc) = true → PrefetchRaises (exec (mk ss (.reg r)) s) s1 (isPc ss || r == .pc)) ∧
  (∀ (ss : Operand) (m : MemMode) (r : Reg) (s s1 s2 : State) (v : Byte) (k : BusKind), readOpByte ss s = .ok v s1 →
    effAddr m r .byte s1 = .abort (.timeout k) s2 → exec (mk ss (.mem m r)) s = raiseTimeout k s2) ∧
  (∀ (ss : Operand) (m : MemMode) (r : Reg) (s s1 s2 : State) (v : Byte) (a : Word), readOpByte ss s = .ok v s1 →
    effAddr m r .byte s1 = .ok a s2 → s2.noReply a = true → Raises (exec (mk ss (.mem m r)) s) s2)

/-- A two-operand word instruction that writes its destination (R310), in every form. The source `v` is read first
(`s1`); a register destination then holds the result, a memory destination is addressed in `s1` (`s2`). `f` takes the
source and the old destination. With a register destination the word at PC is read before the result is written (R28). -/
def WordPair (mk : Operand → Operand → Instr) (f : State → Word → Word → Word × Cc) : Prop :=
  (∀ (ss : Operand) (r : Reg) (s s1 : State) (v : Word), readOpWord ss s = .ok v s1 →
    s1.ramWord (s1.reg .pc) = true →
    ∃ t, exec (mk ss (.reg r)) s = .next t ∧ OnlyReg s1 t r (f s v (s1.reg r)).1 ∧
      (∀ q, q ≠ r → q ≠ .pc → q ≠ baseReg ss → t.reg q = s.reg q) ∧ FlagsAre s t (f s v (s1.reg r)).2 ∧
      SameMemory s1 t ∧ Rest false (s1.prefetched (isPc ss || r == .pc)) s1 t) ∧
  (∀ (ss : Operand) (m : MemMode) (r : Reg) (s s1 s2 : State) (v a : Word), s2.mem.wf = true →
    readOpWord ss s = .ok v s1 → effAddr m r .word s1 = .ok a s2 → s2.ramWord a = true →
    ∃ t, exec (mk ss (.mem m r)) s = .next t ∧ t.regs = s2.regs ∧
      (∀ q, q ≠ r → q ≠ .pc → q ≠ baseReg ss → t.reg q = s.reg q) ∧
      OnlyWord s2 t a (f s v (s2.memWord a)).1 ∧ FlagsAre s t (f s v (s2.memWord a)).2 ∧
      Rest false s.seq.shadow s2 t) ∧
  WordPairTraps mk

/-- A two-operand word instruction that only reads its destination (R312, R313), in every form. -/
def WordPairTest (mk : Operand → Operand → Instr) (f : State → Word → Word → Cc) : Prop :=
  (∀ (ss : Operand) (r : Reg) (s s1 : State) (v : Word), readOpWord ss s = .ok v s1 →
    s1.ramWord (s1.reg .pc) = true →
    ∃ t, exec (mk ss (.reg r)) s = .next t ∧ t.regs = s1.regs ∧
      (∀ q, q ≠ .pc → q ≠ baseReg ss → t.reg q = s.reg q) ∧ FlagsAre s t (f s v (s1.reg r)) ∧
      SameMemory s1 t ∧ Rest false (s1.prefetched (isPc ss || r == .pc)) s1 t) ∧
  (∀ (ss : Operand) (m : MemMode) (r : Reg) (s s1 s2 : State) (v a : Word),
    readOpWord ss s = .ok v s1 → effAddr m r .word s1 = .ok a s2 → s2.ramWord a = true →
    ∃ t, exec (mk ss (.mem m r)) s = .next t ∧ t.regs = s2.regs ∧
      (∀ q, q ≠ r → q ≠ .pc → q ≠ baseReg ss → t.reg q = s.reg q) ∧
      FlagsAre s t (f s v (s2.memWord a)) ∧ SameMemory s2 t ∧ Rest false s.seq.shadow s2 t) ∧
  WordPairTraps mk

/-- A two-operand byte instruction that writes its destination (R320), in every form; a register keeps its bits
15:8. -/
def BytePair (mk : Operand → Operand → Instr) (f : State → Byte → Byte → Byte × Cc) : Prop :=
  (∀ (ss : Operand) (r : Reg) (s s1 : State) (v : Byte), readOpByte ss s = .ok v s1 →
    s1.ramWord (s1.reg .pc) = true →
    ∃ t, exec (mk ss (.reg r)) s = .next t ∧
      OnlyReg s1 t r (mkWord (f s v (loByte (s1.reg r))).1 (hiByte (s1.reg r))) ∧
      (∀ q, q ≠ r → q ≠ .pc → q ≠ baseReg ss → t.reg q = s.reg q) ∧ FlagsAre s t (f s v (loByte (s1.reg r))).2 ∧
      SameMemory s1 t ∧ Rest false (s1.prefetched (isPc ss || r == .pc)) s1 t) ∧
  (∀ (ss : Operand) (m : MemMode) (r : Reg) (s s1 s2 : State) (v : Byte) (a : Word), s2.mem.wf = true →
    readOpByte ss s = .ok v s1 → effAddr m r .byte s1 = .ok a s2 → s2.ramByte a = true →
    ∃ t, exec (mk ss (.mem m r)) s = .next t ∧ t.regs = s2.regs ∧
      (∀ q, q ≠ r → q ≠ .pc → q ≠ baseReg ss → t.reg q = s.reg q) ∧
      OnlyByte s2 t a (f s v (s2.readByteAt a)).1 ∧ FlagsAre s t (f s v (s2.readByteAt a)).2 ∧
      Rest false s.seq.shadow s2 t) ∧
  BytePairTraps mk

/-- A two-operand byte instruction that only reads its destination (R322, R323), in every form. -/
def BytePairTest (mk : Operand → Operand → Instr) (f : State → Byte → Byte → Cc) : Prop :=
  (∀ (ss : Operand) (r : Reg) (s s1 : State) (v : Byte), readOpByte ss s = .ok v s1 →
    s1.ramWord (s1.reg .pc) = true →
    ∃ t, exec (mk ss (.reg r)) s = .next t ∧ t.regs = s1.regs ∧
      (∀ q, q ≠ .pc → q ≠ baseReg ss → t.reg q = s.reg q) ∧ FlagsAre s t (f s v (loByte (s1.reg r))) ∧
      SameMemory s1 t ∧ Rest false (s1.prefetched (isPc ss || r == .pc)) s1 t) ∧
  (∀ (ss : Operand) (m : MemMode) (r : Reg) (s s1 s2 : State) (v : Byte) (a : Word),
    readOpByte ss s = .ok v s1 → effAddr m r .byte s1 = .ok a s2 → s2.ramByte a = true →
    ∃ t, exec (mk ss (.mem m r)) s = .next t ∧ t.regs = s2.regs ∧
      (∀ q, q ≠ r → q ≠ .pc → q ≠ baseReg ss → t.reg q = s.reg q) ∧
      FlagsAre s t (f s v (s2.readByteAt a)) ∧ SameMemory s2 t ∧ Rest false s.seq.shadow s2 t) ∧
  BytePairTraps mk

/-! ### What an entry sequence leaves behind -/

/-- A full read of PSW: bits 9:8 are the processor number (R30, R36). -/
def fullPsw (s : State) : Word := (s.psw &&& 0xFCFF) ||| (s.cfg.ncpu.setWidth 16 <<< 8)

/-- The two stack words a user entry pushes and the two vector words at `va` are RAM, memory is canonical, and nothing comes
in between. -/
def UserRoom (s : State) (va : Word) : Prop :=
  s.mem.wf = true ∧ s.ramWord (s.reg .sp - 2) = true ∧ s.ramWord (s.reg .sp - 4) = true ∧ s.ramWord va = true ∧
  s.ramWord (va + 2) = true

/-- The sequencer after an entry: FR is fresh, nothing waits, no prefetched word is left (R360, R365, R440). -/
def enteredSeq (s : State) : Sequencer := { s.seq with frcStale := false, waiting := false, shadow := none }

/-- `t` is `s` after a user entry (R360) with saved PC `ret` through the vector at `va`: PSW and `ret` are pushed, PC
and the low byte of PSW come from the vector, bits 15:8 of PSW are 0, WCPU is 0; every other register and every other
byte of memory is as before. -/
def UserEntered (s t : State) (ret va : Word) : Prop :=
  t.reg .sp = s.reg .sp - 4 ∧ t.memWord (s.reg .sp - 2) = fullPsw s ∧ t.memWord (s.reg .sp - 4) = ret ∧
  t.reg .pc = t.memWord va ∧ t.psw = t.memWord (va + 2) &&& 0x00FF ∧
  (∀ q, q ≠ .sp → q ≠ .pc → t.reg q = s.reg q) ∧
  (∀ b, b ≠ s.reg .sp - 1 → b ≠ s.reg .sp - 2 → b ≠ s.reg .sp - 3 → b ≠ s.reg .sp - 4 →
    t.readByteAt b = s.readByteAt b) ∧
  t.cfg = s.cfg ∧ t.seq = enteredSeq s ∧ t.ints = s.ints ∧
  t.per = { s.per with wcpu := false } ∧ t.timer = s.timer ∧ t.plat = s.plat ∧ t.inputs = s.inputs

/-- The two stack words a user entry pushes are RAM, memory is canonical, and nothing comes in between. -/
def StackRoom (s : State) : Prop :=
  s.mem.wf = true ∧ s.ramWord (s.reg .sp - 2) = true ∧ s.ramWord (s.reg .sp - 4) = true

/-- `t` is `s` after the pushes of a user entry with saved PC `ret`, in the acknowledge read of which the bus hangs (R81, R117,
U9): PC is corrected, PSW is as before, the answer is taken from the queue, nVIRQ stays, and nothing else is changed. -/
def AckHung (s t : State) (ret : Word) (rest : List IackReply) : Prop :=
  t.reg .sp = s.reg .sp - 4 ∧ t.memWord (s.reg .sp - 2) = fullPsw s ∧ t.memWord (s.reg .sp - 4) = ret ∧
  t.reg .pc = ret ∧ t.psw = s.psw ∧ (∀ q, q ≠ .sp → q ≠ .pc → t.reg q = s.reg q) ∧
  (∀ b, b ≠ s.reg .sp - 1 → b ≠ s.reg .sp - 2 → b ≠ s.reg .sp - 3 → b ≠ s.reg .sp - 4 →
    t.readByteAt b = s.readByteAt b) ∧
  t.cfg = s.cfg ∧ t.seq = { s.seq with hung := true, waiting := false, retry := false } ∧ t.ints = s.ints ∧
  t.per = s.per ∧ t.timer = s.timer ∧ t.plat = { s.plat with iack := rest } ∧ t.inputs = s.inputs

/-- The save cells of the pult and the two vector words at `va` are RAM, memory is canonical, and nothing comes in
between. -/
def PultRoom (s : State) (va : Word) : Prop :=
  s.mem.wf = true ∧ s.ramWord 0o177676 = true ∧ s.ramWord 0o177674 = true ∧ s.ramWord va = true ∧ s.ramWord (va + 2) = true

/-- `t` is `s`, in which bit 3 of 177716 is set already, after the rest of a pult entry (R365) with saved PC `ret`
through the vector at `va`: PSW is at 177676, `ret` at 177674, PC and the whole PSW come from the vector; SP and every
other register and every other byte of memory are as before. -/
def PultEntered (s t : State) (ret va : Word) : Prop :=
  t.memWord 0o177676 = fullPsw s ∧ t.memWord 0o177674 = ret ∧
  t.reg .pc = t.memWord va ∧ t.psw = t.memWord (va + 2) &&& 0xFCFF ∧ (∀ q, q ≠ .pc → t.reg q = s.reg q) ∧
  (∀ b, b ≠ 0o177676 → b ≠ 0o177677 → b ≠ 0o177674 → b ≠ 0o177675 → t.readByteAt b = s.readByteAt b) ∧
  t.cfg = s.cfg ∧ t.seq = enteredSeq s ∧ t.ints = s.ints ∧
  t.per = { s.per with wcpu := false } ∧ t.timer = s.timer ∧ t.plat = s.plat ∧ t.inputs = s.inputs

/-- What answers at 177716 holds the pult bit: on processor 0 a register behind nSEL1, on the others a word of RAM; memory
is canonical, and nothing comes before the access (R59, R420, assumption 6). -/
def PultReady (s : State) : Prop :=
  s.quiet = true ∧ s.mem.wf = true ∧ (s.cfg.ncpu = 0 → s.cfg.sel1Kind = .register) ∧
  (s.cfg.ncpu ≠ 0 → s.ramWord 0o177716 = true)

/-- Bit 3 of a word set or cleared. -/
def pultWord (on : Bool) (w : Word) : Word := if on then w ||| 0o000010 else w &&& 0o177767

/-- The state with bit 3 of 177716 set or cleared, where `PultReady` says what is there. On processor 0 this may switch
the map (R365). -/
def State.pultWith (s : State) (on : Bool) : State :=
  if s.cfg.ncpu = 0 then { s with plat := { s.plat with sel1 := pultWord on s.plat.sel1 } }
  else s.putWord 0o177716 (pultWord on (s.memWord 0o177716))

/-- The state with the block of another chip, `c`, replaced by `d`. -/
def State.withChip (s : State) (c d : Chip) : State :=
  { s with plat := { s.plat with chips := s.plat.chips.map fun e => if e = c then d else e } }

/-- How far the entry for a bus timeout in `s` came before a transaction of its own timed out, in the state `u`: at the first
push, at the second one, or at the read of the vector (R372). -/
def EntryFails (s u : State) : Prop :=
  s.mem.wf = true ∧
  (s.noReply (s.reg .sp - 2) = true ∧ u = s.setReg .sp (s.reg .sp - 2) ∨
   s.ramWord (s.reg .sp - 2) = true ∧ s.noReply (s.reg .sp - 4) = true ∧
     u = (s.setReg .sp (s.reg .sp - 4)).putWord (s.reg .sp - 2) (fullPsw s) ∨
   s.ramWord (s.reg .sp - 2) = true ∧ s.ramWord (s.reg .sp - 4) = true ∧ s.noReply 0o4 = true ∧
     u = ((s.setReg .sp (s.reg .sp - 4)).putWord (s.reg .sp - 2) (fullPsw s)).putWord (s.reg .sp - 4) (s.reg .pc))

/-- `u` with a second error recorded since the last load of IR: DBLE, and QTO and DBL of CPU_ERROR (R341, R372). -/
def twiceFailed (u : State) : State :=
  { u with ints := { u.ints with dble := true }
           per := { u.per with errFlags := u.per.errFlags ||| 0x11 }
           seq := { u.seq with irLoaded := false, pollEnabled := true } }

/-- The entry for the double error is to be attempted again at the next step (R372, D13, assumption 16), and nothing comes
from the environment. -/
def AboutToRetry (s : State) : Prop :=
  s.quiet = true ∧ s.plat.pins.dcloLow = false ∧ s.per.hlt = false ∧ s.seq.retry = true ∧ s.ints.acok = true ∧
  s.ints.iato = false ∧ s.ints.dble = true ∧ s.per.errFlags.getLsbD 4 = true

/-- The requests that the poll before an attempt of the double-error entry clears (R341, R348). -/
def attempted (s : State) : State :=
  { s with ints := { s.ints with uerr := false, qbto := false }, seq := { s.seq with retry := false } }

/-- Power is good, no error is recorded and none is requested. -/
def NoError (s : State) : Prop :=
  s.ints.acok = true ∧ s.ints.qbto = false ∧ s.ints.iato = false ∧ s.ints.dble = false ∧ s.ints.uerr = false ∧
  s.per.errFlags &&& 0xD2 = 0

/-- The processor block runs, and is about to fetch the word `w`: from RAM at PC, or from the shadow of IR; and nothing
comes from the environment. -/
def AboutToFetch (s : State) (w : Word) : Prop :=
  s.quiet = true ∧ s.plat.pins.dcloLow = false ∧ s.per.hlt = false ∧ s.seq.retry = false ∧ s.seq.irLoaded = false ∧
  (s.seq.shadow = some w ∨ s.seq.shadow = none ∧ s.ramWord (s.reg .pc) = true ∧ s.memWord (s.reg .pc) = w)

/-- The processor block runs, holds a word in IR, polls, and nothing comes from the environment. -/
def AboutToPoll (s : State) : Prop :=
  s.quiet = true ∧ s.plat.pins.dcloLow = false ∧ s.per.hlt = false ∧ s.seq.retry = false ∧ s.seq.irLoaded = true ∧
  s.seq.pollEnabled = true

/-- `s` after the fetch of `w`, at its dispatch (R27): PC moved on, `w` in IR, the bits of CPU_ERROR and DBLE cleared. The
registers that no program sees are left out. -/
def fetched (s : State) (w : Word) : State :=
  { s.setReg .pc (s.reg .pc + 2) with
    seq := { s.seq with ir := w, shadow := none, irLoaded := false }
    per := { s.per with errFlags := 0 }
    ints := { s.ints with dble := false } }

end Sys2Proof.Machine
end

