-- ==== Sys2Proof/Certificates/Slice0/Obligations.lean ====
section
/-! DEFINITION. The statements for the provers. Each docstring names the rule of spec/ that the statement formalises, or
says what of it is the model's. A configuration is a field of the state, so every statement ranges over all of them. -/

open Sys2Proof Sys2Proof.Machine

/-! ### Encoding -/

/-- R152, R157, R158: the decoder gives back every well-formed instruction that the encoder wrote, and leaves the
bytes after its first word. Second spellings are not well-formed (assumption 21). -/
def Obligations.DecodeOfEncode : Prop :=
  ∀ (i : Instr) (rest : List Byte), i.wf = true → decode (encode i ++ rest) = .ok (i, rest)

/-- R157, R158: a word that decodes is the word of exactly the instruction it decodes to, and that instruction is
well-formed. -/
def Obligations.EncodeOfDecode : Prop :=
  ∀ (w : Word) (i : Instr), decodeWord w = .ok i → encodeWord i = w ∧ i.wf = true

/-- R160: the words that are no instruction are exactly the reserved blocks. The block 070000..070777 is not among them:
the decoder reads it as MUL, which is illegal on ВМ1А when it executes (see `Obligations.MulIllegalOnVm1a`). -/
def Obligations.IllegalWordsExactly : Prop :=
  ∀ w : Word, (∃ e, decodeWord w = .error e) ↔
    (w.toNat = 0o000007 ∨ (0o000020 ≤ w.toNat ∧ w.toNat ≤ 0o000077) ∨ (0o000210 ≤ w.toNat ∧ w.toNat ≤ 0o000237) ∨
     (0o006500 ≤ w.toNat ∧ w.toNat ≤ 0o006677) ∨ (0o007000 ≤ w.toNat ∧ w.toNat ≤ 0o007777) ∨
     (0o071000 ≤ w.toNat ∧ w.toNat ≤ 0o073777) ∨ (0o075000 ≤ w.toNat ∧ w.toNat ≤ 0o076777) ∨
     (0o106500 ≤ w.toNat ∧ w.toNat ≤ 0o106677) ∨ (0o107000 ≤ w.toNat ∧ w.toNat ≤ 0o107777) ∨
     0o170000 ≤ w.toNat)

/-- R166, R240, R264, R265: a second name has the same word as the name the decoder gives, and the same meaning in every
state. -/
def Obligations.SecondNamesAgree : Prop :=
  ∀ (i : Instr) (s : State), i.canon.wf = true ∧ encodeWord i.canon = encodeWord i ∧ exec i.canon s = exec i s

/-- A few words written out from the encodings of R152 to R158. -/
def Obligations.SampleWordsDecode : Prop :=
  decodeWord 0b0000000000000000 = .ok .halt ∧
  decodeWord 0b0000000010000101 = .ok (.rts .r5) ∧
  decodeWord 0b0000000010101011 = .ok (.clx 0b1011) ∧
  decodeWord 0b0000000111111111 = .ok (.br 0b11111111) ∧
  decodeWord 0b0000100111011111 = .ok (.jsr .pc (.mem .autoIncDef .pc)) ∧
  decodeWord 0b0000101010000010 = .ok (.inc (.reg .r2)) ∧
  decodeWord 0b0001010111000011 = .ok (.mov (.mem .autoInc .pc) (.reg .r3)) ∧
  decodeWord 0b0111000001000010 = .ok (.mul .r1 (.reg .r2)) ∧
  decodeWord 0b0111111010000011 = .ok (.sob .r2 3) ∧
  decodeWord 0b1000100001010011 = .ok (.emt 0b01010011) ∧
  decodeWord 0b1000110111100100 = .ok (.mfps (.mem .autoDec .r4)) ∧
  decodeWord 0b1110101110110001 = .ok (.sub (.mem .autoDecDef .sp) (.mem .index .r1))

/-! ### The machine as a whole -/

/-- The invariant of the machine (R27, R30, R36, R43, R48, R53, R60, R393, R399, R430, R431, R470 and the canonical
form of memory) is kept by every step from every state that has it, whatever the environment does before the step and between
its transactions. The fields `window`, `waiting` and `retry` are the model's own (assumptions 16 and 18), MA is held as it is
between steps and as a hang leaves it (assumption 23), and that low levels of nDCLO and nINIT hold is the model's reading (assumption 15). -/
def Obligations.StepKeepsSound : Prop := ∀ s t : State, Sound s → step s = .next t → Sound t

/-- The state after reset has the invariant. It rests on no value that the model chose but the empty reload window
(assumption 18), a high nDCLO and an inactive nINIT (assumption 7). -/
def Obligations.ResetIsSound : Prop := Sound State.reset

/-- R11, D2: a step never changes the parameters. That they are part of the state is the model's choice (assumption
25). -/
def Obligations.StepKeepsConfig : Prop := ∀ s t : State, step s = .next t → t.cfg = s.cfg

/-- R60, column "after nDCLO": the values the spec gives for the state after the hardware reset, and the registers of the
peripheral block as a program reads them. (The register file, IR, TVE_LIMIT, TVE_COUNT and the prescalers, for which the
spec gives no value, are not spoken of: assumption 1.) -/
def Obligations.ResetValues : Prop :=
  State.reset.psw = 0 ∧ State.reset.seq.irLoaded = true ∧ State.reset.seq.pollEnabled = true ∧
  State.reset.seq.frcStale = false ∧ State.reset.micro.ma = 0 ∧ State.reset.ints.acok = false ∧
  State.reset.per.wcpu = false ∧ State.reset.ints.aclo = false ∧ State.reset.ints.irq2 = false ∧
  State.reset.ints.irq3 = false ∧ State.reset.timer.req = false ∧ State.reset.ints.uerr = false ∧
  State.reset.ints.qbto = false ∧ State.reset.ints.iato = false ∧ State.reset.ints.dble = false ∧
  busReadWord 0o177700 State.reset = .ok 0o177740 State.reset ∧
  busReadWord 0o177702 State.reset = .ok 0o177777 State.reset ∧
  busReadWord 0o177704 State.reset = .ok 0o177440 State.reset ∧
  busReadWord 0o177712 State.reset = .ok 0o177400 State.reset

/-- R60, R430 (a): the fall of nDCLO, in any state: PSW, MA, the interrupt block, CPU_MODE, CPU_ERROR, IVEC_REQ,
TVE_CSR and the timer request are reset, nINIT is driven low, so that the timers of the other chips on the line are reset too
(R399), nothing hangs, waits or is to be repeated, and the processor waits for its start; TVE_LIMIT, TVE_COUNT, the
prescalers, memory and the configuration are unchanged. Its rise releases nINIT and changes nothing else. R431: while nDCLO is
low a step does nothing, and whatever the environment does, the interrupt block, the peripheral block, the timer's control
and, through nINIT (R110, R470), the control of the other chips' timers stay reset. That the fall acts and the level holds, and that
no prefetched word is left, is the model's reading (assumption 15). -/
def Obligations.HardwareReset : Prop :=
  (∀ s : State, s.plat.pins.dcloLow = false → ∃ t, applyEvent (.dclo true) s = .ok () t ∧
    t.psw = 0 ∧ t.micro.ma = 0 ∧ t.seq.irLoaded = true ∧ t.seq.pollEnabled = true ∧ t.seq.frcStale = false ∧
    t.seq.shadow = none ∧ t.seq.waiting = false ∧ t.seq.retry = false ∧ t.seq.hung = false ∧
    t.ints = { acok := false, acin := false, aclo := false, irq2 := false, irq3 := false, uerr := false, qbto := false,
               iato := false, dble := false } ∧
    t.per = { wcpu := false, st := false, hlt := false, ivecReq := false, errFlags := 0 } ∧
    t.timer = { s.timer with csr := 0, req := false } ∧ t.mem = s.mem ∧ t.cfg = s.cfg ∧
    t.plat.initPulses = s.plat.initPulses + 1 ∧
    t.plat.pins = { s.plat.pins with dcloLow := true, initOut := true } ∧ ∀ c ∈ t.plat.chips, c.timer.csr = 0) ∧
  (∀ s : State, ∃ t, applyEvent (.dclo false) s = .ok () t ∧
    t = { s with plat := { s.plat with pins := { s.plat.pins with dcloLow := false, initOut := false } } }) ∧
  (∀ s : State, s.plat.pins.dcloLow = true → s.inputs = [] → step s = .next s) ∧
  (∀ (e : Event) (s t : State), applyEvent e s = .ok () t → t.plat.pins.dcloLow = true →
    t.ints = { acok := false, acin := false, aclo := false, irq2 := false, irq3 := false, uerr := false, qbto := false,
               iato := false, dble := false } ∧
    t.per = { wcpu := false, st := false, hlt := false, ivecReq := false, errFlags := 0 } ∧ t.timer.csr = 0 ∧
    t.timer.req = false ∧ (InitHeld s → t.plat.pins.initOut = true ∧ ∀ c ∈ t.plat.chips, c.timer.csr = 0))

/-- R80, R90, R134, R397: the environment may act before any transaction of the processor block, never inside one. The
next list of its actions is taken first, while the address stands in A and the data of a write in Q (R472; assumption 23), and
the transaction then sees what it did: a word that another master wrote, the time that passed for TVE_COUNT; between the phases
of a read-modify-write nothing comes. An action that is a hardware reset ends the activity, and so does one that hangs the bus
(assumption 13). That the actions stand in a queue of lists is the model's choice (assumption 9). -/
def Obligations.EnvironmentActsBetweenTransactions : Prop :=
  (∀ (s u : State) (now : List Event) (later : List (List Event)) (a : Word), s.inputs = now :: later →
    (applyEvents now { s.latch .readWord a with inputs := later } = .ok () u →
      (.dclo true ∉ now → u.seq.hung = false → readWord a s = readToQ (busReadWord a u)) ∧
      (.dclo true ∉ now → u.seq.hung = true → readWord a s = .abort (.hang false) u) ∧
      (.dclo true ∈ now → readWord a s = .abort .reset u)) ∧
    ∀ w, applyEvents now { s.noted .writeWord a w with inputs := later } = .ok () u →
      (.dclo true ∉ now → u.seq.hung = false → writeWord a w s = busWriteWord a w u) ∧
      (.dclo true ∉ now → u.seq.hung = true → writeWord a w s = .abort (.hang false) u) ∧
      (.dclo true ∈ now → writeWord a w s = .abort .reset u)) ∧
  (∀ (s : State) (a w : Word) (later : List (List Event)), s.seq.hung = false → s.plat.pins.dcloLow = false →
    s.mem.wf = true → s.isRam a = true → isOdd a = false → s.inputs = [.busWrite a w] :: later →
    Gives (readWord a s) w ({ s with inputs := later }.putWord a w)) ∧
  (∀ (s : State) (n : Nat) (later : List (List Event)), s.seq.hung = false → s.plat.pins.dcloLow = false →
    s.cfg.timerAlive = true → (Timer.clocks n s.timer).window = 0 → s.inputs = [.clocks n] :: later →
    ∃ t, readWord (blockAddr s 8 false) s = .ok (Timer.clocks n s.timer).count t ∧ t.timer = Timer.clocks n s.timer) ∧
  (∀ (s : State) (a : Word) (f : Word → Word × Cc) (later : List (List Event)), s.seq.hung = false →
    s.isRam a = true → isOdd a = false → s.inputs = [] :: later →
    Gives (rmwWord a f s) (f (s.memWord a)).2 ({ s with inputs := later }.putWord a (f (s.memWord a)).1))

/-- R81, R117, R449, U9: a slave that does not release nRPLY, in a data transaction or in an acknowledge read (its answers are
the model's queue, assumption 24), hangs the bus; the processor then does nothing, whatever comes but a
hardware reset, and a hardware reset ends it: the processor waits for its start (R382). The flag that says so is the model's
(assumption 13). -/
def Obligations.HangEndsByReset : Prop :=
  (∀ (s : State) (a : Word), s.quiet = true → s.ownBlock a = false → s.chipAt a = none → s.slaveAt a = .hang →
    (∃ m, readWord a s = .abort (.hang true) { s.hang with micro := m }) ∧
    (∃ m, readByte a s = .abort (.hang true) { s.hang with micro := m }) ∧
    (∀ w, ∃ m, writeWord a w s = .abort (.hang true) { s.hang with micro := m }) ∧
    (∀ v, ∃ m, writeByte a v s = .abort (.hang true) { s.hang with micro := m })) ∧
  (∀ (s : State) (reply : IackReply) (rest : List IackReply), s.quiet = true → s.plat.iack = reply :: rest →
    reply.holds = true →
    ∃ m, ackRead s = .abort (.hang true) { s.hang with micro := m, plat := { s.plat with iack := rest } }) ∧
  (∀ s : State, s.quiet = true → s.plat.pins.dcloLow = false → s.per.hlt = false → s.seq.retry = false →
    s.seq.irLoaded = false → s.seq.shadow = none → s.ownBlock (s.reg .pc) = false → s.chipAt (s.reg .pc) = none →
    s.slaveAt (s.reg .pc) = .hang →
    ∃ m, step s = .next { (s.setReg .pc (s.reg .pc + 2)).hang with micro := m }) ∧
  (∀ s : State, s.seq.hung = true → s.inputs = [] → step s = .next s) ∧
  (∀ (e : Event) (s t : State), e ≠ .dclo true → s.seq.hung = true → applyEvent e s = .ok () t →
    t.seq.hung = true ∧ t.regs = s.regs ∧ t.psw = s.psw) ∧
  (∀ (s : State) (later : List (List Event)), s.seq.hung = true → s.plat.pins.dcloLow = false →
    s.inputs = [.dclo true, .dclo false] :: later →
    ∃ t, step s = .next t ∧ t.seq.hung = false ∧ t.seq.irLoaded = true ∧ t.seq.pollEnabled = true ∧ t.psw = 0 ∧
      t.ints.acok = false ∧ t.inputs = later)

/-! ### The instruction cycle -/

/-- R27: the bytes at PC are fetched, or the word that was prefetched from there is taken (R28), and the instruction they
decode to is executed, with PC moved past its first word, that word in IR and the bits of CPU_ERROR and DBLE cleared. The
poll must answer 001; right after RTT or STEP there is no poll (R29). -/
def Obligations.StepRunsDecoded : Prop :=
  ∀ (s : State) (w : Word) (i : Instr), AboutToFetch s w → s.per.st = false → decodeWord w = .ok i →
    (s.seq.pollEnabled = true → s.seq.waiting = false → (matrix (fetched s w)).mcir = 0b001 →
      ∃ m, step s = exec i { fetched s w with micro := m }) ∧
    (s.seq.pollEnabled = false →
      ∃ m, step s = exec i { fetched s w with micro := m, seq := { (fetched s w).seq with pollEnabled := true } })

/-- R342: an illegal word raises the exception through 000010, after a poll that answers 001 and without one right after RTT
or STEP (R29); the saved PC is the address of the word after it, UOP is set in CPU_ERROR, nothing else of the machine has
changed before the entry. -/
def Obligations.IllegalWordTraps : Prop :=
  ∀ (s : State) (w : Word) (e : DecodeError), AboutToFetch s w → s.per.st = false → decodeWord w = .error e →
    NoError (fetched s w) →
    (s.seq.pollEnabled = true → s.seq.waiting = false ∧ (matrix (fetched s w)).mcir = 0b001) → UserRoom s 0o10 →
    ∃ t, step s = .next t ∧
      UserEntered { fetched s w with per := { (fetched s w).per with errFlags := 0x02 }
                                     seq := { (fetched s w).seq with pollEnabled := true } } t (s.reg .pc + 2) 0o10

/-- R410: with CPU_MODE.HLT = 1 and nothing from the environment a step changes nothing at all. R411: with CPU_MODE.ST = 1
the load of IR sets HLT and the step ends: the word is in IR, PC is past it, the instruction is not executed and nothing
was polled. -/
def Obligations.HltAndSingleStep : Prop :=
  (∀ s : State, s.inputs = [] → s.per.hlt = true → step s = .next s) ∧
  (∀ (s : State) (w : Word), AboutToFetch s w → s.per.st = true →
     ∃ m, step s = .next { fetched s w with
       micro := m
       seq := { (fetched s w).seq with irLoaded := true }
       per := { (fetched s w).per with hlt := true } })

/-- R43, R431: before the first rising edge of nACLO the processor only polls. R432: the initial start. The high byte of the
register behind nSEL1 becomes the high byte of PC, PSW becomes 000340, ACOK is set, the latches of nACLO are cleared; the
other registers and memory are unchanged and the next step fetches. That one poll is one step is the model's choice
(assumption 16), which the last sentence of R449 allows: an idle step returns after its poll. -/
def Obligations.InitialStartOfChip : Prop :=
  (∀ s : State, AboutToPoll s → s.ints.acok = false → s.ints.acin = false →
     ∃ m, step s = .next { s with micro := m, seq := { s.seq with waiting := false } }) ∧
  (∀ s : State, AboutToPoll s → s.ints.acok = false → s.ints.acin = true → s.cfg.sel1Kind = .register →
     ∃ t, step s = .next t ∧ OnlyReg s t .pc (s.plat.sel1 &&& 0o177400) ∧ t.psw = 0o000340 ∧
       t.ints = { s.ints with acok := true, acin := false, aclo := false } ∧
       t.seq = { s.seq with irLoaded := false, pollEnabled := true, frcStale := false, waiting := false,
                            shadow := none } ∧
       SameMemory s t ∧ t.per = s.per ∧ t.timer = s.timer ∧ t.plat = s.plat)

/-- R348, R351: requests that are masked are not taken: with power good, no error request and T = 0, the poll answers 001,
or 000 while WCPU = 1, and changes nothing that a program sees. -/
def Obligations.MaskedRequestsWait : Prop :=
  ∀ s : State, s.ints.acok = true → s.ints.iato = false → s.ints.dble = false → s.ints.qbto = false →
    s.ints.uerr = false → s.psw.getLsbD 4 = false →
    (s.ints.aclo = false ∨ s.psw.getLsbD 10 = true) →
    (s.plat.pins.irq1Low = false ∨ s.psw.getLsbD 10 = true ∨ s.psw.getLsbD 11 = true) →
    (s.psw.getLsbD 7 = true ∨ s.psw.getLsbD 10 = true ∨
      (s.ints.irq2 = false ∧ s.ints.irq3 = false ∧ (s.plat.pins.virqLow = false ∨ s.cfg.ncpu ≠ 0) ∧
       (s.cfg.variant = .vm1a ∨ s.timer.req = false ∨ s.timer.csr.getLsbD 2 = false))) →
    ∃ m, poll s = (⟨if s.per.wcpu then 0b000 else 0b001, .halt, 0b111⟩, { s with micro := m })

/-- R340, R348: the order of the requests, with power good and no error request. Each request is answered when it is
unmasked and none above it is: the T trap only while WCPU = 0, nIRQ1 only while PSW11 = 0. -/
def Obligations.PollOrder : Prop :=
  ∀ s : State, s.ints.acok = true → s.ints.iato = false → s.ints.dble = false → s.ints.qbto = false →
    s.ints.uerr = false →
    (s.psw.getLsbD 4 = true → s.per.wcpu = false → matrix s = ⟨0b100, .tBit, 0b010⟩) ∧
    (¬ (s.psw.getLsbD 4 = true ∧ s.per.wcpu = false) → s.psw.getLsbD 10 = false →
      (s.ints.aclo = true → matrix s = ⟨0b100, .powerFail, 0b100⟩) ∧
      (s.ints.aclo = false →
        (s.plat.pins.irq1Low = true → s.psw.getLsbD 11 = false → matrix s = ⟨0b010, .halt, 0b111⟩) ∧
        (s.plat.pins.irq1Low = false ∨ s.psw.getLsbD 11 = true → s.psw.getLsbD 7 = false →
          (s.cfg.variant = .vm1g → s.timer.req = true → s.timer.csr.getLsbD 2 = true →
            matrix s = ⟨0b100, .irq3OrTimer, 0b101⟩) ∧
          ((s.cfg.variant = .vm1a ∨ s.timer.req = false ∨ s.timer.csr.getLsbD 2 = false) →
            (s.ints.irq2 = true → matrix s = ⟨0b100, .irq2, 0b011⟩) ∧
            (s.ints.irq2 = false → s.ints.irq3 = true → matrix s = ⟨0b100, .irq3OrTimer, 0b001⟩) ∧
            (s.ints.irq2 = false → s.ints.irq3 = false → s.cfg.ncpu = 0 → s.plat.pins.virqLow = true →
              matrix s = ⟨0b100, .ext, 0b010⟩)))))

/-- R45, R346, R430 (b): the detectors of the input lines. The rise of nACLO sets ACIN, its fall ACLO, the fall of nIRQ2 and
of nIRQ3 their latches; a level that stays sets nothing, and nIRQ1 and nVIRQ have no latch. A low nINIT clears the latches of
nIRQ2 and nIRQ3 and the timer's control (R430 b). That a fall of nIRQ2 or nIRQ3 while nINIT is low sets no latch, because the low
level holds both reset, is the model's reading (assumption 15). R42, R346: what each REARM clears. -/
def Obligations.RequestLatches : Prop :=
  (∀ s : State, s.plat.pins.dcloLow = false →
    (∀ high, ∃ t, applyEvent (.act (.aclo high)) s = .ok () t ∧ t.plat.pins.acloHigh = high ∧
      t.ints = { s.ints with acin := s.ints.acin || (high && !s.plat.pins.acloHigh)
                             aclo := s.ints.aclo || (!high && s.plat.pins.acloHigh) }) ∧
    (∀ low, ∃ t, applyEvent (.act (.irq2 low)) s = .ok () t ∧ t.plat.pins.irq2Low = low ∧
      t.ints = { s.ints with irq2 := s.ints.irq2 || (low && !s.plat.pins.irq2Low && !s.initLine) }) ∧
    (∀ low, ∃ t, applyEvent (.act (.irq3 low)) s = .ok () t ∧ t.plat.pins.irq3Low = low ∧
      t.ints = { s.ints with irq3 := s.ints.irq3 || (low && !s.plat.pins.irq3Low && !s.initLine) }) ∧
    (∀ low, ∃ t, applyEvent (.act (.irq1 low)) s = .ok () t ∧ t.plat.pins.irq1Low = low ∧ t.ints = s.ints) ∧
    (∀ low, ∃ t, applyEvent (.act (.virq low)) s = .ok () t ∧ t.plat.pins.virqLow = low ∧ t.ints = s.ints) ∧
    (∃ t, applyEvent (.act (.init true)) s = .ok () t ∧ t.plat.pins.initLow = true ∧
      t.ints = { s.ints with irq2 := false, irq3 := false } ∧ t.timer = { s.timer with csr := 0 })) ∧
  (∀ s : State,
    s.rearm 0b000 = { s with ints := { s.ints with uerr := false, qbto := false, iato := false } } ∧
    s.rearm 0b001 = { s with ints := { s.ints with irq3 := false } } ∧
    s.rearm 0b010 = s ∧
    s.rearm 0b011 = { s with ints := { s.ints with irq2 := false } } ∧
    s.rearm 0b100 = { s with ints := { s.ints with acin := false, aclo := false } } ∧
    (s.cfg.variant = .vm1g → s.rearm 0b101 = { s with timer := { s.timer with req := false } }) ∧
    s.rearm 0b111 = s)

/-! ### Interrupts -/

/-- R347, R360, R361, R371: an interrupt or the T trap that the poll answers is taken in user fashion instead of the fetched
instruction: through 000014 for the T trap, 000024 for the power fail, 000100 for nIRQ2, 000270 for nIRQ3 and the timer; the
saved PC is the address of that instruction, the latch the answer names is cleared. -/
def Obligations.InterruptEntry : Prop :=
  ∀ (s : State) (w : Word) (v : Vsel) (va : Word) (rr : BitVec 3), AboutToFetch s w → s.per.st = false →
    s.seq.pollEnabled = true → s.ints.acok = true → matrix (fetched s w) = ⟨0b100, v, rr⟩ →
    (v, va) ∈ [(Vsel.tBit, 0o000014), (.powerFail, 0o000024), (.irq2, 0o000100), (.irq3OrTimer, 0o000270)] →
    UserRoom s va →
    ∃ t, step s = .next t ∧ UserEntered ((fetched s w).rearm rr) t (s.reg .pc) va

/-- R99, R360, R362: a vectored interrupt reads its vector from the device after the pushes. R81, R117: a device that answers
and never releases nRPLY hangs the bus there, both pushes made. The device's answer stands in the model's queue, and that a
hang takes it from there and leaves nVIRQ is the model's choice (assumption 24). -/
def Obligations.VectoredInterrupt : Prop :=
  ∀ (s : State) (w : Word) (reply : IackReply) (rest : List IackReply), AboutToFetch s w → s.per.st = false →
    s.seq.pollEnabled = true → s.ints.acok = true → matrix (fetched s w) = ⟨0b100, .ext, 0b010⟩ →
    s.plat.iack = reply :: rest →
    (reply.holds = false → UserRoom s reply.vector →
      ∃ t, step s = .next t ∧
        UserEntered { fetched s w with
          plat := { s.plat with iack := rest
                                pins := { s.plat.pins with virqLow := s.plat.pins.virqLow && !reply.release } } }
          t (s.reg .pc) reply.vector) ∧
    (reply.holds = true → StackRoom s → ∃ t, step s = .next t ∧ AckHung (fetched s w) t (s.reg .pc) rest)

/-- R343: an acknowledge read that nobody answers is a pult entry through 160012: both pushes stay, 177674 and 177676
hold the corrected PC and the interrupted PSW. Nobody answers where the model's queue is empty (assumption 24); the map does
not switch on the pult bit here. -/
def Obligations.IackTimeout : Prop :=
  ∀ (s : State) (w : Word), AboutToFetch s w → s.per.st = false → s.seq.pollEnabled = true → s.ints.acok = true →
    matrix (fetched s w) = ⟨0b100, .ext, 0b010⟩ → s.plat.iack = [] → s.cfg.sel1Kind = .register → s.fixedMap = true →
    UserRoom s 0o160012 → PultRoom s 0o160012 → s.reg .sp - 2 ≠ 0o177674 → s.reg .sp - 2 ≠ 0o177676 →
    s.reg .sp - 4 ≠ 0o177674 → s.reg .sp - 4 ≠ 0o177676 →
    ∃ t, step s = .next t ∧ t.reg .sp = s.reg .sp - 4 ∧
      t.memWord (s.reg .sp - 2) = fullPsw s ∧ t.memWord (s.reg .sp - 4) = s.reg .pc ∧
      t.memWord 0o177676 = fullPsw s ∧ t.memWord 0o177674 = s.reg .pc ∧
      t.reg .pc = t.memWord 0o160012 ∧ t.psw = t.memWord 0o160014 &&& 0xFCFF ∧ t.plat.sel1 = s.plat.sel1 ||| 0o10 ∧
      ∀ q, q ≠ .sp → q ≠ .pc → t.reg q = s.reg q

/-- R365, R366: a low nIRQ1 that the poll answers is a pult entry through 160002 whose saved PC is the address of the
instruction that was fetched and not executed. The save cells and the vector are looked up in the map as it is after the
pult bit was set (R365). That a register stands behind nSEL1 is a hypothesis (assumption 6). -/
def Obligations.HaltRequestEntry : Prop :=
  ∀ (s : State) (w : Word), AboutToFetch s w → s.per.st = false → s.seq.pollEnabled = true → s.ints.acok = true →
    matrix (fetched s w) = ⟨0b010, .halt, 0b111⟩ → PultReady (fetched s w) →
    PultRoom ((fetched s w).pultWith true) 0o160002 →
    ∃ t, step s = .next t ∧ PultEntered ((fetched s w).pultWith true) t (s.reg .pc) 0o160002

/-- R59, R219, R365, R420: the bit 3 of 177716 that a pult entry sets and START and STEP clear: on processor 0 the
register behind nSEL1, on the others whatever answers, here a word of RAM; the other 15 bits keep their value and nothing
else changes. That nSEL1 has a plain register behind it and that no device answers at 177716 are hypotheses that rest on
assumptions 6 and 13; nothing comes from the environment (assumption 9). Whatever answers there, the processor block is
as before. -/
def Obligations.PultBitSetAndCleared : Prop :=
  ∀ (s : State) (on : Bool),
    (s.quiet = true → s.cfg.ncpu = 0 → s.cfg.sel1Kind = .register →
      Gives (setPultBit on s) () { s with plat := { s.plat with
        sel1 := if on then s.plat.sel1 ||| 0o000010 else s.plat.sel1 &&& 0o177767 } }) ∧
    (s.cfg.ncpu ≠ 0 → s.mem.wf = true → s.ramWord 0o177716 = true →
      ∃ t, setPultBit on s = .ok () t ∧ t.regs = s.regs ∧ t.psw = s.psw ∧ t.plat = s.plat ∧ t.seq = s.seq ∧
        t.ints = s.ints ∧ t.per = s.per ∧ t.timer = s.timer ∧
        OnlyWord s t 0o177716 (if on then s.memWord 0o177716 ||| 0o000010 else s.memWord 0o177716 &&& 0o177767)) ∧
    (∀ t : State, setPultBit on s = .ok () t → t.regs = s.regs ∧ t.psw = s.psw ∧ t.cfg = s.cfg ∧ t.seq = s.seq)

/-! ### Errors -/

/-- R341: a bus timeout with PSW10 = PSW11 = 0 and no error before it enters through 000004 in user fashion; the saved PC is
R7 as it stands, QTO is set in CPU_ERROR, and the next instruction is fetched with a poll. R341, R352, R366: a bus
timeout with PSW10 or PSW11 set is a pult entry through 160002; on ВМ1А with PSW11 = 1 the saved PC is R7 − 2, else R7. -/
def Obligations.TimeoutEntersByPswBits : Prop :=
  (∀ s : State, NoError s → s.psw.getLsbD 10 = false → s.psw.getLsbD 11 = false → UserRoom s 0o4 →
     ∃ t, raiseTimeout .data s = .next t ∧
       UserEntered { s with per := { s.per with errFlags := s.per.errFlags ||| 0x10 }
                            seq := { s.seq with irLoaded := false, pollEnabled := true } } t (s.reg .pc) 0o4) ∧
  (∀ s x : State, NoError s → (s.psw.getLsbD 10 = true ∨ s.psw.getLsbD 11 = true) →
     x = { s with per := { s.per with errFlags := s.per.errFlags ||| 0x10 }
                  seq := { s.seq with irLoaded := false, pollEnabled := true } } →
     PultReady x → PultRoom (x.pultWith true) 0o160002 →
     ∃ t, raiseTimeout .data s = .next t ∧
       PultEntered (x.pultWith true) t
         (if s.cfg.variant = .vm1a ∧ s.psw.getLsbD 11 = true then s.reg .pc - 2 else s.reg .pc) 0o160002)

/-- R341, R372: a bus timeout whose own entry fails, because nothing answers at a push or at the vector, is the double error: a
pult entry through 160006, the saved PC being R7 of the first abort, SP as far down as the entry came. Where nothing answers
at 177716 (processors 1 to 3; on processor 0 a register behind nSEL1, assumption 6) that entry fails too, and it is attempted
again at the next step and so on (D13; one attempt a step, the field `retry`: assumption 16). An attempt completes where all
it needs answers; else nothing changes but the error flags, and, where the vector at 160006 is what does not answer, the pult
bit and the save cells. -/
def Obligations.DoubleTimeoutEntersPult : Prop :=
  (∀ s u x : State, NoError s → s.psw.getLsbD 10 = false → s.psw.getLsbD 11 = false → EntryFails s u →
     x = twiceFailed u →
     (PultReady x → PultRoom (x.pultWith true) 0o160006 →
       ∃ t, raiseTimeout .data s = .next t ∧ PultEntered (x.pultWith true) t (s.reg .pc) 0o160006) ∧
     (s.cfg.ncpu ≠ 0 → s.noReply 0o177716 = true →
       ∃ t, raiseTimeout .data s = .next t ∧ t.seq.retry = true ∧ t.regs = u.regs ∧ t.psw = s.psw ∧ SameMemory u t ∧
         t.ints.dble = true ∧ t.per = x.per ∧ t.timer = s.timer ∧ t.plat = s.plat ∧ t.cfg = s.cfg)) ∧
  (∀ s : State, AboutToRetry s → PultReady s → PultRoom ((attempted s).pultWith true) 0o160006 →
     ∃ t, step s = .next t ∧ PultEntered ((attempted s).pultWith true) t (s.reg .pc) 0o160006) ∧
  (∀ s : State, AboutToRetry s → s.cfg.ncpu ≠ 0 → s.noReply 0o177716 = true →
     ∃ m, step s = .next { s with
       micro := m
       ints := { s.ints with uerr := false, qbto := true }
       per := { s.per with errFlags := s.per.errFlags ||| 0x11 }
       seq := { s.seq with irLoaded := false, pollEnabled := true, shadow := none } }) ∧
  (∀ s v : State, AboutToRetry s → PultReady s → v = s.pultWith true → v.ramWord 0o177676 = true →
     v.ramWord 0o177674 = true → v.noReply 0o160006 = true →
     ∃ t, step s = .next t ∧ t.seq.retry = true ∧ t.regs = s.regs ∧ t.psw = s.psw ∧ t.memWord 0o177676 = fullPsw s ∧
       t.memWord 0o177674 = s.reg .pc ∧ t.plat = v.plat ∧
       ∀ b, b ≠ 0o177676 → b ≠ 0o177677 → b ≠ 0o177674 → b ≠ 0o177675 → t.readByteAt b = v.readByteAt b)

/-! ### System control -/

/-- R210: HALT is a pult entry through 160002 with saved PC `. + 2`, in every state; SP is unchanged. The save cells and the
vector are looked up in the map as it is after the pult bit was set (R365). A timeout of the access to 177716 is raised. -/
def Obligations.HaltEntersPult : Prop :=
  (∀ s : State, PultReady s → PultRoom (s.pultWith true) 0o160002 →
    ∃ t, exec .halt s = .next t ∧ PultEntered (s.pultWith true) t (s.reg .pc) 0o160002) ∧
  (∀ s s1 : State, setPultBit true s = .ok () s1 → PultRoom s1 0o160002 →
    ∃ t, exec .halt s = .next t ∧ PultEntered s1 t (s.reg .pc) 0o160002) ∧
  (∀ (s s1 : State) (k : BusKind), setPultBit true s = .abort (.timeout k) s1 → exec .halt s = raiseTimeout k s1)

/-- R211: WAIT advances PC once more, sets WCPU, keeps the sequencer at its poll and changes nothing else; a waiting
processor polls. With nothing unmasked pending a step changes nothing that a program sees. What the poll answers ends the
wait, with the saved PC `. + 2`, PC being `. + 4` while it waits: an interrupt through its vector (R347), a vectored one
through the vector its device gives (R362), unless that device holds nRPLY for ever (R81, R117), a low nIRQ1 by a pult entry through 160002 (R365). A wait that a bus write of
WT = 0 has ended is refused (D12, U5), but only where it ends in no entry: a request that is there at that poll, or the T trap,
which R344 and R348 give only with WCPU = 0 and which a waiting processor takes therefore only after such a bus write, is taken
by its entry, which is the model's choice (assumption 16), for D12 leaves open what follows the write. That WAIT answers a next state before the wait ends and that one poll is one step is
the model's choice (assumption 16); so is the queue of the devices' answers (assumption 24), and the register behind nSEL1 is
a hypothesis (assumption 6). -/
def Obligations.WaitPolls : Prop :=
  (∀ s : State, ∃ t, exec .wait s = .next t ∧ OnlyReg s t .pc (s.reg .pc + 2) ∧ t.psw = s.psw ∧ SameMemory s t ∧
    t.per = { s.per with wcpu := true } ∧
    t.seq = { s.seq with irLoaded := true, waiting := true, frcStale := false } ∧
    t.cfg = s.cfg ∧ t.ints = s.ints ∧ t.timer = s.timer ∧ t.plat = s.plat ∧ t.inputs = s.inputs) ∧
  (∀ s x : State, AboutToPoll s → s.ints.acok = true → s.seq.waiting = true →
    x = { s with seq := { s.seq with irLoaded := false } } →
    (matrix s = ⟨0b000, .halt, 0b111⟩ → ∃ m, step s = .next { s with micro := m }) ∧
    (∀ (v : Vsel) (va : Word) (rr : BitVec 3), matrix s = ⟨0b100, v, rr⟩ →
      (v, va) ∈ [(Vsel.tBit, 0o000014), (.powerFail, 0o000024), (.irq2, 0o000100), (.irq3OrTimer, 0o000270)] →
      UserRoom s va → ∃ t, step s = .next t ∧ UserEntered (x.rearm rr) t (s.reg .pc - 2) va) ∧
    (∀ (reply : IackReply) (rest : List IackReply), matrix s = ⟨0b100, .ext, 0b010⟩ → s.plat.iack = reply :: rest →
      (reply.holds = false → UserRoom s reply.vector →
        ∃ t, step s = .next t ∧
          UserEntered { x with
            plat := { s.plat with iack := rest
                                  pins := { s.plat.pins with virqLow := s.plat.pins.virqLow && !reply.release } } }
            t (s.reg .pc - 2) reply.vector) ∧
      (reply.holds = true → StackRoom s → ∃ t, step s = .next t ∧ AckHung x t (s.reg .pc - 2) rest)) ∧
    (matrix s = ⟨0b010, .halt, 0b111⟩ → PultReady x → PultRoom (x.pultWith true) 0o160002 →
      ∃ t, step s = .next t ∧ PultEntered (x.pultWith true) t (s.reg .pc - 2) 0o160002) ∧
    (matrix s = ⟨0b001, .halt, 0b111⟩ → step s = .refused .waitEndedByBus))

/-- R214, R215, R222, R345: BPT, IOT and TRAP enter through 000014, 000020 and 000034 with saved PC `. + 2`; the operand
byte of TRAP has no effect. R52, R221: EMT enters through 000030 with saved PC `. + 2` and clears the request flip-flop of
CPU_IVEC. -/
def Obligations.SoftwareTraps : Prop :=
  ∀ (s : State) (nn : BitVec 8),
    (UserRoom s 0o14 → ∃ t, exec .bpt s = .next t ∧ UserEntered s t (s.reg .pc) 0o14) ∧
    (UserRoom s 0o20 → ∃ t, exec .iot s = .next t ∧ UserEntered s t (s.reg .pc) 0o20) ∧
    (UserRoom s 0o34 → ∃ t, exec (.trap nn) s = .next t ∧ UserEntered s t (s.reg .pc) 0o34) ∧
    (UserRoom s 0o30 → ∃ t, exec (.emt nn) s = .next t ∧
      UserEntered { s with per := { s.per with ivecReq := false } } t (s.reg .pc) 0o30)

/-- R213: RTI pops PC and the low byte of PSW, clears bits 15:8 and leaves the rest; with T = 1 in the popped word it
traps at once through 000014, the saved PC being the popped one. R29, R217: RTT pops as RTI does, never traps at once,
and the next instruction is fetched without a poll. A timeout of the first pop is raised with SP already incremented. -/
def Obligations.ReturnsFromTrap : Prop :=
  ((∀ s : State, s.ramWord (s.reg .sp) = true → s.ramWord (s.reg .sp + 2) = true →
     (s.memWord (s.reg .sp + 2)).getLsbD 4 = false →
     ∃ t, exec .rti s = .next t ∧ t.reg .pc = s.memWord (s.reg .sp) ∧ t.reg .sp = s.reg .sp + 4 ∧
       t.psw = s.memWord (s.reg .sp + 2) &&& 0x00FF ∧ (∀ q, q ≠ .sp → q ≠ .pc → t.reg q = s.reg q) ∧
       SameMemory s t ∧ Rest false s.seq.shadow s t) ∧
   (∀ s u : State, s.ramWord (s.reg .sp) = true → s.ramWord (s.reg .sp + 2) = true →
     (s.memWord (s.reg .sp + 2)).getLsbD 4 = true →
     u = { (s.setReg .sp (s.reg .sp + 4)).setReg .pc (s.memWord (s.reg .sp)) with
           psw := s.memWord (s.reg .sp + 2) &&& 0x00FF } →
     UserRoom u 0o14 → ∃ t, exec .rti s = .next t ∧ UserEntered u t (s.memWord (s.reg .sp)) 0o14) ∧
   (∀ s : State, s.noReply (s.reg .sp) = true → Raises (exec .rti s) (s.setReg .sp (s.reg .sp + 2)))) ∧
  ((∀ s : State, s.ramWord (s.reg .sp) = true → s.ramWord (s.reg .sp + 2) = true →
     ∃ t, exec .rtt s = .next t ∧ t.reg .pc = s.memWord (s.reg .sp) ∧ t.reg .sp = s.reg .sp + 4 ∧
       t.psw = s.memWord (s.reg .sp + 2) &&& 0x00FF ∧ (∀ q, q ≠ .sp → q ≠ .pc → t.reg q = s.reg q) ∧
       SameMemory s t ∧ t.seq = { s.seq with pollEnabled := false, frcStale := false } ∧
       t.cfg = s.cfg ∧ t.ints = s.ints ∧ t.per = s.per ∧ t.timer = s.timer ∧ t.plat = s.plat ∧ t.inputs = s.inputs) ∧
   (∀ s : State, s.noReply (s.reg .sp) = true → Raises (exec .rtt s) (s.setReg .sp (s.reg .sp + 2))))

/-- R216: RESET puts the timer's control register and the nIRQ2 and nIRQ3 latches into their initial state, drives
nINIT once and leaves it inactive (but for a low nDCLO), and 448 CLC periods pass, in which the stopped timer only advances
its prescalers; registers, PSW, memory, CPU_MODE, CPU_ERROR, the other latches, TVE_LIMIT, TVE_COUNT and TVE_REQ are unchanged. The timers of the other chips on the
line are reset too. One step, by D27 (assumption 15). -/
def Obligations.ResetClearsPeripherals : Prop :=
  ∀ s : State, ∃ t, exec .reset s = .next t ∧ t.regs = s.regs ∧ t.psw = s.psw ∧ SameMemory s t ∧ t.per = s.per ∧
    t.timer.csr = 0 ∧ t.timer.limit = s.timer.limit ∧ t.timer.count = s.timer.count ∧ t.timer.req = s.timer.req ∧
    t.timer.pre = s.timer.pre + 64 ∧ t.ints = { s.ints with irq2 := false, irq3 := false } ∧
    t.plat = { s.plat with
      initPulses := s.plat.initPulses + 1
      pins := { s.plat.pins with initOut := s.plat.pins.dcloLow }
      chips := s.plat.chips.map fun c => { c with timer := Timer.clocks 448 { c.timer with csr := 0 } } } ∧
    t.cfg = s.cfg ∧ t.seq = { s.seq with frcStale := false } ∧ t.inputs = s.inputs

/-- R219, R220: START and STEP load PC from 177674 and the whole PSW (but bits 9:8) from 177676, then clear bit 3 of
177716; SP is not used. After STEP the next instruction is fetched without a poll. The low operand bits have no effect.
That a register or a word of RAM holds the pult bit is a hypothesis (assumption 6). -/
def Obligations.StartAndStep : Prop :=
  ∀ (s x : State) (n : BitVec 2), s.ramWord 0o177674 = true → s.ramWord 0o177676 = true →
    x = { s.setReg .pc (s.memWord 0o177674) with psw := s.memWord 0o177676 &&& 0xFCFF } → PultReady x →
    (∃ m, exec (.start n) s = .next { x.pultWith false with micro := m, seq := { s.seq with frcStale := false } }) ∧
    (∃ m, exec (.step n) s =
      .next { x.pultWith false with micro := m, seq := { s.seq with frcStale := false, pollEnabled := false } }) ∧
    OnlyReg s (x.pultWith false) .pc (s.memWord 0o177674) ∧ (x.pultWith false).psw = s.memWord 0o177676 &&& 0xFCFF

/-! ### Jumps, subroutines, loop -/

/-- R230: JMP loads PC with the operand's address, does not read the operand, and changes nothing else but what the
addressing mode changes. -/
def Obligations.JmpLoadsOperandAddress : Prop :=
  (∀ (m : MemMode) (r : Reg) (s s1 : State) (a : Word), effAddr m r .word s = .ok a s1 →
    ∃ t, exec (.jmp (.mem m r)) s = .next t ∧ OnlyReg s1 t .pc a ∧ (∀ q, q ≠ r → q ≠ .pc → t.reg q = s.reg q) ∧
      t.psw = s.psw ∧ SameMemory s1 t ∧ t.micro = s1.micro ∧ Rest false s.seq.shadow s1 t) ∧
  (∀ (m : MemMode) (r : Reg) (s s1 : State) (k : BusKind), effAddr m r .word s = .abort (.timeout k) s1 →
    exec (.jmp (.mem m r)) s = raiseTimeout k s1)

/-- R199, R230, R232, R342: JMP and JSR with a register operand enter through 000004 with saved PC `. + 2`, no bit of
CPU_ERROR being set. -/
def Obligations.JumpToRegisterTraps : Prop :=
  ∀ (s : State) (r q : Reg), UserRoom s 0o4 →
    (∃ t, exec (.jmp (.reg q)) s = .next t ∧ UserEntered s t (s.reg .pc) 0o4) ∧
    (∃ t, exec (.jsr r (.reg q)) s = .next t ∧ UserEntered s t (s.reg .pc) 0o4)

/-- R232: JSR computes the target, pushes the link register (read after SP was decremented), copies PC into it and loads
PC; with link register R7 only the push and the jump remain. -/
def Obligations.JsrPushesLinkAndJumps : Prop :=
  (∀ (r rd : Reg) (m : MemMode) (s s1 s2 : State) (a : Word), s1.mem.wf = true → effAddr m rd .word s = .ok a s1 →
    s2 = s1.setReg .sp (s1.reg .sp - 2) → s2.ramWord (s2.reg .sp) = true →
    ∃ t, exec (.jsr r (.mem m rd)) s = .next t ∧ t.reg .pc = a ∧ (r ≠ .pc → t.reg r = s1.reg .pc) ∧
      (r ≠ .sp → t.reg .sp = s1.reg .sp - 2) ∧
      (∀ q, q ≠ .pc → q ≠ r → q ≠ .sp → q ≠ rd → t.reg q = s.reg q) ∧
      (∀ q, q ≠ .pc → q ≠ r → q ≠ .sp → t.reg q = s1.reg q) ∧
      OnlyWord s1 t (s1.reg .sp - 2) (s2.reg r) ∧ t.psw = s.psw ∧ Rest false s.seq.shadow s1 t) ∧
  (∀ (r rd : Reg) (m : MemMode) (s s1 : State) (k : BusKind), effAddr m rd .word s = .abort (.timeout k) s1 →
    exec (.jsr r (.mem m rd)) s = raiseTimeout k s1) ∧
  (∀ (r rd : Reg) (m : MemMode) (s s1 : State) (a : Word), effAddr m rd .word s = .ok a s1 →
    s1.noReply (s1.reg .sp - 2) = true →
    Raises (exec (.jsr r (.mem m rd)) s) (s1.setReg .sp (s1.reg .sp - 2)))

/-- R231: RTS loads PC from the link register, then pops the link register: for R7 a pop into PC, for R6 the popped word
is what remains in SP. A timeout of the pop is raised with PC loaded and SP incremented. -/
def Obligations.RtsReturnsAndPopsLink : Prop :=
  (∀ (r : Reg) (s s1 : State), s1 = s.setReg .pc (s.reg r) → s.ramWord (s1.reg .sp) = true →
    ∃ t, exec (.rts r) s = .next t ∧ t.reg r = s.memWord (s1.reg .sp) ∧ (r ≠ .pc → t.reg .pc = s.reg r) ∧
      (r ≠ .sp → t.reg .sp = s1.reg .sp + 2) ∧ (∀ q, q ≠ .pc → q ≠ .sp → q ≠ r → t.reg q = s.reg q) ∧
      t.psw = s.psw ∧ SameMemory s t ∧ Rest false s.seq.shadow s t) ∧
  (∀ (r : Reg) (s s1 : State), s1 = s.setReg .pc (s.reg r) → s.noReply (s.reg .sp) = true →
    Raises (exec (.rts r) s) (s1.setReg .sp (s.reg .sp + 2)))

/-- R233: MARK sets SP to PC + 2·nn, loads PC from R5 and pops R5; no flag changes. A timeout of the pop is raised with SP
and PC already changed. The word is 0064nn. -/
def Obligations.MarkUnwindsFrame : Prop :=
  ∀ (s : State) (nn : BitVec 6) (a : Word), a = s.reg .pc + 2 * nn.setWidth 16 →
    (s.ramWord a = true →
      ∃ t, exec (.mark nn) s = .next t ∧ t.reg .sp = a + 2 ∧ t.reg .pc = s.reg .r5 ∧ t.reg .r5 = s.memWord a ∧
        (∀ q, q ≠ .sp → q ≠ .pc → q ≠ .r5 → t.reg q = s.reg q) ∧ t.psw = s.psw ∧ SameMemory s t ∧
        Rest false s.seq.shadow s t) ∧
    (s.noReply a = true → Raises (exec (.mark nn) s) ((s.setReg .sp (a + 2)).setReg .pc (s.reg .r5))) ∧
    encodeWord (.mark nn) = (0o006400 : Word) ||| nn.setWidth 16

/-- R234: SOB decrements its register and branches backwards by `uu` words unless the result is 0; with R7 the
decremented PC itself is what is tested and moved back. No flag changes. The word is 077ruu. -/
def Obligations.SobDecrementsAndBranches : Prop :=
  ∀ (s : State) (r : Reg) (uu : BitVec 6), ∃ t, exec (.sob r uu) s = .next t ∧
    (r ≠ .pc → t.reg r = s.reg r - 1 ∧
      t.reg .pc = if s.reg r = 1 then s.reg .pc else s.reg .pc - 2 * uu.setWidth 16) ∧
    (r = .pc → t.reg .pc = if s.reg .pc = 1 then 0 else s.reg .pc - 1 - 2 * uu.setWidth 16) ∧
    (∀ q, q ≠ r → q ≠ .pc → t.reg q = s.reg q) ∧ t.psw = s.psw ∧ SameMemory s t ∧ Rest false s.seq.shadow s t ∧
    encodeWord (.sob r uu) = (0o077000 : Word) ||| (r.toBits.setWidth 16 <<< 6) ||| uu.setWidth 16

/-! ### Condition codes and branches -/

/-- R240 to R249: the condition-code instructions clear or set the flags their mask selects and change nothing else: the
generic forms CLx and SEx, NOP in both codes, and each named form. The flags change while the word at PC is read as the next
instruction (R28); where nothing answers there, the timeout is raised with the flags already changed and PC past that word
(R361, D9). The early read and what its timeout leaves are the model's reading of the listing (assumptions 10 and 11). Their
words. The effects of the named forms are marked as derived in the spec (R242 to R249), their names are resolved in C1, their
spelling is the model's (assumption 21). -/
def Obligations.ConditionCodesChangeMasked : Prop :=
  (∀ m : BitVec 4, ChangesFlags (.clx m) (fun s =>
    ⟨s.cc.n && !m.getLsbD 3, s.cc.z && !m.getLsbD 2, s.cc.v && !m.getLsbD 1, s.cc.c && !m.getLsbD 0⟩)) ∧
  (∀ m : BitVec 4, ChangesFlags (.sex m) (fun s =>
    ⟨s.cc.n || m.getLsbD 3, s.cc.z || m.getLsbD 2, s.cc.v || m.getLsbD 1, s.cc.c || m.getLsbD 0⟩)) ∧
  ChangesFlags .nop (fun s => s.cc) ∧ ChangesFlags .nopSet (fun s => s.cc) ∧
  ChangesFlags .clc (fun s => { s.cc with c := false }) ∧ ChangesFlags .clv (fun s => { s.cc with v := false }) ∧
  ChangesFlags .clz (fun s => { s.cc with z := false }) ∧ ChangesFlags .cln (fun s => { s.cc with n := false }) ∧
  ChangesFlags .ccc (fun _ => ⟨false, false, false, false⟩) ∧
  ChangesFlags .sec (fun s => { s.cc with c := true }) ∧ ChangesFlags .sev (fun s => { s.cc with v := true }) ∧
  ChangesFlags .sez (fun s => { s.cc with z := true }) ∧ ChangesFlags .sen (fun s => { s.cc with n := true }) ∧
  ChangesFlags .scc (fun _ => ⟨true, true, true, true⟩) ∧
  (∀ m : BitVec 4, encodeWord (.clx m) = 0o000240 ||| m.setWidth 16 ∧
    encodeWord (.sex m) = 0o000260 ||| m.setWidth 16) ∧
  encodeWord .nop = 0o000240 ∧ encodeWord .nopSet = 0o000260 ∧ encodeWord .clc = 0o000241 ∧
  encodeWord .clv = 0o000242 ∧ encodeWord .clz = 0o000244 ∧ encodeWord .cln = 0o000250 ∧
  encodeWord .ccc = 0o000257 ∧ encodeWord .sec = 0o000261 ∧ encodeWord .sev = 0o000262 ∧
  encodeWord .sez = 0o000264 ∧ encodeWord .sen = 0o000270 ∧ encodeWord .scc = 0o000277

/-- R250 to R259, R262, R263: the branches on N, Z and V, and BR, and their words. -/
def Obligations.BranchesFollowConditions : Prop :=
  ∀ (s : State) (bb : BitVec 8),
    Branched s (exec (.br bb) s) true bb ∧
    Branched s (exec (.bne bb) s) (s.cc.z = false) bb ∧ Branched s (exec (.beq bb) s) (s.cc.z = true) bb ∧
    Branched s (exec (.bge bb) s) (s.cc.n = s.cc.v) bb ∧ Branched s (exec (.blt bb) s) (s.cc.n ≠ s.cc.v) bb ∧
    Branched s (exec (.bgt bb) s) (s.cc.z = false ∧ s.cc.n = s.cc.v) bb ∧
    Branched s (exec (.ble bb) s) (s.cc.z = true ∨ s.cc.n ≠ s.cc.v) bb ∧
    Branched s (exec (.bpl bb) s) (s.cc.n = false) bb ∧ Branched s (exec (.bmi bb) s) (s.cc.n = true) bb ∧
    Branched s (exec (.bvc bb) s) (s.cc.v = false) bb ∧ Branched s (exec (.bvs bb) s) (s.cc.v = true) bb ∧
    encodeWord (.br bb) = 0o000400 ||| bb.setWidth 16 ∧ encodeWord (.bne bb) = 0o001000 ||| bb.setWidth 16 ∧
    encodeWord (.beq bb) = 0o001400 ||| bb.setWidth 16 ∧ encodeWord (.bge bb) = 0o002000 ||| bb.setWidth 16 ∧
    encodeWord (.blt bb) = 0o002400 ||| bb.setWidth 16 ∧ encodeWord (.bgt bb) = 0o003000 ||| bb.setWidth 16 ∧
    encodeWord (.ble bb) = 0o003400 ||| bb.setWidth 16 ∧ encodeWord (.bpl bb) = 0o100000 ||| bb.setWidth 16 ∧
    encodeWord (.bmi bb) = 0o100400 ||| bb.setWidth 16 ∧ encodeWord (.bvc bb) = 0o102000 ||| bb.setWidth 16 ∧
    encodeWord (.bvs bb) = 0o102400 ||| bb.setWidth 16

/-- R250, R260, R261, R264, R265: the branches on C see PSW.C. Right after MOVB or MFPS to a register they see 0 when the
erratum is modelled (`ERRATUM_FRC`): R440, and the spec's own decision D11 on its extent. BHIS and BLO are second names of
BCC and BCS. Their words. -/
def Obligations.CarryBranchesSeeFrC : Prop :=
  ∀ (s : State) (bb : BitVec 8) (c : Bool),
    c = (s.cc.c && !(s.cfg.erratumFrc && s.seq.frcStale)) →
    Branched s (exec (.bhi bb) s) (s.cc.z = false ∧ c = false) bb ∧
    Branched s (exec (.blos bb) s) (s.cc.z = true ∨ c = true) bb ∧
    Branched s (exec (.bcc bb) s) (c = false) bb ∧ Branched s (exec (.bcs bb) s) (c = true) bb ∧
    Branched s (exec (.bhis bb) s) (c = false) bb ∧ Branched s (exec (.blo bb) s) (c = true) bb ∧
    encodeWord (.bhi bb) = 0o101000 ||| bb.setWidth 16 ∧ encodeWord (.blos bb) = 0o101400 ||| bb.setWidth 16 ∧
    encodeWord (.bcc bb) = 0o103000 ||| bb.setWidth 16 ∧ encodeWord (.bhis bb) = 0o103000 ||| bb.setWidth 16 ∧
    encodeWord (.bcs bb) = 0o103400 ||| bb.setWidth 16 ∧ encodeWord (.blo bb) = 0o103400 ||| bb.setWidth 16

/-! ### Operands -/

/-- R192: the step of autoincrement and autodecrement. R182 to R188, R198: the address each mode gives and the register it
changes, where the words it reads are RAM; where nothing answers, the timeout with the register already changed. R181, R193:
what a source operand is: the register, or its low byte; the word or byte at the operand's address, where that is RAM; a
timeout where nothing answers. Whatever answers and whatever the environment does meanwhile, PSW, the sequencer, the
parameters and every register but the operand's own and PC are as before; with nothing from the environment and no device
that reacts to a read (assumption 13) nothing else of the machine changes either. Bytes at odd addresses: assumption 26. -/
def Obligations.OperandAccess : Prop :=
  (∀ r : Reg, stepSize .word r = 2 ∧ (r ≠ .sp → r ≠ .pc → stepSize .byte r = 1) ∧
    (r = .sp ∨ r = .pc → stepSize .byte r = 2)) ∧
  (∀ (r : Reg) (sz : Size) (s : State),
     effAddr .deferred r sz s = .ok (s.reg r) s ∧
     effAddr .autoInc r sz s = .ok (s.reg r) (s.setReg r (s.reg r + stepSize sz r)) ∧
     effAddr .autoDec r sz s = .ok (s.reg r - stepSize sz r) (s.setReg r (s.reg r - stepSize sz r)) ∧
     (s.ramWord (s.reg r) = true →
       Gives (effAddr .autoIncDef r sz s) (s.memWord (s.reg r)) (s.setReg r (s.reg r + 2))) ∧
     (s.noReply (s.reg r) = true → TimesOut (effAddr .autoIncDef r sz s) (s.setReg r (s.reg r + 2))) ∧
     (s.ramWord (s.reg r - 2) = true →
       Gives (effAddr .autoDecDef r sz s) (s.memWord (s.reg r - 2)) (s.setReg r (s.reg r - 2))) ∧
     (s.noReply (s.reg r - 2) = true → TimesOut (effAddr .autoDecDef r sz s) (s.setReg r (s.reg r - 2))) ∧
     (s.noReply (s.reg .pc) = true →
       TimesOut (effAddr .index r sz s) (s.setReg .pc (s.reg .pc + 2)) ∧
       TimesOut (effAddr .indexDef r sz s) (s.setReg .pc (s.reg .pc + 2))) ∧
     (∀ (s1 : State) (a : Word), s.ramWord (s.reg .pc) = true → s1 = s.setReg .pc (s.reg .pc + 2) →
       a = s1.reg r + s.memWord (s.reg .pc) →
       Gives (effAddr .index r sz s) a s1 ∧
       (s.ramWord a = true → Gives (effAddr .indexDef r sz s) (s.memWord a) s1) ∧
       (s.noReply a = true → TimesOut (effAddr .indexDef r sz s) s1))) ∧
  (∀ s : State,
     (∀ r, readOpWord (.reg r) s = .ok (s.reg r) s ∧ readOpByte (.reg r) s = .ok (loByte (s.reg r)) s) ∧
     (∀ (m : MemMode) (r : Reg) (a : Word) (s1 : State), effAddr m r .word s = .ok a s1 →
       (s1.ramWord a = true → Gives (readOpWord (.mem m r) s) (s1.memWord a) s1) ∧
       (s1.noReply a = true → TimesOut (readOpWord (.mem m r) s) s1)) ∧
     (∀ (m : MemMode) (r : Reg) (a : Word) (s1 : State), effAddr m r .byte s = .ok a s1 →
       (s1.ramByte a = true → Gives (readOpByte (.mem m r) s) (s1.readByteAt a) s1) ∧
       (s1.noReply a = true → TimesOut (readOpByte (.mem m r) s) s1))) ∧
  (∀ (s s1 : State) (m : MemMode) (r : Reg) (sz : Size) (o : Operand) (a w : Word) (b : Byte),
     (effAddr m r sz s = .ok a s1 ∨ readOpWord o s = .ok w s1 ∨ readOpByte o s = .ok b s1) →
     (s1.psw = s.psw ∧ s1.seq = s.seq ∧ s1.cfg = s.cfg ∧
       ∀ q, q ≠ r → q ≠ baseReg o → q ≠ .pc → s1.reg q = s.reg q) ∧
     (s.quiet = true → s.inert = true →
       s1 = { s with regs := s1.regs, micro := s1.micro, freeCtr := s1.freeCtr }))

/-! ### Single-operand instructions -/

/-- R271 to R277, R280: CLR, COM, INC, DEC, NEG, ADC, SBC. R286 to R292, R281: CLRB, COMB, INCB, DECB, NEGB, ADCB, SBCB. The
word at PC is read before a register is written (R28, R191); which forms read it, and what a timeout of that read leaves:
assumptions 10 and 11. Bytes at odd
addresses: assumption 26. -/
def Obligations.ArithmeticResultsAndFlags : Prop :=
  WordModify .clr (fun _ _ => (0, ⟨false, true, false, false⟩)) ∧
  WordModify .com (fun _ x => (~~~x, ⟨(~~~x).getLsbD 15, ~~~x == 0, false, true⟩)) ∧
  WordModify .inc (fun s x => (x + 1, ⟨(x + 1).getLsbD 15, x + 1 == 0, x == 0o077777, s.cc.c⟩)) ∧
  WordModify .dec (fun s x => (x - 1, ⟨(x - 1).getLsbD 15, x - 1 == 0, x == 0o100000, s.cc.c⟩)) ∧
  WordModify .neg (fun s x => (0 - x, ⟨(0 - x).getLsbD 15, 0 - x == 0, x == 0o100000, borrowFlag s (x != 0)⟩)) ∧
  WordModify .adc (fun s x =>
    (x + carryIn 16 s, ⟨(x + carryIn 16 s).getLsbD 15, x + carryIn 16 s == 0, x == 0o077777 && s.cc.c,
      x == 0o177777 && s.cc.c⟩)) ∧
  WordModify .sbc (fun s x =>
    (x - carryIn 16 s, ⟨(x - carryIn 16 s).getLsbD 15, x - carryIn 16 s == 0, x == 0o100000 && s.cc.c,
      borrowFlag s (x == 0 && s.cc.c)⟩)) ∧
  ByteModify .clrb (fun _ _ => (0, ⟨false, true, false, false⟩)) ∧
  ByteModify .comb (fun _ x => (~~~x, ⟨(~~~x).getLsbD 7, ~~~x == 0, false, true⟩)) ∧
  ByteModify .incb (fun s x => (x + 1, ⟨(x + 1).getLsbD 7, x + 1 == 0, x == 0o177, s.cc.c⟩)) ∧
  ByteModify .decb (fun s x => (x - 1, ⟨(x - 1).getLsbD 7, x - 1 == 0, x == 0o200, s.cc.c⟩)) ∧
  ByteModify .negb (fun s x => (0 - x, ⟨(0 - x).getLsbD 7, 0 - x == 0, x == 0o200, borrowFlag s (x != 0)⟩)) ∧
  ByteModify .adcb (fun s x =>
    (x + carryIn 8 s, ⟨(x + carryIn 8 s).getLsbD 7, x + carryIn 8 s == 0, x == 0o177 && s.cc.c,
      x == 0o377 && s.cc.c⟩)) ∧
  ByteModify .sbcb (fun s x =>
    (x - carryIn 8 s, ⟨(x - carryIn 8 s).getLsbD 7, x - carryIn 8 s == 0, x == 0o200 && s.cc.c,
      borrowFlag s (x == 0 && s.cc.c)⟩))

/-- R282 to R285, R294 to R297, R280, R281: the shifts and rotates of words and bytes. C is the bit shifted out, V is C
xor N of the result. The early read of the word at PC: assumptions 10 and 11. Bytes at odd
addresses: assumption 26. -/
def Obligations.ShiftResultsAndFlags : Prop :=
  WordModify .ror (fun s x => shifted ((carryIn 16 s <<< 15) ||| (x >>> 1)) (x.getLsbD 0)) ∧
  WordModify .rol (fun s x => shifted ((x <<< 1) ||| carryIn 16 s) (x.getLsbD 15)) ∧
  WordModify .asr (fun _ x => shifted ((x &&& (0o100000 : Word)) ||| (x >>> 1)) (x.getLsbD 0)) ∧
  WordModify .asl (fun _ x => shifted (x <<< 1) (x.getLsbD 15)) ∧
  ByteModify .rorb (fun s x => shifted ((carryIn 8 s <<< 7) ||| (x >>> 1)) (x.getLsbD 0)) ∧
  ByteModify .rolb (fun s x => shifted ((x <<< 1) ||| carryIn 8 s) (x.getLsbD 7)) ∧
  ByteModify .asrb (fun _ x => shifted ((x &&& (0o200 : Byte)) ||| (x >>> 1)) (x.getLsbD 0)) ∧
  ByteModify .aslb (fun _ x => shifted (x <<< 1) (x.getLsbD 7))

/-- R270, R280: SWAB; the flags look at the low byte of the result. R279, R280: SXT; Z is not N (D21), C unchanged. The early read of the
word at PC: assumptions 10 and 11. -/
def Obligations.SwabAndSxtResultsAndFlags : Prop :=
  (WordModify .swab (fun _ x => (mkWord (hiByte x) (loByte x), ⟨x.getLsbD 15, hiByte x == 0, false, false⟩))) ∧
  (WordModify .sxt (fun s _ => (if s.cc.n then 0o177777 else 0, ⟨s.cc.n, !s.cc.n, false, s.cc.c⟩)))

/-- R278, R293, R280, R281: TST and TSTB only read their operand. The early read of the word at PC:
assumptions 10 and 11. Bytes at odd
addresses: assumption 26. -/
def Obligations.TestsOnlyRead : Prop :=
  WordTest .tst (fun _ x => ⟨x.getLsbD 15, x == 0, false, false⟩) ∧
  ByteTest .tstb (fun _ x => ⟨x.getLsbD 7, x == 0, false, false⟩)

/-- R300: MTPS loads bits 7:5 and 3:0 of PSW from its byte operand; T and bits 15:8 are kept, and so are registers and
memory (but the source register's bit 4 under `MTPS_CLEARS_SRC_BIT4`, and what the addressing mode changes). R301,
R440: MFPS stores the low byte of PSW as it is before its own flags change; a register takes the sign extension and
leaves FR.C stale, a byte of memory is read and written. The register forms read the word at PC early; MTPS discards it
(assumption 11), and its timeout keeps the PSW it has loaded (assumption 10). Bytes at odd addresses: assumption 26. -/
def Obligations.MtpsAndMfpsTransferPsw : Prop :=
  ((∀ (r : Reg) (s : State), s.ramWord (s.reg .pc) = true →
     ∃ t, exec (.mtps (.reg r)) s = .next t ∧ PswLow s t (loByte (s.reg r)) ∧
       OnlyReg s t r (if s.cfg.mtpsClearsSrcBit4 then s.reg r &&& 0o177757 else s.reg r) ∧ SameMemory s t ∧
       Rest false s.seq.shadow s t) ∧
   (∀ (r : Reg) (s : State), s.noReply (s.reg .pc) = true →
     ∃ u, PswLow s u (loByte (s.reg r)) ∧
       OnlyReg s u r (if s.cfg.mtpsClearsSrcBit4 then s.reg r &&& 0o177757 else s.reg r) ∧
       u = { s with regs := u.regs, psw := u.psw } ∧ Raises (exec (.mtps (.reg r)) s) u) ∧
   (∀ (m : MemMode) (r : Reg) (s s1 : State) (a : Word), effAddr m r .byte s = .ok a s1 → s1.ramByte a = true →
     ∃ t, exec (.mtps (.mem m r)) s = .next t ∧ PswLow s t (s1.readByteAt a) ∧ t.regs = s1.regs ∧
       (∀ q, q ≠ r → q ≠ .pc → t.reg q = s.reg q) ∧ SameMemory s1 t ∧ Rest false s.seq.shadow s1 t) ∧
   MemTraps .byte .mtps) ∧
  ((∀ (r : Reg) (s : State), s.ramWord (s.reg .pc) = true →
     ∃ t, exec (.mfps (.reg r)) s = .next t ∧ OnlyReg s t r ((loByte s.psw).signExtend 16) ∧
       FlagsAre s t ⟨s.psw.getLsbD 7, loByte s.psw == 0, false, s.cc.c⟩ ∧ SameMemory s t ∧
       Rest true (s.prefetched (r == .pc)) s t) ∧
   (∀ (r : Reg) (s : State), s.noReply (s.reg .pc) = true →
     PrefetchRaises (exec (.mfps (.reg r)) s) s (r == .pc)) ∧
   ByteInMem .mfps (fun s _ => (loByte s.psw, ⟨s.psw.getLsbD 7, loByte s.psw == 0, false, s.cc.c⟩)))

/-! ### Double-operand instructions -/

/-- R310, R311: MOV writes its source without reading the destination: at a device it does what a write does there and
nothing of what a read does (the reactions of devices are the model's, assumption 13). The early read of the word at PC and
what its timeout leaves: assumptions 10 and 11. -/
def Obligations.MovWritesSource : Prop :=
  WordPair .mov (fun s v _ => (v, ⟨v.getLsbD 15, v == 0, false, s.cc.c⟩)) ∧
  (∀ (ss : Operand) (m : MemMode) (r : Reg) (s s1 s2 : State) (v a : Word) (onRead onWrite : List Reaction),
    readOpWord ss s = .ok v s1 → effAddr m r .word s1 = .ok a s2 → IsDevice s2 a onRead onWrite → isOdd a = false →
    ∃ t, exec (.mov ss (.mem m r)) s = .next t ∧ t.regs = s2.regs ∧ t.freeCtr = (s2.reacts onWrite).freeCtr ∧
      t.plat = (s2.reacts onWrite).plat ∧ t.mem = s2.mem ∧
      FlagsAre s t ⟨v.getLsbD 15, v == 0, false, s.cc.c⟩)

/-- R310, R312, R313, R320, R322, R323: CMP, BIT, CMPB and BITB write nothing; a compare subtracts the destination from the
source. The early read of the word at PC and what its timeout leaves: assumptions 10 and 11. Bytes at odd
addresses: assumption 26. -/
def Obligations.ComparesWriteNothing : Prop :=
  (WordPairTest .cmp (fun s v d => ⟨(v - d).getLsbD 15, v - d == 0,
     v.getLsbD 15 != d.getLsbD 15 && (v - d).getLsbD 15 == d.getLsbD 15, borrowFlag s (v.ult d)⟩) ∧
   WordPairTest .bit (fun s v d => ⟨(v &&& d).getLsbD 15, v &&& d == 0, false, s.cc.c⟩)) ∧
  (BytePairTest .cmpb (fun s v d => ⟨(v - d).getLsbD 7, v - d == 0,
     v.getLsbD 7 != d.getLsbD 7 && (v - d).getLsbD 7 == d.getLsbD 7, borrowFlag s (v.ult d)⟩) ∧
   BytePairTest .bitb (fun s v d => ⟨(v &&& d).getLsbD 7, v &&& d == 0, false, s.cc.c⟩))

/-- R310, R314, R315, R318: BIC, BIS, and XOR, whose source is a register captured before the destination's side effects.
R320, R324, R325: BICB and BISB. The early read of the word at PC: assumptions 10 and 11. Bytes at odd
addresses: assumption 26. -/
def Obligations.LogicResultsAndFlags : Prop :=
  (WordPair .bic (fun s v d => (d &&& ~~~v, ⟨(d &&& ~~~v).getLsbD 15, d &&& ~~~v == 0, false, s.cc.c⟩)) ∧
   WordPair .bis (fun s v d => (d ||| v, ⟨(d ||| v).getLsbD 15, d ||| v == 0, false, s.cc.c⟩)) ∧
   ∀ r,
     WordInReg (r == .pc) (.xor r) (fun s d =>
       (d ^^^ s.reg r, ⟨(d ^^^ s.reg r).getLsbD 15, d ^^^ s.reg r == 0, false, s.cc.c⟩)) ∧
     WordInMem (.xor r) (fun s d =>
       (d ^^^ s.reg r, ⟨(d ^^^ s.reg r).getLsbD 15, d ^^^ s.reg r == 0, false, s.cc.c⟩))) ∧
  (BytePair .bicb (fun s v d => (d &&& ~~~v, ⟨(d &&& ~~~v).getLsbD 7, d &&& ~~~v == 0, false, s.cc.c⟩)) ∧
   BytePair .bisb (fun s v d => (d ||| v, ⟨(d ||| v).getLsbD 7, d ||| v == 0, false, s.cc.c⟩)))

/-- R310, R316, R317: ADD and SUB. The early read of the word at PC: assumptions 10 and 11. -/
def Obligations.AddAndSubResultsAndFlags : Prop :=
  WordPair .add (fun _ v d => (v + d, ⟨(v + d).getLsbD 15, v + d == 0,
    v.getLsbD 15 == d.getLsbD 15 && (v + d).getLsbD 15 != v.getLsbD 15, decide (2 ^ 16 ≤ v.toNat + d.toNat)⟩)) ∧
  WordPair .sub (fun s v d => (d - v, ⟨(d - v).getLsbD 15, d - v == 0,
    d.getLsbD 15 != v.getLsbD 15 && (d - v).getLsbD 15 == v.getLsbD 15, borrowFlag s (d.ult v)⟩))

/-- R320, R321, R440: MOVB to a register writes the sign extension and leaves FR.C stale; to memory it writes one byte
without a read: at a device it does what a write does there and nothing of what a read does (assumption 13). The early read
of the word at PC, discarded with R7 as a register operand, and what its timeout leaves: assumptions 10 and 11. Bytes at odd
addresses: assumption 26. -/
def Obligations.MovbExtendsOrStoresByte : Prop :=
  (∀ (ss : Operand) (r : Reg) (s s1 : State) (v : Byte), readOpByte ss s = .ok v s1 →
    s1.ramWord (s1.reg .pc) = true →
    ∃ t, exec (.movb ss (.reg r)) s = .next t ∧ OnlyReg s1 t r (v.signExtend 16) ∧
      (∀ q, q ≠ r → q ≠ .pc → q ≠ baseReg ss → t.reg q = s.reg q) ∧
      FlagsAre s t ⟨v.getLsbD 7, v == 0, false, s.cc.c⟩ ∧ SameMemory s1 t ∧
      Rest true (s1.prefetched (isPc ss || r == .pc)) s1 t) ∧
  (∀ (ss : Operand) (m : MemMode) (r : Reg) (s s1 s2 : State) (v : Byte) (a : Word), s2.mem.wf = true →
    readOpByte ss s = .ok v s1 → effAddr m r .byte s1 = .ok a s2 → s2.ramByte a = true →
    ∃ t, exec (.movb ss (.mem m r)) s = .next t ∧ t.regs = s2.regs ∧
      (∀ q, q ≠ r → q ≠ .pc → q ≠ baseReg ss → t.reg q = s.reg q) ∧ OnlyByte s2 t a v ∧
      FlagsAre s t ⟨v.getLsbD 7, v == 0, false, s.cc.c⟩ ∧ Rest false s.seq.shadow s2 t) ∧
  (∀ (ss : Operand) (m : MemMode) (r : Reg) (s s1 s2 : State) (v : Byte) (a : Word) (onRead onWrite : List Reaction),
    readOpByte ss s = .ok v s1 → effAddr m r .byte s1 = .ok a s2 → IsDevice s2 a onRead onWrite →
    ∃ t, exec (.movb ss (.mem m r)) s = .next t ∧ t.regs = s2.regs ∧ t.freeCtr = (s2.reacts onWrite).freeCtr ∧
      t.plat = (s2.reacts onWrite).plat ∧ t.mem = s2.mem ∧
      FlagsAre s t ⟨v.getLsbD 7, v == 0, false, s.cc.c⟩) ∧
  BytePairTraps .movb

/-! ### MUL -/

/-- R330, R332: MUL on ВМ1Г: the register read after the source; the high word of the signed product into an even
register and the low word into the next, only the low word into an odd one; C says that the product does not fit. N,
Z, V follow the product under `MUL_NZV = product`, and are not spoken of under `any`. A timeout of the source is
raised. The product flags are the spec's general knowledge (assumption 22). -/
def Obligations.MulProductOnVm1g : Prop :=
  (∀ (ss : Operand) (r : Reg) (s s1 : State) (v : Word) (p : Int), s.cfg.variant = .vm1g →
    readOpWord ss s = .ok v s1 → p = (s1.reg r).toInt * v.toInt →
    ∃ t, exec (.mul r ss) s = .next t ∧
      t.reg (oddOf r) = BitVec.ofInt 16 p ∧
      (r ≠ oddOf r → t.reg r = BitVec.ofInt 16 (p / 65536)) ∧
      (∀ q, q ≠ r → q ≠ oddOf r → t.reg q = s1.reg q) ∧
      (∀ q, q ≠ r → q ≠ oddOf r → q ≠ .pc → q ≠ baseReg ss → t.reg q = s.reg q) ∧
      t.psw.getLsbD 0 = !decide (-32768 ≤ p ∧ p ≤ 32767) ∧
      (s.cfg.mulNzv = .product → t.psw.getLsbD 3 = decide (p < 0) ∧ t.psw.getLsbD 2 = decide (p = 0) ∧
        t.psw.getLsbD 1 = false) ∧
      (∀ k, 4 ≤ k → t.psw.getLsbD k = s.psw.getLsbD k) ∧ SameMemory s1 t ∧ Rest false s.seq.shadow s1 t) ∧
  (∀ (ss : Operand) (r : Reg) (s s1 : State) (k : BusKind), s.cfg.variant = .vm1g →
    readOpWord ss s = .abort (.timeout k) s1 → exec (.mul r ss) s = raiseTimeout k s1)

/-- R163, R330, R342: on ВМ1А the codes of MUL raise the exception through 000010 with saved PC `. + 2`; UOP is set in
CPU_ERROR, the operand is not read. The decoder reads the words as MUL on both variants (assumption 20). -/
def Obligations.MulIllegalOnVm1a : Prop :=
  ∀ (s : State) (r : Reg) (ss : Operand), s.cfg.variant = .vm1a → NoError s → UserRoom s 0o10 →
    ∃ t, exec (.mul r ss) s = .next t ∧
      UserEntered { s with per := { s.per with errFlags := s.per.errFlags ||| 0x02 } } t (s.reg .pc) 0o10

/-! ### Memory, the peripheral block, the timer -/

/-- R70 to R72, R76 to R79: plain RAM. A word or byte reads as it was last written, the low byte of a word at its even
address; a write changes no other byte; a read-modify-write stores what the function makes of the word or byte that was
there and gives what it gives besides; an access where nothing answers is a timeout and changes nothing. Only the registers
no program sees change otherwise. The kinds of slave, and that RAM ignores address bit 0 on a byte read, are the model's
(assumptions 13 and 26). -/
def Obligations.RamTransactions : Prop :=
  ∀ (s : State) (a : Word), s.mem.wf = true →
    (s.ramWord a = true → Gives (readWord a s) (mkWord (s.readByteAt a) (s.readByteAt (a + 1))) s ∧
      (∀ w, ∃ t, writeWord a w s = .ok () t ∧ Gives (readWord a t) w t ∧ t.readByteAt a = loByte w ∧
        t.readByteAt (a + 1) = hiByte w ∧ OnlyWord s t a w ∧ t.mem.wf = true ∧
        t = { s with mem := t.mem, micro := t.micro }) ∧
      ∀ f : Word → Word × Cc, ∃ t, rmwWord a f s = .ok (f (s.memWord a)).2 t ∧ OnlyWord s t a (f (s.memWord a)).1 ∧
        t.mem.wf = true ∧ t = { s with mem := t.mem, micro := t.micro }) ∧
    (s.ramByte a = true → Gives (readByte a s) (s.readByteAt a) s ∧
      (∀ v, ∃ t, writeByte a v s = .ok () t ∧ Gives (readByte a t) v t ∧ OnlyByte s t a v ∧ t.mem.wf = true ∧
        t = { s with mem := t.mem, micro := t.micro }) ∧
      ∀ f : Byte → Byte × Cc, ∃ t, rmwByte a f s = .ok (f (s.readByteAt a)).2 t ∧
        OnlyByte s t a (f (s.readByteAt a)).1 ∧ t.mem.wf = true ∧ t = { s with mem := t.mem, micro := t.micro }) ∧
    (s.noReply a = true → TimesOut (readWord a s) s ∧ TimesOut (readByte a s) s ∧
      (∀ w v, TimesOut (writeWord a w s) s ∧ TimesOut (writeByte a v s) s) ∧
      (∀ f : Word → Word × Cc, TimesOut (rmwWord a f s) s) ∧ ∀ f : Byte → Byte × Cc, TimesOut (rmwByte a f s) s)

/-- R74, D5: a word transaction at an odd external address of RAM: declined, or at the even address below, or answered by the
platform as it likes, a write then changing at most the two words it touches (assumption 12); that RAM replies there at all
is the model's choice (assumption 4). R87, R95, D6: ROM answers reads
and stores nothing; a device answers and reacts, and what it gives is open. R95, R98, R400, R413: each register of another
chip that is present, the select registers among them, is read and written by word transactions as the own ones are; a dead
timer, an undriven select line and the 4 CLC after a reload are left out, and a low nINIT holds the timer's control at 0. The
kinds of slave, their reactions, the other chips as data, their select registers and the written bits of CPU_ERROR are the
model's (assumptions 6, 13, 14, 15 and 19). -/
def Obligations.SlavesOfThePlatform : Prop :=
  (∀ (s : State) (a : Word), s.quiet = true → s.isRam a = true → isOdd a = true → ∀ w,
    (s.cfg.oddWord = .refuse →
      (∃ m, readWord a s = .abort (.refused .oddWordAccess) { s with micro := m }) ∧
      ∃ m, writeWord a w s = .abort (.refused .oddWordAccess) { s with micro := m }) ∧
    (s.cfg.oddWord = .ignoreBit0 →
      Gives (readWord a s) (s.memWord (a - 1)) s ∧ Gives (writeWord a w s) () (s.putWord (a - 1) w)) ∧
    (s.cfg.oddWord = .platform →
      (∃ v, Gives (readWord a s) v s.useFree) ∧
      (s.mem.wf = true → ∃ t, writeWord a w s = .ok () t ∧
        t = { s with mem := t.mem, micro := t.micro, freeCtr := t.freeCtr } ∧ t.mem.wf = true ∧
        ∀ b, b ≠ a - 1 → b ≠ a → b ≠ a + 1 → b ≠ a + 2 → t.readByteAt b = s.readByteAt b))) ∧
  (∀ (s : State) (a w : Word) (v : Byte) (b : Bool), s.quiet = true → s.ownBlock a = false → s.chipAt a = none →
    s.slaveAt a = .rom b → isOdd a = false →
    Gives (readWord a s) (s.memWord a) s ∧ Gives (readByte a s) (s.readByteAt a) s ∧
    (b = true → Gives (writeWord a w s) () s ∧ Gives (writeByte a v s) () s) ∧
    (b = false → TimesOut (writeWord a w s) s ∧ TimesOut (writeByte a v s) s)) ∧
  (∀ (s : State) (a w : Word) (v : Byte) (onRead onWrite : List Reaction), IsDevice s a onRead onWrite →
    isOdd a = false →
    (∃ x, Gives (readWord a s) x (s.useFree.reacts onRead)) ∧ Gives (writeWord a w s) () (s.reacts onWrite) ∧
    Gives (writeByte a v s) () (s.reacts onWrite)) ∧
  (∀ (s : State) (c : Chip) (odd : Bool), s.quiet = true → c.cfg.ncpu ≠ s.cfg.ncpu →
    s.chipAt (chipAddr c.cfg.ncpu 0 odd) = some c → c.cfg.timerAlive = true → c.timer.window = 0 →
    c.cfg.sel1Kind = .register → c.cfg.sel2Kind = .register →
    Gives (readWord (chipAddr c.cfg.ncpu 0 odd) s) ((0o177740 : Word) ||| (c.cfg.ncpu.setWidth 16 <<< 3) |||
      (if c.per.wcpu then 4 else 0) ||| (if c.per.st then 2 else 0) ||| (if c.per.hlt then 1 else 0)) s ∧
    (c.per.ivecReq = false → Gives (readWord (chipAddr c.cfg.ncpu 2 odd) s) 0o177777 s) ∧
    (c.per.ivecReq = true → TimesOut (readWord (chipAddr c.cfg.ncpu 2 odd) s) s) ∧
    Gives (readWord (chipAddr c.cfg.ncpu 4 odd) s) (0o177440 ||| c.per.errFlags.setWidth 16) s ∧
    Gives (readWord (chipAddr c.cfg.ncpu 6 odd) s) c.timer.limit s ∧
    Gives (readWord (chipAddr c.cfg.ncpu 8 odd) s) c.timer.count s ∧
    Gives (readWord (chipAddr c.cfg.ncpu 10 odd) s) (0o177400 ||| c.timer.csr.setWidth 16) s ∧
    Gives (readWord (chipAddr c.cfg.ncpu 12 odd) s) c.sel2 s ∧
    Gives (readWord (chipAddr c.cfg.ncpu 14 odd) s) c.sel1 s ∧
    ∀ w : Word,
      Gives (writeWord (chipAddr c.cfg.ncpu 0 odd) w s) () (s.withChip c
        { c with per := { c.per with wcpu := w.getLsbD 2, st := w.getLsbD 1, hlt := w.getLsbD 0 } }) ∧
      (c.per.ivecReq = false →
        Gives (writeWord (chipAddr c.cfg.ncpu 2 odd) w s) () (s.withChip c { c with per := { c.per with ivecReq := true } })) ∧
      (c.per.ivecReq = true → TimesOut (writeWord (chipAddr c.cfg.ncpu 2 odd) w s) s) ∧
      Gives (writeWord (chipAddr c.cfg.ncpu 4 odd) w s) ()
        (s.withChip c { c with per := { c.per with errFlags := loByte w &&& 0o337 } }) ∧
      Gives (writeWord (chipAddr c.cfg.ncpu 6 odd) w s) () (s.withChip c { c with timer := { c.timer with limit := w } }) ∧
      Gives (writeWord (chipAddr c.cfg.ncpu 8 odd) w s) () s ∧
      Gives (writeWord (chipAddr c.cfg.ncpu 10 odd) w s) () (s.withChip c { c with
        timer := { c.timer with csr := if s.initLine then 0 else loByte w, count := c.timer.limit, window := 0 } }) ∧
      Gives (writeWord (chipAddr c.cfg.ncpu 12 odd) w s) () (s.withChip c { c with sel2 := w }) ∧
      Gives (writeWord (chipAddr c.cfg.ncpu 14 odd) w s) () (s.withChip c { c with sel1 := w }))

/-- R50 to R56, R58, R400: what a word read of each register of the own peripheral block returns, bit 0 of the address
ignored; a read changes nothing but what no program sees. A dead timer, an undriven select line and the 4 CLC after a reload
are left out. That registers stand behind the select lines is a hypothesis (assumption 6). -/
def Obligations.PeripheralReads : Prop :=
  ∀ (s : State) (odd : Bool), s.quiet = true → s.cfg.timerAlive = true → s.timer.window = 0 →
    s.cfg.sel1Kind = .register → s.cfg.sel2Kind = .register →
    Gives (readWord (blockAddr s 0 odd) s) ((0o177740 : Word) ||| (s.cfg.ncpu.setWidth 16 <<< 3) |||
      (if s.per.wcpu then 4 else 0) ||| (if s.per.st then 2 else 0) ||| (if s.per.hlt then 1 else 0)) s ∧
    (s.per.ivecReq = false → Gives (readWord (blockAddr s 2 odd) s) 0o177777 s) ∧
    (s.per.ivecReq = true → TimesOut (readWord (blockAddr s 2 odd) s) s) ∧
    Gives (readWord (blockAddr s 4 odd) s) (0o177440 ||| s.per.errFlags.setWidth 16) s ∧
    Gives (readWord (blockAddr s 6 odd) s) s.timer.limit s ∧
    Gives (readWord (blockAddr s 8 odd) s) s.timer.count s ∧
    Gives (readWord (blockAddr s 10 odd) s) (0o177400 ||| s.timer.csr.setWidth 16) s ∧
    Gives (readWord (blockAddr s 12 odd) s) s.plat.sel2 s ∧
    Gives (readWord (blockAddr s 14 odd) s) s.plat.sel1 s

/-- R51 to R56, R58, R395, R400, R401: what a word write to each register of the own peripheral block does, and what a byte
write to the low half and to the high half does (D24, assumption 19); neither does anything else that a program sees. The
bits of CPU_ERROR are stored as written (D25, assumption 19); that a write to TVE_CSR ends the window of a reload is the
model's (assumption 18), and so is that a low nINIT holds the written control bits at 0 (assumption 15); that the select
registers store is the model's choice (assumption 6). -/
def Obligations.PeripheralWrites : Prop :=
  (∀ (s : State) (w : Word) (odd : Bool), s.quiet = true → s.cfg.timerAlive = true →
    Gives (writeWord (blockAddr s 0 odd) w s) () { s with
      per := { s.per with wcpu := w.getLsbD 2, st := w.getLsbD 1, hlt := w.getLsbD 0 } } ∧
    (s.per.ivecReq = false →
      Gives (writeWord (blockAddr s 2 odd) w s) () { s with per := { s.per with ivecReq := true } }) ∧
    (s.per.ivecReq = true → TimesOut (writeWord (blockAddr s 2 odd) w s) s) ∧
    Gives (writeWord (blockAddr s 4 odd) w s) () { s with per := { s.per with errFlags := loByte w &&& 0o337 } } ∧
    Gives (writeWord (blockAddr s 6 odd) w s) () { s with timer := { s.timer with limit := w } } ∧
    Gives (writeWord (blockAddr s 8 odd) w s) () s ∧
    (s.initLine = false → Gives (writeWord (blockAddr s 10 odd) w s) () { s with
      timer := { s.timer with csr := loByte w, count := s.timer.limit, window := 0 } }) ∧
    (s.initLine = true → Gives (writeWord (blockAddr s 10 odd) w s) () { s with
      timer := { s.timer with csr := 0, count := s.timer.limit, window := 0 } }) ∧
    Gives (writeWord (blockAddr s 12 odd) w s) () { s with plat := { s.plat with sel2 := w } } ∧
    Gives (writeWord (blockAddr s 14 odd) w s) () { s with plat := { s.plat with sel1 := w } }) ∧
  (∀ (s : State) (v : Byte), s.quiet = true → s.cfg.timerAlive = true →
    Gives (writeByte (blockAddr s 0 false) v s) () { s with
      per := { s.per with wcpu := v.getLsbD 2, st := v.getLsbD 1, hlt := v.getLsbD 0 } } ∧
    Gives (writeByte (blockAddr s 0 true) v s) () s ∧
    (∀ odd, s.per.ivecReq = false →
      Gives (writeByte (blockAddr s 2 odd) v s) () { s with per := { s.per with ivecReq := true } }) ∧
    (∀ odd, s.per.ivecReq = true → TimesOut (writeByte (blockAddr s 2 odd) v s) s) ∧
    Gives (writeByte (blockAddr s 4 false) v s) () { s with per := { s.per with errFlags := v &&& 0o337 } } ∧
    (s.per.errFlags &&& 0o040 = 0 → Gives (writeByte (blockAddr s 4 true) v s) () s) ∧
    Gives (writeByte (blockAddr s 6 false) v s) () { s with
      timer := { s.timer with limit := mkWord v (hiByte s.timer.limit) } } ∧
    Gives (writeByte (blockAddr s 6 true) v s) () { s with
      timer := { s.timer with limit := mkWord (loByte s.timer.limit) v } } ∧
    (∀ odd, Gives (writeByte (blockAddr s 8 odd) v s) () s) ∧
    (s.initLine = false →
      Gives (writeByte (blockAddr s 10 false) v s) () { s with
        timer := { s.timer with csr := v, count := s.timer.limit, window := 0 } } ∧
      Gives (writeByte (blockAddr s 10 true) v s) () { s with
        timer := { s.timer with count := s.timer.limit, window := 0 } }) ∧
    (∀ odd, s.initLine = true → Gives (writeByte (blockAddr s 10 odd) v s) () { s with
      timer := { s.timer with csr := 0, count := s.timer.limit, window := 0 } }) ∧
    Gives (writeByte (blockAddr s 12 false) v s) () { s with plat := { s.plat with
      sel2 := mkWord v (hiByte s.plat.sel2) } } ∧
    Gives (writeByte (blockAddr s 12 true) v s) () { s with plat := { s.plat with
      sel2 := mkWord (loByte s.plat.sel2) v } } ∧
    Gives (writeByte (blockAddr s 14 false) v s) () { s with plat := { s.plat with
      sel1 := mkWord v (hiByte s.plat.sel1) } } ∧
    Gives (writeByte (blockAddr s 14 true) v s) () { s with plat := { s.plat with
      sel1 := mkWord (loByte s.plat.sel1) v } })

/-- R391, R392, R397, R447: `n` CLC periods at once are `n` single periods. With RUN = 0, and with SP = 1, where only nSP
counts, CLC periods change none of the timer's registers; with RUN = 1 and SP = 0 every CLC/128, CLC/512, CLC/2048 or
CLC/8192, as D4 and D16 select, gives exactly one count tick. -/
def Obligations.ClocksAreSinglePeriods : Prop :=
  (∀ (n : Nat) (t : Timer), Timer.clocks n t = Timer.clc^[n] t) ∧
  (∀ (n : Nat) (t : Timer), t.csr.getLsbD 4 = false ∨ t.csr.getLsbD 0 = true →
    (Timer.clocks n t).limit = t.limit ∧ (Timer.clocks n t).count = t.count ∧ (Timer.clocks n t).csr = t.csr ∧
    (Timer.clocks n t).req = t.req) ∧
  (∀ t : Timer, t.csr.getLsbD 4 = true → t.csr.getLsbD 0 = false →
    (Timer.clocks (countPeriod t) t).limit = t.tick.limit ∧ (Timer.clocks (countPeriod t) t).count = t.tick.count ∧
    (Timer.clocks (countPeriod t) t).csr = t.tick.csr ∧ (Timer.clocks (countPeriod t) t).req = t.tick.req)

/-- R392, R393, R396: one count tick. From 1 with CAP = 0 it is an event and a reload, which a one-shot ends by clearing
RUN; with CAP = 1 the count goes to 0 with no event; every other count is decremented modulo 2^16. An event with MON = 1
sets the request, and FL when a request was still there. R391, R394: a falling edge of nSP. With RUN = 1 it counts where
SP = 1, and where CAP = 1 it copies the count into TVE_LIMIT with an event; with both, the captured count is the one before
or after the tick (open: U7). With RUN = 0 it counts nothing and raises no event. Without a falling edge nSP does
nothing. -/
def Obligations.TimerTick : Prop :=
  (∀ t : Timer,
    (t.count ≠ 1 → t.tick = { t with count := t.count - 1 }) ∧
    (t.count = 1 → t.csr.getLsbD 1 = true → t.tick = { t with count := 0 }) ∧
    (t.count = 1 → t.csr.getLsbD 1 = false → t.tick.count = t.limit ∧ t.tick.limit = t.limit ∧
      t.tick.req = (t.req || t.csr.getLsbD 2) ∧
      t.tick.csr.getLsbD 7 = (t.csr.getLsbD 7 || (t.csr.getLsbD 2 && t.req)) ∧
      t.tick.csr.getLsbD 4 = (t.csr.getLsbD 4 && !t.csr.getLsbD 3) ∧
      ∀ k, k ≠ 7 → k ≠ 4 → t.tick.csr.getLsbD k = t.csr.getLsbD k)) ∧
  (∀ (s : State) (low : Bool), (low = false ∨ s.plat.pins.spLow = true) → (s.setSp low).timer = s.timer) ∧
  (∀ (s : State) (t : Timer), s.plat.pins.spLow = false → t = (s.setSp true).timer →
    (s.timer.csr.getLsbD 4 = true → s.timer.csr.getLsbD 0 = true → s.timer.csr.getLsbD 1 = false →
      t = s.timer.tick) ∧
    (s.timer.csr.getLsbD 4 = true → s.timer.csr.getLsbD 1 = true →
      (s.timer.csr.getLsbD 0 = false → t.limit = s.timer.count ∧ t.count = s.timer.count) ∧
      (s.timer.csr.getLsbD 0 = true → (t.limit = s.timer.count ∨ t.limit = s.timer.count - 1) ∧
        t.count = s.timer.count - 1) ∧
      t.req = (s.timer.req || s.timer.csr.getLsbD 2) ∧
      t.csr = if s.timer.csr.getLsbD 2 && s.timer.req then s.timer.csr ||| 0o200 else s.timer.csr) ∧
    (s.timer.csr.getLsbD 4 = true → s.timer.csr.getLsbD 0 = false → s.timer.csr.getLsbD 1 = false → t = s.timer) ∧
    (s.timer.csr.getLsbD 4 = false → t.count = s.timer.count ∧ t.csr = s.timer.csr ∧ t.req = s.timer.req ∧
      (s.timer.csr.getLsbD 1 = false → t = s.timer)))
end

