-- ==== Sys2Proof/Laws/State.lean ====
section
/-! SUPPORT. What each update of the state does to each field: one lemma per field per update, true by `rfl`, so that
no later proof unfolds a record update. -/

namespace Sys2Proof.Machine

variable (s : State)

/-! `State.setReg` -/

@[simp] theorem setReg_cfg (r : Reg) (v : Word) : (s.setReg r v).cfg = s.cfg := rfl
@[simp] theorem setReg_regs (r : Reg) (v : Word) : (s.setReg r v).regs = s.regs.set r v := rfl
@[simp] theorem setReg_psw (r : Reg) (v : Word) : (s.setReg r v).psw = s.psw := rfl
@[simp] theorem setReg_seq (r : Reg) (v : Word) : (s.setReg r v).seq = s.seq := rfl
@[simp] theorem setReg_micro (r : Reg) (v : Word) : (s.setReg r v).micro = s.micro := rfl
@[simp] theorem setReg_ints (r : Reg) (v : Word) : (s.setReg r v).ints = s.ints := rfl
@[simp] theorem setReg_per (r : Reg) (v : Word) : (s.setReg r v).per = s.per := rfl
@[simp] theorem setReg_timer (r : Reg) (v : Word) : (s.setReg r v).timer = s.timer := rfl
@[simp] theorem setReg_mem (r : Reg) (v : Word) : (s.setReg r v).mem = s.mem := rfl
@[simp] theorem setReg_plat (r : Reg) (v : Word) : (s.setReg r v).plat = s.plat := rfl
@[simp] theorem setReg_inputs (r : Reg) (v : Word) : (s.setReg r v).inputs = s.inputs := rfl
@[simp] theorem setReg_freeCtr (r : Reg) (v : Word) : (s.setReg r v).freeCtr = s.freeCtr := rfl

/-! `State.setRegByte` -/

@[simp] theorem setRegByte_cfg (r : Reg) (v : Byte) : (s.setRegByte r v).cfg = s.cfg := rfl
@[simp] theorem setRegByte_regs (r : Reg) (v : Byte) : (s.setRegByte r v).regs = s.regs.set r (mkWord v (hiByte (s.reg r))) := rfl
@[simp] theorem setRegByte_psw (r : Reg) (v : Byte) : (s.setRegByte r v).psw = s.psw := rfl
@[simp] theorem setRegByte_seq (r : Reg) (v : Byte) : (s.setRegByte r v).seq = s.seq := rfl
@[simp] theorem setRegByte_micro (r : Reg) (v : Byte) : (s.setRegByte r v).micro = s.micro := rfl
@[simp] theorem setRegByte_ints (r : Reg) (v : Byte) : (s.setRegByte r v).ints = s.ints := rfl
@[simp] theorem setRegByte_per (r : Reg) (v : Byte) : (s.setRegByte r v).per = s.per := rfl
@[simp] theorem setRegByte_timer (r : Reg) (v : Byte) : (s.setRegByte r v).timer = s.timer := rfl
@[simp] theorem setRegByte_mem (r : Reg) (v : Byte) : (s.setRegByte r v).mem = s.mem := rfl
@[simp] theorem setRegByte_plat (r : Reg) (v : Byte) : (s.setRegByte r v).plat = s.plat := rfl
@[simp] theorem setRegByte_inputs (r : Reg) (v : Byte) : (s.setRegByte r v).inputs = s.inputs := rfl
@[simp] theorem setRegByte_freeCtr (r : Reg) (v : Byte) : (s.setRegByte r v).freeCtr = s.freeCtr := rfl

/-! `State.setCc` -/

@[simp] theorem setCc_cfg (f : Cc) : (s.setCc f).cfg = s.cfg := rfl
@[simp] theorem setCc_regs (f : Cc) : (s.setCc f).regs = s.regs := rfl
@[simp] theorem setCc_psw (f : Cc) : (s.setCc f).psw = (s.psw &&& 0xFFF0) ||| (0 : BitVec 12) ++ f.toBits := rfl
@[simp] theorem setCc_seq (f : Cc) : (s.setCc f).seq = s.seq := rfl
@[simp] theorem setCc_micro (f : Cc) : (s.setCc f).micro = s.micro := rfl
@[simp] theorem setCc_ints (f : Cc) : (s.setCc f).ints = s.ints := rfl
@[simp] theorem setCc_per (f : Cc) : (s.setCc f).per = s.per := rfl
@[simp] theorem setCc_timer (f : Cc) : (s.setCc f).timer = s.timer := rfl
@[simp] theorem setCc_mem (f : Cc) : (s.setCc f).mem = s.mem := rfl
@[simp] theorem setCc_plat (f : Cc) : (s.setCc f).plat = s.plat := rfl
@[simp] theorem setCc_inputs (f : Cc) : (s.setCc f).inputs = s.inputs := rfl
@[simp] theorem setCc_freeCtr (f : Cc) : (s.setCc f).freeCtr = s.freeCtr := rfl

/-! `State.loadPswLow` -/

@[simp] theorem loadPswLow_cfg (w : Word) : (s.loadPswLow w).cfg = s.cfg := rfl
@[simp] theorem loadPswLow_regs (w : Word) : (s.loadPswLow w).regs = s.regs := rfl
@[simp] theorem loadPswLow_psw (w : Word) : (s.loadPswLow w).psw = w &&& 0x00FF := rfl
@[simp] theorem loadPswLow_seq (w : Word) : (s.loadPswLow w).seq = s.seq := rfl
@[simp] theorem loadPswLow_micro (w : Word) : (s.loadPswLow w).micro = s.micro := rfl
@[simp] theorem loadPswLow_ints (w : Word) : (s.loadPswLow w).ints = s.ints := rfl
@[simp] theorem loadPswLow_per (w : Word) : (s.loadPswLow w).per = s.per := rfl
@[simp] theorem loadPswLow_timer (w : Word) : (s.loadPswLow w).timer = s.timer := rfl
@[simp] theorem loadPswLow_mem (w : Word) : (s.loadPswLow w).mem = s.mem := rfl
@[simp] theorem loadPswLow_plat (w : Word) : (s.loadPswLow w).plat = s.plat := rfl
@[simp] theorem loadPswLow_inputs (w : Word) : (s.loadPswLow w).inputs = s.inputs := rfl
@[simp] theorem loadPswLow_freeCtr (w : Word) : (s.loadPswLow w).freeCtr = s.freeCtr := rfl

/-! `State.loadPswWhole` -/

@[simp] theorem loadPswWhole_cfg (w : Word) : (s.loadPswWhole w).cfg = s.cfg := rfl
@[simp] theorem loadPswWhole_regs (w : Word) : (s.loadPswWhole w).regs = s.regs := rfl
@[simp] theorem loadPswWhole_psw (w : Word) : (s.loadPswWhole w).psw = w &&& 0xFCFF := rfl
@[simp] theorem loadPswWhole_seq (w : Word) : (s.loadPswWhole w).seq = s.seq := rfl
@[simp] theorem loadPswWhole_micro (w : Word) : (s.loadPswWhole w).micro = s.micro := rfl
@[simp] theorem loadPswWhole_ints (w : Word) : (s.loadPswWhole w).ints = s.ints := rfl
@[simp] theorem loadPswWhole_per (w : Word) : (s.loadPswWhole w).per = s.per := rfl
@[simp] theorem loadPswWhole_timer (w : Word) : (s.loadPswWhole w).timer = s.timer := rfl
@[simp] theorem loadPswWhole_mem (w : Word) : (s.loadPswWhole w).mem = s.mem := rfl
@[simp] theorem loadPswWhole_plat (w : Word) : (s.loadPswWhole w).plat = s.plat := rfl
@[simp] theorem loadPswWhole_inputs (w : Word) : (s.loadPswWhole w).inputs = s.inputs := rfl
@[simp] theorem loadPswWhole_freeCtr (w : Word) : (s.loadPswWhole w).freeCtr = s.freeCtr := rfl

/-! `State.loadPswMtps` -/

@[simp] theorem loadPswMtps_cfg (v : Byte) : (s.loadPswMtps v).cfg = s.cfg := rfl
@[simp] theorem loadPswMtps_regs (v : Byte) : (s.loadPswMtps v).regs = s.regs := rfl
@[simp] theorem loadPswMtps_psw (v : Byte) : (s.loadPswMtps v).psw = (s.psw &&& 0xFF10) ||| ((v.setWidth 16) &&& 0x00EF) := rfl
@[simp] theorem loadPswMtps_seq (v : Byte) : (s.loadPswMtps v).seq = s.seq := rfl
@[simp] theorem loadPswMtps_micro (v : Byte) : (s.loadPswMtps v).micro = s.micro := rfl
@[simp] theorem loadPswMtps_ints (v : Byte) : (s.loadPswMtps v).ints = s.ints := rfl
@[simp] theorem loadPswMtps_per (v : Byte) : (s.loadPswMtps v).per = s.per := rfl
@[simp] theorem loadPswMtps_timer (v : Byte) : (s.loadPswMtps v).timer = s.timer := rfl
@[simp] theorem loadPswMtps_mem (v : Byte) : (s.loadPswMtps v).mem = s.mem := rfl
@[simp] theorem loadPswMtps_plat (v : Byte) : (s.loadPswMtps v).plat = s.plat := rfl
@[simp] theorem loadPswMtps_inputs (v : Byte) : (s.loadPswMtps v).inputs = s.inputs := rfl
@[simp] theorem loadPswMtps_freeCtr (v : Byte) : (s.loadPswMtps v).freeCtr = s.freeCtr := rfl

/-! `State.clearCc` -/

@[simp] theorem clearCc_cfg (m : BitVec 4) : (s.clearCc m).cfg = s.cfg := rfl
@[simp] theorem clearCc_regs (m : BitVec 4) : (s.clearCc m).regs = s.regs := rfl
@[simp] theorem clearCc_psw (m : BitVec 4) : (s.clearCc m).psw = s.psw &&& ~~~(m.setWidth 16) := rfl
@[simp] theorem clearCc_seq (m : BitVec 4) : (s.clearCc m).seq = s.seq := rfl
@[simp] theorem clearCc_micro (m : BitVec 4) : (s.clearCc m).micro = s.micro := rfl
@[simp] theorem clearCc_ints (m : BitVec 4) : (s.clearCc m).ints = s.ints := rfl
@[simp] theorem clearCc_per (m : BitVec 4) : (s.clearCc m).per = s.per := rfl
@[simp] theorem clearCc_timer (m : BitVec 4) : (s.clearCc m).timer = s.timer := rfl
@[simp] theorem clearCc_mem (m : BitVec 4) : (s.clearCc m).mem = s.mem := rfl
@[simp] theorem clearCc_plat (m : BitVec 4) : (s.clearCc m).plat = s.plat := rfl
@[simp] theorem clearCc_inputs (m : BitVec 4) : (s.clearCc m).inputs = s.inputs := rfl
@[simp] theorem clearCc_freeCtr (m : BitVec 4) : (s.clearCc m).freeCtr = s.freeCtr := rfl

/-! `State.raiseCc` -/

@[simp] theorem raiseCc_cfg (m : BitVec 4) : (s.raiseCc m).cfg = s.cfg := rfl
@[simp] theorem raiseCc_regs (m : BitVec 4) : (s.raiseCc m).regs = s.regs := rfl
@[simp] theorem raiseCc_psw (m : BitVec 4) : (s.raiseCc m).psw = s.psw ||| m.setWidth 16 := rfl
@[simp] theorem raiseCc_seq (m : BitVec 4) : (s.raiseCc m).seq = s.seq := rfl
@[simp] theorem raiseCc_micro (m : BitVec 4) : (s.raiseCc m).micro = s.micro := rfl
@[simp] theorem raiseCc_ints (m : BitVec 4) : (s.raiseCc m).ints = s.ints := rfl
@[simp] theorem raiseCc_per (m : BitVec 4) : (s.raiseCc m).per = s.per := rfl
@[simp] theorem raiseCc_timer (m : BitVec 4) : (s.raiseCc m).timer = s.timer := rfl
@[simp] theorem raiseCc_mem (m : BitVec 4) : (s.raiseCc m).mem = s.mem := rfl
@[simp] theorem raiseCc_plat (m : BitVec 4) : (s.raiseCc m).plat = s.plat := rfl
@[simp] theorem raiseCc_inputs (m : BitVec 4) : (s.raiseCc m).inputs = s.inputs := rfl
@[simp] theorem raiseCc_freeCtr (m : BitVec 4) : (s.raiseCc m).freeCtr = s.freeCtr := rfl

/-! `State.useFree` -/

@[simp] theorem useFree_cfg : s.useFree.cfg = s.cfg := rfl
@[simp] theorem useFree_regs : s.useFree.regs = s.regs := rfl
@[simp] theorem useFree_psw : s.useFree.psw = s.psw := rfl
@[simp] theorem useFree_seq : s.useFree.seq = s.seq := rfl
@[simp] theorem useFree_micro : s.useFree.micro = s.micro := rfl
@[simp] theorem useFree_ints : s.useFree.ints = s.ints := rfl
@[simp] theorem useFree_per : s.useFree.per = s.per := rfl
@[simp] theorem useFree_timer : s.useFree.timer = s.timer := rfl
@[simp] theorem useFree_mem : s.useFree.mem = s.mem := rfl
@[simp] theorem useFree_plat : s.useFree.plat = s.plat := rfl
@[simp] theorem useFree_inputs : s.useFree.inputs = s.inputs := rfl
@[simp] theorem useFree_freeCtr : s.useFree.freeCtr = s.freeCtr + 1 := rfl

/-! `State.putByte` -/

@[simp] theorem putByte_cfg (a : Word) (v : Byte) : (s.putByte a v).cfg = s.cfg := rfl
@[simp] theorem putByte_regs (a : Word) (v : Byte) : (s.putByte a v).regs = s.regs := rfl
@[simp] theorem putByte_psw (a : Word) (v : Byte) : (s.putByte a v).psw = s.psw := rfl
@[simp] theorem putByte_seq (a : Word) (v : Byte) : (s.putByte a v).seq = s.seq := rfl
@[simp] theorem putByte_micro (a : Word) (v : Byte) : (s.putByte a v).micro = s.micro := rfl
@[simp] theorem putByte_ints (a : Word) (v : Byte) : (s.putByte a v).ints = s.ints := rfl
@[simp] theorem putByte_per (a : Word) (v : Byte) : (s.putByte a v).per = s.per := rfl
@[simp] theorem putByte_timer (a : Word) (v : Byte) : (s.putByte a v).timer = s.timer := rfl
@[simp] theorem putByte_mem (a : Word) (v : Byte) : (s.putByte a v).mem = Memory.write s.mem (s.cellOf a) v := rfl
@[simp] theorem putByte_plat (a : Word) (v : Byte) : (s.putByte a v).plat = s.plat := rfl
@[simp] theorem putByte_inputs (a : Word) (v : Byte) : (s.putByte a v).inputs = s.inputs := rfl
@[simp] theorem putByte_freeCtr (a : Word) (v : Byte) : (s.putByte a v).freeCtr = s.freeCtr := rfl

/-! `State.putWord` -/

@[simp] theorem putWord_cfg (a w : Word) : (s.putWord a w).cfg = s.cfg := rfl
@[simp] theorem putWord_regs (a w : Word) : (s.putWord a w).regs = s.regs := rfl
@[simp] theorem putWord_psw (a w : Word) : (s.putWord a w).psw = s.psw := rfl
@[simp] theorem putWord_seq (a w : Word) : (s.putWord a w).seq = s.seq := rfl
@[simp] theorem putWord_micro (a w : Word) : (s.putWord a w).micro = s.micro := rfl
@[simp] theorem putWord_ints (a w : Word) : (s.putWord a w).ints = s.ints := rfl
@[simp] theorem putWord_per (a w : Word) : (s.putWord a w).per = s.per := rfl
@[simp] theorem putWord_timer (a w : Word) : (s.putWord a w).timer = s.timer := rfl
@[simp] theorem putWord_mem (a w : Word) : (s.putWord a w).mem = Memory.write (Memory.write s.mem (s.cellOf a) (loByte w)) (s.cellOf (a + 1)) (hiByte w) := rfl
@[simp] theorem putWord_plat (a w : Word) : (s.putWord a w).plat = s.plat := rfl
@[simp] theorem putWord_inputs (a w : Word) : (s.putWord a w).inputs = s.inputs := rfl
@[simp] theorem putWord_freeCtr (a w : Word) : (s.putWord a w).freeCtr = s.freeCtr := rfl

/-! `State.retire` -/

@[simp] theorem retire_cfg (b : Bool) : (s.retire b).cfg = s.cfg := rfl
@[simp] theorem retire_regs (b : Bool) : (s.retire b).regs = s.regs := rfl
@[simp] theorem retire_psw (b : Bool) : (s.retire b).psw = s.psw := rfl
@[simp] theorem retire_seq (b : Bool) : (s.retire b).seq = { s.seq with frcStale := b } := rfl
@[simp] theorem retire_micro (b : Bool) : (s.retire b).micro = s.micro := rfl
@[simp] theorem retire_ints (b : Bool) : (s.retire b).ints = s.ints := rfl
@[simp] theorem retire_per (b : Bool) : (s.retire b).per = s.per := rfl
@[simp] theorem retire_timer (b : Bool) : (s.retire b).timer = s.timer := rfl
@[simp] theorem retire_mem (b : Bool) : (s.retire b).mem = s.mem := rfl
@[simp] theorem retire_plat (b : Bool) : (s.retire b).plat = s.plat := rfl
@[simp] theorem retire_inputs (b : Bool) : (s.retire b).inputs = s.inputs := rfl
@[simp] theorem retire_freeCtr (b : Bool) : (s.retire b).freeCtr = s.freeCtr := rfl

/-! `State.entered` -/

@[simp] theorem entered_cfg : s.entered.cfg = s.cfg := rfl
@[simp] theorem entered_regs : s.entered.regs = s.regs := rfl
@[simp] theorem entered_psw : s.entered.psw = s.psw := rfl
@[simp] theorem entered_seq : s.entered.seq = enteredSeq s := rfl
@[simp] theorem entered_micro : s.entered.micro = { s.micro with mcir := 0b010 } := rfl
@[simp] theorem entered_ints : s.entered.ints = s.ints := rfl
@[simp] theorem entered_per : s.entered.per = { s.per with wcpu := false } := rfl
@[simp] theorem entered_timer : s.entered.timer = s.timer := rfl
@[simp] theorem entered_mem : s.entered.mem = s.mem := rfl
@[simp] theorem entered_plat : s.entered.plat = s.plat := rfl
@[simp] theorem entered_inputs : s.entered.inputs = s.inputs := rfl
@[simp] theorem entered_freeCtr : s.entered.freeCtr = s.freeCtr := rfl

/-! `State.skipPoll` -/

@[simp] theorem skipPoll_cfg : s.skipPoll.cfg = s.cfg := rfl
@[simp] theorem skipPoll_regs : s.skipPoll.regs = s.regs := rfl
@[simp] theorem skipPoll_psw : s.skipPoll.psw = s.psw := rfl
@[simp] theorem skipPoll_seq : s.skipPoll.seq = { s.seq with pollEnabled := false } := rfl
@[simp] theorem skipPoll_micro : s.skipPoll.micro = s.micro := rfl
@[simp] theorem skipPoll_ints : s.skipPoll.ints = s.ints := rfl
@[simp] theorem skipPoll_per : s.skipPoll.per = s.per := rfl
@[simp] theorem skipPoll_timer : s.skipPoll.timer = s.timer := rfl
@[simp] theorem skipPoll_mem : s.skipPoll.mem = s.mem := rfl
@[simp] theorem skipPoll_plat : s.skipPoll.plat = s.plat := rfl
@[simp] theorem skipPoll_inputs : s.skipPoll.inputs = s.inputs := rfl
@[simp] theorem skipPoll_freeCtr : s.skipPoll.freeCtr = s.freeCtr := rfl

/-! `State.wait` -/

@[simp] theorem wait_cfg : s.wait.cfg = s.cfg := rfl
@[simp] theorem wait_regs : s.wait.regs = s.regs := rfl
@[simp] theorem wait_psw : s.wait.psw = s.psw := rfl
@[simp] theorem wait_seq : s.wait.seq = { s.seq with irLoaded := true, waiting := true } := rfl
@[simp] theorem wait_micro : s.wait.micro = s.micro := rfl
@[simp] theorem wait_ints : s.wait.ints = s.ints := rfl
@[simp] theorem wait_per : s.wait.per = { s.per with wcpu := true } := rfl
@[simp] theorem wait_timer : s.wait.timer = s.timer := rfl
@[simp] theorem wait_mem : s.wait.mem = s.mem := rfl
@[simp] theorem wait_plat : s.wait.plat = s.plat := rfl
@[simp] theorem wait_inputs : s.wait.inputs = s.inputs := rfl
@[simp] theorem wait_freeCtr : s.wait.freeCtr = s.freeCtr := rfl

/-! `State.clearIvec` -/

@[simp] theorem clearIvec_cfg : s.clearIvec.cfg = s.cfg := rfl
@[simp] theorem clearIvec_regs : s.clearIvec.regs = s.regs := rfl
@[simp] theorem clearIvec_psw : s.clearIvec.psw = s.psw := rfl
@[simp] theorem clearIvec_seq : s.clearIvec.seq = s.seq := rfl
@[simp] theorem clearIvec_micro : s.clearIvec.micro = s.micro := rfl
@[simp] theorem clearIvec_ints : s.clearIvec.ints = s.ints := rfl
@[simp] theorem clearIvec_per : s.clearIvec.per = { s.per with ivecReq := false } := rfl
@[simp] theorem clearIvec_timer : s.clearIvec.timer = s.timer := rfl
@[simp] theorem clearIvec_mem : s.clearIvec.mem = s.mem := rfl
@[simp] theorem clearIvec_plat : s.clearIvec.plat = s.plat := rfl
@[simp] theorem clearIvec_inputs : s.clearIvec.inputs = s.inputs := rfl
@[simp] theorem clearIvec_freeCtr : s.clearIvec.freeCtr = s.freeCtr := rfl

/-! `State.peripheralReset` -/

@[simp] theorem peripheralReset_cfg : s.peripheralReset.cfg = s.cfg := rfl
@[simp] theorem peripheralReset_regs : s.peripheralReset.regs = s.regs := rfl
@[simp] theorem peripheralReset_psw : s.peripheralReset.psw = s.psw := rfl
@[simp] theorem peripheralReset_seq : s.peripheralReset.seq = s.seq := rfl
@[simp] theorem peripheralReset_micro : s.peripheralReset.micro = s.micro := rfl
@[simp] theorem peripheralReset_ints : s.peripheralReset.ints = { s.ints with irq2 := false, irq3 := false } := rfl
@[simp] theorem peripheralReset_per : s.peripheralReset.per = s.per := rfl
@[simp] theorem peripheralReset_timer : s.peripheralReset.timer = s.timer.init := rfl
@[simp] theorem peripheralReset_mem : s.peripheralReset.mem = s.mem := rfl
@[simp] theorem peripheralReset_plat : s.peripheralReset.plat = { s.plat with chips := s.plat.chips.map fun c => { c with timer := c.timer.init } } := rfl
@[simp] theorem peripheralReset_inputs : s.peripheralReset.inputs = s.inputs := rfl
@[simp] theorem peripheralReset_freeCtr : s.peripheralReset.freeCtr = s.freeCtr := rfl

/-! `State.pulseInit` -/

@[simp] theorem pulseInit_cfg : s.pulseInit.cfg = s.cfg := rfl
@[simp] theorem pulseInit_regs : s.pulseInit.regs = s.regs := rfl
@[simp] theorem pulseInit_psw : s.pulseInit.psw = s.psw := rfl
@[simp] theorem pulseInit_seq : s.pulseInit.seq = s.seq := rfl
@[simp] theorem pulseInit_micro : s.pulseInit.micro = s.micro := rfl
@[simp] theorem pulseInit_ints : s.pulseInit.ints = s.ints := rfl
@[simp] theorem pulseInit_per : s.pulseInit.per = s.per := rfl
@[simp] theorem pulseInit_timer : s.pulseInit.timer = s.timer := rfl
@[simp] theorem pulseInit_mem : s.pulseInit.mem = s.mem := rfl
@[simp] theorem pulseInit_plat : s.pulseInit.plat = { s.plat with chips := s.plat.chips.map fun c => { c with timer := c.timer.init }, initPulses := s.plat.initPulses + 1 } := rfl
@[simp] theorem pulseInit_inputs : s.pulseInit.inputs = s.inputs := rfl
@[simp] theorem pulseInit_freeCtr : s.pulseInit.freeCtr = s.freeCtr := rfl

/-! `State.advance` -/

@[simp] theorem advance_cfg (n : Nat) : (s.advance n).cfg = s.cfg := rfl
@[simp] theorem advance_regs (n : Nat) : (s.advance n).regs = s.regs := rfl
@[simp] theorem advance_psw (n : Nat) : (s.advance n).psw = s.psw := rfl
@[simp] theorem advance_seq (n : Nat) : (s.advance n).seq = s.seq := rfl
@[simp] theorem advance_micro (n : Nat) : (s.advance n).micro = s.micro := rfl
@[simp] theorem advance_ints (n : Nat) : (s.advance n).ints = s.ints := rfl
@[simp] theorem advance_per (n : Nat) : (s.advance n).per = s.per := rfl
@[simp] theorem advance_timer (n : Nat) : (s.advance n).timer = Timer.clocks n s.timer := rfl
@[simp] theorem advance_mem (n : Nat) : (s.advance n).mem = s.mem := rfl
@[simp] theorem advance_plat (n : Nat) : (s.advance n).plat = { s.plat with chips := s.plat.chips.map fun c => { c with timer := Timer.clocks n c.timer } } := rfl
@[simp] theorem advance_inputs (n : Nat) : (s.advance n).inputs = s.inputs := rfl
@[simp] theorem advance_freeCtr (n : Nat) : (s.advance n).freeCtr = s.freeCtr := rfl

/-! `State.releaseInit` -/

@[simp] theorem releaseInit_cfg : s.releaseInit.cfg = s.cfg := rfl
@[simp] theorem releaseInit_regs : s.releaseInit.regs = s.regs := rfl
@[simp] theorem releaseInit_psw : s.releaseInit.psw = s.psw := rfl
@[simp] theorem releaseInit_seq : s.releaseInit.seq = s.seq := rfl
@[simp] theorem releaseInit_micro : s.releaseInit.micro = s.micro := rfl
@[simp] theorem releaseInit_ints : s.releaseInit.ints = s.ints := rfl
@[simp] theorem releaseInit_per : s.releaseInit.per = s.per := rfl
@[simp] theorem releaseInit_timer : s.releaseInit.timer = s.timer := rfl
@[simp] theorem releaseInit_mem : s.releaseInit.mem = s.mem := rfl
@[simp] theorem releaseInit_plat : s.releaseInit.plat = { s.plat with pins := { s.plat.pins with initOut := s.plat.pins.dcloLow } } := rfl
@[simp] theorem releaseInit_inputs : s.releaseInit.inputs = s.inputs := rfl
@[simp] theorem releaseInit_freeCtr : s.releaseInit.freeCtr = s.freeCtr := rfl

/-! `State.loadIr` -/

@[simp] theorem loadIr_cfg (w : Word) : (s.loadIr w).cfg = s.cfg := rfl
@[simp] theorem loadIr_regs (w : Word) : (s.loadIr w).regs = s.regs := rfl
@[simp] theorem loadIr_psw (w : Word) : (s.loadIr w).psw = s.psw := rfl
@[simp] theorem loadIr_seq (w : Word) : (s.loadIr w).seq = { s.seq with ir := w, irLoaded := true, shadow := none } := rfl
@[simp] theorem loadIr_micro (w : Word) : (s.loadIr w).micro = s.micro := rfl
@[simp] theorem loadIr_ints (w : Word) : (s.loadIr w).ints = { s.ints with dble := false } := rfl
@[simp] theorem loadIr_per (w : Word) : (s.loadIr w).per = { s.per with errFlags := 0 } := rfl
@[simp] theorem loadIr_timer (w : Word) : (s.loadIr w).timer = s.timer := rfl
@[simp] theorem loadIr_mem (w : Word) : (s.loadIr w).mem = s.mem := rfl
@[simp] theorem loadIr_plat (w : Word) : (s.loadIr w).plat = s.plat := rfl
@[simp] theorem loadIr_inputs (w : Word) : (s.loadIr w).inputs = s.inputs := rfl
@[simp] theorem loadIr_freeCtr (w : Word) : (s.loadIr w).freeCtr = s.freeCtr := rfl

/-! `State.takeIr` -/

@[simp] theorem takeIr_cfg : s.takeIr.cfg = s.cfg := rfl
@[simp] theorem takeIr_regs : s.takeIr.regs = s.regs := rfl
@[simp] theorem takeIr_psw : s.takeIr.psw = s.psw := rfl
@[simp] theorem takeIr_seq : s.takeIr.seq = { s.seq with irLoaded := false } := rfl
@[simp] theorem takeIr_micro : s.takeIr.micro = { s.micro with ma := 1 } := rfl
@[simp] theorem takeIr_ints : s.takeIr.ints = s.ints := rfl
@[simp] theorem takeIr_per : s.takeIr.per = s.per := rfl
@[simp] theorem takeIr_timer : s.takeIr.timer = s.timer := rfl
@[simp] theorem takeIr_mem : s.takeIr.mem = s.mem := rfl
@[simp] theorem takeIr_plat : s.takeIr.plat = s.plat := rfl
@[simp] theorem takeIr_inputs : s.takeIr.inputs = s.inputs := rfl
@[simp] theorem takeIr_freeCtr : s.takeIr.freeCtr = s.freeCtr := rfl

/-! `State.idle` -/

@[simp] theorem idle_cfg : s.idle.cfg = s.cfg := rfl
@[simp] theorem idle_regs : s.idle.regs = s.regs := rfl
@[simp] theorem idle_psw : s.idle.psw = s.psw := rfl
@[simp] theorem idle_seq : s.idle.seq = { s.seq with irLoaded := true, waiting := s.ints.acok } := rfl
@[simp] theorem idle_micro : s.idle.micro = s.micro := rfl
@[simp] theorem idle_ints : s.idle.ints = s.ints := rfl
@[simp] theorem idle_per : s.idle.per = s.per := rfl
@[simp] theorem idle_timer : s.idle.timer = s.timer := rfl
@[simp] theorem idle_mem : s.idle.mem = s.mem := rfl
@[simp] theorem idle_plat : s.idle.plat = s.plat := rfl
@[simp] theorem idle_inputs : s.idle.inputs = s.inputs := rfl
@[simp] theorem idle_freeCtr : s.idle.freeCtr = s.freeCtr := rfl

/-! `State.atDispatch` -/

@[simp] theorem atDispatch_cfg : s.atDispatch.cfg = s.cfg := rfl
@[simp] theorem atDispatch_regs : s.atDispatch.regs = s.regs := rfl
@[simp] theorem atDispatch_psw : s.atDispatch.psw = s.psw := rfl
@[simp] theorem atDispatch_seq : s.atDispatch.seq = s.seq := rfl
@[simp] theorem atDispatch_micro : s.atDispatch.micro = { s.micro with ma := 1 } := rfl
@[simp] theorem atDispatch_ints : s.atDispatch.ints = s.ints := rfl
@[simp] theorem atDispatch_per : s.atDispatch.per = s.per := rfl
@[simp] theorem atDispatch_timer : s.atDispatch.timer = s.timer := rfl
@[simp] theorem atDispatch_mem : s.atDispatch.mem = s.mem := rfl
@[simp] theorem atDispatch_plat : s.atDispatch.plat = s.plat := rfl
@[simp] theorem atDispatch_inputs : s.atDispatch.inputs = s.inputs := rfl
@[simp] theorem atDispatch_freeCtr : s.atDispatch.freeCtr = s.freeCtr := rfl

/-! `State.setMcir` -/

@[simp] theorem setMcir_cfg (m : BitVec 3) : (s.setMcir m).cfg = s.cfg := rfl
@[simp] theorem setMcir_regs (m : BitVec 3) : (s.setMcir m).regs = s.regs := rfl
@[simp] theorem setMcir_psw (m : BitVec 3) : (s.setMcir m).psw = s.psw := rfl
@[simp] theorem setMcir_seq (m : BitVec 3) : (s.setMcir m).seq = s.seq := rfl
@[simp] theorem setMcir_micro (m : BitVec 3) : (s.setMcir m).micro = { s.micro with mcir := m } := rfl
@[simp] theorem setMcir_ints (m : BitVec 3) : (s.setMcir m).ints = s.ints := rfl
@[simp] theorem setMcir_per (m : BitVec 3) : (s.setMcir m).per = s.per := rfl
@[simp] theorem setMcir_timer (m : BitVec 3) : (s.setMcir m).timer = s.timer := rfl
@[simp] theorem setMcir_mem (m : BitVec 3) : (s.setMcir m).mem = s.mem := rfl
@[simp] theorem setMcir_plat (m : BitVec 3) : (s.setMcir m).plat = s.plat := rfl
@[simp] theorem setMcir_inputs (m : BitVec 3) : (s.setMcir m).inputs = s.inputs := rfl
@[simp] theorem setMcir_freeCtr (m : BitVec 3) : (s.setMcir m).freeCtr = s.freeCtr := rfl

/-! `State.setVsel` -/

@[simp] theorem setVsel_cfg (v : BitVec 4) : (s.setVsel v).cfg = s.cfg := rfl
@[simp] theorem setVsel_regs (v : BitVec 4) : (s.setVsel v).regs = s.regs := rfl
@[simp] theorem setVsel_psw (v : BitVec 4) : (s.setVsel v).psw = s.psw := rfl
@[simp] theorem setVsel_seq (v : BitVec 4) : (s.setVsel v).seq = s.seq := rfl
@[simp] theorem setVsel_micro (v : BitVec 4) : (s.setVsel v).micro = { s.micro with vsel := v } := rfl
@[simp] theorem setVsel_ints (v : BitVec 4) : (s.setVsel v).ints = s.ints := rfl
@[simp] theorem setVsel_per (v : BitVec 4) : (s.setVsel v).per = s.per := rfl
@[simp] theorem setVsel_timer (v : BitVec 4) : (s.setVsel v).timer = s.timer := rfl
@[simp] theorem setVsel_mem (v : BitVec 4) : (s.setVsel v).mem = s.mem := rfl
@[simp] theorem setVsel_plat (v : BitVec 4) : (s.setVsel v).plat = s.plat := rfl
@[simp] theorem setVsel_inputs (v : BitVec 4) : (s.setVsel v).inputs = s.inputs := rfl
@[simp] theorem setVsel_freeCtr (v : BitVec 4) : (s.setVsel v).freeCtr = s.freeCtr := rfl

/-! `State.latch` -/

@[simp] theorem latch_cfg (op : BusOp) (a : Word) : (s.latch op a).cfg = s.cfg := rfl
@[simp] theorem latch_regs (op : BusOp) (a : Word) : (s.latch op a).regs = s.regs := rfl
@[simp] theorem latch_psw (op : BusOp) (a : Word) : (s.latch op a).psw = s.psw := rfl
@[simp] theorem latch_seq (op : BusOp) (a : Word) : (s.latch op a).seq = s.seq := rfl
@[simp] theorem latch_micro (op : BusOp) (a : Word) : (s.latch op a).micro = { s.micro with a := a, ops := op :: s.micro.ops.take 1 } := rfl
@[simp] theorem latch_ints (op : BusOp) (a : Word) : (s.latch op a).ints = s.ints := rfl
@[simp] theorem latch_per (op : BusOp) (a : Word) : (s.latch op a).per = s.per := rfl
@[simp] theorem latch_timer (op : BusOp) (a : Word) : (s.latch op a).timer = s.timer := rfl
@[simp] theorem latch_mem (op : BusOp) (a : Word) : (s.latch op a).mem = s.mem := rfl
@[simp] theorem latch_plat (op : BusOp) (a : Word) : (s.latch op a).plat = s.plat := rfl
@[simp] theorem latch_inputs (op : BusOp) (a : Word) : (s.latch op a).inputs = s.inputs := rfl
@[simp] theorem latch_freeCtr (op : BusOp) (a : Word) : (s.latch op a).freeCtr = s.freeCtr := rfl

/-! `State.latchOp` -/

@[simp] theorem latchOp_cfg (op : BusOp) : (s.latchOp op).cfg = s.cfg := rfl
@[simp] theorem latchOp_regs (op : BusOp) : (s.latchOp op).regs = s.regs := rfl
@[simp] theorem latchOp_psw (op : BusOp) : (s.latchOp op).psw = s.psw := rfl
@[simp] theorem latchOp_seq (op : BusOp) : (s.latchOp op).seq = s.seq := rfl
@[simp] theorem latchOp_micro (op : BusOp) : (s.latchOp op).micro = { s.micro with ops := op :: s.micro.ops.take 1 } := rfl
@[simp] theorem latchOp_ints (op : BusOp) : (s.latchOp op).ints = s.ints := rfl
@[simp] theorem latchOp_per (op : BusOp) : (s.latchOp op).per = s.per := rfl
@[simp] theorem latchOp_timer (op : BusOp) : (s.latchOp op).timer = s.timer := rfl
@[simp] theorem latchOp_mem (op : BusOp) : (s.latchOp op).mem = s.mem := rfl
@[simp] theorem latchOp_plat (op : BusOp) : (s.latchOp op).plat = s.plat := rfl
@[simp] theorem latchOp_inputs (op : BusOp) : (s.latchOp op).inputs = s.inputs := rfl
@[simp] theorem latchOp_freeCtr (op : BusOp) : (s.latchOp op).freeCtr = s.freeCtr := rfl

/-! `State.setQ` -/

@[simp] theorem setQ_cfg (q : Word) : (s.setQ q).cfg = s.cfg := rfl
@[simp] theorem setQ_regs (q : Word) : (s.setQ q).regs = s.regs := rfl
@[simp] theorem setQ_psw (q : Word) : (s.setQ q).psw = s.psw := rfl
@[simp] theorem setQ_seq (q : Word) : (s.setQ q).seq = s.seq := rfl
@[simp] theorem setQ_micro (q : Word) : (s.setQ q).micro = { s.micro with q := q } := rfl
@[simp] theorem setQ_ints (q : Word) : (s.setQ q).ints = s.ints := rfl
@[simp] theorem setQ_per (q : Word) : (s.setQ q).per = s.per := rfl
@[simp] theorem setQ_timer (q : Word) : (s.setQ q).timer = s.timer := rfl
@[simp] theorem setQ_mem (q : Word) : (s.setQ q).mem = s.mem := rfl
@[simp] theorem setQ_plat (q : Word) : (s.setQ q).plat = s.plat := rfl
@[simp] theorem setQ_inputs (q : Word) : (s.setQ q).inputs = s.inputs := rfl
@[simp] theorem setQ_freeCtr (q : Word) : (s.setQ q).freeCtr = s.freeCtr := rfl

/-! `State.noted` -/

@[simp] theorem noted_cfg (op : BusOp) (a q : Word) : (s.noted op a q).cfg = s.cfg := rfl
@[simp] theorem noted_regs (op : BusOp) (a q : Word) : (s.noted op a q).regs = s.regs := rfl
@[simp] theorem noted_psw (op : BusOp) (a q : Word) : (s.noted op a q).psw = s.psw := rfl
@[simp] theorem noted_seq (op : BusOp) (a q : Word) : (s.noted op a q).seq = s.seq := rfl
@[simp] theorem noted_micro (op : BusOp) (a q : Word) : (s.noted op a q).micro = { s.micro with a := a, q := q, ops := op :: s.micro.ops.take 1 } := rfl
@[simp] theorem noted_ints (op : BusOp) (a q : Word) : (s.noted op a q).ints = s.ints := rfl
@[simp] theorem noted_per (op : BusOp) (a q : Word) : (s.noted op a q).per = s.per := rfl
@[simp] theorem noted_timer (op : BusOp) (a q : Word) : (s.noted op a q).timer = s.timer := rfl
@[simp] theorem noted_mem (op : BusOp) (a q : Word) : (s.noted op a q).mem = s.mem := rfl
@[simp] theorem noted_plat (op : BusOp) (a q : Word) : (s.noted op a q).plat = s.plat := rfl
@[simp] theorem noted_inputs (op : BusOp) (a q : Word) : (s.noted op a q).inputs = s.inputs := rfl
@[simp] theorem noted_freeCtr (op : BusOp) (a q : Word) : (s.noted op a q).freeCtr = s.freeCtr := rfl

/-! `State.keepWord` -/

@[simp] theorem keepWord_cfg (w : Word) : (s.keepWord w).cfg = s.cfg := rfl
@[simp] theorem keepWord_regs (w : Word) : (s.keepWord w).regs = s.regs := rfl
@[simp] theorem keepWord_psw (w : Word) : (s.keepWord w).psw = s.psw := rfl
@[simp] theorem keepWord_seq (w : Word) : (s.keepWord w).seq = { s.seq with shadow := some w } := rfl
@[simp] theorem keepWord_micro (w : Word) : (s.keepWord w).micro = s.micro := rfl
@[simp] theorem keepWord_ints (w : Word) : (s.keepWord w).ints = s.ints := rfl
@[simp] theorem keepWord_per (w : Word) : (s.keepWord w).per = s.per := rfl
@[simp] theorem keepWord_timer (w : Word) : (s.keepWord w).timer = s.timer := rfl
@[simp] theorem keepWord_mem (w : Word) : (s.keepWord w).mem = s.mem := rfl
@[simp] theorem keepWord_plat (w : Word) : (s.keepWord w).plat = s.plat := rfl
@[simp] theorem keepWord_inputs (w : Word) : (s.keepWord w).inputs = s.inputs := rfl
@[simp] theorem keepWord_freeCtr (w : Word) : (s.keepWord w).freeCtr = s.freeCtr := rfl

/-! `State.hang` -/

@[simp] theorem hang_cfg : s.hang.cfg = s.cfg := rfl
@[simp] theorem hang_regs : s.hang.regs = s.regs := rfl
@[simp] theorem hang_psw : s.hang.psw = s.psw := rfl
@[simp] theorem hang_seq : s.hang.seq = { s.seq with hung := true, waiting := false, retry := false } := rfl
@[simp] theorem hang_micro : s.hang.micro = s.micro := rfl
@[simp] theorem hang_ints : s.hang.ints = s.ints := rfl
@[simp] theorem hang_per : s.hang.per = s.per := rfl
@[simp] theorem hang_timer : s.hang.timer = s.timer := rfl
@[simp] theorem hang_mem : s.hang.mem = s.mem := rfl
@[simp] theorem hang_plat : s.hang.plat = s.plat := rfl
@[simp] theorem hang_inputs : s.hang.inputs = s.inputs := rfl
@[simp] theorem hang_freeCtr : s.hang.freeCtr = s.freeCtr := rfl

/-! `State.waitAt` -/

@[simp] theorem waitAt_cfg (ma : BitVec 7) : (s.waitAt ma).cfg = s.cfg := rfl
@[simp] theorem waitAt_regs (ma : BitVec 7) : (s.waitAt ma).regs = s.regs := rfl
@[simp] theorem waitAt_psw (ma : BitVec 7) : (s.waitAt ma).psw = s.psw := rfl
@[simp] theorem waitAt_seq (ma : BitVec 7) : (s.waitAt ma).seq = s.seq := rfl
@[simp] theorem waitAt_ints (ma : BitVec 7) : (s.waitAt ma).ints = s.ints := rfl
@[simp] theorem waitAt_per (ma : BitVec 7) : (s.waitAt ma).per = s.per := rfl
@[simp] theorem waitAt_timer (ma : BitVec 7) : (s.waitAt ma).timer = s.timer := rfl
@[simp] theorem waitAt_mem (ma : BitVec 7) : (s.waitAt ma).mem = s.mem := rfl
@[simp] theorem waitAt_plat (ma : BitVec 7) : (s.waitAt ma).plat = s.plat := rfl
@[simp] theorem waitAt_inputs (ma : BitVec 7) : (s.waitAt ma).inputs = s.inputs := rfl
@[simp] theorem waitAt_freeCtr (ma : BitVec 7) : (s.waitAt ma).freeCtr = s.freeCtr := rfl

@[simp] theorem waitAt_micro (ma : BitVec 7) : (s.waitAt ma).micro = { s.micro with ma := ma } := rfl

/-! `State.showVector` -/

@[simp] theorem showVector_cfg (v : Vsel) : (s.showVector v).cfg = s.cfg := rfl
@[simp] theorem showVector_regs (v : Vsel) : (s.showVector v).regs = s.regs := rfl
@[simp] theorem showVector_psw (v : Vsel) : (s.showVector v).psw = s.psw := rfl
@[simp] theorem showVector_seq (v : Vsel) : (s.showVector v).seq = s.seq := rfl
@[simp] theorem showVector_ints (v : Vsel) : (s.showVector v).ints = s.ints := rfl
@[simp] theorem showVector_per (v : Vsel) : (s.showVector v).per = s.per := rfl
@[simp] theorem showVector_timer (v : Vsel) : (s.showVector v).timer = s.timer := rfl
@[simp] theorem showVector_mem (v : Vsel) : (s.showVector v).mem = s.mem := rfl
@[simp] theorem showVector_plat (v : Vsel) : (s.showVector v).plat = s.plat := rfl
@[simp] theorem showVector_inputs (v : Vsel) : (s.showVector v).inputs = s.inputs := rfl
@[simp] theorem showVector_freeCtr (v : Vsel) : (s.showVector v).freeCtr = s.freeCtr := rfl
@[simp] theorem showVector_micro (v : Vsel) :
    (s.showVector v).micro = { s.micro with a := vectorAddr s.cfg.ncpu v, q := vectorAddr s.cfg.ncpu v } := rfl

/-! `State.answered` -/

@[simp] theorem answered_cfg (a : Answer) : (s.answered a).cfg = s.cfg := rfl
@[simp] theorem answered_regs (a : Answer) : (s.answered a).regs = s.regs := rfl
@[simp] theorem answered_psw (a : Answer) : (s.answered a).psw = s.psw := rfl
@[simp] theorem answered_seq (a : Answer) : (s.answered a).seq = s.seq := rfl
@[simp] theorem answered_micro (a : Answer) : (s.answered a).micro = { s.micro with mcir := a.mcir, vsel := a.vsel.index, rearm := a.rearm } := rfl
@[simp] theorem answered_ints (a : Answer) : (s.answered a).ints = s.ints := rfl
@[simp] theorem answered_per (a : Answer) : (s.answered a).per = s.per := rfl
@[simp] theorem answered_timer (a : Answer) : (s.answered a).timer = s.timer := rfl
@[simp] theorem answered_mem (a : Answer) : (s.answered a).mem = s.mem := rfl
@[simp] theorem answered_plat (a : Answer) : (s.answered a).plat = s.plat := rfl
@[simp] theorem answered_inputs (a : Answer) : (s.answered a).inputs = s.inputs := rfl
@[simp] theorem answered_freeCtr (a : Answer) : (s.answered a).freeCtr = s.freeCtr := rfl

/-! `State.trapAs` -/

@[simp] theorem trapAs_cfg (v : Vsel) : (s.trapAs v).cfg = s.cfg := rfl
@[simp] theorem trapAs_regs (v : Vsel) : (s.trapAs v).regs = s.regs := rfl
@[simp] theorem trapAs_psw (v : Vsel) : (s.trapAs v).psw = s.psw := rfl
@[simp] theorem trapAs_seq (v : Vsel) : (s.trapAs v).seq = s.seq := rfl
@[simp] theorem trapAs_micro (v : Vsel) : (s.trapAs v).micro = { s.micro with mcir := 0b101, vsel := v.index } := rfl
@[simp] theorem trapAs_ints (v : Vsel) : (s.trapAs v).ints = s.ints := rfl
@[simp] theorem trapAs_per (v : Vsel) : (s.trapAs v).per = s.per := rfl
@[simp] theorem trapAs_timer (v : Vsel) : (s.trapAs v).timer = s.timer := rfl
@[simp] theorem trapAs_mem (v : Vsel) : (s.trapAs v).mem = s.mem := rfl
@[simp] theorem trapAs_plat (v : Vsel) : (s.trapAs v).plat = s.plat := rfl
@[simp] theorem trapAs_inputs (v : Vsel) : (s.trapAs v).inputs = s.inputs := rfl
@[simp] theorem trapAs_freeCtr (v : Vsel) : (s.trapAs v).freeCtr = s.freeCtr := rfl

/-! `State.stopHere` -/

@[simp] theorem stopHere_cfg : s.stopHere.cfg = s.cfg := rfl
@[simp] theorem stopHere_regs : s.stopHere.regs = s.regs := rfl
@[simp] theorem stopHere_psw : s.stopHere.psw = s.psw := rfl
@[simp] theorem stopHere_seq : s.stopHere.seq = s.seq := rfl
@[simp] theorem stopHere_micro : s.stopHere.micro = s.micro := rfl
@[simp] theorem stopHere_ints : s.stopHere.ints = s.ints := rfl
@[simp] theorem stopHere_per : s.stopHere.per = { s.per with hlt := true } := rfl
@[simp] theorem stopHere_timer : s.stopHere.timer = s.timer := rfl
@[simp] theorem stopHere_mem : s.stopHere.mem = s.mem := rfl
@[simp] theorem stopHere_plat : s.stopHere.plat = s.plat := rfl
@[simp] theorem stopHere_inputs : s.stopHere.inputs = s.inputs := rfl
@[simp] theorem stopHere_freeCtr : s.stopHere.freeCtr = s.freeCtr := rfl

/-! `State.correctPc`, which changes registers only -/

@[simp] theorem correctPc_cfg (c : Bool) : (s.correctPc c).cfg = s.cfg := by cases c <;> rfl
@[simp] theorem correctPc_psw (c : Bool) : (s.correctPc c).psw = s.psw := by cases c <;> rfl
@[simp] theorem correctPc_seq (c : Bool) : (s.correctPc c).seq = s.seq := by cases c <;> rfl
@[simp] theorem correctPc_micro (c : Bool) : (s.correctPc c).micro = s.micro := by cases c <;> rfl
@[simp] theorem correctPc_ints (c : Bool) : (s.correctPc c).ints = s.ints := by cases c <;> rfl
@[simp] theorem correctPc_per (c : Bool) : (s.correctPc c).per = s.per := by cases c <;> rfl
@[simp] theorem correctPc_timer (c : Bool) : (s.correctPc c).timer = s.timer := by cases c <;> rfl
@[simp] theorem correctPc_mem (c : Bool) : (s.correctPc c).mem = s.mem := by cases c <;> rfl
@[simp] theorem correctPc_plat (c : Bool) : (s.correctPc c).plat = s.plat := by cases c <;> rfl
@[simp] theorem correctPc_inputs (c : Bool) : (s.correctPc c).inputs = s.inputs := by cases c <;> rfl
@[simp] theorem correctPc_freeCtr (c : Bool) : (s.correctPc c).freeCtr = s.freeCtr := by cases c <;> rfl

/-! Registers -/

/-- A register reads what was last written into it, and no other register changes. -/
theorem Regs.get_set (g : Regs) (r q : Reg) (v : Word) : (g.set r v).get q = if q = r then v else g.get q := by
  cases r <;> cases q <;> rfl

/-- The register law on states. -/
theorem reg_setReg (r q : Reg) (v : Word) : (s.setReg r v).reg q = if q = r then v else s.reg q :=
  Regs.get_set s.regs r q v

@[simp] theorem reg_setReg_same (r : Reg) (v : Word) : (s.setReg r v).reg r = v := by simp [reg_setReg]

@[simp] theorem reg_setReg_ne {r q : Reg} (h : q ≠ r) (v : Word) : (s.setReg r v).reg q = s.reg q := by
  simp [reg_setReg, h]

/-- The correction of PC leaves the other registers. -/
theorem reg_correctPc_ne {q : Reg} (h : q ≠ .pc) (c : Bool) : (s.correctPc c).reg q = s.reg q := by
  cases c
  · rfl
  · exact reg_setReg_ne s h _

/-- Writing back what a register holds changes nothing. -/
theorem setReg_self (r : Reg) : s.setReg r (s.reg r) = s := by cases r <;> rfl

/-- Registers are read from the register file alone. -/
theorem reg_congr {s t : State} (h : t.regs = s.regs) (r : Reg) : t.reg r = s.reg r := by simp [State.reg, h]

/-! PSW -/

/-- `PSW[3:0] <- flags` writes the four flags and no other bit. -/
theorem setCc_bits (f : Cc) (k : Nat) :
    (s.setCc f).psw.getLsbD k =
      if k = 0 then f.c else if k = 1 then f.v else if k = 2 then f.z else if k = 3 then f.n else s.psw.getLsbD k := by
  obtain ⟨n, z, v, c⟩ := f
  by_cases hk : k < 16
  · have key : ∀ (p : Word) (j : Fin 16), ((p &&& 0xFFF0) ||| (0 : BitVec 12) ++ (Cc.mk n z v c).toBits).getLsbD j =
        if j.val = 0 then c else if j.val = 1 then v else if j.val = 2 then z else if j.val = 3 then n
        else p.getLsbD j := by
      intro p j
      have h1 : (0xFFF0 : Word).getLsbD j = decide (4 ≤ j.val) := by revert j; decide
      have h2 : ((0 : BitVec 12) ++ (Cc.mk n z v c).toBits).getLsbD j =
          if j.val = 0 then c else if j.val = 1 then v else if j.val = 2 then z else if j.val = 3 then n else false := by
        revert j; cases n <;> cases z <;> cases v <;> cases c <;> decide
      rw [BitVec.getLsbD_or, BitVec.getLsbD_and, h1, h2]
      by_cases h : 4 ≤ j.val
      · have : j.val ≠ 0 ∧ j.val ≠ 1 ∧ j.val ≠ 2 ∧ j.val ≠ 3 := by omega
        simp [h, this]
      · have : j.val = 0 ∨ j.val = 1 ∨ j.val = 2 ∨ j.val = 3 := by omega
        rcases this with h | h | h | h <;> simp [h]
    simpa using key s.psw ⟨k, hk⟩
  · have : k ≠ 0 ∧ k ≠ 1 ∧ k ≠ 2 ∧ k ≠ 3 := by omega
    simp only [setCc_psw, this, if_false]
    rw [BitVec.getLsbD_of_ge _ _ (by omega), BitVec.getLsbD_of_ge _ _ (by omega)]

/-- The flags read back. -/
@[simp] theorem cc_setCc (f : Cc) : (s.setCc f).cc = f := by
  simp only [State.cc, setCc_bits]; simp

end Sys2Proof.Machine
end

