-- ==== Sys2Proof/Laws/Memory.lean ====
section
/-! SUPPORT. The laws of memory: a read after a write, and the canonical form that every write keeps. -/

namespace Sys2Proof.Machine

/-! ### Words and bytes -/

theorem loByte_mkWord (lo hi : Byte) : loByte (mkWord lo hi) = lo := by
  unfold loByte mkWord; ext; grind

theorem hiByte_mkWord (lo hi : Byte) : hiByte (mkWord lo hi) = hi := by
  unfold hiByte mkWord; ext; grind

theorem mkWord_bytes (w : Word) : mkWord (loByte w) (hiByte w) = w := by
  unfold loByte hiByte mkWord; ext; grind

/-! ### Lists of cells -/

theorem read_below : ∀ (m : Memory) (lo a : Nat), Memory.wfFrom lo m = true → a < lo → Memory.read m a = Memory.unlisted
  | [], _, _, _, _ => rfl
  | (b, v) :: rest, lo, a, h, hlt => by
    simp only [Memory.wfFrom, Bool.and_eq_true, decide_eq_true_eq] at h
    have hne : ¬ b = a := by omega
    simp only [Memory.read, hne, if_false]
    exact read_below rest (b + 1) a h.2 (by omega)

/-- A read after a write, in canonical memory: the written byte at its own address, everything else as before. -/
theorem read_write_from : ∀ (m : Memory) (lo a b : Nat) (v : Byte), Memory.wfFrom lo m = true →
    Memory.read (Memory.write m a v) b = if b = a then v else Memory.read m b
  | [], _, a, b, v, _ => by
    by_cases hv : v = Memory.unlisted <;> by_cases hb : b = a <;> simp [Memory.write, Memory.read, hv, hb]
    exact fun h => absurd h.symm hb
  | (c, u) :: rest, lo, a, b, v, h => by
    have h' := h
    simp only [Memory.wfFrom, Bool.and_eq_true, decide_eq_true_eq] at h
    by_cases hac : a < c
    · have hbelow : Memory.read ((c, u) :: rest) a = Memory.unlisted :=
        read_below _ c a (by simp [Memory.wfFrom, h.1, h.2]) hac
      by_cases hv : v = Memory.unlisted
      · rw [show Memory.write ((c, u) :: rest) a v = (c, u) :: rest by simp [Memory.write, hac, hv]]
        by_cases hb : b = a
        · subst hb; rw [hbelow]; simp [hv]
        · simp [hb]
      · rw [show Memory.write ((c, u) :: rest) a v = (a, v) :: (c, u) :: rest by simp [Memory.write, hac, hv]]
        by_cases hb : b = a
        · subst hb; simp [Memory.read]
        · simp [Memory.read, hb, Ne.symm hb]
    · by_cases hac' : a = c
      · subst hac'
        have hrest : Memory.read rest a = Memory.unlisted := read_below rest (a + 1) a h.2 (by omega)
        by_cases hv : v = Memory.unlisted
        · rw [show Memory.write ((a, u) :: rest) a v = rest by simp [Memory.write, hv]]
          by_cases hb : b = a
          · subst hb; simp [hrest, hv]
          · simp [Memory.read, hb, Ne.symm hb]
        · rw [show Memory.write ((a, u) :: rest) a v = (a, v) :: rest by simp [Memory.write, hv]]
          by_cases hb : b = a
          · subst hb; simp [Memory.read]
          · simp [Memory.read, hb, Ne.symm hb]
      · rw [show Memory.write ((c, u) :: rest) a v = (c, u) :: Memory.write rest a v by simp [Memory.write, hac, hac']]
        by_cases hb : c = b
        · subst hb; simp [Memory.read, Ne.symm hac']
        · simp only [Memory.read, hb, if_false]
          exact read_write_from rest (c + 1) a b v h.2

theorem wfFrom_write : ∀ (m : Memory) (lo a : Nat) (v : Byte), Memory.wfFrom lo m = true → lo ≤ a → a < Memory.cells →
    Memory.wfFrom lo (Memory.write m a v) = true
  | [], lo, a, v, _, h1, h2 => by
    by_cases hv : v = Memory.unlisted <;> simp [Memory.write, Memory.wfFrom, hv, h1, h2]
  | (c, u) :: rest, lo, a, v, h, h1, h2 => by
    have h' := h
    simp only [Memory.wfFrom, Bool.and_eq_true, decide_eq_true_eq] at h
    by_cases hac : a < c
    · by_cases hv : v = Memory.unlisted
      · simpa [Memory.write, hac, hv] using h'
      · have : a + 1 ≤ c := hac
        simp only [Memory.write, hac, if_true, hv, if_false, Memory.wfFrom, Bool.and_eq_true, decide_eq_true_eq, bne_iff_ne]
        exact ⟨⟨⟨h1, h2⟩, by simpa using hv⟩, ⟨⟨⟨this, h.1.1.2⟩, by simpa using h.1.2⟩, h.2⟩⟩
    · by_cases hac' : a = c
      · subst hac'
        by_cases hv : v = Memory.unlisted
        · rw [show Memory.write ((a, u) :: rest) a v = rest by simp [Memory.write, hv]]
          exact wfFrom_mono rest (a + 1) lo (by omega) h.2
        · rw [show Memory.write ((a, u) :: rest) a v = (a, v) :: rest by simp [Memory.write, hv]]
          simp only [Memory.wfFrom, Bool.and_eq_true, decide_eq_true_eq, bne_iff_ne]
          exact ⟨⟨h.1.1, by simpa using hv⟩, h.2⟩
      · rw [show Memory.write ((c, u) :: rest) a v = (c, u) :: Memory.write rest a v by simp [Memory.write, hac, hac']]
        simp only [Memory.wfFrom, Bool.and_eq_true, decide_eq_true_eq]
        exact ⟨h.1, wfFrom_write rest (c + 1) a v h.2 (by omega) h2⟩
where
  wfFrom_mono : ∀ (m : Memory) (hi lo : Nat), lo ≤ hi → Memory.wfFrom hi m = true → Memory.wfFrom lo m = true
    | [], _, _, _, _ => rfl
    | (a, v) :: rest, hi, lo, hle, h => by
      simp only [Memory.wfFrom, Bool.and_eq_true, decide_eq_true_eq] at h ⊢
      exact ⟨⟨⟨by omega, h.1.1.2⟩, h.1.2⟩, h.2⟩

/-! ### Memory of a state -/

/-- The cell of an address in memory of 256 banks. -/
theorem cellOf_lt (s : State) (a : Word) : s.cellOf a < Memory.cells := by
  have h1 := (s.bankAt a).isLt
  have h2 := a.isLt
  simp only [State.cellOf, Memory.cells]; omega

/-- Different addresses have different cells. -/
theorem cellOf_inj {s : State} {a b : Word} (h : s.cellOf a = s.cellOf b) : a = b := by
  have h1 := a.isLt
  have h2 := b.isLt
  simp only [State.cellOf] at h
  exact BitVec.eq_of_toNat_eq (by omega)

/-- A byte read after a byte write (R70, R78). -/
theorem readByteAt_putByte (s : State) (hm : s.mem.wf = true) (a b : Word) (v : Byte) :
    (s.putByte a v).readByteAt b = if b = a then v else s.readByteAt b := by
  show Memory.read (Memory.write s.mem (s.cellOf a) v) (s.cellOf b) = _
  rw [read_write_from s.mem 0 (s.cellOf a) (s.cellOf b) v hm]
  by_cases h : b = a
  · simp [h]
  · rw [if_neg (fun e => h (cellOf_inj e)), if_neg h]; rfl

/-- Every byte write keeps the canonical form. -/
theorem wf_putByte (s : State) (hm : s.mem.wf = true) (a : Word) (v : Byte) : (s.putByte a v).mem.wf = true :=
  wfFrom_write s.mem 0 (s.cellOf a) v hm (Nat.zero_le _) (cellOf_lt s a)

/-- Every word write keeps the canonical form. -/
theorem wf_putWord (s : State) (hm : s.mem.wf = true) (a w : Word) : (s.putWord a w).mem.wf = true :=
  wf_putByte _ (wf_putByte s hm a _) (a + 1) _

/-- The memory right after reset is in canonical form. -/
theorem wf_reset : State.reset.mem.wf = true := rfl

theorem succ_ne (a : Word) : a + 1 ≠ a := by
  intro h; have := congrArg (· - a) h; simp at this

/-- A byte read after a word write (R71). -/
theorem readByteAt_putWord (s : State) (hm : s.mem.wf = true) (a w b : Word) :
    (s.putWord a w).readByteAt b = if b = a + 1 then hiByte w else if b = a then loByte w else s.readByteAt b := by
  rw [State.putWord, readByteAt_putByte _ (wf_putByte s hm a _), readByteAt_putByte s hm]

/-- A word read after a word write at the same address (R71, R76, R78). -/
theorem memWord_putWord (s : State) (hm : s.mem.wf = true) (a w : Word) : (s.putWord a w).memWord a = w := by
  simp only [State.memWord, readByteAt_putWord s hm]
  simp [mkWord_bytes]

/-- Which region serves an address depends on the configuration and the platform only. -/
theorem regionAt_congr {s t : State} (hc : t.cfg = s.cfg) (hp : t.plat = s.plat) (a : Word) :
    t.regionAt a = s.regionAt a := by
  have hg : ∀ g, t.gateOpen g = s.gateOpen g := by
    intro g; cases g <;> simp [State.gateOpen, State.pultBit, hc, hp]
  simp [State.regionAt, hp, hg]

theorem slaveAt_congr {s t : State} (hc : t.cfg = s.cfg) (hp : t.plat = s.plat) (a : Word) :
    t.slaveAt a = s.slaveAt a := by simp [State.slaveAt, regionAt_congr hc hp]

theorem cellOf_congr {s t : State} (hc : t.cfg = s.cfg) (hp : t.plat = s.plat) (a : Word) : t.cellOf a = s.cellOf a := by
  simp [State.cellOf, State.bankAt, regionAt_congr hc hp]

/-- Memory is read from the cells through the map. -/
theorem readByteAt_congr {s t : State} (hm : t.mem = s.mem) (hc : t.cfg = s.cfg) (hp : t.plat = s.plat) (a : Word) :
    t.readByteAt a = s.readByteAt a := by
  simp [State.readByteAt, hm, cellOf_congr hc hp]

/-- A word is read from the cells through the map. -/
theorem memWord_congr {s t : State} (hm : t.mem = s.mem) (hc : t.cfg = s.cfg) (hp : t.plat = s.plat) (a : Word) :
    t.memWord a = s.memWord a := by
  simp [State.memWord, readByteAt_congr hm hc hp]

end Sys2Proof.Machine
end

