-- ==== Sys2Proof/Laws/Bus.lean ====
section
/-! SUPPORT. What one bus transaction can do in plain RAM, and where nothing answers, said once for each access
primitive. -/

namespace Sys2Proof.Machine

/-! ### Going on -/

@[simp] theorem andThen_ok {α β : Type} (a : α) (s : State) (k : α → State → Res β) :
    (Res.ok a s).andThen k = k a s := rfl

@[simp] theorem andThen_abort {α β : Type} (e : Abort) (s : State) (k : α → State → Res β) :
    (Res.abort e s : Res α).andThen k = .abort e s := rfl

/-- A sequence completes when both parts do. -/
theorem andThen_eq_ok {α β : Type} {r : Res α} {k : α → State → Res β} {b : β} {s : State} :
    r.andThen k = .ok b s ↔ ∃ a s1, r = .ok a s1 ∧ k a s1 = .ok b s := by
  cases r <;> simp

@[simp] theorem waitsAt_ok {α : Type} (ma : BitVec 7) (a : α) (s : State) : waitsAt ma (.ok a s) = .ok a s := rfl

@[simp] theorem waitsAt_timeout {α : Type} (ma : BitVec 7) (k : BusKind) (s : State) :
    waitsAt ma (.abort (.timeout k) s : Res α) = .abort (.timeout k) s := rfl

@[simp] theorem waitsAt_refused {α : Type} (ma : BitVec 7) (x : Refusal) (s : State) :
    waitsAt ma (.abort (.refused x) s : Res α) = .abort (.refused x) s := rfl

@[simp] theorem waitsAt_reset {α : Type} (ma : BitVec 7) (s : State) :
    waitsAt ma (.abort .reset s : Res α) = .abort .reset s := rfl

@[simp] theorem waitsAt_hang {α : Type} (ma : BitVec 7) (g : Bool) (s : State) :
    waitsAt ma (.abort (.hang g) s : Res α) = .abort (.hang g) (s.waitAt ma) := rfl

/-- Where a transaction is awaited matters only where the bus hangs in it. -/
theorem waitsAt_eq_ok {α : Type} {ma : BitVec 7} {r : Res α} {a : α} {s : State} :
    waitsAt ma r = .ok a s ↔ r = .ok a s := by
  unfold waitsAt; split
  · simp
  · rfl

/-! The write of the saved PC in an entry, as the rest of the entry awaits it. -/

@[simp] theorem savesPc_ok (v : Vsel) (u : Unit) (s : State) : savesPc v (.ok u s) = .ok u s := by
  unfold savesPc; split <;> rfl

theorem savesPc_ext (r : Res Unit) : savesPc .ext r = waitsAt 0x1E r := rfl

/-- How the write of the saved PC ends an entry whose vector is the table's (R473): a timeout and a hang of the granted write
show the vector in A and Q, and a write that is not granted leaves them. -/
theorem savesPc_table {v : Vsel} (hv : v ≠ .ext) (s : State) :
    (∀ k, savesPc v (.abort (.timeout k) s) = .abort (.timeout k) (s.showVector v)) ∧
    savesPc v (.abort (.hang true) s) = .abort (.hang true) ((s.showVector v).waitAt 0x0B) ∧
    savesPc v (.abort (.hang false) s) = .abort (.hang false) (s.waitAt 0x1E) ∧
    savesPc v (.abort .reset s) = .abort .reset s ∧
    ∀ x, savesPc v (.abort (.refused x) s) = .abort (.refused x) s := by
  simp [savesPc, hv]

/-- The write of the saved PC completes where it completes on the bus. -/
theorem savesPc_eq_ok {v : Vsel} {r : Res Unit} {u : Unit} {s : State} : savesPc v r = .ok u s ↔ r = .ok u s := by
  unfold savesPc; split
  · exact waitsAt_eq_ok
  · split <;> simp

/-- A sequence is cut short when one of its parts is. -/
theorem andThen_eq_abort {α β : Type} {r : Res α} {k : α → State → Res β} {e : Abort} {s : State} :
    r.andThen k = .abort e s ↔ r = .abort e s ∨ ∃ a s1, r = .ok a s1 ∧ k a s1 = .abort e s := by
  cases r <;> simp

/-- Where an activity leaves the machine, completed or cut short. -/
def Res.state {α : Type} : Res α → State
  | .ok _ s => s
  | .abort _ s => s

@[simp] theorem finish_ok (b : Bool) (u : Unit) (s : State) : finish b (.ok u s) = .next (s.retire b) := rfl

@[simp] theorem finish_timeout (b : Bool) (k : BusKind) (s : State) :
    finish b (.abort (.timeout k) s) = raiseTimeout k s := rfl

@[simp] theorem finish_reset (b : Bool) (s : State) : finish b (.abort .reset s) = .next s := rfl

@[simp] theorem finish_hang (b g : Bool) (s : State) : finish b (.abort (.hang g) s) = .next s := rfl

/-! ### Addresses -/

/-- Which addresses are RAM depends on the configuration and the platform only. -/
theorem isRam_congr {s t : State} (hc : t.cfg = s.cfg) (hp : t.plat = s.plat) (a : Word) : t.isRam a = s.isRam a := by
  simp [State.isRam, State.ownBlock, State.chipAt, slaveAt_congr hc hp, hc, hp]

theorem quiet_congr {s t : State} (hi : t.inputs = s.inputs) (hs : t.seq.hung = s.seq.hung) : t.quiet = s.quiet := by
  simp [State.quiet, hi, hs]

theorem ramWord_congr {s t : State} (hc : t.cfg = s.cfg) (hp : t.plat = s.plat) (hi : t.inputs = s.inputs)
    (hs : t.seq.hung = s.seq.hung) (a : Word) : t.ramWord a = s.ramWord a := by
  simp [State.ramWord, State.ramByte, isRam_congr hc hp, quiet_congr hi hs]

theorem quiet_iff {s : State} : s.quiet = true ↔ s.inputs = [] ∧ s.seq.hung = false := by
  simp [State.quiet]

theorem ramByte_iff {s : State} {a : Word} : s.ramByte a = true ↔ s.quiet = true ∧ s.isRam a = true := by
  simp [State.ramByte]

theorem ramWord_iff {s : State} {a : Word} :
    s.ramWord a = true ↔ s.quiet = true ∧ s.isRam a = true ∧ isOdd a = false := by
  simp [State.ramWord, State.ramByte, and_assoc]

theorem isRam_iff {s : State} {a : Word} :
    s.isRam a = true ↔ s.ownBlock a = false ∧ s.chipAt a = none ∧ s.slaveAt a = .ram := by
  simp [State.isRam, and_assoc]

theorem noReply_iff {s : State} {a : Word} :
    s.noReply a = true ↔ s.quiet = true ∧ s.ownBlock a = false ∧ s.chipAt a = none ∧ s.slaveAt a = .absent := by
  simp [State.noReply, and_assoc]

/-- Every bit of the mask of a word address but bit 0 is set. -/
theorem even_mask : ∀ j : Fin 16, j.val ≠ 0 → (0xFFFE : Word).getLsbD j.val = true := by decide

/-- The bits of the word address. -/
theorem evenAddr_getLsbD (a : Word) (i : Nat) : (evenAddr a).getLsbD i = (a.getLsbD i && decide (i ≠ 0)) := by
  rw [evenAddr, BitVec.getLsbD_and]
  by_cases hi : i < 16
  · by_cases h0 : i = 0
    · subst h0; rw [show (0xFFFE : Word).getLsbD 0 = false from by decide]; simp
    · rw [even_mask ⟨i, hi⟩ h0]; simp [h0]
  · rw [BitVec.getLsbD_of_ge a _ (Nat.le_of_not_lt hi)]; rfl

/-- The word address of an even address is the address itself. -/
theorem evenAddr_even {a : Word} (h : isOdd a = false) : evenAddr a = a := by
  apply BitVec.eq_of_getLsbD_eq; intro i _
  rw [evenAddr_getLsbD]
  by_cases h0 : i = 0
  · subst h0; simp [isOdd] at h; simp [h]
  · simp [h0]

/-- The byte after the word address of an odd address is the address itself. -/
theorem evenAddr_odd {a : Word} (h : isOdd a = true) : evenAddr a + 1 = a := by
  have e : evenAddr a + 1 = evenAddr a ||| 1 := by
    apply (BitVec.add_eq_or_of_and_eq_zero _ _ _)
    apply BitVec.eq_of_getLsbD_eq; intro i _
    rw [BitVec.getLsbD_and, evenAddr_getLsbD]
    by_cases h0 : i = 0
    · subst h0; simp
    · simp [BitVec.getLsbD_one, h0]
  rw [e]
  apply BitVec.eq_of_getLsbD_eq; intro i _
  rw [BitVec.getLsbD_or, evenAddr_getLsbD]
  by_cases h0 : i = 0
  · subst h0; simp only [isOdd] at h; simp [h]
  · simp [BitVec.getLsbD_one, h0]

theorem isOdd_evenAddr (a : Word) : isOdd (evenAddr a) = false := by
  rw [isOdd, evenAddr_getLsbD]; simp

theorem evenAddr_evenAddr (a : Word) : evenAddr (evenAddr a) = evenAddr a := evenAddr_even (isOdd_evenAddr a)

/-- Odd and even addresses alternate. -/
theorem isOdd_succ (a : Word) : isOdd (a + 1) = !isOdd a := by
  have h : ∀ y : Word, isOdd y = decide (y.toNat % 2 = 1) := fun y => by
    simp [isOdd, BitVec.getLsbD, Nat.testBit_zero]
  have e : (a + 1).toNat % 2 = (a.toNat + 1) % 2 := by
    rw [BitVec.toNat_add]; show (a.toNat + 1) % 65536 % 2 = _; omega
  rw [h, h, e]
  by_cases c : a.toNat % 2 = 1
  · rw [decide_eq_true c, decide_eq_false (by omega)]; rfl
  · rw [decide_eq_false c, decide_eq_true (by omega)]; rfl

/-- The block of a chip holds a word address where it holds the address. -/
theorem inBlock_evenAddr (n : BitVec 2) (a : Word) : inBlock n (evenAddr a) = inBlock n a := by
  have : evenAddr a &&& 0xFFF0 = a &&& 0xFFF0 := by
    unfold evenAddr; rw [BitVec.and_assoc]; rfl
  rw [inBlock, this, inBlock]

theorem ownBlock_evenAddr (s : State) (a : Word) : s.ownBlock (evenAddr a) = s.ownBlock a := inBlock_evenAddr _ _

theorem chipAt_evenAddr (s : State) (a : Word) : s.chipAt (evenAddr a) = s.chipAt a := by
  simp [State.chipAt, inBlock_evenAddr]

theorem regionAt_evenAddr (s : State) (a : Word) : s.regionAt (evenAddr a) = s.regionAt a := by
  simp [State.regionAt, evenAddr_evenAddr]

theorem slaveAt_evenAddr (s : State) (a : Word) : s.slaveAt (evenAddr a) = s.slaveAt a := by
  simp [State.slaveAt, regionAt_evenAddr]

theorem isRam_evenAddr (s : State) (a : Word) : s.isRam (evenAddr a) = s.isRam a := by
  simp [State.isRam, ownBlock_evenAddr, chipAt_evenAddr, slaveAt_evenAddr]

theorem pregOf_evenAddr (a : Word) : pregOf (evenAddr a) = pregOf a := by
  have : (evenAddr a).extractLsb' 1 3 = a.extractLsb' 1 3 := by
    apply BitVec.eq_of_getLsbD_eq; intro i hi
    simp only [BitVec.getLsbD_extractLsb', evenAddr_getLsbD]
    simp
  simp [pregOf, this]

/-- The byte of the word at its word address is the byte at the address (R71, R77). -/
theorem laneOf_memWord (s : State) (a : Word) : laneOf a (s.memWord (evenAddr a)) = s.readByteAt a := by
  unfold laneOf laneByte State.memWord
  cases h : isOdd a
  · rw [evenAddr_even h]; simp [loByte_mkWord]
  · rw [evenAddr_odd h]; simp [hiByte_mkWord]

/-! ### The tenure -/

/-- With nothing from the environment a tenure begins at once. -/
theorem tenure_quiet {s : State} (h : s.quiet = true) : tenure s = .ok () s := by
  obtain ⟨h1, h2⟩ := quiet_iff.1 h
  simp [tenure, takeInputs, State.resetComes, h1, h2]

theorem transact_quiet {α : Type} {s : State} (h : s.quiet = true) (op : BusOp) (a : Word) (k : State → Res α) :
    transact op a k s = k (s.latch op a) := by
  rw [transact, tenure_quiet (s := s.latch op a) ((quiet_congr rfl rfl).trans h), andThen_ok]

/-! ### Plain RAM -/

theorem busReadWord_ram {s : State} {a : Word} (hr : s.isRam a = true) (ho : isOdd a = false) :
    busReadWord a s = .ok (s.memWord a) s := by
  obtain ⟨hb, hc, hs⟩ := isRam_iff.1 hr
  simp [busReadWord, decoded, hb, hc, extReadWord, hs, ho, evenAddr_even ho]

theorem busReadLanes_ram {s : State} {a : Word} (hr : s.isRam a = true) :
    busReadLanes a s = .ok (s.memWord (evenAddr a)) s :=
  busReadWord_ram ((isRam_evenAddr s a).trans hr) (isOdd_evenAddr a)

theorem busWriteWord_ram {s : State} {a : Word} (hr : s.isRam a = true) (ho : isOdd a = false) (w : Word) :
    busWriteWord a w s = .ok () (s.putWord a w) := by
  obtain ⟨hb, hc, hs⟩ := isRam_iff.1 hr
  simp [busWriteWord, decoded, hb, hc, extWriteWord, hs, ho, evenAddr_even ho]

theorem busWriteByte_ram {s : State} {a : Word} (hr : s.isRam a = true) (v : Byte) :
    busWriteByte a v s = .ok () (s.putByte a v) := by
  obtain ⟨hb, hc, hs⟩ := isRam_iff.1 hr
  simp [busWriteByte, decoded, hb, hc, extWriteByte, hs]

/-- A word read of RAM changes only the hidden registers (R76). -/
theorem readWord_ram {s : State} {a : Word} (h : s.ramWord a = true) :
    readWord a s = .ok (s.memWord a) (s.noted .readWord a (s.memWord a)) := by
  obtain ⟨hq, hr, ho⟩ := ramWord_iff.1 h
  have hr' : (s.latch .readWord a).isRam a = true := (isRam_congr (s := s) rfl rfl a).trans hr
  rw [readWord, transact_quiet hq, busReadWord_ram hr' ho]
  rfl

/-- A word write to RAM (R78). -/
theorem writeWord_ram {s : State} {a : Word} (h : s.ramWord a = true) (w : Word) :
    writeWord a w s = .ok () ((s.noted .writeWord a w).putWord a w) := by
  obtain ⟨hq, hr, ho⟩ := ramWord_iff.1 h
  have hr' : (s.noted .writeWord a w).isRam a = true := (isRam_congr (s := s) rfl rfl a).trans hr
  rw [writeWord, transact_quiet (s := s.setQ w) hq]
  show busWriteWord a w (s.noted .writeWord a w) = _
  rw [busWriteWord_ram hr' ho]

/-- A byte read of RAM changes only the hidden registers (R77). -/
theorem readByte_ram {s : State} {a : Word} (h : s.ramByte a = true) :
    readByte a s = .ok (s.readByteAt a) (s.noted .readByte a (s.memWord (evenAddr a))) := by
  obtain ⟨hq, hr⟩ := ramByte_iff.1 h
  have hr' : (s.latch .readByte a).isRam a = true := (isRam_congr (s := s) rfl rfl a).trans hr
  rw [readByte, transact_quiet hq, busReadLanes_ram hr']
  exact congrArg (fun v => Res.ok v (s.noted .readByte a (s.memWord (evenAddr a)))) (laneOf_memWord s a)

/-- A byte write to RAM (R78). -/
theorem writeByte_ram {s : State} {a : Word} (h : s.ramByte a = true) (v : Byte) :
    writeByte a v s = .ok () ((s.noted .writeByte a (byteInQ v)).putByte a v) := by
  obtain ⟨hq, hr⟩ := ramByte_iff.1 h
  have hr' : (s.noted .writeByte a (byteInQ v)).isRam a = true := (isRam_congr (s := s) rfl rfl a).trans hr
  rw [writeByte, transact_quiet (s := s.setQ (byteInQ v)) hq]
  show busWriteByte a v (s.noted .writeByte a (byteInQ v)) = _
  rw [busWriteByte_ram hr']

/-- A read-modify-write of a word of RAM (R79). -/
theorem rmwWord_ram {α : Type} {s : State} {a : Word} (h : s.ramWord a = true) (f : Word → Word × α) :
    rmwWord a f s =
      .ok (f (s.memWord a)).2 ((s.noted .rmwWord a (f (s.memWord a)).1).putWord a (f (s.memWord a)).1) := by
  obtain ⟨hq, hr, ho⟩ := ramWord_iff.1 h
  have hr' : (s.latch .rmwWord a).isRam a = true := (isRam_congr (s := s) rfl rfl a).trans hr
  rw [rmwWord, transact_quiet hq, busReadWord_ram hr' ho]
  show ((busWriteWord a (f (s.memWord a)).1 (((s.latch .rmwWord a).setQ (s.memWord a)).setQ (f (s.memWord a)).1)).andThen
    fun _ s => _) = _
  rw [busWriteWord_ram (s := ((s.latch .rmwWord a).setQ (s.memWord a)).setQ (f (s.memWord a)).1)
    ((isRam_congr (s := s) rfl rfl a).trans hr) ho]
  rfl

/-- A read-modify-write of a byte of RAM (R79). -/
theorem rmwByte_ram {α : Type} {s : State} {a : Word} (h : s.ramByte a = true) (f : Byte → Byte × α) :
    rmwByte a f s =
      .ok (f (s.readByteAt a)).2
        ((s.noted .rmwByte a (byteInQ (f (s.readByteAt a)).1)).putByte a (f (s.readByteAt a)).1) := by
  obtain ⟨hq, hr⟩ := ramByte_iff.1 h
  have hr' : (s.latch .rmwByte a).isRam a = true := (isRam_congr (s := s) rfl rfl a).trans hr
  rw [rmwByte, transact_quiet hq, busReadLanes_ram hr']
  simp only [readToQ, andThen_ok]
  have e : laneOf a ((s.latch .rmwByte a).memWord (evenAddr a)) = s.readByteAt a := laneOf_memWord s a
  rw [e, busWriteByte_ram (s := ((s.latch .rmwByte a).setQ ((s.latch .rmwByte a).memWord (evenAddr a))).setQ
    (byteInQ (f (s.readByteAt a)).1)) ((isRam_congr (s := s) rfl rfl a).trans hr)]
  rfl

/-- A push to RAM (R360). -/
theorem push_ram {s : State} (h : s.ramWord (s.reg .sp - 2) = true) (w : State → Word) :
    push w s = .ok () (((s.setReg .sp (s.reg .sp - 2)).noted .writeWord (s.reg .sp - 2)
      (w (s.setReg .sp (s.reg .sp - 2)))).putWord (s.reg .sp - 2) (w (s.setReg .sp (s.reg .sp - 2)))) :=
  writeWord_ram (s := s.setReg .sp (s.reg .sp - 2)) ((ramWord_congr (s := s) rfl rfl rfl rfl _).trans h) _

/-- A pop from RAM (R213). -/
theorem pop_ram {s : State} (h : s.ramWord (s.reg .sp) = true) :
    pop s = .ok (s.memWord (s.reg .sp))
      ((s.setReg .sp (s.reg .sp + 2)).noted .readWord (s.reg .sp) (s.memWord (s.reg .sp))) :=
  readWord_ram (s := s.setReg .sp (s.reg .sp + 2)) ((ramWord_congr (s := s) rfl rfl rfl rfl _).trans h)

/-! ### No reply -/

theorem busReadWord_noReply {s : State} {a : Word} (hb : s.ownBlock a = false) (hc : s.chipAt a = none)
    (hs : s.slaveAt a = .absent) : busReadWord a s = .abort (.timeout .data) s := by
  simp [busReadWord, decoded, hb, hc, extReadWord, hs]

theorem busReadLanes_noReply {s : State} {a : Word} (hb : s.ownBlock a = false) (hc : s.chipAt a = none)
    (hs : s.slaveAt a = .absent) : busReadLanes a s = .abort (.timeout .data) s :=
  busReadWord_noReply ((ownBlock_evenAddr s a).trans hb) ((chipAt_evenAddr s a).trans hc)
    ((slaveAt_evenAddr s a).trans hs)

theorem readWord_noReply {s : State} {a : Word} (h : s.noReply a = true) :
    readWord a s = .abort (.timeout .data) (s.latch .readWord a) := by
  obtain ⟨hq, hb, hc, hs⟩ := noReply_iff.1 h
  rw [readWord, transact_quiet hq, busReadWord_noReply (s := s.latch .readWord a) hb hc
    ((slaveAt_congr (s := s) rfl rfl a).trans hs)]
  rfl

theorem readByte_noReply {s : State} {a : Word} (h : s.noReply a = true) :
    readByte a s = .abort (.timeout .data) (s.latch .readByte a) := by
  obtain ⟨hq, hb, hc, hs⟩ := noReply_iff.1 h
  rw [readByte, transact_quiet hq, busReadLanes_noReply (s := s.latch .readByte a) hb hc
    ((slaveAt_congr (s := s) rfl rfl a).trans hs)]
  rfl

theorem writeWord_noReply {s : State} {a : Word} (h : s.noReply a = true) (w : Word) :
    writeWord a w s = .abort (.timeout .data) (s.noted .writeWord a w) := by
  obtain ⟨hq, hb, hc, hs⟩ := noReply_iff.1 h
  rw [writeWord, transact_quiet (s := s.setQ w) hq]
  have hb' : (s.noted .writeWord a w).ownBlock a = false := hb
  have hc' : (s.noted .writeWord a w).chipAt a = none := hc
  have hs' : (s.noted .writeWord a w).slaveAt a = .absent := (slaveAt_congr (s := s) rfl rfl a).trans hs
  show busWriteWord a w (s.noted .writeWord a w) = _
  simp [busWriteWord, decoded, hb', hc', extWriteWord, hs']

theorem writeByte_noReply {s : State} {a : Word} (h : s.noReply a = true) (v : Byte) :
    writeByte a v s = .abort (.timeout .data) (s.noted .writeByte a (byteInQ v)) := by
  obtain ⟨hq, hb, hc, hs⟩ := noReply_iff.1 h
  rw [writeByte, transact_quiet (s := s.setQ (byteInQ v)) hq]
  have hb' : (s.noted .writeByte a (byteInQ v)).ownBlock a = false := hb
  have hc' : (s.noted .writeByte a (byteInQ v)).chipAt a = none := hc
  have hs' : (s.noted .writeByte a (byteInQ v)).slaveAt a = .absent := (slaveAt_congr (s := s) rfl rfl a).trans hs
  show busWriteByte a v (s.noted .writeByte a (byteInQ v)) = _
  simp [busWriteByte, decoded, hb', hc', extWriteByte, hs']

theorem rmwWord_noReply {α : Type} {s : State} {a : Word} (h : s.noReply a = true) (f : Word → Word × α) :
    rmwWord a f s = .abort (.timeout .data) (s.latch .rmwWord a) := by
  obtain ⟨hq, hb, hc, hs⟩ := noReply_iff.1 h
  rw [rmwWord, transact_quiet hq, busReadWord_noReply (s := s.latch .rmwWord a) hb hc
    ((slaveAt_congr (s := s) rfl rfl a).trans hs)]
  rfl

theorem rmwByte_noReply {α : Type} {s : State} {a : Word} (h : s.noReply a = true) (f : Byte → Byte × α) :
    rmwByte a f s = .abort (.timeout .data) (s.latch .rmwByte a) := by
  obtain ⟨hq, hb, hc, hs⟩ := noReply_iff.1 h
  rw [rmwByte, transact_quiet hq, busReadLanes_noReply (s := s.latch .rmwByte a) hb hc
    ((slaveAt_congr (s := s) rfl rfl a).trans hs)]
  rfl

end Sys2Proof.Machine
end

