-- ==== Sys2Proof/Laws/Timer.lean ====
section
/-! SUPPORT. What the timer's operations do to the window in which a read of TVE_COUNT may still see 0. -/

namespace Sys2Proof.Machine

/-- A timer event leaves the window unchanged (R396). -/
theorem window_event (t : Timer) : t.event.window = t.window := by
  unfold Timer.event; split <;> rfl

/-- A count tick opens the window for at most 4 CLC (R393). -/
theorem window_tick (t : Timer) (h : t.window ≤ 4) : t.tick.window ≤ 4 := by
  unfold Timer.tick; split
  · split
    · exact h
    · exact Nat.le_refl 4
  · exact h

/-- The window stays at most 4 CLC (R393). -/
theorem window_countClock (t : Timer) (h : t.window ≤ 4) : t.countClock.window ≤ 4 := by
  unfold Timer.countClock; split
  · exact window_tick t h
  · exact h

/-- The window stays at most 4 CLC (R393). -/
theorem ite_window (c : Prop) [Decidable c] {a b : Timer} (ha : a.window ≤ 4) (hb : b.window ≤ 4) : (if c then a else b).window ≤ 4 := by
  split
  · exact ha
  · exact hb

/-- The window stays at most 4 CLC (R393). -/
theorem window_baseClock (t : Timer) (h : t.window ≤ 4) : t.baseClock.window ≤ 4 := by
  have X : (if (if ({t with div4 := t.div4 + 1} : Timer).d4 then t.div4 == 3 else true) = true then { ({t with div4 := t.div4 + 1} : Timer) with div16 := t.div16 + 1 } else {t with div4 := t.div4 + 1}).window ≤ 4 := ite_window _ h h
  exact ite_window _ (window_countClock _ X) X

/-- The window stays at most 4 CLC (R393). -/
theorem window_bases (k) : ∀ t : Timer, t.window ≤ 4 → (Timer.bases k t).window ≤ 4 := by
  induction k with
  | zero => intro t h; exact h
  | succ k ih => intro t h; exact ih _ (window_baseClock _ (by show t.window - 128 ≤ 4; omega))

/-- The window of TVE_COUNT stays at most 4 CLC (R393). -/
theorem window_clocks (n) (t : Timer) (h : t.window ≤ 4) : (Timer.clocks n t).window ≤ 4 := by
  unfold Timer.clocks; dsimp only; split
  · show t.window - n ≤ 4; omega
  · have := window_bases ((n - (128 - t.pre.toNat)) / 128) _ (window_baseClock { t with window := t.window - (128 - t.pre.toNat)} (by show t.window - _ ≤ 4; omega))
    show (Timer.bases _ _).window - _ ≤ 4; omega

/-! ### A control register that is reset -/

/-- A count tick leaves a control register of zeros. -/
theorem csr_tick (t : Timer) (h : t.csr = 0) : t.tick.csr = 0 := by
  unfold Timer.tick Timer.event Timer.cap Timer.mon Timer.os
  simp only [h]
  split <;> simp [h]

/-- A period of CLC/128 leaves a control register of zeros. -/
theorem csr_baseClock (t : Timer) (h : t.csr = 0) : t.baseClock.csr = 0 := by
  unfold Timer.baseClock Timer.countClock Timer.run
  simp only [h]
  repeat' split
  all_goals first | exact h | simp_all

theorem csr_bases (k) : ∀ t : Timer, t.csr = 0 → (Timer.bases k t).csr = 0 := by
  induction k with
  | zero => intro t h; exact h
  | succ k ih => intro t h; exact ih _ (csr_baseClock _ h)

/-- Time leaves a control register of zeros: the timer is stopped (R392, R399). -/
theorem csr_clocks (n) (t : Timer) (h : t.csr = 0) : (Timer.clocks n t).csr = 0 := by
  unfold Timer.clocks; dsimp only; split
  · exact h
  · exact csr_bases _ _ (csr_baseClock _ h)

/-- A falling edge of nSP leaves a control register of zeros (R394). -/
theorem csr_spFall (b : Bool) (w : Word) (t : Timer) (h : t.csr = 0) : (t.spFall b w).csr = 0 := by
  unfold Timer.spFall Timer.run Timer.cap
  simp [h]

end Sys2Proof.Machine
end

