-- ==== Sys2Proof/Laws/Outside.lean ====
section
/-! SUPPORT. What the platform, the other masters and one transaction on the bus can change, said once: everything but the
processor block's own registers. -/

namespace Sys2Proof.Machine

/-- What leaves nINIT, nDCLO and the timers' control registers as they are. -/
theorem initHeld_of {s t : State} (h1 : t.plat.pins.initOut = s.plat.pins.initOut) (h2 : t.plat.pins.dcloLow = s.plat.pins.dcloLow)
    (h3 : t.plat.pins.initLow = s.plat.pins.initLow) (h4 : s.timer.csr = 0 → t.timer.csr = 0)
    (h5 : t.plat.chips = s.plat.chips) (h : InitHeld s) : InitHeld t := by
  refine ⟨by rw [h1, h2]; exact h.1, fun hl => ?_⟩
  rw [State.initLine, h1, h3] at hl
  rw [h5]
  exact ⟨h4 (h.2 hl).1, (h.2 hl).2⟩

/-- The reset of the timers on the line nINIT (R399). -/
theorem initHeld_reset {s t : State} (h1 : t.plat.pins.initOut = t.plat.pins.dcloLow) (h4 : t.timer.csr = 0)
    (h5 : t.plat.chips = s.plat.chips.map fun c => { c with timer := c.timer.init }) : InitHeld t := by
  refine ⟨h1, fun _ => ⟨h4, fun c hc => ?_⟩⟩
  rw [h5] at hc
  obtain ⟨d, _, rfl⟩ := List.mem_map.1 hc
  rfl

/-- What the outside of the processor block can do to the machine, short of a hardware reset. -/
structure Outside (s t : State) : Prop where
  cfg : t.cfg = s.cfg
  regs : t.regs = s.regs
  psw : t.psw = s.psw
  micro : t.micro = s.micro
  /-- The bus may hang. -/
  seq : t.seq = s.seq ∨ t.seq = s.hang.seq
  mem : s.mem.wf = true → t.mem.wf = true
  err : s.per.errFlags &&& 0x20 = 0 → t.per.errFlags &&& 0x20 = 0
  window : s.timer.window ≤ 4 → t.timer.window ≤ 4
  acok : s.plat.pins.dcloLow = false → t.ints.acok = s.ints.acok
  off : s.ints.acok = false → t.ints.acok = false
  dclo : s.plat.pins.dcloLow = false → t.plat.pins.dcloLow = false
  init : InitHeld s → InitHeld t

theorem Outside.refl (s : State) : Outside s s :=
  ⟨rfl, rfl, rfl, rfl, .inl rfl, id, id, id, fun _ => rfl, id, id, id⟩

theorem Outside.trans {s t u : State} (h : Outside s t) (g : Outside t u) : Outside s u := by
  refine ⟨g.cfg.trans h.cfg, g.regs.trans h.regs, g.psw.trans h.psw, g.micro.trans h.micro, ?_, g.mem ∘ h.mem,
    g.err ∘ h.err, g.window ∘ h.window, fun d => (g.acok (h.dclo d)).trans (h.acok d), g.off ∘ h.off, g.dclo ∘ h.dclo,
    g.init ∘ h.init⟩
  rcases h.seq with h | h <;> rcases g.seq with g | g <;> simp only [State.hang, h] at g <;> simp [g, State.hang]

/-- A bus that hangs stays so, short of a hardware reset. -/
theorem Outside.hung {s t : State} (h : Outside s t) (hh : s.seq.hung = true) : t.seq.hung = true := by
  rcases h.seq with g | g <;> rw [g]
  · exact hh
  · rfl

/-- Where the bus does not hang afterwards, the sequencer is as before. -/
theorem Outside.seq_of {s t : State} (h : Outside s t) (hh : t.seq.hung = false) : t.seq = s.seq := by
  rcases h.seq with g | g
  · exact g
  · rw [g] at hh; exact absurd hh (by simp [State.hang])

/-- MA is as before, and so is a bus that hangs. -/
theorem Outside.maLegal {s t : State} (h : Outside s t) (g : MaLegal s) : MaLegal t := by
  unfold MaLegal
  rw [h.micro]
  exact g.imp_right fun g => g.imp_right fun g => ⟨h.hung g.1, g.2⟩

/-- A change of the platform only, but for the level of nDCLO. -/
theorem outside_plat (s : State) (p : Platform) (h : p.pins.dcloLow = s.plat.pins.dcloLow)
    (hi : InitHeld s → InitHeld { s with plat := p }) : Outside s { s with plat := p } :=
  ⟨rfl, rfl, rfl, rfl, .inl rfl, id, id, id, fun _ => rfl, id, fun d => h.trans d, hi⟩

theorem outside_useFree (s : State) : Outside s s.useFree :=
  ⟨rfl, rfl, rfl, rfl, .inl rfl, id, id, id, fun _ => rfl, id, id, id⟩

theorem outside_hang (s : State) : Outside s s.hang :=
  ⟨rfl, rfl, rfl, rfl, .inr rfl, id, id, id, fun _ => rfl, id, id, id⟩

theorem outside_putByte (s : State) (a : Word) (v : Byte) : Outside s (s.putByte a v) :=
  ⟨rfl, rfl, rfl, rfl, .inl rfl, fun h => wf_putByte s h a v, id, id, fun _ => rfl, id, id, id⟩

theorem outside_putWord (s : State) (a w : Word) : Outside s (s.putWord a w) :=
  (outside_putByte _ _ _).trans (outside_putByte _ _ _)

/-! ### The platform -/

/-- A falling edge of nSP opens the window for at most 4 CLC (R393, R394). -/
theorem window_spFall (b : Bool) (w : Word) (t : Timer) (h : t.window ≤ 4) : (t.spFall b w).window ≤ 4 := by
  have c : ∀ u : Timer, u.capture.window = u.window := fun u => window_event _
  unfold Timer.spFall
  repeat' split
  · exact window_tick _ ((c t).symm ▸ h)
  · rw [c]; exact window_tick _ h
  · rw [c]; exact h
  · exact window_tick _ h
  · exact h
  · exact h
  · exact h

/-- Where one action of a part of the platform leaves the sequencer. -/
theorem outside_react (s : State) (r : Reaction) : Outside s (s.react r) ∧ (s.react r).seq = s.seq := by
  cases r with
  | aclo high => exact ⟨⟨rfl, rfl, rfl, rfl, .inl rfl, id, id, id, fun _ => rfl, id, id, id⟩, rfl⟩
  | irq2 low => exact ⟨⟨rfl, rfl, rfl, rfl, .inl rfl, id, id, id, fun _ => rfl, id, id, id⟩, rfl⟩
  | irq3 low => exact ⟨⟨rfl, rfl, rfl, rfl, .inl rfl, id, id, id, fun _ => rfl, id, id, id⟩, rfl⟩
  | sp low =>
    simp only [State.react, State.setSp]
    split
    · exact ⟨⟨rfl, rfl, rfl, rfl, .inl rfl, id, id, window_spFall _ _ _, fun _ => rfl, id, id,
        initHeld_of rfl rfl rfl (csr_spFall _ _ _) rfl⟩, rfl⟩
    · exact ⟨outside_plat _ _ rfl id, rfl⟩
  | init low =>
    cases low
    · refine ⟨outside_plat _ _ rfl fun h => ⟨h.1, fun hl => h.2 ?_⟩, rfl⟩
      have hl' : s.plat.pins.initOut = true := hl
      rw [State.initLine, hl', Bool.or_true]
    · exact ⟨⟨rfl, rfl, rfl, rfl, .inl rfl, id, id, id, fun _ => rfl, id, id,
        fun h => initHeld_reset (s := s) h.1 rfl rfl⟩, rfl⟩
  | selSet first w =>
    simp only [State.react]
    split <;> exact ⟨outside_plat _ _ rfl id, rfl⟩
  | _ => exact ⟨outside_plat _ _ rfl id, rfl⟩

/-- What the platform does and the hidden registers do not meet. -/
theorem react_micro (s : State) (m : Micro) (r : Reaction) :
    State.react { s with micro := m } r = { s.react r with micro := m } := by
  cases r with
  | sp low =>
    simp only [State.react, State.setSp]
    split <;> rfl
  | init low => cases low <;> rfl
  | selSet first w => cases first <;> rfl
  | _ => rfl

/-- What the platform does leaves memory and what is to come as they are. -/
theorem react_mem (s : State) (r : Reaction) : (s.react r).mem = s.mem ∧ (s.react r).inputs = s.inputs := by
  cases r with
  | sp low =>
    simp only [State.react, State.setSp]
    split <;> exact ⟨rfl, rfl⟩
  | init low => cases low <;> exact ⟨rfl, rfl⟩
  | selSet first w => cases first <;> exact ⟨rfl, rfl⟩
  | _ => exact ⟨rfl, rfl⟩

/-- What the platform does and the hidden registers do not meet. -/
theorem reacts_micro (l : List Reaction) : ∀ (s : State) (m : Micro),
    State.reacts { s with micro := m } l = { s.reacts l with micro := m } := by
  induction l with
  | nil => exact fun _ _ => rfl
  | cons r rest ih =>
    intro s m
    show (State.react { s with micro := m } r).reacts rest = _
    rw [react_micro, ih]
    rfl

/-- What the platform does leaves memory and what is to come as they are. -/
theorem reacts_mem (l : List Reaction) : ∀ s : State, (s.reacts l).mem = s.mem ∧ (s.reacts l).inputs = s.inputs := by
  induction l with
  | nil => exact fun _ => ⟨rfl, rfl⟩
  | cons r rest ih =>
    intro s
    exact ⟨(ih (s.react r)).1.trans (react_mem s r).1, (ih (s.react r)).2.trans (react_mem s r).2⟩

theorem outside_reacts (l : List Reaction) : ∀ s : State, Outside s (s.reacts l) ∧ (s.reacts l).seq = s.seq := by
  induction l with
  | nil => exact fun s => ⟨.refl s, rfl⟩
  | cons r rest ih =>
    intro s
    have h1 := outside_react s r
    have h2 := ih (s.react r)
    exact ⟨h1.1.trans h2.1, h2.2.trans h1.2⟩

/-! ### One transaction -/

/-- One transaction on the bus, in `s`: it ends in what `Outside` allows, with the sequencer as it was, or in the hang of the
bus, or it changes nothing. -/
def OnBus {α : Type} (s : State) (r : Res α) : Prop :=
  match r with
  | .ok _ t => Outside s t ∧ t.seq = s.seq
  | .abort (.hang _) t => t = s.hang
  | .abort _ t => t = s

theorem onBus_readPreg (p : PReg) (s : State) : OnBus s (readPreg p s) := by
  unfold readPreg
  split
  · exact rfl
  · split
    · exact ⟨outside_useFree s, rfl⟩
    · split
      · exact ⟨outside_useFree s, rfl⟩
      · exact ⟨.refl s, rfl⟩

theorem outside_putPreg (s : State) (p : PReg) (w : Word) : Outside s (s.putPreg p w) ∧ (s.putPreg p w).seq = s.seq := by
  cases p with
  | error => exact ⟨⟨rfl, rfl, rfl, rfl, .inl rfl, id, fun _ => by
      show (loByte w &&& 0xDF) &&& 0x20 = 0
      rw [BitVec.and_assoc]; simp, id, fun _ => rfl, id, id, id⟩, rfl⟩
  | limit =>
    simp only [State.putPreg]; split
    · exact ⟨⟨rfl, rfl, rfl, rfl, .inl rfl, id, id, id, fun _ => rfl, id, id, id⟩, rfl⟩
    · exact ⟨.refl s, rfl⟩
  | csr =>
    simp only [State.putPreg]; split
    · refine ⟨⟨rfl, rfl, rfl, rfl, .inl rfl, id, id, fun _ => Nat.zero_le _, fun _ => rfl, id, id, fun h =>
        ⟨h.1, fun hl => ⟨?_, (h.2 hl).2⟩⟩⟩, rfl⟩
      exact if_pos hl
    · exact ⟨.refl s, rfl⟩
  | _ => exact ⟨⟨rfl, rfl, rfl, rfl, .inl rfl, id, id, id, fun _ => rfl, id, id, id⟩, rfl⟩

theorem onBus_writePreg (p : PReg) (w : Word) (s : State) : OnBus s (writePreg p w s) := by
  unfold writePreg; split
  · exact rfl
  · exact outside_putPreg s p w

theorem onBus_extReadWord (a : Word) (s : State) : OnBus s (extReadWord a s) := by
  unfold extReadWord
  split
  · exact rfl
  · exact rfl
  · split
    · exact rfl
    · rename_i onRead _ _ _
      have h := outside_reacts onRead s.useFree
      exact ⟨(outside_useFree s).trans h.1, h.2⟩
  · repeat' split
    · exact rfl
    · exact ⟨outside_useFree s, rfl⟩
    · exact ⟨.refl s, rfl⟩

/-- A word write and the free value it used. -/
theorem outside_putFree (s : State) (a : Word) :
    Outside s (s.putWord a s.freshWord).useFree ∧ (s.putWord a s.freshWord).useFree.seq = s.seq :=
  ⟨(outside_putWord s a s.freshWord).trans (outside_useFree _), rfl⟩

theorem outside_scramble (s : State) (a : Word) : Outside s (s.scramble a) ∧ (s.scramble a).seq = s.seq := by
  have h := outside_putFree s (evenAddr a)
  have h2 := outside_putFree (s.putWord (evenAddr a) s.freshWord).useFree (a + 1)
  unfold State.scramble
  generalize (s.putWord (evenAddr a) s.freshWord).useFree = s1 at h h2 ⊢
  dsimp only
  split
  · exact ⟨h.1.trans h2.1, h2.2.trans h.2⟩
  · exact h

theorem onBus_extWriteWord (a w : Word) (s : State) : OnBus s (extWriteWord a w s) := by
  unfold extWriteWord
  repeat' split
  · exact rfl
  · exact rfl
  · exact rfl
  · exact rfl
  · exact outside_reacts _ s
  · exact rfl
  · exact ⟨.refl s, rfl⟩
  · exact rfl
  · exact outside_scramble s a
  · exact ⟨outside_putWord _ _ _, rfl⟩

theorem onBus_extWriteByte (a : Word) (v : Byte) (s : State) : OnBus s (extWriteByte a v s) := by
  unfold extWriteByte
  split
  · exact rfl
  · exact rfl
  · exact rfl
  · exact outside_reacts _ s
  · exact ⟨.refl s, rfl⟩
  · exact ⟨outside_putByte _ _ _, rfl⟩

/-- What an access leaves in another chip's block: where nINIT held that block's timer reset, it still does. -/
theorem outside_putChip (s : State) (c : Chip) (t : State)
    (h : c ∈ s.plat.chips → InitHeld s → s.initLine = true → t.timer.csr = 0) : Outside s (s.putChip c t) := by
  refine ⟨rfl, rfl, rfl, rfl, .inl rfl, id, id, id, fun _ => rfl, id, id, fun hs => ⟨hs.1, fun hl => ⟨(hs.2 hl).1, ?_⟩⟩⟩
  intro e he
  obtain ⟨d, hd, rfl⟩ := List.mem_map.1 he
  split
  · rename_i hc
    exact h (hc ▸ hd) hs hl
  · exact (hs.2 hl).2 d hd

/-- The machine as another chip's block sees it, where nINIT holds that block's timer reset. -/
theorem initHeld_asChip {s : State} (h : InitHeld s) {c : Chip} (hc : c ∈ s.plat.chips) : InitHeld (s.asChip c) :=
  ⟨h.1, fun hl => ⟨(h.2 hl).2 c hc, (h.2 hl).2⟩⟩

/-- An access to another chip's block, which does not hang. -/
theorem onBus_chipAccess {α : Type} (c : Chip) (k : State → Res α) (s : State) (hb : ∀ s, OnBus s (k s))
    (hk : ∀ s t g, k s ≠ .abort (.hang g) t) (hp : ∀ s v t, k s = .ok v t → t.plat.pins = s.plat.pins) :
    OnBus s (chipAccess c k s) := by
  unfold chipAccess
  cases e : k (s.asChip c) with
  | ok v t =>
    refine ⟨outside_putChip s c t fun hc hs hl => ?_, rfl⟩
    have hb' := hb (s.asChip c)
    rw [e] at hb'
    refine ((hb'.1.init (initHeld_asChip hs hc)).2 ?_).1
    rw [State.initLine, hp _ _ _ e]
    exact hl
  | abort e' t =>
    cases e' with
    | hang g => exact absurd e (hk _ _ _)
    | reset => exact rfl
    | timeout k => exact rfl
    | refused r => exact rfl

theorem onBus_decoded {α : Type} (a : Word) (block ext : State → Res α) (s : State) (hb : ∀ s, OnBus s (block s))
    (he : OnBus s (ext s)) (hk : ∀ s t g, block s ≠ .abort (.hang g) t)
    (hp : ∀ s v t, block s = .ok v t → t.plat.pins = s.plat.pins) : OnBus s (decoded a block ext s) := by
  unfold decoded
  split
  · exact hb s
  · split
    · exact onBus_chipAccess _ _ _ hb hk hp
    · exact he

theorem readPreg_ne_hang (p : PReg) (s t : State) (g : Bool) : readPreg p s ≠ .abort (.hang g) t := by
  unfold readPreg; repeat' split
  all_goals simp

theorem writePreg_ne_hang (p : PReg) (w : Word) (s t : State) (g : Bool) : writePreg p w s ≠ .abort (.hang g) t := by
  unfold writePreg; split <;> simp

/-- An access to a block leaves the input levels. -/
theorem readPreg_pins (p : PReg) (s : State) (v : Word) (t : State) (h : readPreg p s = .ok v t) :
    t.plat.pins = s.plat.pins := by
  unfold readPreg at h
  repeat' split at h
  all_goals cases h
  all_goals rfl

theorem writePreg_pins (p : PReg) (w : Word) (s : State) (v : Unit) (t : State) (h : writePreg p w s = .ok v t) :
    t.plat.pins = s.plat.pins := by
  unfold writePreg at h
  split at h
  · cases h
  · cases h
    cases p with
    | limit => simp only [State.putPreg]; split <;> rfl
    | csr => simp only [State.putPreg]; split <;> rfl
    | _ => rfl

theorem onBus_busReadWord (a : Word) (s : State) : OnBus s (busReadWord a s) :=
  onBus_decoded _ _ _ _ (onBus_readPreg _) (onBus_extReadWord _ _) (readPreg_ne_hang _) (readPreg_pins _)

theorem onBus_busWriteWord (a w : Word) (s : State) : OnBus s (busWriteWord a w s) :=
  onBus_decoded _ _ _ _ (onBus_writePreg _ _) (onBus_extWriteWord _ _ _) (writePreg_ne_hang _ _) (writePreg_pins _ _)

theorem onBus_busWriteByte (a : Word) (v : Byte) (s : State) : OnBus s (busWriteByte a v s) :=
  onBus_decoded _ _ _ _ (fun t => onBus_writePreg _ _ t) (onBus_extWriteByte _ _ _) (fun _ => writePreg_ne_hang _ _ _)
    (fun _ => writePreg_pins _ _ _)

theorem OnBus.outside {α : Type} {s : State} {r : Res α} (h : OnBus s r) : Outside s r.state := by
  cases r with
  | ok v t => exact h.1
  | abort e t =>
    cases e with
    | hang g => rw [show (Res.abort (.hang g) t : Res α).state = s.hang from h]; exact outside_hang s
    | reset => rw [show (Res.abort .reset t : Res α).state = s from h]; exact .refl s
    | timeout k => rw [show (Res.abort (.timeout k) t : Res α).state = s from h]; exact .refl s
    | refused r => rw [show (Res.abort (.refused r) t : Res α).state = s from h]; exact .refl s

/-! ### The events -/

/-- What the actions of the environment can do: what `Outside` says, or a hardware reset after which the processor waits for
its start (R430, R431). -/
structure Acted (s t : State) : Prop where
  cfg : t.cfg = s.cfg
  mem : s.mem.wf = true → t.mem.wf = true
  psw : s.psw &&& 0x0300 = 0 → t.psw &&& 0x0300 = 0
  err : s.per.errFlags &&& 0x20 = 0 → t.per.errFlags &&& 0x20 = 0
  window : s.timer.window ≤ 4 → t.timer.window ≤ 4
  ma : MaLegal s → MaLegal t
  still : s.seq.waiting = false → t.seq.waiting = false
  init : InitHeld s → InitHeld t
  either : Outside s t ∨ (t.ints.acok = false ∧ t.seq.irLoaded = true ∧ t.seq.pollEnabled = true ∧ t.seq.retry = false ∧
    t.seq.waiting = false)

theorem Outside.acted {s t : State} (h : Outside s t) : Acted s t :=
  ⟨h.cfg, h.mem, by rw [h.psw]; exact id, h.err, h.window, h.maLegal, fun g => by
    rcases h.seq with e | e <;> rw [e]
    · exact g
    · rfl, h.init, .inl h⟩

theorem Acted.refl (s : State) : Acted s s := (Outside.refl s).acted

theorem Acted.trans {s t u : State} (h : Acted s t) (g : Acted t u) : Acted s u := by
  refine ⟨g.cfg.trans h.cfg, g.mem ∘ h.mem, g.psw ∘ h.psw, g.err ∘ h.err, g.window ∘ h.window, g.ma ∘ h.ma,
    g.still ∘ h.still, g.init ∘ h.init, ?_⟩
  rcases g.either with g' | g'
  · rcases h.either with h' | ⟨a, b, c, d, e⟩
    · exact .inl (h'.trans g')
    · refine .inr ⟨g'.off a, ?_⟩
      rcases g'.seq with q | q <;> rw [q]
      · exact ⟨b, c, d, e⟩
      · exact ⟨b, c, rfl, rfl⟩
  · exact .inr g'

/-- No bit of 0 is set. -/
theorem zero_and : (Peripheral.clear).errFlags &&& 0x20 = 0 := by decide

theorem outside_holdReset (s : State) : Outside s s.holdReset ∧ s.holdReset.seq = s.seq := by
  unfold State.holdReset
  split
  · rename_i h
    exact ⟨⟨rfl, rfl, rfl, rfl, .inl rfl, id, fun _ => zero_and, id, fun d => by simp [h] at d, fun _ => rfl, id,
      initHeld_of rfl rfl rfl (fun _ => rfl) rfl⟩, rfl⟩
  · exact ⟨.refl s, rfl⟩

/-- A rise of nDCLO, with which the chip releases nINIT. -/
theorem outside_dcloRise (s : State) : Outside s (s.setDclo false) := by
  refine ⟨rfl, rfl, rfl, rfl, .inl rfl, id, id, id, fun _ => rfl, id, fun _ => rfl, fun hs => ⟨rfl, fun hl => hs.2 ?_⟩⟩
  have hl' : (s.plat.pins.initLow || false) = true := hl
  rw [Bool.or_false] at hl'
  rw [State.initLine, hl', Bool.true_or]

theorem acted_setDclo (s : State) (low : Bool) : Acted s (s.setDclo low) := by
  unfold State.setDclo
  dsimp only
  cases low
  · exact (outside_dcloRise s).acted
  · cases h : s.plat.pins.dcloLow
    · exact ⟨rfl, id, fun _ => (by decide : (0 : Word) &&& 0x0300 = 0), fun _ => zero_and, id, fun _ => .inl rfl, fun _ => rfl,
        fun _ => initHeld_reset (s := s) rfl rfl rfl, .inr ⟨rfl, rfl, rfl, rfl, rfl⟩⟩
    · exact Outside.acted ⟨rfl, rfl, rfl, rfl, .inl rfl, id, id, id, fun _ => rfl, id, fun d => by simp [h] at d,
        fun hs => ⟨rfl, fun _ => hs.2 (by rw [State.initLine, hs.1, h, Bool.or_true])⟩⟩

theorem outside_foreign {α : Type} (k : State → Res α) (s : State) (h : OnBus s (k s)) :
    Outside s (foreign k s).state := by
  unfold foreign
  split
  · exact .refl s
  · have h' := h.outside
    cases e : k s with
    | ok v t => rw [e] at h'; exact h'
    | abort a t =>
      rw [e] at h'
      cases a <;> exact h'

/-- One action of the environment other than a fall of nDCLO is no hardware reset. -/
theorem outside_event {e : Event} (he : e ≠ .dclo true) (s : State) : Outside s (applyEvent e s).state := by
  have h : Outside s (eventEffect e s).state := by
    cases e with
    | act r => exact (outside_react s r).1
    | dclo low =>
      cases low
      · exact outside_dcloRise s
      · exact absurd rfl he
    | clocks n =>
      refine ⟨rfl, rfl, rfl, rfl, .inl rfl, id, id, window_clocks n s.timer, fun _ => rfl, id, id, fun hs => ⟨hs.1, fun hl =>
        ⟨csr_clocks n _ (hs.2 hl).1, fun e he => ?_⟩⟩⟩
      obtain ⟨d, hd, rfl⟩ := List.mem_map.1 he
      exact csr_clocks n _ ((hs.2 hl).2 d hd)
    | busRead a => exact outside_foreign _ _ (onBus_busReadWord a s)
    | busWrite a w => exact outside_foreign _ _ (onBus_busWriteWord a w s)
    | busWriteByte a b => exact outside_foreign _ _ (onBus_busWriteByte a b s)
    | chip c =>
      refine outside_plat _ _ rfl fun hs => ⟨hs.1, fun hl => ⟨(hs.2 hl).1, fun e he => ?_⟩⟩
      have hl' : s.initLine = true := hl
      obtain ⟨d, hd, rfl⟩ := List.mem_map.1 he
      simp only [hl', if_true]
      split
      · rfl
      · exact (hs.2 hl).2 d hd
    | remap m => exact outside_plat _ _ rfl id
  unfold applyEvent
  revert h
  cases eventEffect e s with
  | ok v t => exact fun h => h.trans (outside_holdReset t).1
  | abort a t => exact id

theorem acted_event (e : Event) (s : State) : Acted s (applyEvent e s).state := by
  by_cases he : e = .dclo true
  · subst he
    exact (acted_setDclo s true).trans (outside_holdReset _).1.acted
  · exact (outside_event he s).acted

theorem acted_events (l : List Event) : ∀ s : State, Acted s (applyEvents l s).state := by
  induction l with
  | nil => exact .refl
  | cons e rest ih =>
    intro s
    have h := acted_event e s
    unfold applyEvents
    revert h
    cases applyEvent e s with
    | ok v t => exact fun h => h.trans (ih t)
    | abort a t => exact id

theorem outside_events (l : List Event) : ∀ s : State, (∀ e ∈ l, e ≠ .dclo true) → Outside s (applyEvents l s).state := by
  induction l with
  | nil => exact fun s _ => .refl s
  | cons e rest ih =>
    intro s hl
    have h := outside_event (hl e (List.mem_cons_self ..)) s
    unfold applyEvents
    revert h
    cases applyEvent e s with
    | ok v t => exact fun h => h.trans (ih t fun e he => hl e (List.mem_cons_of_mem _ he))
    | abort a t => exact id

/-- Events refuse or complete; they never time out, and a reset or a hang that they bring ends none of them. -/
theorem applyEvent_abort {e : Event} {s t : State} {a : Abort} (h : applyEvent e s = .abort a t) :
    ∃ r, a = .refused r := by
  have f : ∀ {α : Type} (k : State → Res α), foreign k s = .abort a t → ∃ r, a = .refused r := by
    intro α k h
    unfold foreign at h
    split at h
    · cases h
    · split at h <;> cases h
      exact ⟨_, rfl⟩
  unfold applyEvent at h
  cases he : eventEffect e s with
  | ok v u => rw [he] at h; cases h
  | abort b u =>
    rw [he] at h; cases h
    cases e with
    | busRead a => exact f _ he
    | busWrite a w => exact f _ he
    | busWriteByte a b => exact f _ he
    | _ => cases he

theorem applyEvents_abort {l : List Event} : ∀ {s t : State} {a : Abort}, applyEvents l s = .abort a t →
    ∃ r, a = .refused r := by
  induction l with
  | nil => intro s t a h; cases h
  | cons e rest ih =>
    intro s t a h
    unfold applyEvents at h
    rcases andThen_eq_abort.1 h with h | ⟨_, _, _, h⟩
    · exact applyEvent_abort h
    · exact ih h

theorem takeInputs_abort {s t : State} {a : Abort} (h : takeInputs s = .abort a t) : ∃ r, a = .refused r := by
  unfold takeInputs at h
  split at h
  · cases h
  · exact applyEvents_abort h

theorem outside_inputs (s : State) (l : List (List Event)) : Outside s { s with inputs := l } :=
  ⟨rfl, rfl, rfl, rfl, .inl rfl, id, id, id, fun _ => rfl, id, id, id⟩

theorem acted_takeInputs (s : State) : Acted s (takeInputs s).state := by
  unfold takeInputs; split
  · exact .refl s
  · exact (outside_inputs s _).acted.trans (acted_events _ _)

/-- The next actions of the environment, none of them a hardware reset. -/
theorem takeInputs_outside {s t : State} {u : Unit} (h : takeInputs s = .ok u t) (hr : s.resetComes = false) :
    Outside s t := by
  have e : t = (takeInputs s).state := by rw [h]; rfl
  rw [e]
  unfold takeInputs
  split
  · exact .refl s
  · rename_i now later hi
    refine (outside_inputs s later).trans (outside_events now _ fun e he hd => ?_)
    subst hd
    simp only [State.resetComes, hi, List.headD, List.any_eq_false] at hr
    exact hr _ he rfl

/-- A tenure that begins leaves the processor block as it is (R80, R134). -/
theorem tenure_ok {s t : State} {u : Unit} (h : tenure s = .ok u t) : Outside s t ∧ t.seq = s.seq := by
  unfold tenure at h
  obtain ⟨_, s1, h1, h2⟩ := andThen_eq_ok.1 h
  split at h2
  · cases h2
  · rename_i hr
    split at h2
    · cases h2
    · rename_i hh
      cases h2
      have g := takeInputs_outside h1 (Bool.not_eq_true _ ▸ hr)
      exact ⟨g, g.seq_of (Bool.not_eq_true _ ▸ hh)⟩

/-- A tenure that does not begin: after a hardware reset, on a bus that hangs, or for a refusal. -/
theorem tenure_abort {s t : State} {a : Abort} (h : tenure s = .abort a t) :
    (a = .reset ∧ Acted s t) ∨ (a = .hang false ∧ Outside s t ∧ t.seq.hung = true) ∨ ∃ r, a = .refused r := by
  unfold tenure at h
  rcases andThen_eq_abort.1 h with h1 | ⟨_, s1, h1, h2⟩
  · exact .inr (.inr (takeInputs_abort h1))
  · split at h2
    · cases h2
      have := acted_takeInputs s
      rw [h1] at this
      exact .inl ⟨rfl, this⟩
    · rename_i hr
      split at h2
      · cases h2
        exact .inr (.inl ⟨rfl, takeInputs_outside h1 (Bool.not_eq_true _ ▸ hr), ‹_›⟩)
      · cases h2

/-! ### Devices -/

/-- A word write to a device: it reacts, and nothing is read (R78, R95). -/
theorem writeWord_device {s : State} {a : Word} {onRead onWrite : List Reaction} (h : IsDevice s a onRead onWrite)
    (ho : isOdd a = false) (w : Word) :
    writeWord a w s = .ok () { s.reacts onWrite with micro := (s.noted .writeWord a w).micro } := by
  obtain ⟨hq, hb, hc, hs⟩ := h
  have hb' : (s.noted .writeWord a w).ownBlock a = false := hb
  have hc' : (s.noted .writeWord a w).chipAt a = none := hc
  have hs' : (s.noted .writeWord a w).slaveAt a = .device onRead onWrite := (slaveAt_congr (s := s) rfl rfl a).trans hs
  rw [writeWord, transact_quiet (s := s.setQ w) hq]
  show busWriteWord a w (s.noted .writeWord a w) = _
  rw [busWriteWord, decoded, hb', if_neg (by simp), hc']
  simp only [extWriteWord, hs', ho]
  rw [if_neg (by simp)]
  exact congrArg (Res.ok ()) (reacts_micro onWrite s _)

/-- A byte write to a device. -/
theorem writeByte_device {s : State} {a : Word} {onRead onWrite : List Reaction} (h : IsDevice s a onRead onWrite)
    (v : Byte) :
    writeByte a v s = .ok () { s.reacts onWrite with micro := (s.noted .writeByte a (byteInQ v)).micro } := by
  obtain ⟨hq, hb, hc, hs⟩ := h
  have hb' : (s.noted .writeByte a (byteInQ v)).ownBlock a = false := hb
  have hc' : (s.noted .writeByte a (byteInQ v)).chipAt a = none := hc
  have hs' : (s.noted .writeByte a (byteInQ v)).slaveAt a = .device onRead onWrite :=
    (slaveAt_congr (s := s) rfl rfl a).trans hs
  rw [writeByte, transact_quiet (s := s.setQ (byteInQ v)) hq]
  show busWriteByte a v (s.noted .writeByte a (byteInQ v)) = _
  rw [busWriteByte, decoded, hb', if_neg (by simp), hc']
  simp only [extWriteByte, hs']
  exact congrArg (Res.ok ()) (reacts_micro onWrite s _)

/-- A word read of a device gives a free value, and the device reacts (R82, R95). -/
theorem readWord_device {s : State} {a : Word} {onRead onWrite : List Reaction} (h : IsDevice s a onRead onWrite)
    (ho : isOdd a = false) :
    ∃ m, readWord a s = .ok s.freshWord { s.useFree.reacts onRead with micro := m } := by
  obtain ⟨hq, hb, hc, hs⟩ := h
  have hb' : (s.latch .readWord a).ownBlock a = false := hb
  have hc' : (s.latch .readWord a).chipAt a = none := hc
  have hs' : (s.latch .readWord a).slaveAt a = .device onRead onWrite := (slaveAt_congr (s := s) rfl rfl a).trans hs
  refine ⟨((s.latch .readWord a).setQ s.freshWord).micro, ?_⟩
  rw [readWord, transact_quiet hq, busReadWord, decoded, hb', if_neg (by simp), hc']
  simp only [extReadWord, hs', ho]
  rw [if_neg (by simp)]
  have e : (s.latch .readWord a).useFree.reacts onRead = { s.useFree.reacts onRead with micro := (s.latch .readWord a).micro } :=
    reacts_micro onRead s.useFree _
  rw [e]
  rfl

end Sys2Proof.Machine
end

