-- ==== Sys2Proof/Laws/Operand.lean ====
section
/-! SUPPORT. What computing an address, reading an operand and the early read of the word at PC can do, said once. -/

namespace Sys2Proof.Machine

/-- The processor block of `s'` is that of `s` but for registers and what no program sees. -/
structure Addressed (s s' : State) : Prop where
  cfg : s'.cfg = s.cfg
  psw : s'.psw = s.psw
  seq : s'.seq = s.seq

theorem Addressed.refl (s : State) : Addressed s s := ⟨rfl, rfl, rfl⟩

theorem Addressed.trans {s t u : State} (h : Addressed s t) (g : Addressed t u) : Addressed s u :=
  ⟨g.cfg.trans h.cfg, g.psw.trans h.psw, g.seq.trans h.seq⟩

theorem Addressed.setReg (s : State) (r : Reg) (v : Word) : Addressed s (s.setReg r v) := ⟨rfl, rfl, rfl⟩

/-- A transaction that completes leaves the processor block as it is but for the hidden registers. -/
structure Done (s t : State) : Prop where
  addressed : Addressed s t
  regs : t.regs = s.regs

theorem Done.trans {s t u : State} (h : Done s t) (g : Done t u) : Done s u :=
  ⟨h.addressed.trans g.addressed, g.regs.trans h.regs⟩

theorem Outside.done {s t : State} (h : Outside s t) (hs : t.seq = s.seq) : Done s t := ⟨⟨h.cfg, h.psw, hs⟩, h.regs⟩

/-- A transaction is a tenure and what follows it. -/
theorem transact_ok {α : Type} {op : BusOp} {a : Word} {k : State → Res α} {s t : State} {v : α}
    (h : transact op a k s = .ok v t) : ∃ s1, Done s s1 ∧ k s1 = .ok v t := by
  obtain ⟨_, s1, h1, h2⟩ := andThen_eq_ok.1 h
  obtain ⟨g1, g2⟩ := tenure_ok h1
  exact ⟨s1, Done.trans (t := s.latch op a) ⟨⟨rfl, rfl, rfl⟩, rfl⟩ (g1.done g2), h2⟩

/-- A write of Q. -/
theorem done_setQ (s : State) (q : Word) : Done s (s.setQ q) := ⟨⟨rfl, rfl, rfl⟩, rfl⟩

theorem OnBus.done {α : Type} {s t : State} {v : α} {r : Res α} (h : OnBus s r) (e : r = .ok v t) : Done s t := by
  subst e; exact h.1.done h.2

theorem readToQ_done {s t : State} {v : Word} {r : Res Word} (h : OnBus s r) (e : readToQ r = .ok v t) : Done s t := by
  obtain ⟨w, s1, h1, h2⟩ := andThen_eq_ok.1 e
  cases h2
  exact (h.done h1).trans ⟨⟨rfl, rfl, rfl⟩, rfl⟩

theorem readWord_ok {a v : Word} {s t : State} (h : readWord a s = .ok v t) : Done s t := by
  obtain ⟨s1, h1, h2⟩ := transact_ok h
  exact h1.trans (readToQ_done (onBus_busReadWord _ _) h2)

theorem readByte_ok {a : Word} {v : Byte} {s t : State} (h : readByte a s = .ok v t) : Done s t := by
  obtain ⟨s1, h1, h2⟩ := transact_ok h
  obtain ⟨w, s2, h2, h3⟩ := andThen_eq_ok.1 h2
  cases h3
  exact h1.trans (readToQ_done (onBus_busReadWord _ _) h2)

theorem writeWord_ok {a w : Word} {u : Unit} {s t : State} (h : writeWord a w s = .ok u t) : Done s t := by
  obtain ⟨s1, h1, h2⟩ := transact_ok h
  exact (done_setQ s w).trans (h1.trans ((onBus_busWriteWord a w s1).done h2))

theorem writeByte_ok {a : Word} {v : Byte} {u : Unit} {s t : State} (h : writeByte a v s = .ok u t) : Done s t := by
  obtain ⟨s1, h1, h2⟩ := transact_ok h
  exact (done_setQ s (byteInQ v)).trans (h1.trans ((onBus_busWriteByte a v s1).done h2))

theorem rmwWord_ok {α : Type} {a : Word} {f : Word → Word × α} {v : α} {s t : State} (h : rmwWord a f s = .ok v t) :
    Done s t := by
  obtain ⟨s1, h1, h2⟩ := transact_ok h
  obtain ⟨o, s2, h3, h4⟩ := andThen_eq_ok.1 h2
  obtain ⟨_, s3, h5, h6⟩ := andThen_eq_ok.1 h4
  cases h6
  exact (h1.trans (readToQ_done (onBus_busReadWord _ _) h3)).trans
    ((done_setQ s2 _).trans ((onBus_busWriteWord _ _ _).done h5))

theorem rmwByte_ok {α : Type} {a : Word} {f : Byte → Byte × α} {v : α} {s t : State} (h : rmwByte a f s = .ok v t) :
    Done s t := by
  obtain ⟨s1, h1, h2⟩ := transact_ok h
  obtain ⟨o, s2, h3, h4⟩ := andThen_eq_ok.1 h2
  obtain ⟨_, s3, h5, h6⟩ := andThen_eq_ok.1 h4
  cases h6
  exact (h1.trans (readToQ_done (onBus_busReadWord _ _) h3)).trans
    ((done_setQ s2 _).trans ((onBus_busWriteByte _ _ _).done h5))

/-! ### Operands -/

/-- Computing an address changes of the processor block only its own register and PC (R182). -/
theorem effAddr_ok {m : MemMode} {r : Reg} {sz : Size} {s s' : State} {a : Word} (h : effAddr m r sz s = .ok a s') :
    Addressed s s' ∧ ∀ q, q ≠ r → q ≠ .pc → s'.reg q = s.reg q := by
  have rd : ∀ {b v : Word} {p : Reg} {x : Word} {t : State}, readWord b (s.setReg p x) = .ok v t →
      Addressed s t ∧ ∀ q, q ≠ p → t.reg q = s.reg q := fun g =>
    ⟨(Addressed.setReg s _ _).trans (readWord_ok g).addressed, fun q hq =>
      (reg_congr (readWord_ok g).regs q).trans (reg_setReg_ne s hq _)⟩
  cases m <;> simp only [effAddr, fetchExt] at h
  case deferred => cases h; exact ⟨.refl _, fun _ _ _ => rfl⟩
  case autoInc => cases h; exact ⟨.setReg _ _ _, fun q hq _ => reg_setReg_ne _ hq _⟩
  case autoDec => cases h; exact ⟨.setReg _ _ _, fun q hq _ => reg_setReg_ne _ hq _⟩
  case autoIncDef => exact ⟨(rd h).1, fun q hq _ => (rd h).2 q hq⟩
  case autoDecDef => exact ⟨(rd h).1, fun q hq _ => (rd h).2 q hq⟩
  case index =>
    obtain ⟨x, s1, h1, h2⟩ := andThen_eq_ok.1 h
    cases h2
    exact ⟨(rd h1).1, fun q _ hq => (rd h1).2 q hq⟩
  case indexDef =>
    obtain ⟨x, s1, h1, h2⟩ := andThen_eq_ok.1 h
    have g2 := readWord_ok h2
    exact ⟨(rd h1).1.trans g2.addressed, fun q _ hq => (reg_congr g2.regs q).trans ((rd h1).2 q hq)⟩

/-- Reading a word operand changes of the processor block only the register of its field and PC (R193). -/
theorem readOpWord_ok {o : Operand} {s s' : State} {v : Word} (h : readOpWord o s = .ok v s') :
    Addressed s s' ∧ ∀ q, q ≠ baseReg o → q ≠ .pc → s'.reg q = s.reg q := by
  cases o with
  | reg r => cases h; exact ⟨.refl _, fun _ _ _ => rfl⟩
  | mem m r =>
    obtain ⟨a, s1, h1, h2⟩ := andThen_eq_ok.1 h
    have g := effAddr_ok h1
    have g2 := readWord_ok h2
    exact ⟨g.1.trans g2.addressed, fun q hq hp => (reg_congr g2.regs q).trans (g.2 q hq hp)⟩

/-- Reading a byte operand changes of the processor block only the register of its field and PC (R193). -/
theorem readOpByte_ok {o : Operand} {s s' : State} {v : Byte} (h : readOpByte o s = .ok v s') :
    Addressed s s' ∧ ∀ q, q ≠ baseReg o → q ≠ .pc → s'.reg q = s.reg q := by
  cases o with
  | reg r => cases h; exact ⟨.refl _, fun _ _ _ => rfl⟩
  | mem m r =>
    obtain ⟨a, s1, h1, h2⟩ := andThen_eq_ok.1 h
    have g := effAddr_ok h1
    have g2 := readByte_ok h2
    exact ⟨g.1.trans g2.addressed, fun q hq hp => (reg_congr g2.regs q).trans (g.2 q hq hp)⟩

/-! ### The early read of the word at PC -/

/-- A discarded read of RAM changes only what no program sees (R443). -/
theorem discardedAt_ram {s : State} {a : Word} (h : s.ramWord a = true) :
    discardedAt a s = .ok () (s.noted .readWord a (s.memWord a)) := by
  simp [discardedAt, readWord_ram h]

/-- A discarded read that nothing answers (R81). -/
theorem discardedAt_noReply {s : State} {a : Word} (h : s.noReply a = true) :
    discardedAt a s = .abort (.timeout .data) (s.latch .readWord a) := by
  simp only [discardedAt, readWord_noReply h, andThen_abort]

/-- A discarded read of RAM at PC (R191, R443). -/
theorem discardedRead_ram {s : State} (h : s.ramWord (s.reg .pc) = true) :
    discardedRead s = .ok () (s.noted .readWord (s.reg .pc) (s.memWord (s.reg .pc))) :=
  discardedAt_ram h

/-- A prefetch from RAM (R28). -/
theorem prefetchNext_ram {s : State} (h : s.ramWord (s.reg .pc) = true) :
    prefetchNext s =
      .ok () ((s.noted .readWord (s.reg .pc) (s.memWord (s.reg .pc))).keepWord (s.memWord (s.reg .pc))) := by
  simp [prefetchNext, readWord_ram h]

/-- How a prefetch ends whose read does not complete: after a hardware reset in its state, else with PC advanced (R190, R361,
R473). -/
theorem prefetchNext_abort {s t : State} {e : Abort} (h : readWord (s.reg .pc) s = .abort e t) :
    prefetchNext s = .abort e (if e = .reset then t else t.setReg .pc (t.reg .pc + 2)) := by
  cases e <;> simp [prefetchNext, h]

/-- What the early read of a register form leaves: the hidden registers and the shadow of IR differ (R28, R191). -/
theorem prefetch_ram {s : State} (b : Bool) (h : s.ramWord (s.reg .pc) = true) :
    ∃ m, prefetch b s = .ok () { s with micro := m, seq := { s.seq with shadow := s.prefetched b } } := by
  cases b
  · exact ⟨_, prefetchNext_ram h⟩
  · exact ⟨_, discardedRead_ram h⟩

/-- A prefetch that nothing answers (R81). -/
theorem prefetch_noReply {s : State} (b : Bool) (h : s.noReply (s.reg .pc) = true) :
    ∃ m, prefetch b s =
      .abort (.timeout .data) { (if b then s else s.setReg .pc (s.reg .pc + 2)) with micro := m } := by
  cases b
  · exact ⟨(s.latch .readWord (s.reg .pc)).micro, by simp only [prefetch, prefetchNext, readWord_noReply h]; rfl⟩
  · exact ⟨(s.latch .readWord (s.reg .pc)).micro, by simp only [prefetch, discardedRead, discardedAt_noReply h]; rfl⟩

/-- The flags `setCc` leaves, in the terms of claims. -/
theorem flagsAre_setCc {s t : State} (h : t.psw = s.psw) (f : Cc) : FlagsAre s (t.setCc f) f := by
  refine ⟨?_, ?_, ?_, ?_, fun k hk => ?_⟩
  · rw [setCc_bits]; rfl
  · rw [setCc_bits]; rfl
  · rw [setCc_bits]; rfl
  · rw [setCc_bits]; rfl
  · rw [setCc_bits]
    have : k ≠ 0 ∧ k ≠ 1 ∧ k ≠ 2 ∧ k ≠ 3 := by omega
    simp [this, h]

/-! ### Reads that change nothing outside -/

/-- Everything but the registers, the count of free values and the hidden registers is as before. -/
structure Unmoved (s t : State) : Prop where
  cfg : t.cfg = s.cfg
  psw : t.psw = s.psw
  seq : t.seq = s.seq
  ints : t.ints = s.ints
  per : t.per = s.per
  timer : t.timer = s.timer
  mem : t.mem = s.mem
  plat : t.plat = s.plat
  inputs : t.inputs = s.inputs

theorem Unmoved.refl (s : State) : Unmoved s s := ⟨rfl, rfl, rfl, rfl, rfl, rfl, rfl, rfl, rfl⟩

theorem Unmoved.trans {s t u : State} (h : Unmoved s t) (g : Unmoved t u) : Unmoved s u :=
  ⟨g.cfg.trans h.cfg, g.psw.trans h.psw, g.seq.trans h.seq, g.ints.trans h.ints, g.per.trans h.per,
   g.timer.trans h.timer, g.mem.trans h.mem, g.plat.trans h.plat, g.inputs.trans h.inputs⟩

theorem unmoved_readPreg {p : PReg} {s t : State} {v : Word} (h : readPreg p s = .ok v t) : t = s ∨ t = s.useFree := by
  unfold readPreg at h
  split at h
  · cases h
  · split at h
    · cases h; exact .inr rfl
    · split at h <;> cases h
      · exact .inr rfl
      · exact .inl rfl

/-- No device reacts to a read of an address. -/
theorem inert_slaveAt {s : State} (h : s.inert = true) {a : Word} {l l' : List Reaction} (e : s.slaveAt a = .device l l') :
    l = [] := by
  unfold State.slaveAt at e
  cases hr : s.regionAt a with
  | none => rw [hr] at e; cases e
  | some r =>
    rw [hr] at e
    have := List.mem_of_find?_eq_some hr
    have h2 := List.all_eq_true.1 h r this
    simp only at e
    rw [e] at h2
    exact List.isEmpty_iff.1 h2

theorem unmoved_extReadWord {a : Word} {s t : State} {v : Word} (hi : s.inert = true)
    (h : extReadWord a s = .ok v t) : Unmoved s t := by
  unfold extReadWord at h
  split at h
  · cases h
  · cases h
  · rename_i onRead _ e
    split at h
    · cases h
    · cases h
      rw [inert_slaveAt hi e]
      exact ⟨rfl, rfl, rfl, rfl, rfl, rfl, rfl, rfl, rfl⟩
  · split at h
    · cases h
    · split at h <;> cases h <;> exact ⟨rfl, rfl, rfl, rfl, rfl, rfl, rfl, rfl, rfl⟩

/-- A read of another chip's block changes nothing there. -/
theorem putChip_same {s : State} {c : Chip} {t : State} (h : t = s.asChip c ∨ t = (s.asChip c).useFree) :
    Unmoved s (s.putChip c t) := by
  refine ⟨rfl, rfl, rfl, rfl, rfl, rfl, rfl, ?_, rfl⟩
  have : ∀ d : Chip, (if d = c then { c with per := t.per, timer := t.timer, sel1 := t.plat.sel1, sel2 := t.plat.sel2 }
      else d) = d := by
    intro d
    split
    · rename_i hd; subst hd; rcases h with h | h <;> subst h <;> rfl
    · rfl
  simp only [State.putChip, this, List.map_id']

theorem unmoved_busReadWord {a : Word} {s t : State} {v : Word} (hi : s.inert = true)
    (h : busReadWord a s = .ok v t) : Unmoved s t := by
  unfold busReadWord decoded at h
  split at h
  · rcases unmoved_readPreg h with h | h <;> rw [h]
    · exact .refl s
    · exact ⟨rfl, rfl, rfl, rfl, rfl, rfl, rfl, rfl, rfl⟩
  · split at h
    · unfold chipAccess at h
      split at h
      · rename_i e
        cases h
        exact putChip_same (unmoved_readPreg e)
      · cases h
    · exact unmoved_extReadWord hi h

theorem unmoved_readWord {a : Word} {s t : State} {v : Word} (hq : s.quiet = true) (hi : s.inert = true)
    (h : readWord a s = .ok v t) : Unmoved s t := by
  rw [readWord, transact_quiet hq] at h
  obtain ⟨w, s1, h1, h2⟩ := andThen_eq_ok.1 h
  cases h2
  exact Unmoved.trans (t := s.latch .readWord a) ⟨rfl, rfl, rfl, rfl, rfl, rfl, rfl, rfl, rfl⟩
    ((unmoved_busReadWord (s := s.latch .readWord a) hi h1).trans ⟨rfl, rfl, rfl, rfl, rfl, rfl, rfl, rfl, rfl⟩)

theorem unmoved_readByte {a : Word} {s t : State} {v : Byte} (hq : s.quiet = true) (hi : s.inert = true)
    (h : readByte a s = .ok v t) : Unmoved s t := by
  rw [readByte, transact_quiet hq] at h
  obtain ⟨w, s1, h1, h2⟩ := andThen_eq_ok.1 h
  obtain ⟨w', s2, h3, h4⟩ := andThen_eq_ok.1 h1
  cases h4; cases h2
  exact Unmoved.trans (t := s.latch .readByte a) ⟨rfl, rfl, rfl, rfl, rfl, rfl, rfl, rfl, rfl⟩
    ((unmoved_busReadWord (s := s.latch .readByte a) hi h3).trans ⟨rfl, rfl, rfl, rfl, rfl, rfl, rfl, rfl, rfl⟩)

/-- What may be read without effect stays so. -/
theorem Unmoved.still {s t : State} (h : Unmoved s t) (hq : s.quiet = true) (hi : s.inert = true) :
    t.quiet = true ∧ t.inert = true :=
  ⟨(quiet_congr h.inputs (by rw [h.seq])).trans hq, by rw [State.inert, h.plat]; exact hi⟩

/-- Computing an address with nothing from the environment and no reacting device changes nothing outside (R182). -/
theorem unmoved_effAddr {m : MemMode} {r : Reg} {sz : Size} {s t : State} {a : Word} (hq : s.quiet = true)
    (hi : s.inert = true) (h : effAddr m r sz s = .ok a t) : Unmoved s t := by
  have sr : ∀ (p : Reg) (x : Word), Unmoved s (s.setReg p x) := fun p x =>
    ⟨rfl, rfl, rfl, rfl, rfl, rfl, rfl, rfl, rfl⟩
  cases m <;> simp only [effAddr, fetchExt] at h
  case deferred => cases h; exact .refl s
  case autoInc => cases h; exact sr _ _
  case autoDec => cases h; exact sr _ _
  case autoIncDef => exact (sr _ _).trans (unmoved_readWord (s := s.setReg _ _) hq hi h)
  case autoDecDef => exact (sr _ _).trans (unmoved_readWord (s := s.setReg _ _) hq hi h)
  case index =>
    obtain ⟨x, s1, h1, h2⟩ := andThen_eq_ok.1 h
    cases h2
    exact (sr _ _).trans (unmoved_readWord (s := s.setReg _ _) hq hi h1)
  case indexDef =>
    obtain ⟨x, s1, h1, h2⟩ := andThen_eq_ok.1 h
    have g := (sr .pc (s.reg .pc + 2)).trans (unmoved_readWord (s := s.setReg _ _) hq hi h1)
    obtain ⟨g1, g2⟩ := g.still hq hi
    exact g.trans (unmoved_readWord g1 g2 h2)

/-- Reading an operand with nothing from the environment and no reacting device changes nothing outside (R193). -/
theorem unmoved_readOp {o : Operand} {s t : State} (hq : s.quiet = true) (hi : s.inert = true) :
    (∀ v, readOpWord o s = .ok v t → Unmoved s t) ∧ (∀ v, readOpByte o s = .ok v t → Unmoved s t) := by
  cases o with
  | reg r => exact ⟨fun v h => by cases h; exact .refl s, fun v h => by cases h; exact .refl s⟩
  | mem m r =>
    refine ⟨fun v h => ?_, fun v h => ?_⟩ <;> obtain ⟨a, s1, h1, h2⟩ := andThen_eq_ok.1 h <;>
      have g := unmoved_effAddr hq hi h1 <;> obtain ⟨g1, g2⟩ := g.still hq hi
    · exact g.trans (unmoved_readWord g1 g2 h2)
    · exact g.trans (unmoved_readByte g1 g2 h2)

end Sys2Proof.Machine
end

