-- ==== Sys2Proof/Laws/Entry.lean ====
section
/-! SUPPORT. What the entry sequences and the returns do in plain RAM, said once. -/

namespace Sys2Proof.Machine

/-! ### The two vector words -/

/-- `u` is `s` after the load of PC and PSW from the vector at `va`, but for the hidden registers. -/
structure Loaded (whole : Bool) (s u : State) (va : Word) : Prop where
  cfg : u.cfg = s.cfg
  pc : u.reg .pc = s.memWord va
  regs : ∀ q, q ≠ .pc → u.reg q = s.reg q
  psw : u.psw = s.memWord (va + 2) &&& (if whole then 0xFCFF else 0x00FF)
  seq : u.seq = enteredSeq s
  ints : u.ints = s.ints
  per : u.per = { s.per with wcpu := false }
  timer : u.timer = s.timer
  mem : u.mem = s.mem
  plat : u.plat = s.plat
  inputs : u.inputs = s.inputs

/-- A and Q before the load do not matter. -/
theorem Loaded.of_showVector {whole : Bool} {s u : State} {v : Vsel} {va : Word} (h : Loaded whole (s.showVector v) u va) :
    Loaded whole s u va :=
  ⟨h.cfg, h.pc, h.regs, h.psw, h.seq, h.ints, h.per, h.timer, h.mem, h.plat, h.inputs⟩

theorem loaded_of {s : State} {va v w : Word} (hv : s.memWord va = v) (hw : s.memWord (va + 2) = w) (m : Micro)
    (whole : Bool) :
    Loaded whole s { (if whole then (s.setReg .pc v).loadPswWhole w else (s.setReg .pc v).loadPswLow w).entered with
      micro := m } va := by
  have hp := reg_setReg_same s .pc v
  have hr : ∀ q, q ≠ .pc → (s.setReg .pc v).reg q = s.reg q := fun q hq => reg_setReg_ne s hq v
  cases whole
  · exact ⟨rfl, hp.trans hv.symm, hr, by rw [hw]; rfl, rfl, rfl, rfl, rfl, rfl, rfl, rfl⟩
  · exact ⟨rfl, hp.trans hv.symm, hr, by rw [hw]; rfl, rfl, rfl, rfl, rfl, rfl, rfl, rfl⟩

/-- The vector words in RAM: PC and PSW are loaded, nothing else is read (R84, R360, R365). -/
theorem loadVector_ram {s : State} {va : Word} (h1 : s.ramWord va = true) (h2 : s.ramWord (va + 2) = true)
    (whole : Bool) : ∃ u, loadVector whole va s = .ok () u ∧ Loaded whole s u va := by
  have h2' : ((s.noted .readWord va (s.memWord va)).setReg .pc (s.memWord va)).ramWord (va + 2) = true :=
    (ramWord_congr (s := s) rfl rfl rfl rfl _).trans h2
  have hw : ((s.noted .readWord va (s.memWord va)).setReg .pc (s.memWord va)).memWord (va + 2) = s.memWord (va + 2) :=
    memWord_congr (s := s) rfl rfl rfl _
  simp only [loadVector, readWord_ram h1, waitsAt_ok, andThen_ok, readWord_ram h2', hw]
  generalize hw' : s.memWord (va + 2) = w
  generalize hv : s.memWord va = v
  have l := loaded_of (s := s) hv hw'
    ((((s.noted .readWord va v).setReg .pc v).noted .readWord (va + 2) w).setMcir 0b010).micro whole
  refine ⟨_, ?_, l⟩
  cases whole <;> rfl

/-! ### Stores -/

/-- `t` is `s` with the word `w` stored in RAM at `a`, but for the hidden registers. -/
structure Stored (s t : State) (a w : Word) : Prop where
  cfg : t.cfg = s.cfg
  regs : t.regs = s.regs
  psw : t.psw = s.psw
  seq : t.seq = s.seq
  ints : t.ints = s.ints
  per : t.per = s.per
  timer : t.timer = s.timer
  plat : t.plat = s.plat
  inputs : t.inputs = s.inputs
  wf : t.mem.wf = true
  read : ∀ b, t.readByteAt b = if b = a + 1 then hiByte w else if b = a then loByte w else s.readByteAt b

theorem writeWord_stored {s : State} {a : Word} (h : s.ramWord a = true) (hm : s.mem.wf = true) (w : Word) :
    ∃ t, writeWord a w s = .ok () t ∧ Stored s t a w :=
  ⟨_, writeWord_ram h w, rfl, rfl, rfl, rfl, rfl, rfl, rfl, rfl, rfl, wf_putWord (s.noted .writeWord a w) hm a w, fun b =>
    readByteAt_putWord (s.noted .writeWord a w) hm a w b⟩

/-- The word stored reads back. -/
theorem Stored.memWord {s t : State} {a w : Word} (h : Stored s t a w) : t.memWord a = w := by
  have n : a ≠ a + 1 := (succ_ne a).symm
  rw [State.memWord, h.read, h.read, if_neg n, if_pos rfl, if_pos rfl, mkWord_bytes]

/-- A store leaves the map and the addresses that may be used as they are. -/
theorem Stored.ramWord {s t : State} {a w : Word} (h : Stored s t a w) (b : Word) : t.ramWord b = s.ramWord b :=
  ramWord_congr h.cfg h.plat h.inputs (by rw [h.seq]) b

/-! ### The user entry -/

/-- `t` is `s` after the pushes of a user entry (R360). -/
structure Pushed (s t : State) (ret : Word) : Prop where
  cfg : t.cfg = s.cfg
  psw : t.psw = s.psw
  seq : t.seq = s.seq
  ints : t.ints = s.ints
  per : t.per = s.per
  timer : t.timer = s.timer
  plat : t.plat = s.plat
  inputs : t.inputs = s.inputs
  wf : t.mem.wf = true
  sp : t.reg .sp = s.reg .sp - 4
  pc : t.reg .pc = ret
  regs : ∀ q, q ≠ .sp → q ≠ .pc → t.reg q = s.reg q
  first : t.memWord (s.reg .sp - 2) = fullPsw s
  second : t.memWord (s.reg .sp - 4) = ret
  frame : ∀ b, b ≠ s.reg .sp - 1 → b ≠ s.reg .sp - 2 → b ≠ s.reg .sp - 3 → b ≠ s.reg .sp - 4 →
    t.readByteAt b = s.readByteAt b

/-- The hidden registers do not matter. -/
theorem Pushed.hidden {s t : State} {ret : Word} (h : Pushed s t ret) (m : Micro) : Pushed s { t with micro := m } ret :=
  ⟨h.cfg, h.psw, h.seq, h.ints, h.per, h.timer, h.plat, h.inputs, h.wf, h.sp, h.pc, h.regs, h.first, h.second, h.frame⟩

/-- The pushes of a user entry in RAM, wherever they are awaited: PSW, then PC, corrected first where the entry corrects it
(R360). -/
theorem pushes_ram {s : State} (hm : s.mem.wf = true) (h1 : s.ramWord (s.reg .sp - 2) = true)
    (h2 : s.ramWord (s.reg .sp - 4) = true) (correct : Bool) (m : BitVec 7) (v : Vsel) :
    ∃ t, ((waitsAt m (push State.pswRead s)).andThen fun _ s =>
        savesPc v (push (fun s => s.reg .pc) (s.correctPc correct))) = .ok () t ∧
      Pushed s t ((s.correctPc correct).reg .pc) := by
  have e4 : s.reg .sp - 2 - 2 = s.reg .sp - 4 := by bv_omega
  have e3 : s.reg .sp - 4 + 1 = s.reg .sp - 3 := by bv_omega
  have e1 : s.reg .sp - 2 + 1 = s.reg .sp - 1 := by bv_omega
  obtain ⟨t1, w1, st1⟩ := writeWord_stored (s := s.setReg .sp (s.reg .sp - 2)) (a := s.reg .sp - 2)
    ((ramWord_congr (s := s) rfl rfl rfl rfl _).trans h1) hm (fullPsw s)
  have sp1 : (t1.correctPc correct).reg .sp = s.reg .sp - 2 := by
    rw [reg_correctPc_ne t1 (by decide), reg_congr st1.regs, reg_setReg_same]
  have pc1 : (t1.correctPc correct).reg .pc = (s.correctPc correct).reg .pc := by
    have e : t1.reg .pc = s.reg .pc := (reg_congr st1.regs _).trans (reg_setReg_ne s (by decide) _)
    cases correct
    · exact e
    · simp only [State.correctPc, if_true, reg_setReg_same, e]
  have r1 : ((t1.correctPc correct).setReg .sp (s.reg .sp - 4)).ramWord (s.reg .sp - 4) = true := by
    refine (ramWord_congr (s := t1) ?_ ?_ ?_ ?_ _).trans ((st1.ramWord _).trans
      ((ramWord_congr (s := s) rfl rfl rfl rfl _).trans h2)) <;> simp
  have wf1 : ((t1.correctPc correct).setReg .sp (s.reg .sp - 4)).mem.wf = true := by simp [st1.wf]
  obtain ⟨t2, w2, st2⟩ := writeWord_stored r1 wf1 ((s.correctPc correct).reg .pc)
  have read : ∀ b, t2.readByteAt b =
      if b = s.reg .sp - 4 + 1 then hiByte ((s.correctPc correct).reg .pc)
      else if b = s.reg .sp - 4 then loByte ((s.correctPc correct).reg .pc)
      else if b = s.reg .sp - 2 + 1 then hiByte (fullPsw s) else if b = s.reg .sp - 2 then loByte (fullPsw s)
      else s.readByteAt b := by
    intro b
    rw [st2.read, readByteAt_congr (s := t1) (by simp) (by simp) (by simp), st1.read,
      readByteAt_congr (s := s) (t := s.setReg .sp (s.reg .sp - 2)) rfl rfl rfl]
  have n1 : s.reg .sp - 2 ≠ s.reg .sp - 4 + 1 := by bv_omega
  have n2 : s.reg .sp - 2 ≠ s.reg .sp - 4 := by bv_omega
  have n3 : s.reg .sp - 2 ≠ s.reg .sp - 2 + 1 := by bv_omega
  have n4 : s.reg .sp - 2 + 1 ≠ s.reg .sp - 4 + 1 := by bv_omega
  have n5 : s.reg .sp - 2 + 1 ≠ s.reg .sp - 4 := by bv_omega
  refine ⟨t2, ?_, ?_, ?_, ?_, ?_, ?_, ?_, ?_, ?_, st2.wf, ?_, ?_, fun q hq hq' => ?_, ?_, st2.memWord, fun b b1 b2 b3 b4 => ?_⟩
  · show ((waitsAt m (writeWord (s.reg .sp - 2) (fullPsw s) (s.setReg .sp (s.reg .sp - 2)))).andThen fun _ s =>
      savesPc v (push (fun s => s.reg .pc) (s.correctPc correct))) = _
    rw [w1, waitsAt_ok, andThen_ok, push]
    simp only [sp1, e4, reg_setReg_same]
    rw [reg_setReg_ne _ (by decide), pc1, w2, savesPc_ok]
  · rw [st2.cfg]; simp [st1.cfg]
  · rw [st2.psw]; simp [st1.psw]
  · rw [st2.seq]; simp [st1.seq]
  · rw [st2.ints]; simp [st1.ints]
  · rw [st2.per]; simp [st1.per]
  · rw [st2.timer]; simp [st1.timer]
  · rw [st2.plat]; simp [st1.plat]
  · rw [st2.inputs]; simp [st1.inputs]
  · rw [reg_congr st2.regs, reg_setReg_same]
  · rw [reg_congr st2.regs, reg_setReg_ne _ (by decide), pc1]
  · rw [reg_congr st2.regs, reg_setReg_ne _ hq, reg_correctPc_ne _ hq', reg_congr st1.regs, reg_setReg_ne s hq]
  · rw [State.memWord, read, read, if_neg n1, if_neg n2, if_neg n3, if_pos rfl, if_neg n4, if_neg n5, if_pos rfl,
      mkWord_bytes]
  · rw [read, if_neg (by rw [e3]; exact b3), if_neg b4, if_neg (by rw [e1]; exact b1), if_neg b2]

/-- The end of a user entry: the pushes have been made and the vector is known (R360). -/
theorem Pushed.entered {s t : State} {va ret : Word} (h : Pushed s t ret) (h1 : s.ramWord va = true)
    (h2 : s.ramWord (va + 2) = true) : ∃ u, loadVector false va t = .ok () u ∧ UserEntered s u ret va := by
  have ram : ∀ a, t.ramWord a = s.ramWord a := fun a => ramWord_congr h.cfg h.plat h.inputs (by rw [h.seq]) a
  obtain ⟨u, hl, l⟩ := loadVector_ram (s := t) ((ram _).trans h1) ((ram _).trans h2) false
  have hc := l.cfg.trans h.cfg
  have hb : ∀ b, u.readByteAt b = t.readByteAt b := readByteAt_congr l.mem l.cfg l.plat
  have hw : ∀ b, u.memWord b = t.memWord b := memWord_congr l.mem l.cfg l.plat
  refine ⟨u, hl, (l.regs _ (by decide)).trans h.sp, (hw _).trans h.first, (hw _).trans h.second, l.pc.trans (hw _).symm, ?_,
    fun q hq hq' => (l.regs q hq').trans (h.regs q hq hq'), fun b b1 b2 b3 b4 => (hb b).trans (h.frame b b1 b2 b3 b4), hc,
    ?_, l.ints.trans h.ints, ?_, l.timer.trans h.timer, l.plat.trans h.plat, l.inputs.trans h.inputs⟩
  · rw [l.psw, hw]; rfl
  · rw [l.seq, enteredSeq, h.seq]; rfl
  · rw [l.per, h.per]

/-- The two pushes of a user entry, taken out of it. -/
theorem userEntry_eq (v : Vsel) (correct : Bool) (s : State) :
    userEntry v correct s =
      ((waitsAt 0x14 (push State.pswRead s)).andThen fun _ s =>
        savesPc v (push (fun s => s.reg .pc) (s.correctPc correct))).andThen
        fun _ s => (vectorOf v s).andThen fun va s => loadVector false va s := by
  rw [userEntry]; cases waitsAt 0x14 (push State.pswRead s) <;> rfl

/-- A user entry whose stack and vector are RAM, the vector not supplied by a device (R360). -/
theorem userEntry_ram {s : State} {v : Vsel} (hv : v ≠ .ext) (correct : Bool)
    (h : UserRoom s (vectorAddr s.cfg.ncpu v)) :
    ∃ u, userEntry v correct s = .ok () u ∧
      UserEntered s u ((s.correctPc correct).reg .pc) (vectorAddr s.cfg.ncpu v) := by
  obtain ⟨hm, r1, r2, r3, r4⟩ := h
  obtain ⟨t, ht, hp⟩ := pushes_ram hm r1 r2 correct 0x14 v
  obtain ⟨u, hu, he⟩ := (hp.hidden (t.showVector v).micro).entered r3 r4
  refine ⟨u, ?_, he⟩
  rw [userEntry_eq, ht]
  simp only [andThen_ok, vectorOf, tableVector, if_neg hv, hp.cfg]
  exact hu

/-- A device has taken its answer away: the map is as before. -/
theorem Pushed.acknowledged {s t : State} {ret : Word} (h : Pushed s t ret) (l : List IackReply) (b : Bool) (m : Micro) :
    Pushed { s with plat := { s.plat with iack := l, pins := { s.plat.pins with virqLow := b } } }
      { t with plat := { t.plat with iack := l, pins := { t.plat.pins with virqLow := b } }, micro := m } ret := by
  refine ⟨h.cfg, h.psw, h.seq, h.ints, h.per, h.timer, ?_, h.inputs, h.wf, h.sp, h.pc, h.regs, h.first, h.second, h.frame⟩
  show ({ t.plat with iack := l, pins := { t.plat.pins with virqLow := b } } : Platform) = _
  rw [h.plat]

/-- A vectored entry: the vector is what the device answers (R99, R360, R362). -/
theorem userEntry_ext_ram {s : State} (correct : Bool) {reply : IackReply} {rest : List IackReply}
    (hi : s.plat.iack = reply :: rest) (hh : reply.holds = false) (h : UserRoom s reply.vector) :
    ∃ u, userEntry .ext correct s = .ok () u ∧
      UserEntered { s with plat := { s.plat with iack := rest
                                                 pins := { s.plat.pins with
                                                   virqLow := s.plat.pins.virqLow && !reply.release } } }
        u ((s.correctPc correct).reg .pc) reply.vector := by
  obtain ⟨hm, r1, r2, r3, r4⟩ := h
  obtain ⟨t, ht, hp⟩ := pushes_ram hm r1 r2 correct 0x14 .ext
  have hq : t.quiet = true := (quiet_congr hp.inputs (by rw [hp.seq])).trans (ramWord_iff.1 r1).1
  have hi' : (t.latchOp .ackRead).plat.iack = reply :: rest := by
    show t.plat.iack = _; rw [hp.plat]; exact hi
  have hq' := tenure_quiet (s := t.latchOp .ackRead) ((quiet_congr rfl rfl).trans hq)
  obtain ⟨u, hu, he⟩ := (hp.acknowledged rest (s.plat.pins.virqLow && !reply.release)
    ((t.latchOp .ackRead).setQ reply.vector).micro).entered (va := reply.vector) r3 r4
  refine ⟨u, ?_, he⟩
  rw [userEntry_eq, ht]
  simp only [andThen_ok, vectorOf, if_true, ackRead, hq', takeAck, hi', hh, readToQ, Bool.false_eq_true, if_false,
    waitsAt_ok]
  refine Eq.trans ?_ hu
  show loadVector false reply.vector _ = loadVector false reply.vector _
  rw [← hp.plat]; rfl

/-- An acknowledge read whose answer a device holds for ever, after the pushes in RAM: the entry never ends
(R81, R117, R362). -/
theorem userEntry_ext_holds {s : State} (correct : Bool) {reply : IackReply} {rest : List IackReply}
    (hi : s.plat.iack = reply :: rest) (hh : reply.holds = true) (h : StackRoom s) :
    ∃ t, userEntry .ext correct s = .abort (.hang true) t ∧ AckHung s t ((s.correctPc correct).reg .pc) rest := by
  obtain ⟨hm, r1, r2⟩ := h
  obtain ⟨t, ht, hp⟩ := pushes_ram hm r1 r2 correct 0x14 .ext
  have hq : t.quiet = true := (quiet_congr hp.inputs (by rw [hp.seq])).trans (ramWord_iff.1 r1).1
  have hi' : (t.latchOp .ackRead).plat.iack = reply :: rest := by
    show t.plat.iack = _; rw [hp.plat]; exact hi
  have hq' := tenure_quiet (s := t.latchOp .ackRead) ((quiet_congr rfl rfl).trans hq)
  let u := (t.latchOp .ackRead)
  refine ⟨({ u with plat := { u.plat with iack := rest } } : State).hang.waitAt 0x0B, ?_, hp.sp, ?_, ?_, hp.pc, hp.psw, hp.regs, ?_, hp.cfg,
    ?_, hp.ints, hp.per, hp.timer, ?_, hp.inputs⟩
  · rw [userEntry_eq, ht]
    simp only [andThen_ok, vectorOf, if_true, ackRead, hq', takeAck, hi', hh, readToQ]
    rfl
  · exact (memWord_congr (s := t) rfl rfl rfl _).trans hp.first
  · exact (memWord_congr (s := t) rfl rfl rfl _).trans hp.second
  · exact fun b b1 b2 b3 b4 => (readByteAt_congr (s := t) rfl rfl rfl b).trans (hp.frame b b1 b2 b3 b4)
  · show ({ t.seq with hung := true, waiting := false, retry := false } : Sequencer) = _
    rw [hp.seq]
  · show ({ t.plat with iack := rest } : Platform) = _
    rw [hp.plat]

/-! ### The pult entry -/

/-- The rest of a pult entry after bit 3 of 177716 is set: the save cells and the vector are RAM (R365). -/
theorem pultTail_ram {s : State} (v : Vsel) (correct : Bool) (h : PultRoom s (vectorAddr s.cfg.ncpu v)) :
    ∃ u, ((waitsAt 0x14 (writeWord 0o177676 s.pswRead s)).andThen fun _ s =>
        let s := s.correctPc correct
        (savesPc v (writeWord 0o177674 (s.reg .pc) s)).andThen fun _ s =>
        (tableVector v s).andThen fun va s => loadVector true va s) = .ok () u ∧
      PultEntered s u ((s.correctPc correct).reg .pc) (vectorAddr s.cfg.ncpu v) := by
  obtain ⟨hm, r1, r2, r3, r4⟩ := h
  obtain ⟨t1, w1, st1⟩ := writeWord_stored r1 hm (fullPsw s)
  have pc1 : (t1.correctPc correct).reg .pc = (s.correctPc correct).reg .pc := by
    have e : t1.reg .pc = s.reg .pc := reg_congr st1.regs _
    cases correct
    · exact e
    · simp only [State.correctPc, if_true, reg_setReg_same, e]
  have q1 : (t1.correctPc correct).ramWord 0o177674 = true := by
    refine (ramWord_congr (s := t1) ?_ ?_ ?_ ?_ _).trans ((st1.ramWord _).trans r2) <;> simp
  have m1 : (t1.correctPc correct).mem.wf = true := by simp [st1.wf]
  obtain ⟨t2, w2, st2⟩ := writeWord_stored q1 m1 ((s.correctPc correct).reg .pc)
  have hc : t2.cfg = s.cfg := by rw [st2.cfg]; simp [st1.cfg]
  have ram : ∀ a, t2.ramWord a = s.ramWord a := fun a => (st2.ramWord a).trans
    ((ramWord_congr (s := t1) (by simp) (by simp) (by simp) (by simp) a).trans (st1.ramWord a))
  obtain ⟨u, hl, l⟩ := loadVector_ram (s := t2.showVector v) ((ram _).trans r3) ((ram _).trans r4) true
  replace l : Loaded true t2 u (vectorAddr s.cfg.ncpu v) := l.of_showVector
  have hb : ∀ b, u.readByteAt b = t2.readByteAt b := readByteAt_congr l.mem l.cfg l.plat
  have hw : ∀ b, u.memWord b = t2.memWord b := memWord_congr l.mem l.cfg l.plat
  have read : ∀ b, t2.readByteAt b =
      if b = 0o177674 + 1 then hiByte ((s.correctPc correct).reg .pc)
      else if b = 0o177674 then loByte ((s.correctPc correct).reg .pc)
      else if b = 0o177676 + 1 then hiByte (fullPsw s) else if b = 0o177676 then loByte (fullPsw s)
      else s.readByteAt b := by
    intro b
    rw [st2.read, readByteAt_congr (s := t1) (by simp) (by simp) (by simp), st1.read]
  refine ⟨u, ?_, ?_, (hw _).trans st2.memWord, l.pc.trans (hw _).symm, ?_, fun q hq => ?_, fun b b1 b2 b3 b4 => ?_,
    l.cfg.trans hc, ?_, ?_, ?_, ?_, ?_, ?_⟩
  · show ((waitsAt 0x14 (writeWord 0o177676 (fullPsw s) s)).andThen fun _ s =>
        let s := s.correctPc correct
        (savesPc v (writeWord 0o177674 (s.reg .pc) s)).andThen fun _ s =>
        (tableVector v s).andThen fun va s => loadVector true va s) = _
    rw [w1, waitsAt_ok, andThen_ok]
    show ((savesPc v (writeWord 0o177674 ((t1.correctPc correct).reg .pc) (t1.correctPc correct))).andThen fun _ s =>
      (tableVector v s).andThen fun va s => loadVector true va s) = _
    rw [pc1, w2, savesPc_ok, andThen_ok, tableVector, hc, andThen_ok]
    exact hl
  · rw [hw, State.memWord, read, read]; exact mkWord_bytes _
  · rw [l.psw, hw]; rfl
  · exact (l.regs q hq).trans ((reg_congr st2.regs q).trans ((reg_correctPc_ne t1 hq _).trans (reg_congr st1.regs q)))
  · rw [hb, read]; exact (if_neg b4).trans ((if_neg b3).trans ((if_neg b2).trans (if_neg b1)))
  · rw [l.seq, enteredSeq, st2.seq]; simp [st1.seq, enteredSeq]
  · rw [l.ints, st2.ints]; simp [st1.ints]
  · rw [l.per, st2.per]; simp [st1.per]
  · rw [l.timer, st2.timer]; simp [st1.timer]
  · rw [l.plat, st2.plat]; simp [st1.plat]
  · rw [l.inputs, st2.inputs]; simp [st1.inputs]

/-- A pult entry whose save cells and vector are RAM (R365). -/
theorem pultEntry_ram {s s1 : State} (v : Vsel) (correct : Bool) (hb : setPultBit true s = .ok () s1)
    (h : PultRoom s1 (vectorAddr s1.cfg.ncpu v)) :
    ∃ u, pultEntry v correct s = .ok () u ∧
      PultEntered s1 u ((s1.correctPc correct).reg .pc) (vectorAddr s1.cfg.ncpu v) := by
  obtain ⟨u, hu, he⟩ := pultTail_ram v correct h
  exact ⟨u, by rw [pultEntry, hb]; exact hu, he⟩

/-! ### Bit 3 of 177716 -/

/-- 177716 lies in the block of processor 0 only (R50). -/
theorem sel1_block (n : BitVec 2) : inBlock n 0o177716 = (n == 0) := by revert n; decide

/-- A word read of an address of the own block. -/
theorem busReadWord_own {a : Word} {s : State} (h : s.ownBlock a = true) :
    busReadWord a s = readPreg (pregOf a) s := by rw [busReadWord, decoded, h]; rfl

/-- A word write to an address of the own block. -/
theorem busWriteWord_own {a w : Word} {s : State} (h : s.ownBlock a = true) :
    busWriteWord a w s = writePreg (pregOf a) w s := by rw [busWriteWord, decoded, h]; rfl

/-- Bit 3 of 177716 set or cleared, where `PultReady` says what is there (R59, R365, R420). -/
theorem setPultBit_ready {s : State} (h : PultReady s) (on : Bool) :
    ∃ m, setPultBit on s = .ok () { s.pultWith on with micro := m } := by
  obtain ⟨hq, hm, h0, h1⟩ := h
  by_cases hn : s.cfg.ncpu = 0
  · refine ⟨(((s.latch .rmwWord 0o177716).setQ s.plat.sel1).setQ (pultWord on s.plat.sel1)).micro, ?_⟩
    have hb : ∀ t : State, t.cfg = s.cfg → t.ownBlock 0o177716 = true := fun t ht => by
      rw [State.ownBlock, sel1_block, ht, hn]; rfl
    have hp : pregOf 0o177716 = .sel1 := by decide
    have hf : (s.latch .rmwWord 0o177716).pregFree .sel1 = false := by
      show (s.cfg.sel1Kind == .undriven) = false; rw [h0 hn]; rfl
    have e1 : busReadWord 0o177716 (s.latch .rmwWord 0o177716) = .ok s.plat.sel1 (s.latch .rmwWord 0o177716) := by
      rw [busReadWord_own (hb (s.latch .rmwWord 0o177716) rfl), hp, readPreg, if_neg (by simp), if_neg (by rw [hf]; simp), if_neg (by simp)]; rfl
    rw [setPultBit, rmwWord, transact_quiet hq, e1]
    simp only [readToQ, andThen_ok]
    rw [busWriteWord_own (hb (((s.latch .rmwWord 0o177716).setQ s.plat.sel1).setQ _) rfl), hp, writePreg, if_neg (by simp), State.pultWith, if_pos hn]
    rfl
  · refine ⟨(s.noted .rmwWord 0o177716 (pultWord on (s.memWord 0o177716))).micro, ?_⟩
    rw [setPultBit, rmwWord_ram (h1 hn), State.pultWith, if_neg hn]
    rfl

end Sys2Proof.Machine
end

