-- ==== Sys2Proof/Laws/Steady.lean ====
section
/-! SUPPORT. What every activity inside an instruction keeps, completed or cut short, said once for each operation:
the configuration, the form of memory, the reserved bits, MA, that nothing starts to wait, and that a started processor stays
so until a hardware reset. -/

namespace Sys2Proof.Machine

/-- Power is good, the start has been performed, and nDCLO is high. -/
def Live (s : State) : Prop := s.ints.acok = true ∧ s.plat.pins.dcloLow = false

/-- The processor waits for its start (R27, R43, R60). -/
def Booted (t : State) : Prop :=
  t.ints.acok = false ∧ t.seq.irLoaded = true ∧ t.seq.pollEnabled = true ∧ t.seq.retry = false ∧ t.seq.waiting = false

/-- What everything keeps, a hardware reset too. -/
structure Kept (s t : State) : Prop where
  cfg : t.cfg = s.cfg
  mem : s.mem.wf = true → t.mem.wf = true
  psw : s.psw &&& 0x0300 = 0 → t.psw &&& 0x0300 = 0
  err : s.per.errFlags &&& 0x20 = 0 → t.per.errFlags &&& 0x20 = 0
  window : s.timer.window ≤ 4 → t.timer.window ≤ 4
  still : s.seq.waiting = false → t.seq.waiting = false
  ma : MaLegal s → MaLegal t
  init : InitHeld s → InitHeld t

theorem Kept.refl (s : State) : Kept s s := ⟨rfl, id, id, id, id, id, id, id⟩

theorem Kept.trans {s t u : State} (h : Kept s t) (g : Kept t u) : Kept s u :=
  ⟨g.cfg.trans h.cfg, g.mem ∘ h.mem, g.psw ∘ h.psw, g.err ∘ h.err, g.window ∘ h.window, g.still ∘ h.still, g.ma ∘ h.ma,
    g.init ∘ h.init⟩

/-- What every activity keeps that goes on. -/
structure Steady (s t : State) : Prop where
  kept : Kept s t
  live : Live s → Live t

/-- What every activity keeps, ended by a hardware reset or not. -/
structure Halted (s t : State) : Prop where
  kept : Kept s t
  live : Live s → Live t ∨ Booted t

theorem Steady.refl (s : State) : Steady s s := ⟨.refl s, id⟩

theorem Steady.trans {s t u : State} (h : Steady s t) (g : Steady t u) : Steady s u :=
  ⟨h.kept.trans g.kept, g.live ∘ h.live⟩

theorem Steady.halted {s t : State} (h : Steady s t) : Halted s t := ⟨h.kept, fun l => .inl (h.live l)⟩

theorem Steady.trans_halted {s t u : State} (h : Steady s t) (g : Halted t u) : Halted s u :=
  ⟨h.kept.trans g.kept, g.live ∘ h.live⟩

theorem Halted.trans_steady {s t u : State} (h : Halted s t) (g : Steady t u) (hb : Booted t → Booted u) : Halted s u :=
  ⟨h.kept.trans g.kept, fun l => (h.live l).imp g.live hb⟩

/-- An update that changes none of what `Steady` speaks of but registers and PSW. -/
theorem steady_of {s t : State} (h1 : t.cfg = s.cfg) (h2 : t.mem = s.mem)
    (h3 : s.psw &&& 0x0300 = 0 → t.psw &&& 0x0300 = 0) (h4 : t.per.errFlags = s.per.errFlags) (h5 : t.timer = s.timer)
    (h6 : s.seq.waiting = false → t.seq.waiting = false) (h7 : (t.micro.ma = s.micro.ma ∧ (s.seq.hung = true → t.seq.hung = true)) ∨ t.micro.ma = 1)
    (h8 : t.ints.acok = s.ints.acok) (h9 : t.plat.pins.dcloLow = s.plat.pins.dcloLow)
    (h10 : InitHeld s → InitHeld t) : Steady s t :=
  ⟨⟨h1, by rw [h2]; exact id, h3, by rw [h4]; exact id, by rw [h5]; exact id, h6, fun g => by
    rcases h7 with h | h
    · unfold MaLegal; rw [h.1]; exact g.imp_right fun g => g.imp_right fun g => ⟨h.2 g.1, g.2⟩
    · exact .inr (.inl h), h10⟩, fun l => ⟨h8.trans l.1, h9.trans l.2⟩⟩

theorem Outside.steady {s t : State} (h : Outside s t) : Steady s t :=
  ⟨⟨h.cfg, h.mem, by rw [h.psw]; exact id, h.err, h.window, h.acted.still, h.acted.ma, h.init⟩,
   fun l => ⟨(h.acok l.2).trans l.1, h.dclo l.2⟩⟩

theorem Acted.halted {s t : State} (h : Acted s t) : Halted s t :=
  ⟨⟨h.cfg, h.mem, h.psw, h.err, h.window, h.still, h.ma, h.init⟩, fun l => by
    rcases h.either with g | g
    · exact .inl (g.steady.live l)
    · exact .inr g⟩

/-- An activity that keeps what it must: what `Steady` says, but for one that a hardware reset has ended; and where it ends in
a hang, the bus hangs. -/
def Calm {α : Type} (s : State) (r : Res α) : Prop :=
  match r with
  | .ok _ t => Steady s t
  | .abort .reset t => Halted s t
  | .abort (.hang _) t => Steady s t ∧ t.seq.hung = true
  | .abort (.timeout _) t => Steady s t
  | .abort (.refused _) _ => True

theorem calm_ok {α : Type} (a : α) (s : State) : Calm s (.ok a s) := Steady.refl s

theorem Steady.calm {α : Type} {s t : State} {r : Res α} (h : Steady s t) (g : Calm t r) : Calm s r := by
  cases r with
  | ok a u => exact h.trans g
  | abort e u =>
    cases e with
    | reset => exact h.trans_halted g
    | hang b => exact ⟨h.trans g.1, g.2⟩
    | timeout k => exact h.trans g
    | refused r => trivial

theorem calm_andThen {α β : Type} {s : State} {r : Res α} {k : α → State → Res β} (h : Calm s r)
    (g : ∀ a t, Calm t (k a t)) : Calm s (r.andThen k) := by
  cases r with
  | ok a t => exact Steady.calm h (g a t)
  | abort e t => cases e <;> exact h

theorem OnBus.calm {α : Type} {s : State} {r : Res α} (h : OnBus s r) : Calm s r := by
  have g := h.outside.steady
  cases r with
  | ok a t => exact g
  | abort e t =>
    cases e with
    | reset => exact g.halted
    | hang b => exact ⟨g, by rw [show t = s.hang from h]; rfl⟩
    | timeout k => exact g
    | refused r => trivial

/-! ### Plain updates -/

theorem steady_setReg (s : State) (r : Reg) (v : Word) : Steady s (s.setReg r v) :=
  steady_of rfl rfl id rfl rfl id (.inl ⟨rfl, id⟩) rfl rfl id

theorem steady_micro (s : State) (m : Micro) (h : m.ma = s.micro.ma) : Steady s { s with micro := m } :=
  steady_of rfl rfl id rfl rfl id (.inl ⟨h, id⟩) rfl rfl id

theorem or_and_mask {n : Nat} (x y m : BitVec n) : (x ||| y) &&& m = (x &&& m) ||| (y &&& m) := by
  ext i hi; simp only [BitVec.getElem_and, BitVec.getElem_or, Bool.and_or_distrib_right]

theorem and_swap {n : Nat} (x y m : BitVec n) : x &&& y &&& m = x &&& m &&& y := by
  rw [BitVec.and_assoc, BitVec.and_comm y m, BitVec.and_assoc]

theorem and_low_psw (p w : Word) (h : p &&& 0x0300 = 0) (hw : w &&& 0x0300 = 0) : (p ||| w) &&& 0x0300 = 0 := by
  rw [or_and_mask, h, hw]; rfl

theorem steady_psw (s : State) (p : Word) (h : s.psw &&& 0x0300 = 0 → p &&& 0x0300 = 0) :
    Steady s { s with psw := p } := steady_of rfl rfl h rfl rfl id (.inl ⟨rfl, id⟩) rfl rfl id

theorem steady_setCc (s : State) (f : Cc) : Steady s (s.setCc f) := by
  refine steady_psw s _ fun h => and_low_psw _ _ ?_ ?_
  · rw [and_swap, h]; rfl
  · have : ∀ b : BitVec 4, ((0 : BitVec 12) ++ b) &&& 0x0300 = 0 := by decide
    exact this _

theorem steady_clearCc (s : State) (m : BitVec 4) : Steady s (s.clearCc m) :=
  steady_psw s _ fun h => by rw [and_swap, h]; exact BitVec.zero_and

theorem steady_raiseCc (s : State) (m : BitVec 4) : Steady s (s.raiseCc m) :=
  steady_psw s _ fun h => and_low_psw _ _ h (by
    have : ∀ b : BitVec 4, b.setWidth 16 &&& (0x0300 : Word) = 0 := by decide
    exact this m)

theorem steady_loadPswLow (s : State) (w : Word) : Steady s (s.loadPswLow w) :=
  steady_psw s _ fun _ => by rw [BitVec.and_assoc]; simp

theorem steady_loadPswWhole (s : State) (w : Word) : Steady s (s.loadPswWhole w) :=
  steady_psw s _ fun _ => by rw [BitVec.and_assoc]; simp

theorem steady_loadPswMtps (s : State) (v : Byte) : Steady s (s.loadPswMtps v) := by
  refine steady_psw s _ fun h => and_low_psw _ _ ?_ ?_
  · rw [and_swap, h]; rfl
  · rw [BitVec.and_assoc]; simp

theorem steady_retire (s : State) (b : Bool) : Steady s (s.retire b) := steady_of rfl rfl id rfl rfl id (.inl ⟨rfl, id⟩) rfl rfl id

theorem steady_skipPoll (s : State) : Steady s s.skipPoll := steady_of rfl rfl id rfl rfl id (.inl ⟨rfl, id⟩) rfl rfl id

theorem steady_keepWord (s : State) (w : Word) : Steady s (s.keepWord w) :=
  steady_of rfl rfl id rfl rfl id (.inl ⟨rfl, id⟩) rfl rfl id

theorem steady_entered (s : State) : Steady s s.entered :=
  steady_of rfl rfl id rfl rfl (fun _ => rfl) (.inl ⟨rfl, id⟩) rfl rfl id

theorem steady_correctPc (s : State) (b : Bool) : Steady s (s.correctPc b) := by
  cases b
  · exact .refl _
  · exact steady_setReg _ _ _

theorem steady_steer (s : State) (i : Instr) : Steady s (s.steer i) := by
  unfold State.steer
  split <;> exact steady_of rfl rfl id rfl rfl id (.inl ⟨rfl, id⟩) rfl rfl id

/-- On a bus that hangs the automaton may stand at any micro-address that waits. -/
theorem steady_waitAt {s : State} {ma : BitVec 7} (hh : s.seq.hung = true) (h : ma ∈ waitPoints) :
    Steady s (s.waitAt ma) :=
  ⟨⟨rfl, id, id, id, id, id, fun _ => .inr (.inr ⟨hh, h⟩), id⟩, id⟩

theorem calm_waitsAt {α : Type} {ma : BitVec 7} {s : State} {r : Res α} (hm : ma ∈ waitPoints) (h : Calm s r) :
    Calm s (waitsAt ma r) := by
  cases r with
  | ok a t => exact h
  | abort e t =>
    cases e with
    | reset => exact h
    | hang b => exact ⟨h.1.trans (steady_waitAt h.2 hm), h.2⟩
    | timeout k => exact h
    | refused x => trivial

/-! ### Transactions -/

theorem calm_tenure (s : State) : Calm s (tenure s) := by
  cases h : tenure s with
  | ok u t => exact (tenure_ok h).1.steady
  | abort a t =>
    rcases tenure_abort h with ⟨rfl, g⟩ | ⟨rfl, g, hh⟩ | ⟨r, rfl⟩
    · exact g.halted
    · exact ⟨g.steady, hh⟩
    · trivial

theorem calm_transact {α : Type} (op : BusOp) (a : Word) (k : State → Res α) (s : State) (h : ∀ t, Calm t (k t)) :
    Calm s (transact op a k s) :=
  (steady_micro s (s.latch op a).micro rfl).calm (calm_andThen (calm_tenure (s.latch op a)) fun _ t => h t)

theorem calm_readToQ {s : State} {r : Res Word} (h : Calm s r) : Calm s (readToQ r) :=
  calm_andThen h fun w t => steady_micro t (t.setQ w).micro rfl

theorem calm_busRead (a : Word) (s : State) : Calm s (readToQ (busReadWord a s)) :=
  calm_readToQ (onBus_busReadWord a s).calm

theorem calm_readWord (a : Word) (s : State) : Calm s (readWord a s) := calm_transact _ _ _ _ fun t => calm_busRead a t

theorem calm_readByte (a : Word) (s : State) : Calm s (readByte a s) :=
  calm_transact _ _ _ _ fun t => calm_andThen (calm_busRead _ t) fun _ u => .refl u

theorem calm_busWriteWord (a w : Word) (s : State) : Calm s (busWriteWord a w (s.setQ w)) :=
  (steady_micro s (s.setQ w).micro rfl).calm (onBus_busWriteWord a w (s.setQ w)).calm

theorem calm_busWriteByte (a : Word) (v : Byte) (s : State) : Calm s (busWriteByte a v (s.setQ (byteInQ v))) :=
  (steady_micro s (s.setQ (byteInQ v)).micro rfl).calm (onBus_busWriteByte a v _).calm

theorem calm_writeWord (a w : Word) (s : State) : Calm s (writeWord a w s) :=
  (steady_micro s (s.setQ w).micro rfl).calm (calm_transact _ _ _ (s.setQ w) fun t => (onBus_busWriteWord a w t).calm)

theorem calm_writeByte (a : Word) (v : Byte) (s : State) : Calm s (writeByte a v s) :=
  (steady_micro s (s.setQ (byteInQ v)).micro rfl).calm
    (calm_transact _ _ _ (s.setQ (byteInQ v)) fun t => (onBus_busWriteByte a v t).calm)

theorem calm_rmwWord {α : Type} (a : Word) (f : Word → Word × α) (s : State) : Calm s (rmwWord a f s) :=
  calm_transact _ _ _ _ fun t => calm_andThen (calm_busRead a t) fun _ u =>
    calm_andThen (calm_busWriteWord a _ u) fun _ v => .refl v

theorem calm_rmwByte {α : Type} (a : Word) (f : Byte → Byte × α) (s : State) : Calm s (rmwByte a f s) :=
  calm_transact _ _ _ _ fun t => calm_andThen (calm_busRead _ t) fun _ u =>
    calm_andThen (calm_busWriteByte a _ u) fun _ v => .refl v

/-! ### Operands -/

theorem calm_setReg {α : Type} {r : Reg} {v : Word} {s : State} {x : Res α} (h : Calm (s.setReg r v) x) : Calm s x :=
  (steady_setReg s r v).calm h

theorem calm_effAddr (m : MemMode) (r : Reg) (sz : Size) (s : State) : Calm s (effAddr m r sz s) := by
  cases m with
  | deferred => exact calm_ok _ s
  | autoInc => exact steady_setReg _ _ _
  | autoDec => exact steady_setReg _ _ _
  | autoIncDef => exact calm_setReg (calm_readWord _ _)
  | autoDecDef => exact calm_setReg (calm_readWord _ _)
  | index => exact calm_andThen (calm_setReg (calm_readWord _ _)) fun _ t => calm_ok _ t
  | indexDef => exact calm_andThen (calm_setReg (calm_readWord _ _)) fun _ t => calm_readWord _ t

theorem calm_readOpWord (o : Operand) (s : State) : Calm s (readOpWord o s) := by
  cases o with
  | reg r => exact calm_ok _ s
  | mem m r => exact calm_andThen (calm_effAddr _ _ _ _) fun _ _ => calm_readWord _ _

theorem calm_readOpByte (o : Operand) (s : State) : Calm s (readOpByte o s) := by
  cases o with
  | reg r => exact calm_ok _ s
  | mem m r => exact calm_andThen (calm_effAddr _ _ _ _) fun _ _ => calm_readByte _ _

theorem calm_discardedAt (a : Word) (s : State) : Calm s (discardedAt a s) :=
  calm_andThen (calm_readWord _ _) fun _ t => calm_ok _ t

theorem calm_prefetchNext (s : State) : Calm s (prefetchNext s) := by
  have h := calm_readWord (s.reg .pc) s
  unfold prefetchNext
  split <;> rename_i e <;> rw [e] at h
  · exact Steady.trans h (steady_keepWord _ _)
  · exact h
  · rename_i a t hr
    cases a with
    | reset => exact absurd rfl hr
    | hang b => exact ⟨h.1.trans (steady_setReg _ _ _), h.2⟩
    | timeout k => exact Steady.trans h (steady_setReg _ _ _)
    | refused x => trivial

theorem calm_prefetch (b : Bool) (s : State) : Calm s (prefetch b s) := by
  cases b
  · exact calm_prefetchNext s
  · exact calm_discardedAt _ s

theorem calm_modifyWord (p : Bool) (o : Operand) (f : Word → Word × Cc) (s : State) : Calm s (modifyWord p o f s) := by
  cases o with
  | reg r => exact calm_andThen (calm_prefetch _ _) fun _ _ => (steady_setReg _ _ _).trans (steady_setCc _ _)
  | mem m r =>
    exact calm_andThen (calm_effAddr _ _ _ _) fun _ _ => calm_andThen (calm_rmwWord _ _ _) fun _ _ => steady_setCc _ _

theorem calm_modifyByte (p : Bool) (o : Operand) (f : Byte → Byte × Cc) (s : State) : Calm s (modifyByte p o f s) := by
  cases o with
  | reg r => exact calm_andThen (calm_prefetch _ _) fun _ _ => (steady_setReg _ _ _).trans (steady_setCc _ _)
  | mem m r =>
    exact calm_andThen (calm_effAddr _ _ _ _) fun _ _ => calm_andThen (calm_rmwByte _ _ _) fun _ _ => steady_setCc _ _

theorem calm_testWord (p : Bool) (o : Operand) (f : Word → Cc) (s : State) : Calm s (testWord p o f s) := by
  cases o with
  | reg r => exact calm_andThen (calm_prefetch _ _) fun _ _ => steady_setCc _ _
  | mem m r =>
    exact calm_andThen (calm_effAddr _ _ _ _) fun _ _ => calm_andThen (calm_readWord _ _) fun _ _ => steady_setCc _ _

theorem calm_testByte (p : Bool) (o : Operand) (f : Byte → Cc) (s : State) : Calm s (testByte p o f s) := by
  cases o with
  | reg r => exact calm_andThen (calm_prefetch _ _) fun _ _ => steady_setCc _ _
  | mem m r =>
    exact calm_andThen (calm_effAddr _ _ _ _) fun _ _ => calm_andThen (calm_readByte _ _) fun _ _ => steady_setCc _ _

theorem calm_storeWord (p : Bool) (o : Operand) (v : Word) (f : Cc) (s : State) : Calm s (storeWord p o v f s) := by
  cases o with
  | reg r => exact calm_andThen (calm_prefetch _ _) fun _ _ => (steady_setReg _ _ _).trans (steady_setCc _ _)
  | mem m r =>
    exact calm_andThen (calm_effAddr _ _ _ _) fun _ _ => calm_andThen (calm_writeWord _ _ _) fun _ _ => steady_setCc _ _

theorem calm_storeByte (p : Bool) (o : Operand) (v : Byte) (f : Cc) (s : State) : Calm s (storeByte p o v f s) := by
  cases o with
  | reg r => exact calm_andThen (calm_prefetch _ _) fun _ _ => (steady_setReg _ _ _).trans (steady_setCc _ _)
  | mem m r =>
    exact calm_andThen (calm_effAddr _ _ _ _) fun _ _ => calm_andThen (calm_writeByte _ _ _) fun _ _ => steady_setCc _ _

/-! ### Stack, entries and returns -/

theorem calm_push (w : State → Word) (s : State) : Calm s (push w s) := calm_setReg (calm_writeWord _ _ _)

theorem calm_pop (s : State) : Calm s (pop s) := calm_setReg (calm_readWord _ _)

theorem calm_takeAck (s : State) : Calm s (takeAck s) := by
  unfold takeAck; split
  · exact Steady.refl s
  · split
    · exact ⟨steady_of (t := State.hang _) rfl rfl id rfl rfl (fun _ => rfl) (.inl ⟨rfl, fun _ => rfl⟩) rfl rfl id, rfl⟩
    · exact steady_of rfl rfl id rfl rfl id (.inl ⟨rfl, id⟩) rfl rfl id

theorem steady_setQ (s : State) (q : Word) : Steady s (s.setQ q) := steady_micro s (s.setQ q).micro rfl

theorem steady_showVector (s : State) (v : Vsel) : Steady s (s.showVector v) := steady_micro s (s.showVector v).micro rfl

theorem calm_tableVector (v : Vsel) (s : State) : Calm s (tableVector v s) := steady_showVector s v

theorem calm_savesPc (v : Vsel) {s : State} {r : Res Unit} (h : Calm s r) : Calm s (savesPc v r) := by
  unfold savesPc
  split
  · exact calm_waitsAt (by decide) h
  · split
    · exact ⟨h.1.trans (steady_waitAt h.2 (by decide)), h.2⟩
    · rename_i t
      exact ⟨(h.1.trans (steady_showVector t v)).trans (steady_waitAt h.2 (by decide)), h.2⟩
    · exact Steady.trans h (steady_showVector _ v)
    · exact h

theorem calm_vectorOf (v : Vsel) (s : State) : Calm s (vectorOf v s) := by
  unfold vectorOf; split
  · exact calm_waitsAt (by decide) ((steady_micro s (s.latchOp .ackRead).micro rfl).calm
      (calm_andThen (calm_tenure (s.latchOp .ackRead)) fun _ t => calm_readToQ (calm_takeAck t)))
  · exact calm_tableVector v s

theorem calm_loadVector (whole : Bool) (va : Word) (s : State) : Calm s (loadVector whole va s) := by
  refine calm_andThen (calm_waitsAt (by decide) (calm_readWord _ _)) fun w t => calm_setReg (r := .pc) (v := w) ?_
  refine calm_andThen (calm_waitsAt (by decide) (calm_readWord _ _)) fun w t => ?_
  cases whole
  · exact (steady_loadPswLow _ _).trans (steady_entered _)
  · exact (steady_loadPswWhole _ _).trans (steady_entered _)

theorem calm_userEntry (v : Vsel) (correct : Bool) (s : State) : Calm s (userEntry v correct s) :=
  calm_andThen (calm_waitsAt (by decide) (calm_push _ _)) fun _ t => (steady_correctPc t correct).calm
    (calm_andThen (calm_savesPc v (calm_push _ _)) fun _ _ =>
      calm_andThen (calm_vectorOf _ _) fun _ _ => calm_loadVector _ _ _)

theorem calm_setPultBit (on : Bool) (s : State) : Calm s (setPultBit on s) := calm_rmwWord _ _ _

theorem calm_pultEntry (v : Vsel) (correct : Bool) (s : State) : Calm s (pultEntry v correct s) :=
  calm_andThen (calm_waitsAt (by decide) (calm_setPultBit _ _)) fun _ _ =>
    calm_andThen (calm_waitsAt (by decide) (calm_writeWord _ _ _)) fun _ t => (steady_correctPc t correct).calm
      (calm_andThen (calm_savesPc v (calm_writeWord _ _ _)) fun _ _ =>
        calm_andThen (calm_tableVector _ _) fun _ _ => calm_loadVector _ _ _)

theorem calm_initialStart (s : State) : Calm s (initialStart s) :=
  calm_andThen (calm_waitsAt (by decide) (calm_readWord _ _)) fun q t =>
    Steady.trans (steady_setReg t .pc (q &&& 0o177400))
      (steady_of rfl rfl (fun _ => (by decide : (0o000340 : Word) &&& 0x0300 = 0)) rfl rfl (fun _ => rfl) (.inl ⟨rfl, id⟩)
        rfl rfl id)

theorem calm_popPcPsw (s : State) : Calm s (popPcPsw s) :=
  calm_andThen (calm_waitsAt (by decide) (calm_pop _)) fun w t => (steady_setReg t .pc w).calm
    (calm_andThen (calm_waitsAt (by decide) (calm_pop _)) fun _ _ => steady_loadPswLow _ _)

theorem calm_pultReturn (s : State) : Calm s (pultReturn s) :=
  calm_andThen (calm_waitsAt (by decide) (calm_readWord _ _)) fun w t => (steady_setReg t .pc w).calm
    (calm_andThen (calm_waitsAt (by decide) (calm_readWord _ _)) fun _ _ =>
      (steady_loadPswWhole _ _).calm (calm_waitsAt (by decide) (calm_setPultBit _ _)))

/-- Where the next instruction word is awaited is one of the micro-addresses that wait. -/
theorem fetchPoint_mem (s : State) : s.fetchPoint ∈ waitPoints := by
  unfold State.fetchPoint; split <;> decide

theorem steady_loadIr (s : State) (w : Word) : Steady s (s.loadIr w) :=
  ⟨⟨rfl, id, id, fun _ => (by decide : (0 : Byte) &&& 0x20 = 0), id, id, id, id⟩, id⟩

/-- A fetch, from the shadow of IR or from the bus (R27, R28). -/
theorem calm_fetch (s : State) : Calm s (fetch s) := by
  unfold fetch
  split
  · exact (steady_setReg _ _ _).trans (steady_loadIr _ _)
  · exact calm_andThen (calm_waitsAt (fetchPoint_mem s) (calm_setReg (calm_readWord _ _))) fun w t => steady_loadIr t w

/-- An entry that a poll names (R27). -/
theorem calm_enter (a : Answer) (s : State) : Calm s (enter a s) := by
  unfold enter; split
  · exact calm_pultEntry _ _ _
  · exact calm_pultEntry _ _ _
  · exact calm_userEntry _ _ _
  · exact calm_userEntry _ _ _
  · exact calm_initialStart _
  · exact calm_initialStart _
  · exact steady_of rfl rfl id rfl rfl id (.inl ⟨rfl, id⟩) rfl rfl id

/-- What clearing a latch leaves. -/
theorem steady_rearm (s : State) (rr : BitVec 3) :
    Steady s (s.rearm rr) ∧ (s.rearm rr).ints.acok = s.ints.acok ∧ (s.rearm rr).seq = s.seq := by
  have tm : Kept s { s with timer := { s.timer with req := false } } := ⟨rfl, id, id, id, id, id, id, id⟩
  unfold State.rearm
  split
  all_goals first
    | exact ⟨steady_of rfl rfl id rfl rfl id (.inl ⟨rfl, id⟩) rfl rfl id, rfl, rfl⟩
    | (split
       · exact ⟨⟨tm, id⟩, rfl, rfl⟩
       · exact ⟨.refl s, rfl, rfl⟩)

/-- A poll clears one latch and may set ACOK (R348). -/
theorem steady_poll (s : State) : Steady s (poll s).2 := by
  obtain ⟨h1, h2, _⟩ := steady_rearm s (matrix s).rearm
  refine ⟨h1.kept.trans ⟨rfl, id, id, id, id, id, id, id⟩, fun l => ⟨?_, (h1.live l).2⟩⟩
  show (s.ints.acok || s.ints.acin) = true
  rw [l.1, Bool.true_or]

theorem steady_atDispatch (s : State) : Steady s s.atDispatch := steady_of rfl rfl id rfl rfl id (.inr rfl) rfl rfl id

theorem steady_noteError (s : State) (b : Byte) (hb : b &&& 0x20 = 0) : Steady s (s.noteError b) := by
  refine ⟨⟨rfl, id, id, fun h => ?_, id, id, id, id⟩, id⟩
  show (s.per.errFlags ||| b ||| (if s.errorPending then 1 else 0)) &&& 0x20 = 0
  rw [or_and_mask, or_and_mask, h, hb]
  split <;> rfl

theorem steady_noteTimeout (s : State) (k : BusKind) : Steady s (s.noteTimeout k) :=
  (steady_noteError s 0x10 rfl).trans (steady_of rfl rfl id rfl rfl id (.inr rfl) rfl rfl id)

theorem steady_noteIllegal (s : State) : Steady s s.noteIllegal :=
  (steady_noteError s 0x02 rfl).trans (steady_of rfl rfl id rfl rfl id (.inr rfl) rfl rfl id)

theorem calm_forcedEntry (s : State) : Calm s (forcedEntry s) := (steady_poll s).calm (calm_enter _ _)

theorem steady_park (s : State) (k : BusKind) : Steady s (s.park k) :=
  (steady_noteTimeout s k).trans (steady_of rfl rfl id rfl rfl id (.inl ⟨rfl, id⟩) rfl rfl id)

/-! ### Outcomes -/

/-- The last attempt of an entry (R372). -/
theorem lastAttempt_halted {s t : State} (h : lastAttempt s = .next t) : Halted s t := by
  have c := calm_forcedEntry s
  unfold lastAttempt at h
  split at h <;> rename_i e <;> rw [e] at c
  · cases h; exact Steady.halted c
  · cases h
    exact (Steady.trans c (steady_park _ _)).halted
  · cases h
  · cases h; exact c
  · cases h; exact Steady.halted c.1

theorem enterError_halted {s t : State} (h : enterError s = .next t) : Halted s t := by
  have c := calm_forcedEntry s
  unfold enterError at h
  split at h <;> rename_i e <;> rw [e] at c
  · cases h; exact Steady.halted c
  · exact Steady.trans_halted c ((steady_noteTimeout _ _).trans_halted (lastAttempt_halted h))
  · cases h
  · cases h; exact c
  · cases h; exact Steady.halted c.1

theorem raiseTimeout_halted {k : BusKind} {s t : State} (h : raiseTimeout k s = .next t) : Halted s t :=
  (steady_noteTimeout s k).trans_halted (enterError_halted h)

theorem raiseIllegal_halted {s t : State} (h : raiseIllegal s = .next t) : Halted s t :=
  (steady_noteIllegal s).trans_halted (enterError_halted h)

/-- However an activity ends, the next state keeps what `Halted` says (R341). -/
theorem conclude_halted {s t : State} {r : Res Unit} (c : Calm s r) (h : conclude r = .next t) : Halted s t := by
  unfold conclude at h
  split at h
  · cases h; exact Steady.halted c
  · exact Steady.trans_halted c (raiseTimeout_halted h)
  · cases h
  · cases h; exact c
  · cases h; exact Steady.halted c.1

/-- An instruction whose activity is calm. -/
theorem finish_halted {b : Bool} {s t : State} {r : Res Unit} (c : Calm s r) (h : finish b r = .next t) : Halted s t :=
  conclude_halted (r := r.andThen fun _ s => .ok () (s.retire b)) (calm_andThen c fun _ t => steady_retire t b) h

end Sys2Proof.Machine
end

