-- ==== Sys2Proof/Laws/Cycle.lean ====
section
/-! SUPPORT. What a poll, a fetch, a dispatch and a whole step can do, said once. -/

namespace Sys2Proof.Machine

/-! ### Equal states -/

/-- States with the same fields are the same. -/
theorem state_ext {s t : State} (h1 : s.cfg = t.cfg) (h2 : s.regs = t.regs) (h3 : s.psw = t.psw) (h4 : s.seq = t.seq)
    (h5 : s.micro = t.micro) (h6 : s.ints = t.ints) (h7 : s.per = t.per) (h8 : s.timer = t.timer) (h9 : s.mem = t.mem)
    (h10 : s.plat = t.plat) (h11 : s.inputs = t.inputs) (h12 : s.freeCtr = t.freeCtr) : s = t := by
  cases s; cases t; simp at *; simp [*]

/-- Interrupt blocks with the same latches are the same. -/
theorem interrupts_ext {s t : Interrupts} (h1 : s.acok = t.acok) (h2 : s.acin = t.acin) (h3 : s.aclo = t.aclo)
    (h4 : s.irq2 = t.irq2) (h5 : s.irq3 = t.irq3) (h6 : s.uerr = t.uerr) (h7 : s.qbto = t.qbto) (h8 : s.iato = t.iato)
    (h9 : s.dble = t.dble) : s = t := by
  cases s; cases t; simp at *; simp [*]

/-- Peripheral blocks with the same bits are the same. -/
theorem peripheral_ext {s t : Peripheral} (h1 : s.wcpu = t.wcpu) (h2 : s.st = t.st) (h3 : s.hlt = t.hlt)
    (h4 : s.ivecReq = t.ivecReq) (h5 : s.errFlags = t.errFlags) : s = t := by
  cases s; cases t; simp at *; simp [*]

/-- Sequencers with the same fields are the same. -/
theorem sequencer_ext {s t : Sequencer} (h1 : s.ir = t.ir) (h2 : s.shadow = t.shadow) (h3 : s.irLoaded = t.irLoaded)
    (h4 : s.pollEnabled = t.pollEnabled) (h5 : s.frcStale = t.frcStale) (h6 : s.waiting = t.waiting)
    (h7 : s.retry = t.retry) (h8 : s.hung = t.hung) : s = t := by
  cases s; cases t; simp at *; simp [*]

/-! ### The end of an instruction that is an entry -/

/-- What finishing an instruction leaves where FR.C is fresh already. -/
theorem retire_fresh {t : State} (h : t.seq.frcStale = false) : t.retire false = t := by
  have : { t.seq with frcStale := false } = t.seq := by rw [← h]
  rw [State.retire, this]

theorem UserEntered.retire {s t : State} {ret va : Word} (h : UserEntered s t ret va) : t.retire false = t := by
  obtain ⟨_, _, _, _, _, _, _, _, h8, _⟩ := h
  exact retire_fresh (by rw [h8]; rfl)

theorem PultEntered.retire {s t : State} {ret va : Word} (h : PultEntered s t ret va) : t.retire false = t := by
  obtain ⟨_, _, _, _, _, _, _, h8, _⟩ := h
  exact retire_fresh (by rw [h8]; rfl)

/-- What no program sees does not matter to an entry. -/
theorem userEntered_micro {s t : State} {ret va : Word} (m : Micro) :
    UserEntered { s with micro := m } t ret va ↔ UserEntered s t ret va := Iff.rfl

theorem pultEntered_micro {s t : State} {ret va : Word} (m : Micro) :
    PultEntered { s with micro := m } t ret va ↔ PultEntered s t ret va := Iff.rfl

/-- An instruction that is a user entry with its stack and vector in RAM (R360). -/
theorem finish_userEntry_ram {s : State} {v : Vsel} (hv : v ≠ .ext) (h : UserRoom s (vectorAddr s.cfg.ncpu v)) :
    ∃ t, finish false (userEntry v false s) = .next t ∧ UserEntered s t (s.reg .pc) (vectorAddr s.cfg.ncpu v) := by
  obtain ⟨u, hu, he⟩ := userEntry_ram hv false h
  exact ⟨u, by rw [hu, finish_ok, UserEntered.retire he], he⟩

/-! ### Bit 3 of 177716 -/

/-- What setting or clearing the pult bit leaves of the processor block (R365). -/
theorem setPultBit_done {on : Bool} {s t : State} (h : setPultBit on s = .ok () t) : Done s t := rmwWord_ok h

/-- The pult bit does not touch the parameters. -/
theorem pultWith_cfg (s : State) (on : Bool) : (s.pultWith on).cfg = s.cfg := by
  unfold State.pultWith; split <;> rfl

/-- The pult bit does not touch the registers. -/
theorem pultWith_regs (s : State) (on : Bool) : (s.pultWith on).regs = s.regs := by
  unfold State.pultWith; split <;> rfl

/-- The pult bit and what no program sees do not meet. -/
theorem pultWith_hidden (s : State) (on : Bool) (q : Sequencer) (m : Micro) :
    State.pultWith { s with seq := q, micro := m } on = { s.pultWith on with seq := q, micro := m } := by
  unfold State.pultWith
  show (if s.cfg.ncpu = 0 then _ else _) = _
  split <;> rfl

/-- Where the map does not switch, the pult bit changes no region of it (R365). -/
theorem regionAt_fixed {s t : State} (hf : s.fixedMap = true) (h : t.plat.map = s.plat.map) (a : Word) :
    t.regionAt a = s.regionAt a := by
  unfold State.regionAt
  rw [h]
  unfold State.fixedMap at hf
  generalize s.plat.map = l at hf
  induction l with
  | nil => rfl
  | cons r l ih =>
    simp only [List.all_cons, Bool.and_eq_true] at hf
    have hg : r.gate = .always := by simpa using hf.1
    have o : ∀ x : State, x.gateOpen r.gate = true := fun x => by rw [hg]; rfl
    simp only [List.find?_cons, o]
    rw [ih hf.2]

/-- A pult entry where what answers at 177716 holds the pult bit (R365). -/
theorem pultEntry_ready {s : State} (v : Vsel) (correct : Bool) (hr : PultReady s)
    (h : PultRoom (s.pultWith true) (vectorAddr s.cfg.ncpu v)) :
    ∃ u, pultEntry v correct s = .ok () u ∧
      PultEntered (s.pultWith true) u ((s.correctPc correct).reg .pc) (vectorAddr s.cfg.ncpu v) := by
  obtain ⟨m, hm⟩ := setPultBit_ready hr true
  have hc : ({ s.pultWith true with micro := m } : State).cfg = s.cfg := pultWith_cfg s true
  obtain ⟨u, hu, he⟩ := pultEntry_ram v correct hm (by rw [hc]; exact h)
  refine ⟨u, hu, ?_⟩
  rw [hc] at he
  have e : ((({ s.pultWith true with micro := m } : State).correctPc correct).reg .pc) = (s.correctPc correct).reg .pc := by
    have r := reg_congr (pultWith_regs s true) .pc
    cases correct
    · exact r
    · simp only [State.correctPc, if_true, reg_setReg_same]
      exact congrArg (· - 2) r
  rw [e] at he
  exact he

/-! ### The poll -/

/-- Clearing a latch and the hidden registers do not meet. -/
theorem rearm_micro (s : State) (m : Micro) (r : BitVec 3) :
    State.rearm { s with micro := m } r = { s.rearm r with micro := m } := by
  unfold State.rearm; split <;> first | rfl | (split <;> rfl)

/-- What clearing a latch leaves unchanged. -/
theorem rearm_frame (s : State) (rr : BitVec 3) :
    (s.rearm rr).cfg = s.cfg ∧ (s.rearm rr).regs = s.regs ∧ (s.rearm rr).plat = s.plat ∧ (s.rearm rr).mem = s.mem ∧
    (s.rearm rr).inputs = s.inputs ∧ (s.rearm rr).seq = s.seq ∧ (s.rearm rr).ints.acok = s.ints.acok := by
  unfold State.rearm
  split <;> first
    | exact ⟨rfl, rfl, rfl, rfl, rfl, rfl, rfl⟩
    | (split <;> exact ⟨rfl, rfl, rfl, rfl, rfl, rfl, rfl⟩)

/-- A poll leaves the sequencer unchanged. -/
theorem poll_seq (s : State) : (poll s).2.seq = s.seq := (rearm_frame s (matrix s).rearm).2.2.2.2.2.1

/-- `s` after a poll that answers `a`, the hidden registers left out (R348). -/
def State.polled (s : State) (a : Answer) : State :=
  { s.rearm a.rearm with ints := { (s.rearm a.rearm).ints with acok := s.ints.acok || s.ints.acin } }

/-- A poll answers what the matrix says; of the rest only the hidden registers matter (R348). -/
theorem poll_eq (s : State) (m : Micro) :
    ∃ m', poll { s with micro := m } = (matrix s, { s.polled (matrix s) with micro := m' }) := by
  refine ⟨(poll { s with micro := m }).2.micro, ?_⟩
  show (matrix s, ({ (State.rearm { s with micro := m } (matrix s).rearm).answered (matrix s) with
    ints := { (State.rearm { s with micro := m } (matrix s).rearm).ints with
      acok := s.ints.acok || s.ints.acin } } : State)) = _
  rw [show poll { s with micro := m } = (matrix s, ({ (State.rearm { s with micro := m } (matrix s).rearm).answered
    (matrix s) with ints := { (State.rearm { s with micro := m } (matrix s).rearm).ints with
      acok := s.ints.acok || s.ints.acin } } : State)) from rfl, rearm_micro]
  rfl

/-- With power good a poll only clears the latch it names (R348). -/
theorem polled_live {s : State} (h : s.ints.acok = true) (a : Answer) : s.polled a = s.rearm a.rearm := by
  refine state_ext rfl rfl rfl rfl rfl (interrupts_ext ?_ rfl rfl rfl rfl rfl rfl rfl rfl) rfl rfl rfl rfl rfl rfl
  show (s.ints.acok || s.ints.acin) = _
  rw [(rearm_frame s a.rearm).2.2.2.2.2.2, h, Bool.true_or]

/-- With power good a poll that names no latch changes nothing. -/
theorem polled_none {s : State} (h : s.ints.acok = true) {a : Answer} (ha : a.rearm = 0b111) : s.polled a = s := by
  rw [polled_live h, ha]; rfl

/-- Before power is good the poll answers the start or nothing (R43). -/
theorem matrix_start {s : State} (h : s.ints.acok = false) :
    matrix s = if s.ints.acin then ⟨0b111, .start, 0b100⟩ else ⟨0b000, .powerFail, 0b111⟩ := by
  rw [matrix, if_pos h]

/-- A choice between answers, for `matrix_one_rearm`. -/
theorem ite_rearm {c : Prop} [Decidable c] {A B : Answer} (ha : A.mcir ≠ 1) (hb : B.mcir = 1 → B.rearm = 7) :
    (if c then A else B).mcir = 1 → (if c then A else B).rearm = 7 := by
  split
  · exact fun h => absurd h ha
  · exact hb

/-- A choice between answers, for `matrix_one_rearm`. -/
theorem ite_mcir_ne {c : Prop} [Decidable c] {A B : Answer} (ha : A.mcir ≠ 1) (hb : B.mcir ≠ 1) :
    (if c then A else B).mcir ≠ 1 := by
  split
  · exact ha
  · exact hb

/-- A choice between answers, for `matrix_one_rearm`. -/
theorem ite_bits_ne {c : Prop} [Decidable c] {A B : BitVec 3} (ha : A ≠ 1) (hb : B ≠ 1) : (if c then A else B) ≠ 1 := by
  split
  · exact ha
  · exact hb

/-- The answer 001 clears no latch (R348). -/
theorem matrix_one_rearm {s : State} : (matrix s).mcir = 1 → (matrix s).rearm = 0b111 := by
  unfold matrix
  refine ite_rearm (ite_mcir_ne (by decide) (by decide)) (ite_rearm (by decide) (ite_rearm (by decide)
    (ite_rearm (ite_mcir_ne (ite_bits_ne (by decide) (by decide)) (ite_mcir_ne (by decide) (by decide)))
      (ite_rearm (by decide) (ite_rearm (by decide) (ite_rearm (by decide) (ite_rearm (by decide)
        (ite_rearm (by decide) (ite_rearm (by decide) (ite_rearm (by decide) (ite_rearm (by decide)
          (ite_rearm (by decide) fun _ => rfl))))))))))))

/-- The answer 001 needs power good (R43). -/
theorem matrix_one_acok {s : State} (h : (matrix s).mcir = 1) : s.ints.acok = true := by
  cases ha : s.ints.acok
  · rw [matrix_start ha] at h; exact absurd h (ite_mcir_ne (by decide) (by decide))
  · rfl

/-- A choice between answers, for `matrix_ext`. -/
theorem ite_vsel_ne {c : Prop} [Decidable c] {A B : Answer} (ha : A.vsel ≠ .ext) (hb : B.vsel ≠ .ext) :
    (if c then A else B).vsel ≠ .ext := by
  split
  · exact ha
  · exact hb

/-- Only processor 0 answers nVIRQ (R348). -/
theorem matrix_ext {s : State} (h : (matrix s).vsel = .ext) : s.cfg.ncpu = 0 := by
  by_contra hn
  revert h
  unfold matrix
  rw [if_neg (c := s.cfg.ncpu = 0 ∧ _) (fun h => hn h.1)]
  have n : ∀ (v : Vsel) (m r : BitVec 3), v ≠ .ext → (⟨m, v, r⟩ : Answer).vsel ≠ .ext := fun v m r h => h
  repeat' first
    | exact n _ _ _ (by decide)
    | refine ite_vsel_ne ?_ ?_

/-- A poll that answers 001 changes nothing that a program sees. -/
theorem polled_one {s : State} (h : (matrix s).mcir = 1) : s.polled (matrix s) = s :=
  polled_none (matrix_one_acok h) (matrix_one_rearm h)

/-- No error is pending. -/
theorem NoError.pending {s : State} (h : NoError s) : s.errorPending = false := by
  simp only [State.errorPending, h.2.2.2.2.2]; rfl

/-! ### The step -/

/-- With nothing from the environment a step is a cycle of the processor block. -/
theorem step_quiet {s : State} (h : s.inputs = []) : step s = cycle s := by
  show fullStep s = _
  simp only [fullStep, takeInputs, h]

/-- A processor that runs is not held. -/
theorem held_false {s : State} (hq : s.quiet = true) (hd : s.plat.pins.dcloLow = false) : s.held = false := by
  simp [State.held, hd, (quiet_iff.1 hq).2]

/-- The fetch of a word from RAM or from the shadow of IR (R27, R28). -/
theorem fetch_ready {s : State} {w : Word} (h : AboutToFetch s w) :
    ∃ m, fetch s = .ok () { fetched s w with micro := m, seq := { (fetched s w).seq with irLoaded := true } } := by
  obtain ⟨_, _, _, _, _, h | ⟨h, hr, hw⟩⟩ := h
  · exact ⟨s.micro, by simp only [fetch, h]; rfl⟩
  · have e := readWord_ram (s := s.setReg .pc (s.reg .pc + 2)) (a := s.reg .pc)
      ((ramWord_congr (s := s) rfl rfl rfl rfl _).trans hr)
    rw [show (s.setReg .pc (s.reg .pc + 2)).memWord (s.reg .pc) = w from hw] at e
    exact ⟨((s.setReg .pc (s.reg .pc + 2)).noted .readWord (s.reg .pc) w).micro, by simp only [fetch, h, e]; rfl⟩

/-- A step that fetches. -/
theorem step_fetch {s : State} {w : Word} (h : AboutToFetch s w) :
    ∃ m, step s = afterFetch { fetched s w with micro := m, seq := { (fetched s w).seq with irLoaded := true } } := by
  obtain ⟨m, e⟩ := fetch_ready h
  obtain ⟨h1, h2, h3, h4, h5, _⟩ := h
  refine ⟨m, ?_⟩
  rw [step_quiet (quiet_iff.1 h1).1, cycle, if_neg (by simp [held_false h1 h2]), if_neg (by simp [h3]),
    if_neg (by simp [h4]), if_neg (by simp [h5]), e]

/-- The dispatch with a poll. -/
theorem dispatch_polled {s : State} (h : s.seq.pollEnabled = true) (m : Micro) :
    ∃ m', dispatch { s with micro := m, seq := { s.seq with irLoaded := true } } =
      onAnswer (matrix s) { State.polled { s with seq := { s.seq with irLoaded := false } } (matrix s) with micro := m' } := by
  obtain ⟨m', e⟩ := poll_eq { s with seq := { s.seq with irLoaded := false } } { m with ma := 1 }
  refine ⟨m', ?_⟩
  have : dispatch { s with micro := m, seq := { s.seq with irLoaded := true } } =
    onAnswer (poll { s with micro := { m with ma := 1 }, seq := { s.seq with irLoaded := false } }).1
      (poll { s with micro := { m with ma := 1 }, seq := { s.seq with irLoaded := false } }).2 := if_pos h
  rw [this, e]
  rfl

/-- A step that fetches and dispatches. -/
theorem step_dispatch {s : State} {w : Word} (h : AboutToFetch s w) (hs : s.per.st = false) :
    (s.seq.pollEnabled = true → ∃ m, step s =
      onAnswer (matrix (fetched s w)) { (fetched s w).polled (matrix (fetched s w)) with micro := m }) ∧
    (s.seq.pollEnabled = false → ∃ m, step s =
      execWord { fetched s w with micro := m, seq := { (fetched s w).seq with pollEnabled := true } }) := by
  obtain ⟨m, e⟩ := step_fetch h
  have d : step s = dispatch { fetched s w with micro := m, seq := { (fetched s w).seq with irLoaded := true } } := by
    rw [e]; exact if_neg (by show ¬ s.per.st = true; simp [hs])
  refine ⟨fun hp => ?_, fun hp => ?_⟩
  · obtain ⟨m', e'⟩ := dispatch_polled (s := fetched s w) hp m
    exact ⟨m', d.trans e'⟩
  · refine ⟨{ m with ma := 1, mcir := 0b001 }, d.trans ?_⟩
    exact if_neg (by show ¬ s.seq.pollEnabled = true; simp [hp])

/-- A step that dispatches the word in IR. -/
theorem step_poll {s : State} (h : AboutToPoll s) : ∃ m, step s =
    onAnswer (matrix s) { State.polled { s with seq := { s.seq with irLoaded := false } } (matrix s) with micro := m } := by
  obtain ⟨h1, h2, h3, h4, h5, h6⟩ := h
  obtain ⟨m, e⟩ := dispatch_polled h6 s.micro
  refine ⟨m, ?_⟩
  have hs : ({ s with micro := s.micro, seq := { s.seq with irLoaded := true } } : State) = s :=
    state_ext rfl rfl rfl (sequencer_ext rfl rfl h5.symm rfl rfl rfl rfl rfl) rfl rfl rfl rfl rfl rfl rfl rfl
  rw [hs] at e
  rw [step_quiet (quiet_iff.1 h1).1, cycle, if_neg (by simp [held_false h1 h2]), if_neg (by simp [h3]),
    if_neg (by simp [h4]), if_pos h5, e]

/-- The start of an instruction writes the hidden registers only (R40). -/
theorem steer_micro (s : State) (i : Instr) : ∃ m, s.steer i = { s with micro := m } := by
  unfold State.steer; split <;> exact ⟨_, rfl⟩

/-- A word in IR that decodes is executed (R27). -/
theorem execWord_ok {s : State} {w : Word} {i : Instr} (h : s.seq.ir = w) (hd : decodeWord w = .ok i) :
    ∃ m, execWord s = exec i { s with micro := m } := by
  obtain ⟨m, e⟩ := steer_micro s i
  exact ⟨m, by rw [execWord, h, hd, ← e]⟩

/-- What a user entry needs depends on the map, SP, memory and what comes. -/
theorem userRoom_congr {s t : State} {va : Word} (h1 : t.cfg = s.cfg) (h2 : t.reg .sp = s.reg .sp)
    (h3 : t.plat = s.plat) (h4 : t.mem = s.mem) (h5 : t.inputs = s.inputs) (h6 : t.seq.hung = s.seq.hung)
    (h : UserRoom s va) : UserRoom t va := by
  have e : ∀ a, t.ramWord a = s.ramWord a := ramWord_congr h1 h3 h5 h6
  obtain ⟨a1, a2, a3, a4, a5⟩ := h
  exact ⟨by rw [h4]; exact a1, by rw [e, h2]; exact a2, by rw [e, h2]; exact a3, by rw [e]; exact a4,
    by rw [e]; exact a5⟩

/-- What a pult entry needs depends on the map, memory and what comes. -/
theorem pultRoom_congr {s t : State} {va : Word} (h1 : t.cfg = s.cfg) (h2 : t.plat = s.plat) (h3 : t.mem = s.mem)
    (h4 : t.inputs = s.inputs) (h5 : t.seq.hung = s.seq.hung) (h : PultRoom s va) : PultRoom t va := by
  have e : ∀ a, t.ramWord a = s.ramWord a := ramWord_congr h1 h2 h4 h5
  obtain ⟨a1, a2, a3, a4, a5⟩ := h
  exact ⟨by rw [h3]; exact a1, by rw [e]; exact a2, by rw [e]; exact a3, by rw [e]; exact a4, by rw [e]; exact a5⟩

/-! ### Returns -/

/-- A pop that nothing answers. -/
theorem pop_noReply {s : State} (h : s.noReply (s.reg .sp) = true) :
    pop s = .abort (.timeout .data) ((s.setReg .sp (s.reg .sp + 2)).latch .readWord (s.reg .sp)) :=
  readWord_noReply (s := s.setReg .sp (s.reg .sp + 2)) h

/-- The pops of RTI and RTT in RAM (R213). -/
theorem popPcPsw_ram {s : State} (h1 : s.ramWord (s.reg .sp) = true) (h2 : s.ramWord (s.reg .sp + 2) = true) :
    ∃ m, popPcPsw s = .ok () { (s.setReg .sp (s.reg .sp + 4)).setReg .pc (s.memWord (s.reg .sp)) with
      psw := s.memWord (s.reg .sp + 2) &&& 0x00FF, micro := m } := by
  have e4 : s.reg .sp + 2 + 2 = s.reg .sp + 4 := by bv_omega
  let s1 := ((s.setReg .sp (s.reg .sp + 2)).noted .readWord (s.reg .sp) (s.memWord (s.reg .sp))).setReg .pc
    (s.memWord (s.reg .sp))
  have sp1 : s1.reg .sp = s.reg .sp + 2 := rfl
  have p := pop_ram (s := s1) (by rw [sp1]; exact (ramWord_congr (s := s) rfl rfl rfl rfl _).trans h2)
  refine ⟨((s1.setReg .sp (s.reg .sp + 4)).noted .readWord (s.reg .sp + 2) (s.memWord (s.reg .sp + 2))).micro, ?_⟩
  rw [popPcPsw, pop_ram h1]
  show ((waitsAt 0x6B (pop s1)).andThen fun w s => _) = _
  rw [p, sp1, e4]
  rfl

/-- The low byte of a full read of PSW is the stored one (R30). -/
theorem loByte_pswRead (s : State) : loByte s.pswRead = loByte s.psw := by
  have A : ∀ j : Fin 8, (0xFCFF : Word).getLsbD j = true := by decide
  unfold loByte State.pswRead; ext i hi
  simp only [BitVec.getElem_extractLsb', BitVec.getLsbD_or, BitVec.getLsbD_and, BitVec.getLsbD_shiftLeft, Nat.zero_add]
  simp [hi]
  intro _; exact A ⟨i, hi⟩

/-! ### What an entry does to the sequencer -/

/-- After the vector words nothing waits (R360). -/
theorem loadVector_seq {w : Bool} {va : Word} {s t : State} (h : loadVector w va s = .ok () t) :
    t.seq.waiting = false := by
  simp only [loadVector] at h
  obtain ⟨_, s1, _, h2⟩ := andThen_eq_ok.1 h
  obtain ⟨_, s2, _, h3⟩ := andThen_eq_ok.1 h2
  cases h3; rfl

/-- After an entry nothing waits; where nothing is entered the word in IR stays (R27). -/
theorem enter_seq {a : Answer} {s t : State} (h : enter a s = .ok () t) :
    t.seq.waiting = false ∨ t.seq = { s.seq with irLoaded := true } := by
  have U : ∀ v c, userEntry v c s = .ok () t → t.seq.waiting = false := by
    intro v c h
    simp only [userEntry] at h
    obtain ⟨_, s1, _, h⟩ := andThen_eq_ok.1 h
    obtain ⟨_, s1, _, h⟩ := andThen_eq_ok.1 h
    obtain ⟨_, s1, _, h⟩ := andThen_eq_ok.1 h
    exact loadVector_seq h
  have P : ∀ v c, pultEntry v c s = .ok () t → t.seq.waiting = false := by
    intro v c h
    simp only [pultEntry] at h
    obtain ⟨_, s1, _, h⟩ := andThen_eq_ok.1 h
    obtain ⟨_, s1, _, h⟩ := andThen_eq_ok.1 h
    obtain ⟨_, s1, _, h⟩ := andThen_eq_ok.1 h
    obtain ⟨_, s1, _, h⟩ := andThen_eq_ok.1 h
    exact loadVector_seq h
  have I : initialStart s = .ok () t → t.seq.waiting = false := by
    intro h
    simp only [initialStart] at h
    obtain ⟨_, s1, _, h⟩ := andThen_eq_ok.1 h
    cases h; rfl
  unfold enter at h
  split at h
  · exact .inl (P _ _ h)
  · exact .inl (P _ _ h)
  · exact .inl (U _ _ h)
  · exact .inl (U _ _ h)
  · exact .inl (I h)
  · exact .inl (I h)
  · cases h; exact .inr rfl

end Sys2Proof.Machine
end

