-- ==== Sys2Proof/Laws/PerInstr.lean ====
section
/-! SUPPORT. What holds of every instruction as syntax: its word is in its row of spec/opcode_table.json (R158). -/

namespace Sys2Proof.Laws

/-- The match and mask values of an instruction's row in spec/opcode_table.json. -/
def MatchesRow.row : Instr → Word × Word
  | .halt => (0o000000, 0o177777)
  | .wait => (0o000001, 0o177777)
  | .rti => (0o000002, 0o177777)
  | .bpt => (0o000003, 0o177777)
  | .iot => (0o000004, 0o177777)
  | .reset => (0o000005, 0o177777)
  | .rtt => (0o000006, 0o177777)
  | .start _ => (0o000010, 0o177774)
  | .step _ => (0o000014, 0o177774)
  | .jmp _ => (0o000100, 0o177700)
  | .rts _ => (0o000200, 0o177770)
  | .clx _ => (0o000240, 0o177760)
  | .sex _ => (0o000260, 0o177760)
  | .nop => (0o000240, 0o177777)
  | .clc => (0o000241, 0o177777)
  | .clv => (0o000242, 0o177777)
  | .clz => (0o000244, 0o177777)
  | .cln => (0o000250, 0o177777)
  | .ccc => (0o000257, 0o177777)
  | .nopSet => (0o000260, 0o177777)
  | .sec => (0o000261, 0o177777)
  | .sev => (0o000262, 0o177777)
  | .sez => (0o000264, 0o177777)
  | .sen => (0o000270, 0o177777)
  | .scc => (0o000277, 0o177777)
  | .swab _ => (0o000300, 0o177700)
  | .br _ => (0o000400, 0o177400)
  | .bne _ => (0o001000, 0o177400)
  | .beq _ => (0o001400, 0o177400)
  | .bge _ => (0o002000, 0o177400)
  | .blt _ => (0o002400, 0o177400)
  | .bgt _ => (0o003000, 0o177400)
  | .ble _ => (0o003400, 0o177400)
  | .jsr _ _ => (0o004000, 0o177000)
  | .clr _ => (0o005000, 0o177700)
  | .com _ => (0o005100, 0o177700)
  | .inc _ => (0o005200, 0o177700)
  | .dec _ => (0o005300, 0o177700)
  | .neg _ => (0o005400, 0o177700)
  | .adc _ => (0o005500, 0o177700)
  | .sbc _ => (0o005600, 0o177700)
  | .tst _ => (0o005700, 0o177700)
  | .ror _ => (0o006000, 0o177700)
  | .rol _ => (0o006100, 0o177700)
  | .asr _ => (0o006200, 0o177700)
  | .asl _ => (0o006300, 0o177700)
  | .mark _ => (0o006400, 0o177700)
  | .sxt _ => (0o006700, 0o177700)
  | .mov _ _ => (0o010000, 0o170000)
  | .cmp _ _ => (0o020000, 0o170000)
  | .bit _ _ => (0o030000, 0o170000)
  | .bic _ _ => (0o040000, 0o170000)
  | .bis _ _ => (0o050000, 0o170000)
  | .add _ _ => (0o060000, 0o170000)
  | .mul _ _ => (0o070000, 0o177000)
  | .xor _ _ => (0o074000, 0o177000)
  | .sob _ _ => (0o077000, 0o177000)
  | .bpl _ => (0o100000, 0o177400)
  | .bmi _ => (0o100400, 0o177400)
  | .bhi _ => (0o101000, 0o177400)
  | .blos _ => (0o101400, 0o177400)
  | .bvc _ => (0o102000, 0o177400)
  | .bvs _ => (0o102400, 0o177400)
  | .bcc _ => (0o103000, 0o177400)
  | .bcs _ => (0o103400, 0o177400)
  | .bhis _ => (0o103000, 0o177400)
  | .blo _ => (0o103400, 0o177400)
  | .emt _ => (0o104000, 0o177400)
  | .trap _ => (0o104400, 0o177400)
  | .clrb _ => (0o105000, 0o177700)
  | .comb _ => (0o105100, 0o177700)
  | .incb _ => (0o105200, 0o177700)
  | .decb _ => (0o105300, 0o177700)
  | .negb _ => (0o105400, 0o177700)
  | .adcb _ => (0o105500, 0o177700)
  | .sbcb _ => (0o105600, 0o177700)
  | .tstb _ => (0o105700, 0o177700)
  | .rorb _ => (0o106000, 0o177700)
  | .rolb _ => (0o106100, 0o177700)
  | .asrb _ => (0o106200, 0o177700)
  | .aslb _ => (0o106300, 0o177700)
  | .mtps _ => (0o106400, 0o177700)
  | .mfps _ => (0o106700, 0o177700)
  | .movb _ _ => (0o110000, 0o170000)
  | .cmpb _ _ => (0o120000, 0o170000)
  | .bitb _ _ => (0o130000, 0o170000)
  | .bicb _ _ => (0o140000, 0o170000)
  | .bisb _ _ => (0o150000, 0o170000)
  | .sub _ _ => (0o160000, 0o170000)

/-- The word of the instruction has the opcode bits of its row, whatever its operands. -/
def MatchesRow.Statement (i : Instr) : Prop := encodeWord i &&& (MatchesRow.row i).2 = (MatchesRow.row i).1

/-- The opcode bits of a word, above its operand bits. -/
theorem opcode_kept {n m : Nat} (op : BitVec n) (x : BitVec m) :
    (op ++ x) &&& (BitVec.allOnes n ++ (0 : BitVec m)) = op ++ (0 : BitVec m) := by
  ext i hi
  simp only [BitVec.getElem_and, BitVec.getElem_append]
  by_cases h : i < m
  · simp [h]
  · have : i - m < n := by omega
    simp [h]

theorem MatchesRow.halt : MatchesRow.Statement .halt := rfl

theorem MatchesRow.wait : MatchesRow.Statement .wait := rfl

theorem MatchesRow.rti : MatchesRow.Statement .rti := rfl

theorem MatchesRow.bpt : MatchesRow.Statement .bpt := rfl

theorem MatchesRow.iot : MatchesRow.Statement .iot := rfl

theorem MatchesRow.reset : MatchesRow.Statement .reset := rfl

theorem MatchesRow.rtt : MatchesRow.Statement .rtt := rfl

theorem MatchesRow.start (x : BitVec 2) : MatchesRow.Statement (.start x) :=
  opcode_kept (0o00002 : BitVec 14) x

theorem MatchesRow.step (x : BitVec 2) : MatchesRow.Statement (.step x) :=
  opcode_kept (0o00003 : BitVec 14) x

theorem MatchesRow.jmp (dd : Operand) : MatchesRow.Statement (.jmp dd) :=
  opcode_kept (0o0001 : BitVec 10) dd.toBits

theorem MatchesRow.rts (r : Reg) : MatchesRow.Statement (.rts r) :=
  opcode_kept (0o00020 : BitVec 13) r.toBits

theorem MatchesRow.clx (m : BitVec 4) : MatchesRow.Statement (.clx m) :=
  opcode_kept (0o0012 : BitVec 12) m

theorem MatchesRow.sex (m : BitVec 4) : MatchesRow.Statement (.sex m) :=
  opcode_kept (0o0013 : BitVec 12) m

theorem MatchesRow.nop : MatchesRow.Statement .nop := rfl

theorem MatchesRow.clc : MatchesRow.Statement .clc := rfl

theorem MatchesRow.clv : MatchesRow.Statement .clv := rfl

theorem MatchesRow.clz : MatchesRow.Statement .clz := rfl

theorem MatchesRow.cln : MatchesRow.Statement .cln := rfl

theorem MatchesRow.ccc : MatchesRow.Statement .ccc := rfl

theorem MatchesRow.nopSet : MatchesRow.Statement .nopSet := rfl

theorem MatchesRow.sec : MatchesRow.Statement .sec := rfl

theorem MatchesRow.sev : MatchesRow.Statement .sev := rfl

theorem MatchesRow.sez : MatchesRow.Statement .sez := rfl

theorem MatchesRow.sen : MatchesRow.Statement .sen := rfl

theorem MatchesRow.scc : MatchesRow.Statement .scc := rfl

theorem MatchesRow.swab (dd : Operand) : MatchesRow.Statement (.swab dd) :=
  opcode_kept (0o0003 : BitVec 10) dd.toBits

theorem MatchesRow.br (bb : BitVec 8) : MatchesRow.Statement (.br bb) :=
  opcode_kept (0o001 : BitVec 8) bb

theorem MatchesRow.bne (bb : BitVec 8) : MatchesRow.Statement (.bne bb) :=
  opcode_kept (0o002 : BitVec 8) bb

theorem MatchesRow.beq (bb : BitVec 8) : MatchesRow.Statement (.beq bb) :=
  opcode_kept (0o003 : BitVec 8) bb

theorem MatchesRow.bge (bb : BitVec 8) : MatchesRow.Statement (.bge bb) :=
  opcode_kept (0o004 : BitVec 8) bb

theorem MatchesRow.blt (bb : BitVec 8) : MatchesRow.Statement (.blt bb) :=
  opcode_kept (0o005 : BitVec 8) bb

theorem MatchesRow.bgt (bb : BitVec 8) : MatchesRow.Statement (.bgt bb) :=
  opcode_kept (0o006 : BitVec 8) bb

theorem MatchesRow.ble (bb : BitVec 8) : MatchesRow.Statement (.ble bb) :=
  opcode_kept (0o007 : BitVec 8) bb

theorem MatchesRow.jsr (r : Reg) (dd : Operand) : MatchesRow.Statement (.jsr r dd) :=
  opcode_kept (0o004 : BitVec 7) (r.toBits ++ dd.toBits)

theorem MatchesRow.clr (dd : Operand) : MatchesRow.Statement (.clr dd) :=
  opcode_kept (0o0050 : BitVec 10) dd.toBits

theorem MatchesRow.com (dd : Operand) : MatchesRow.Statement (.com dd) :=
  opcode_kept (0o0051 : BitVec 10) dd.toBits

theorem MatchesRow.inc (dd : Operand) : MatchesRow.Statement (.inc dd) :=
  opcode_kept (0o0052 : BitVec 10) dd.toBits

theorem MatchesRow.dec (dd : Operand) : MatchesRow.Statement (.dec dd) :=
  opcode_kept (0o0053 : BitVec 10) dd.toBits

theorem MatchesRow.neg (dd : Operand) : MatchesRow.Statement (.neg dd) :=
  opcode_kept (0o0054 : BitVec 10) dd.toBits

theorem MatchesRow.adc (dd : Operand) : MatchesRow.Statement (.adc dd) :=
  opcode_kept (0o0055 : BitVec 10) dd.toBits

theorem MatchesRow.sbc (dd : Operand) : MatchesRow.Statement (.sbc dd) :=
  opcode_kept (0o0056 : BitVec 10) dd.toBits

theorem MatchesRow.tst (dd : Operand) : MatchesRow.Statement (.tst dd) :=
  opcode_kept (0o0057 : BitVec 10) dd.toBits

theorem MatchesRow.ror (dd : Operand) : MatchesRow.Statement (.ror dd) :=
  opcode_kept (0o0060 : BitVec 10) dd.toBits

theorem MatchesRow.rol (dd : Operand) : MatchesRow.Statement (.rol dd) :=
  opcode_kept (0o0061 : BitVec 10) dd.toBits

theorem MatchesRow.asr (dd : Operand) : MatchesRow.Statement (.asr dd) :=
  opcode_kept (0o0062 : BitVec 10) dd.toBits

theorem MatchesRow.asl (dd : Operand) : MatchesRow.Statement (.asl dd) :=
  opcode_kept (0o0063 : BitVec 10) dd.toBits

theorem MatchesRow.mark (nn : BitVec 6) : MatchesRow.Statement (.mark nn) :=
  opcode_kept (0o0064 : BitVec 10) nn

theorem MatchesRow.sxt (dd : Operand) : MatchesRow.Statement (.sxt dd) :=
  opcode_kept (0o0067 : BitVec 10) dd.toBits

theorem MatchesRow.mov (ss dd : Operand) : MatchesRow.Statement (.mov ss dd) :=
  opcode_kept (0o01 : BitVec 4) (ss.toBits ++ dd.toBits)

theorem MatchesRow.cmp (ss dd : Operand) : MatchesRow.Statement (.cmp ss dd) :=
  opcode_kept (0o02 : BitVec 4) (ss.toBits ++ dd.toBits)

theorem MatchesRow.bit (ss dd : Operand) : MatchesRow.Statement (.bit ss dd) :=
  opcode_kept (0o03 : BitVec 4) (ss.toBits ++ dd.toBits)

theorem MatchesRow.bic (ss dd : Operand) : MatchesRow.Statement (.bic ss dd) :=
  opcode_kept (0o04 : BitVec 4) (ss.toBits ++ dd.toBits)

theorem MatchesRow.bis (ss dd : Operand) : MatchesRow.Statement (.bis ss dd) :=
  opcode_kept (0o05 : BitVec 4) (ss.toBits ++ dd.toBits)

theorem MatchesRow.add (ss dd : Operand) : MatchesRow.Statement (.add ss dd) :=
  opcode_kept (0o06 : BitVec 4) (ss.toBits ++ dd.toBits)

theorem MatchesRow.mul (r : Reg) (ss : Operand) : MatchesRow.Statement (.mul r ss) :=
  opcode_kept (0o070 : BitVec 7) (r.toBits ++ ss.toBits)

theorem MatchesRow.xor (r : Reg) (dd : Operand) : MatchesRow.Statement (.xor r dd) :=
  opcode_kept (0o074 : BitVec 7) (r.toBits ++ dd.toBits)

theorem MatchesRow.sob (r : Reg) (uu : BitVec 6) : MatchesRow.Statement (.sob r uu) :=
  opcode_kept (0o077 : BitVec 7) (r.toBits ++ uu)

theorem MatchesRow.bpl (bb : BitVec 8) : MatchesRow.Statement (.bpl bb) :=
  opcode_kept (0o200 : BitVec 8) bb

theorem MatchesRow.bmi (bb : BitVec 8) : MatchesRow.Statement (.bmi bb) :=
  opcode_kept (0o201 : BitVec 8) bb

theorem MatchesRow.bhi (bb : BitVec 8) : MatchesRow.Statement (.bhi bb) :=
  opcode_kept (0o202 : BitVec 8) bb

theorem MatchesRow.blos (bb : BitVec 8) : MatchesRow.Statement (.blos bb) :=
  opcode_kept (0o203 : BitVec 8) bb

theorem MatchesRow.bvc (bb : BitVec 8) : MatchesRow.Statement (.bvc bb) :=
  opcode_kept (0o204 : BitVec 8) bb

theorem MatchesRow.bvs (bb : BitVec 8) : MatchesRow.Statement (.bvs bb) :=
  opcode_kept (0o205 : BitVec 8) bb

theorem MatchesRow.bcc (bb : BitVec 8) : MatchesRow.Statement (.bcc bb) :=
  opcode_kept (0o206 : BitVec 8) bb

theorem MatchesRow.bcs (bb : BitVec 8) : MatchesRow.Statement (.bcs bb) :=
  opcode_kept (0o207 : BitVec 8) bb

theorem MatchesRow.bhis (bb : BitVec 8) : MatchesRow.Statement (.bhis bb) :=
  opcode_kept (0o206 : BitVec 8) bb

theorem MatchesRow.blo (bb : BitVec 8) : MatchesRow.Statement (.blo bb) :=
  opcode_kept (0o207 : BitVec 8) bb

theorem MatchesRow.emt (nn : BitVec 8) : MatchesRow.Statement (.emt nn) :=
  opcode_kept (0o210 : BitVec 8) nn

theorem MatchesRow.trap (nn : BitVec 8) : MatchesRow.Statement (.trap nn) :=
  opcode_kept (0o211 : BitVec 8) nn

theorem MatchesRow.clrb (dd : Operand) : MatchesRow.Statement (.clrb dd) :=
  opcode_kept (0o1050 : BitVec 10) dd.toBits

theorem MatchesRow.comb (dd : Operand) : MatchesRow.Statement (.comb dd) :=
  opcode_kept (0o1051 : BitVec 10) dd.toBits

theorem MatchesRow.incb (dd : Operand) : MatchesRow.Statement (.incb dd) :=
  opcode_kept (0o1052 : BitVec 10) dd.toBits

theorem MatchesRow.decb (dd : Operand) : MatchesRow.Statement (.decb dd) :=
  opcode_kept (0o1053 : BitVec 10) dd.toBits

theorem MatchesRow.negb (dd : Operand) : MatchesRow.Statement (.negb dd) :=
  opcode_kept (0o1054 : BitVec 10) dd.toBits

theorem MatchesRow.adcb (dd : Operand) : MatchesRow.Statement (.adcb dd) :=
  opcode_kept (0o1055 : BitVec 10) dd.toBits

theorem MatchesRow.sbcb (dd : Operand) : MatchesRow.Statement (.sbcb dd) :=
  opcode_kept (0o1056 : BitVec 10) dd.toBits

theorem MatchesRow.tstb (dd : Operand) : MatchesRow.Statement (.tstb dd) :=
  opcode_kept (0o1057 : BitVec 10) dd.toBits

theorem MatchesRow.rorb (dd : Operand) : MatchesRow.Statement (.rorb dd) :=
  opcode_kept (0o1060 : BitVec 10) dd.toBits

theorem MatchesRow.rolb (dd : Operand) : MatchesRow.Statement (.rolb dd) :=
  opcode_kept (0o1061 : BitVec 10) dd.toBits

theorem MatchesRow.asrb (dd : Operand) : MatchesRow.Statement (.asrb dd) :=
  opcode_kept (0o1062 : BitVec 10) dd.toBits

theorem MatchesRow.aslb (dd : Operand) : MatchesRow.Statement (.aslb dd) :=
  opcode_kept (0o1063 : BitVec 10) dd.toBits

theorem MatchesRow.mtps (ss : Operand) : MatchesRow.Statement (.mtps ss) :=
  opcode_kept (0o1064 : BitVec 10) ss.toBits

theorem MatchesRow.mfps (dd : Operand) : MatchesRow.Statement (.mfps dd) :=
  opcode_kept (0o1067 : BitVec 10) dd.toBits

theorem MatchesRow.movb (ss dd : Operand) : MatchesRow.Statement (.movb ss dd) :=
  opcode_kept (0o11 : BitVec 4) (ss.toBits ++ dd.toBits)

theorem MatchesRow.cmpb (ss dd : Operand) : MatchesRow.Statement (.cmpb ss dd) :=
  opcode_kept (0o12 : BitVec 4) (ss.toBits ++ dd.toBits)

theorem MatchesRow.bitb (ss dd : Operand) : MatchesRow.Statement (.bitb ss dd) :=
  opcode_kept (0o13 : BitVec 4) (ss.toBits ++ dd.toBits)

theorem MatchesRow.bicb (ss dd : Operand) : MatchesRow.Statement (.bicb ss dd) :=
  opcode_kept (0o14 : BitVec 4) (ss.toBits ++ dd.toBits)

theorem MatchesRow.bisb (ss dd : Operand) : MatchesRow.Statement (.bisb ss dd) :=
  opcode_kept (0o15 : BitVec 4) (ss.toBits ++ dd.toBits)

theorem MatchesRow.sub (ss dd : Operand) : MatchesRow.Statement (.sub ss dd) :=
  opcode_kept (0o16 : BitVec 4) (ss.toBits ++ dd.toBits)

end Sys2Proof.Laws
end

