-- ==== Sys2Proof/Laws/Shapes.lean ====
section
/-! SUPPORT. What the shared operations behind most instructions can do, said once for each: an instruction whose meaning
is one of them has the shape that Sys2Proof/Safety.lean names after it. -/

namespace Sys2Proof.Machine

/-! ### The parts of a shape -/

/-- A register form whose word at PC is in RAM completes (R28, R191). -/
theorem regForm {b : Bool} {s : State} (g : State → State) (hp : s.ramWord (s.reg .pc) = true) :
    ∃ m, finish false ((prefetch b s).andThen fun _ t => .ok () (g t)) =
      .next ((g { s with micro := m, seq := { s.seq with shadow := s.prefetched b } }).retire false) := by
  obtain ⟨m, h⟩ := prefetch_ram b hp
  exact ⟨m, by rw [h]; rfl⟩

/-- A register form whose word at PC nothing answers (R81). -/
theorem regForm_noReply {b c : Bool} {s : State} (g : State → State) (hp : s.noReply (s.reg .pc) = true) :
    PrefetchRaises (finish c ((prefetch b s).andThen fun _ t => .ok () (g t))) s b := by
  obtain ⟨m, h⟩ := prefetch_noReply b hp
  exact ⟨m, by rw [h]; rfl⟩

/-- The flags are set on PSW as it was. -/
theorem flagsAre_psw {s s1 t : State} {f : Cc} (h : s1.psw = s.psw) (ht : t.psw = (s1.setCc f).psw) :
    FlagsAre s t f := by
  have := flagsAre_setCc (s := s) h f
  simpa only [FlagsAre, ht] using this

/-- Only registers, PSW, memory, the count of free values and the hidden registers differ. -/
theorem rest_of {s s1 t : State} (hs : s1.seq = s.seq) (h1 : t.cfg = s1.cfg) (h2 : t.seq = { s1.seq with frcStale := false })
    (h3 : t.ints = s1.ints) (h4 : t.per = s1.per) (h5 : t.timer = s1.timer) (h6 : t.plat = s1.plat)
    (h7 : t.inputs = s1.inputs) : Rest false s.seq.shadow s1 t :=
  ⟨h1, by rw [h2, hs], h3, h4, h5, h6, h7⟩

/-- A word stored in RAM. -/
theorem onlyWord_put {s t : State} {a w : Word} (hm : s.mem.wf = true) (h : t.mem = (s.putWord a w).mem)
    (hc : t.cfg = s.cfg) (hp : t.plat = s.plat) : OnlyWord s t a w := by
  refine ⟨(memWord_congr (s := s.putWord a w) h hc hp a).trans (memWord_putWord s hm a w), fun b hb hb1 => ?_⟩
  rw [readByteAt_congr (s := s.putWord a w) h hc hp b, readByteAt_putWord s hm, if_neg hb1, if_neg hb]

/-- A byte stored in RAM. -/
theorem onlyByte_put {s t : State} {a : Word} {v : Byte} (hm : s.mem.wf = true) (h : t.mem = (s.putByte a v).mem)
    (hc : t.cfg = s.cfg) (hp : t.plat = s.plat) : OnlyByte s t a v := by
  refine ⟨?_, fun b hb => ?_⟩
  · rw [readByteAt_congr (s := s.putByte a v) h hc hp a, readByteAt_putByte s hm, if_pos rfl]
  · rw [readByteAt_congr (s := s.putByte a v) h hc hp b, readByteAt_putByte s hm, if_neg hb]

/-- Memory is read alike where neither it nor the map has changed. -/
theorem sameMemory_of {s t : State} (h : t.mem = s.mem) (hc : t.cfg = s.cfg) (hp : t.plat = s.plat) : SameMemory s t :=
  fun b => readByteAt_congr h hc hp b

/-! ### One operand -/

/-- What `modifyWord` does to a register. -/
theorem wordInReg_of (p : Bool) (mk : Operand → Instr) (f g : State → Word → Word × Cc)
    (he : ∀ r s, exec (mk (.reg r)) s = finish false (modifyWord p (.reg r) (g s) s)) (hg : ∀ s x, g s x = f s x) :
    WordInReg p mk f := by
  refine ⟨fun r s hp => ?_, fun r s hp => ?_⟩
  · obtain ⟨m, h⟩ := regForm (b := p || r == .pc)
      (fun t => (t.setReg r (g s (t.reg r)).1).setCc (g s (t.reg r)).2) hp
    refine ⟨_, by rw [he, modifyWord]; exact h, ?_, ?_, ?_, ?_⟩
    · rw [← hg]; exact ⟨reg_setReg_same _ _ _, fun q hq => reg_setReg_ne _ hq _⟩
    · rw [← hg]; exact flagsAre_psw (s1 := s) rfl rfl
    · exact sameMemory_of rfl rfl rfl
    · exact ⟨rfl, rfl, rfl, rfl, rfl, rfl, rfl⟩
  · rw [he, modifyWord]
    exact regForm_noReply
      (fun t => (t.setReg r (g s (t.reg r)).1).setCc (g s (t.reg r)).2) hp

/-- What `modifyWord` does in memory. -/
theorem wordInMem_of (p : Bool) (mk : Operand → Instr) (f g : State → Word → Word × Cc)
    (he : ∀ m r s, exec (mk (.mem m r)) s = finish false (modifyWord p (.mem m r) (g s) s)) (hg : ∀ s x, g s x = f s x) :
    WordInMem mk f := by
  refine ⟨fun m r s s1 a hm ha hr => ?_, fun m r s s1 k ha => ?_, fun m r s s1 a ha hr => ?_⟩
  · obtain ⟨h1, h2⟩ := effAddr_ok ha
    refine ⟨_, by rw [he, modifyWord]; simp only [ha, andThen_ok, rmwWord_ram hr, finish_ok]; rfl, ?_, ?_, ?_, ?_, ?_⟩
    · rfl
    · exact h2
    · rw [← hg]; exact onlyWord_put hm rfl rfl rfl
    · rw [← hg]; exact flagsAre_psw (s1 := s1) h1.psw rfl
    · exact rest_of h1.seq rfl rfl rfl rfl rfl rfl rfl
  · rw [he, modifyWord]; simp only [ha, andThen_abort, finish_timeout]
  · refine ⟨(s1.latch .rmwWord a).micro, ?_⟩
    rw [he, modifyWord]; simp only [ha, andThen_ok, rmwWord_noReply hr, andThen_abort, finish_timeout]; rfl

/-- An instruction that is `modifyWord` (R280). -/
theorem wordModify_of (mk : Operand → Instr) (f g : State → Word → Word × Cc)
    (he : ∀ o s, exec (mk o) s = finish false (modifyWord false o (g s) s)) (hg : ∀ s x, g s x = f s x) : WordModify mk f :=
  ⟨wordInReg_of false mk f g (fun r s => he _ s) hg, wordInMem_of false mk f g (fun m r s => he _ s) hg⟩

/-- What `modifyByte` does to a register. -/
theorem byteInReg_of (mk : Operand → Instr) (f g : State → Byte → Byte × Cc)
    (he : ∀ r s, exec (mk (.reg r)) s = finish false (modifyByte false (.reg r) (g s) s)) (hg : ∀ s x, g s x = f s x) :
    ByteInReg mk f := by
  refine ⟨fun r s hp => ?_, fun r s hp => ?_⟩
  · obtain ⟨m, h⟩ := regForm (b := false || r == .pc)
      (fun t => (t.setRegByte r (g s (t.regByte r)).1).setCc (g s (t.regByte r)).2) hp
    refine ⟨_, by rw [he, modifyByte]; exact h, ?_, ?_, ?_, ?_⟩
    · rw [← hg]; exact ⟨reg_setReg_same _ _ _, fun q hq => reg_setReg_ne _ hq _⟩
    · rw [← hg]; exact flagsAre_psw (s1 := s) rfl rfl
    · exact sameMemory_of rfl rfl rfl
    · exact ⟨rfl, rfl, rfl, rfl, rfl, rfl, rfl⟩
  · rw [he, modifyByte]
    exact regForm_noReply
      (fun t => (t.setRegByte r (g s (t.regByte r)).1).setCc (g s (t.regByte r)).2) hp

/-- What `modifyByte` does in memory. -/
theorem byteInMem_of (p : Bool) (mk : Operand → Instr) (f g : State → Byte → Byte × Cc)
    (he : ∀ m r s, exec (mk (.mem m r)) s = finish false (modifyByte p (.mem m r) (g s) s)) (hg : ∀ s x, g s x = f s x) :
    ByteInMem mk f := by
  refine ⟨fun m r s s1 a hm ha hr => ?_, fun m r s s1 k ha => ?_, fun m r s s1 a ha hr => ?_⟩
  · obtain ⟨h1, h2⟩ := effAddr_ok ha
    refine ⟨_, by rw [he, modifyByte]; simp only [ha, andThen_ok, rmwByte_ram hr, finish_ok]; rfl, ?_, ?_, ?_, ?_, ?_⟩
    · rfl
    · exact h2
    · rw [← hg]; exact onlyByte_put hm rfl rfl rfl
    · rw [← hg]; exact flagsAre_psw (s1 := s1) h1.psw rfl
    · exact rest_of h1.seq rfl rfl rfl rfl rfl rfl rfl
  · rw [he, modifyByte]; simp only [ha, andThen_abort, finish_timeout]
  · refine ⟨(s1.latch .rmwByte a).micro, ?_⟩
    rw [he, modifyByte]; simp only [ha, andThen_ok, rmwByte_noReply hr, andThen_abort, finish_timeout]; rfl

/-- An instruction that is `modifyByte` (R281). -/
theorem byteModify_of (mk : Operand → Instr) (f g : State → Byte → Byte × Cc)
    (he : ∀ o s, exec (mk o) s = finish false (modifyByte false o (g s) s)) (hg : ∀ s x, g s x = f s x) : ByteModify mk f :=
  ⟨byteInReg_of mk f g (fun r s => he _ s) hg, byteInMem_of false mk f g (fun m r s => he _ s) hg⟩

/-- An instruction that is `testWord` (R278). -/
theorem wordTest_of (mk : Operand → Instr) (f g : State → Word → Cc)
    (he : ∀ o s, exec (mk o) s = finish false (testWord false o (g s) s)) (hg : ∀ s x, g s x = f s x) : WordTest mk f := by
  refine ⟨fun r s hp => ?_, fun r s hp => ?_, fun m r s s1 a ha hr => ?_, fun m r s s1 k ha => ?_, fun m r s s1 a ha hr => ?_⟩
  · obtain ⟨m, h⟩ := regForm (b := false || r == .pc) (fun t => t.setCc (g s (t.reg r))) hp
    refine ⟨_, by rw [he, testWord]; exact h, ?_, ?_, ?_, ?_⟩
    · rfl
    · rw [← hg]; exact flagsAre_psw (s1 := s) rfl rfl
    · exact sameMemory_of rfl rfl rfl
    · exact ⟨rfl, rfl, rfl, rfl, rfl, rfl, rfl⟩
  · rw [he, testWord]; exact regForm_noReply (fun t => t.setCc (g s (t.reg r))) hp
  · obtain ⟨h1, h2⟩ := effAddr_ok ha
    refine ⟨_, by rw [he, testWord]; simp only [ha, andThen_ok, readWord_ram hr, finish_ok]; rfl, ?_, ?_, ?_, ?_, ?_⟩
    · rfl
    · exact h2
    · rw [← hg]; exact flagsAre_psw (s1 := s1) h1.psw rfl
    · exact sameMemory_of rfl rfl rfl
    · exact rest_of h1.seq rfl rfl rfl rfl rfl rfl rfl
  · rw [he, testWord]; simp only [ha, andThen_abort, finish_timeout]
  · refine ⟨(s1.latch .readWord a).micro, ?_⟩
    rw [he, testWord]; simp only [ha, andThen_ok, readWord_noReply hr, andThen_abort, finish_timeout]; rfl

/-- An instruction that is `testByte` (R293). -/
theorem byteTest_of (mk : Operand → Instr) (f g : State → Byte → Cc)
    (he : ∀ o s, exec (mk o) s = finish false (testByte false o (g s) s)) (hg : ∀ s x, g s x = f s x) : ByteTest mk f := by
  refine ⟨fun r s hp => ?_, fun r s hp => ?_, fun m r s s1 a ha hr => ?_, fun m r s s1 k ha => ?_, fun m r s s1 a ha hr => ?_⟩
  · obtain ⟨m, h⟩ := regForm (b := false || r == .pc) (fun t => t.setCc (g s (t.regByte r))) hp
    refine ⟨_, by rw [he, testByte]; exact h, ?_, ?_, ?_, ?_⟩
    · rfl
    · rw [← hg]; exact flagsAre_psw (s1 := s) rfl rfl
    · exact sameMemory_of rfl rfl rfl
    · exact ⟨rfl, rfl, rfl, rfl, rfl, rfl, rfl⟩
  · rw [he, testByte]; exact regForm_noReply (fun t => t.setCc (g s (t.regByte r))) hp
  · obtain ⟨h1, h2⟩ := effAddr_ok ha
    refine ⟨_, by rw [he, testByte]; simp only [ha, andThen_ok, readByte_ram hr, finish_ok]; rfl, ?_, ?_, ?_, ?_, ?_⟩
    · rfl
    · exact h2
    · rw [← hg]; exact flagsAre_psw (s1 := s1) h1.psw rfl
    · exact sameMemory_of rfl rfl rfl
    · exact rest_of h1.seq rfl rfl rfl rfl rfl rfl rfl
  · rw [he, testByte]; simp only [ha, andThen_abort, finish_timeout]
  · refine ⟨(s1.latch .readByte a).micro, ?_⟩
    rw [he, testByte]; simp only [ha, andThen_ok, readByte_noReply hr, andThen_abort, finish_timeout]; rfl

/-! ### Two operands -/

/-- A source and `modifyWord` (R310). -/
theorem wordPair_of (mk : Operand → Operand → Instr) (f g : State → Word → Word → Word × Cc)
    (he : ∀ ss dd s, exec (mk ss dd) s =
      finish false ((readOpWord ss s).andThen fun v s => modifyWord (isPc ss) dd (g s v) s))
    (hg : ∀ s s1 x y, s1.psw = s.psw → s1.cfg = s.cfg → g s1 x y = f s x y) : WordPair mk f := by
  refine ⟨fun ss r s s1 v hv hp => ?_, fun ss m r s s1 s2 v a hm hv ha hr => ?_, fun ss dd s s1 k hv => ?_,
    fun ss r s s1 v hv hp => ?_, fun ss m r s s1 s2 v k hv ha => ?_, fun ss m r s s1 s2 v a hv ha hr => ?_⟩
  · obtain ⟨h1, h2⟩ := readOpWord_ok hv
    obtain ⟨m, h⟩ := regForm (b := isPc ss || r == .pc) (fun t => (t.setReg r (g s1 v (t.reg r)).1).setCc (g s1 v (t.reg r)).2) hp
    refine ⟨_, by rw [he, hv]; simp only [andThen_ok]; rw [modifyWord]; exact h, ?_, fun q hr hp hq => ?_, ?_, ?_, ?_⟩
    · rw [← hg s s1 _ _ h1.psw h1.cfg]; exact ⟨reg_setReg_same _ _ _, fun q hq => reg_setReg_ne _ hq _⟩
    · exact (reg_setReg_ne _ hr _).trans (h2 q hq hp)
    · rw [← hg s s1 _ _ h1.psw h1.cfg]; exact flagsAre_psw (s1 := s1) h1.psw rfl
    · exact sameMemory_of rfl rfl rfl
    · exact ⟨rfl, rfl, rfl, rfl, rfl, rfl, rfl⟩
  · obtain ⟨h1, h2⟩ := readOpWord_ok hv
    obtain ⟨h3, h4⟩ := effAddr_ok ha
    refine ⟨_, by rw [he, hv]; simp only [andThen_ok]; rw [modifyWord]; simp only [ha, andThen_ok, rmwWord_ram hr, finish_ok]; rfl,
      ?_, ?_, ?_, ?_, ?_⟩
    · rfl
    · exact fun q hr hp hq => (h4 q hr hp).trans (h2 q hq hp)
    · rw [← hg s s1 _ _ h1.psw h1.cfg]; exact onlyWord_put hm rfl rfl rfl
    · rw [← hg s s1 _ _ h1.psw h1.cfg]; exact flagsAre_psw (s1 := s2) (h3.psw.trans h1.psw) rfl
    · exact rest_of (h3.seq.trans h1.seq) rfl rfl rfl rfl rfl rfl rfl
  · rw [he, hv]; rfl
  · rw [he, hv]; simp only [andThen_ok]; rw [modifyWord]; exact regForm_noReply (fun t => (t.setReg r (g s1 v (t.reg r)).1).setCc (g s1 v (t.reg r)).2) hp
  · rw [he, hv]; simp only [andThen_ok]; rw [modifyWord]; simp only [ha, andThen_abort, finish_timeout]
  · refine ⟨(s2.latch .rmwWord a).micro, ?_⟩
    rw [he, hv]; simp only [andThen_ok]; rw [modifyWord]
    simp only [ha, andThen_ok, rmwWord_noReply hr, andThen_abort, finish_timeout]; rfl

/-- A source and `storeWord` (R310). -/
theorem wordPair_of_store (mk : Operand → Operand → Instr) (f : State → Word → Word → Word × Cc) (g : State → Word → Cc)
    (he : ∀ ss dd s, exec (mk ss dd) s =
      finish false ((readOpWord ss s).andThen fun v s => storeWord (isPc ss) dd v (g s v) s))
    (hg : ∀ s s1 x y, s1.psw = s.psw → s1.cfg = s.cfg → (x, g s1 x) = f s x y) : WordPair mk f := by
  refine ⟨fun ss r s s1 v hv hp => ?_, fun ss m r s s1 s2 v a hm hv ha hr => ?_, fun ss dd s s1 k hv => ?_,
    fun ss r s s1 v hv hp => ?_, fun ss m r s s1 s2 v k hv ha => ?_, fun ss m r s s1 s2 v a hv ha hr => ?_⟩
  · obtain ⟨h1, h2⟩ := readOpWord_ok hv
    obtain ⟨m, h⟩ := regForm (b := isPc ss || r == .pc) (fun t => (t.setReg r v).setCc (g s1 v)) hp
    refine ⟨_, by rw [he, hv]; simp only [andThen_ok]; rw [storeWord]; exact h, ?_, fun q hr hp hq => ?_, ?_, ?_, ?_⟩
    · rw [← hg s s1 _ _ h1.psw h1.cfg]; exact ⟨reg_setReg_same _ _ _, fun q hq => reg_setReg_ne _ hq _⟩
    · exact (reg_setReg_ne _ hr _).trans (h2 q hq hp)
    · rw [← hg s s1 _ _ h1.psw h1.cfg]; exact flagsAre_psw (s1 := s1) h1.psw rfl
    · exact sameMemory_of rfl rfl rfl
    · exact ⟨rfl, rfl, rfl, rfl, rfl, rfl, rfl⟩
  · obtain ⟨h1, h2⟩ := readOpWord_ok hv
    obtain ⟨h3, h4⟩ := effAddr_ok ha
    refine ⟨_, by rw [he, hv]; simp only [andThen_ok]; rw [storeWord]; simp only [ha, andThen_ok, writeWord_ram hr, finish_ok]; rfl,
      ?_, ?_, ?_, ?_, ?_⟩
    · rfl
    · exact fun q hr hp hq => (h4 q hr hp).trans (h2 q hq hp)
    · rw [← hg s s1 _ _ h1.psw h1.cfg]; exact onlyWord_put hm rfl rfl rfl
    · rw [← hg s s1 _ _ h1.psw h1.cfg]; exact flagsAre_psw (s1 := s2) (h3.psw.trans h1.psw) rfl
    · exact rest_of (h3.seq.trans h1.seq) rfl rfl rfl rfl rfl rfl rfl
  · rw [he, hv]; rfl
  · rw [he, hv]; simp only [andThen_ok]; rw [storeWord]; exact regForm_noReply (fun t => (t.setReg r v).setCc (g s1 v)) hp
  · rw [he, hv]; simp only [andThen_ok]; rw [storeWord]; simp only [ha, andThen_abort, finish_timeout]
  · refine ⟨(s2.noted .writeWord a v).micro, ?_⟩
    rw [he, hv]; simp only [andThen_ok]; rw [storeWord]
    simp only [ha, andThen_ok, writeWord_noReply hr, andThen_abort, finish_timeout]; rfl

/-- A source and `testWord` (R310). -/
theorem wordPairTest_of (mk : Operand → Operand → Instr) (f g : State → Word → Word → Cc)
    (he : ∀ ss dd s, exec (mk ss dd) s =
      finish false ((readOpWord ss s).andThen fun v s => testWord (isPc ss) dd (g s v) s))
    (hg : ∀ s s1 x y, s1.psw = s.psw → s1.cfg = s.cfg → g s1 x y = f s x y) : WordPairTest mk f := by
  refine ⟨fun ss r s s1 v hv hp => ?_, fun ss m r s s1 s2 v a hv ha hr => ?_, fun ss dd s s1 k hv => ?_,
    fun ss r s s1 v hv hp => ?_, fun ss m r s s1 s2 v k hv ha => ?_, fun ss m r s s1 s2 v a hv ha hr => ?_⟩
  · obtain ⟨h1, h2⟩ := readOpWord_ok hv
    obtain ⟨m, h⟩ := regForm (b := isPc ss || r == .pc) (fun t => t.setCc (g s1 v (t.reg r))) hp
    refine ⟨_, by rw [he, hv]; simp only [andThen_ok]; rw [testWord]; exact h, ?_, ?_, ?_, ?_, ?_⟩
    · rfl
    · exact fun q hp hq => h2 q hq hp
    · rw [← hg s s1 _ _ h1.psw h1.cfg]; exact flagsAre_psw (s1 := s1) h1.psw rfl
    · exact sameMemory_of rfl rfl rfl
    · exact ⟨rfl, rfl, rfl, rfl, rfl, rfl, rfl⟩
  · obtain ⟨h1, h2⟩ := readOpWord_ok hv
    obtain ⟨h3, h4⟩ := effAddr_ok ha
    refine ⟨_, by rw [he, hv]; simp only [andThen_ok]; rw [testWord]; simp only [ha, andThen_ok, readWord_ram hr, finish_ok]; rfl,
      ?_, ?_, ?_, ?_, ?_⟩
    · rfl
    · exact fun q hr hp hq => (h4 q hr hp).trans (h2 q hq hp)
    · rw [← hg s s1 _ _ h1.psw h1.cfg]; exact flagsAre_psw (s1 := s2) (h3.psw.trans h1.psw) rfl
    · exact sameMemory_of rfl rfl rfl
    · exact rest_of (h3.seq.trans h1.seq) rfl rfl rfl rfl rfl rfl rfl
  · rw [he, hv]; rfl
  · rw [he, hv]; simp only [andThen_ok]; rw [testWord]; exact regForm_noReply (fun t => t.setCc (g s1 v (t.reg r))) hp
  · rw [he, hv]; simp only [andThen_ok]; rw [testWord]; simp only [ha, andThen_abort, finish_timeout]
  · refine ⟨(s2.latch .readWord a).micro, ?_⟩
    rw [he, hv]; simp only [andThen_ok]; rw [testWord]
    simp only [ha, andThen_ok, readWord_noReply hr, andThen_abort, finish_timeout]; rfl

/-- A source and `modifyByte` (R320). -/
theorem bytePair_of (mk : Operand → Operand → Instr) (f g : State → Byte → Byte → Byte × Cc)
    (he : ∀ ss dd s, exec (mk ss dd) s =
      finish false ((readOpByte ss s).andThen fun v s => modifyByte (isPc ss) dd (g s v) s))
    (hg : ∀ s s1 x y, s1.psw = s.psw → s1.cfg = s.cfg → g s1 x y = f s x y) : BytePair mk f := by
  refine ⟨fun ss r s s1 v hv hp => ?_, fun ss m r s s1 s2 v a hm hv ha hr => ?_, fun ss dd s s1 k hv => ?_,
    fun ss r s s1 v hv hp => ?_, fun ss m r s s1 s2 v k hv ha => ?_, fun ss m r s s1 s2 v a hv ha hr => ?_⟩
  · obtain ⟨h1, h2⟩ := readOpByte_ok hv
    obtain ⟨m, h⟩ := regForm (b := isPc ss || r == .pc) (fun t => (t.setRegByte r (g s1 v (t.regByte r)).1).setCc (g s1 v (t.regByte r)).2) hp
    refine ⟨_, by rw [he, hv]; simp only [andThen_ok]; rw [modifyByte]; exact h, ?_, fun q hr hp hq => ?_, ?_, ?_, ?_⟩
    · rw [← hg s s1 _ _ h1.psw h1.cfg]; exact ⟨reg_setReg_same _ _ _, fun q hq => reg_setReg_ne _ hq _⟩
    · exact (reg_setReg_ne _ hr _).trans (h2 q hq hp)
    · rw [← hg s s1 _ _ h1.psw h1.cfg]; exact flagsAre_psw (s1 := s1) h1.psw rfl
    · exact sameMemory_of rfl rfl rfl
    · exact ⟨rfl, rfl, rfl, rfl, rfl, rfl, rfl⟩
  · obtain ⟨h1, h2⟩ := readOpByte_ok hv
    obtain ⟨h3, h4⟩ := effAddr_ok ha
    refine ⟨_, by rw [he, hv]; simp only [andThen_ok]; rw [modifyByte]; simp only [ha, andThen_ok, rmwByte_ram hr, finish_ok]; rfl,
      ?_, ?_, ?_, ?_, ?_⟩
    · rfl
    · exact fun q hr hp hq => (h4 q hr hp).trans (h2 q hq hp)
    · rw [← hg s s1 _ _ h1.psw h1.cfg]; exact onlyByte_put hm rfl rfl rfl
    · rw [← hg s s1 _ _ h1.psw h1.cfg]; exact flagsAre_psw (s1 := s2) (h3.psw.trans h1.psw) rfl
    · exact rest_of (h3.seq.trans h1.seq) rfl rfl rfl rfl rfl rfl rfl
  · rw [he, hv]; rfl
  · rw [he, hv]; simp only [andThen_ok]; rw [modifyByte]; exact regForm_noReply (fun t => (t.setRegByte r (g s1 v (t.regByte r)).1).setCc (g s1 v (t.regByte r)).2) hp
  · rw [he, hv]; simp only [andThen_ok]; rw [modifyByte]; simp only [ha, andThen_abort, finish_timeout]
  · refine ⟨(s2.latch .rmwByte a).micro, ?_⟩
    rw [he, hv]; simp only [andThen_ok]; rw [modifyByte]
    simp only [ha, andThen_ok, rmwByte_noReply hr, andThen_abort, finish_timeout]; rfl

/-- A source and `testByte` (R320). -/
theorem bytePairTest_of (mk : Operand → Operand → Instr) (f g : State → Byte → Byte → Cc)
    (he : ∀ ss dd s, exec (mk ss dd) s =
      finish false ((readOpByte ss s).andThen fun v s => testByte (isPc ss) dd (g s v) s))
    (hg : ∀ s s1 x y, s1.psw = s.psw → s1.cfg = s.cfg → g s1 x y = f s x y) : BytePairTest mk f := by
  refine ⟨fun ss r s s1 v hv hp => ?_, fun ss m r s s1 s2 v a hv ha hr => ?_, fun ss dd s s1 k hv => ?_,
    fun ss r s s1 v hv hp => ?_, fun ss m r s s1 s2 v k hv ha => ?_, fun ss m r s s1 s2 v a hv ha hr => ?_⟩
  · obtain ⟨h1, h2⟩ := readOpByte_ok hv
    obtain ⟨m, h⟩ := regForm (b := isPc ss || r == .pc) (fun t => t.setCc (g s1 v (t.regByte r))) hp
    refine ⟨_, by rw [he, hv]; simp only [andThen_ok]; rw [testByte]; exact h, ?_, ?_, ?_, ?_, ?_⟩
    · rfl
    · exact fun q hp hq => h2 q hq hp
    · rw [← hg s s1 _ _ h1.psw h1.cfg]; exact flagsAre_psw (s1 := s1) h1.psw rfl
    · exact sameMemory_of rfl rfl rfl
    · exact ⟨rfl, rfl, rfl, rfl, rfl, rfl, rfl⟩
  · obtain ⟨h1, h2⟩ := readOpByte_ok hv
    obtain ⟨h3, h4⟩ := effAddr_ok ha
    refine ⟨_, by rw [he, hv]; simp only [andThen_ok]; rw [testByte]; simp only [ha, andThen_ok, readByte_ram hr, finish_ok]; rfl,
      ?_, ?_, ?_, ?_, ?_⟩
    · rfl
    · exact fun q hr hp hq => (h4 q hr hp).trans (h2 q hq hp)
    · rw [← hg s s1 _ _ h1.psw h1.cfg]; exact flagsAre_psw (s1 := s2) (h3.psw.trans h1.psw) rfl
    · exact sameMemory_of rfl rfl rfl
    · exact rest_of (h3.seq.trans h1.seq) rfl rfl rfl rfl rfl rfl rfl
  · rw [he, hv]; rfl
  · rw [he, hv]; simp only [andThen_ok]; rw [testByte]; exact regForm_noReply (fun t => t.setCc (g s1 v (t.regByte r))) hp
  · rw [he, hv]; simp only [andThen_ok]; rw [testByte]; simp only [ha, andThen_abort, finish_timeout]
  · refine ⟨(s2.latch .readByte a).micro, ?_⟩
    rw [he, hv]; simp only [andThen_ok]; rw [testByte]
    simp only [ha, andThen_ok, readByte_noReply hr, andThen_abort, finish_timeout]; rfl

/-! ### Flags -/

/-- The flags depend on PSW only. -/
theorem cc_congr {s s1 : State} (h : s1.psw = s.psw) : s1.cc = s.cc := by simp [State.cc, h]

/-- The sign of a word is bit 15. -/
theorem msb_word (x : Word) : x.msb = x.getLsbD 15 := by simp [BitVec.msb_eq_getLsbD_last]

/-- The sign of a byte is bit 7. -/
theorem msb_byte (x : Byte) : x.msb = x.getLsbD 7 := by simp [BitVec.msb_eq_getLsbD_last]

end Sys2Proof.Machine
end

