-- ==== Sys2Proof/Tests/Slice0.lean ====
section
/-! SUPPORT. The model's own tests: ill-formed instructions are refused, words written out from the spec decode, one step
of the vectors of spec/95_test_vectors.md, and for every statement with hypotheses a state that meets them. -/

open Sys2Proof Sys2Proof.Machine

namespace Sys2Proof.Tests

/- One declaration after another: each of these theorems waits for the kernel. -/
set_option Elab.async false

/-! ### Well-formedness -/

theorem test_named_clear_masks_refused : ∀ m ∈ [0, 1, 2, 4, 8, 15], (Instr.clx m).wf = false := by decide
theorem test_named_set_masks_refused : ∀ m ∈ [0, 1, 2, 4, 8, 15], (Instr.sex m).wf = false := by decide
theorem test_unnamed_clear_mask_accepted : (Instr.clx 3).wf = true := by decide
theorem test_second_name_of_bcc_refused : ∀ bb, (Instr.bhis bb).wf = false := by decide
theorem test_second_name_of_bcs_refused : ∀ bb, (Instr.blo bb).wf = false := by decide

/-! ### Decoding -/

/-- Every word of the system family, written out from R152 and R158. -/
theorem test_decode_system :
    (decodeWord 0b0000000000000000).toOption = some .halt ∧
    (decodeWord 0b0000000000000001).toOption = some .wait ∧
    (decodeWord 0b0000000000000010).toOption = some .rti ∧
    (decodeWord 0b0000000000000011).toOption = some .bpt ∧
    (decodeWord 0b0000000000000100).toOption = some .iot ∧
    (decodeWord 0b0000000000000101).toOption = some .reset ∧
    (decodeWord 0b0000000000000110).toOption = some .rtt ∧
    (decodeWord 0b0000000000001010).toOption = some (.start 0b10) ∧
    (decodeWord 0b0000000000001110).toOption = some (.step 0b10) ∧
    (decodeWord 0b1000100010110001).toOption = some (.emt 0b10110001) ∧
    (decodeWord 0b1000100110110001).toOption = some (.trap 0b10110001) := by
  decide +kernel

/-- Every word of the jump family, written out from R152 and R158. -/
theorem test_decode_jump :
    (decodeWord 0b0000000001111001).toOption = some (.jmp (.mem .indexDef .r1)) ∧
    (decodeWord 0b0000000010000111).toOption = some (.rts .pc) ∧
    (decodeWord 0b0000100010100110).toOption = some (.jsr .r2 (.mem .autoDec .sp)) ∧
    (decodeWord 0b0000110100101101).toOption = some (.mark 0b101101) ∧
    (decodeWord 0b0111111111101101).toOption = some (.sob .pc 0b101101) := by
  decide +kernel

/-- Every word of the cond family, written out from R152 and R158. -/
theorem test_decode_cond :
    (decodeWord 0b0000000010100011).toOption = some (.clx 0b0011) ∧
    (decodeWord 0b0000000010110011).toOption = some (.sex 0b0011) ∧
    (decodeWord 0b0000000010100000).toOption = some .nop ∧
    (decodeWord 0b0000000010100001).toOption = some .clc ∧
    (decodeWord 0b0000000010100010).toOption = some .clv ∧
    (decodeWord 0b0000000010100100).toOption = some .clz ∧
    (decodeWord 0b0000000010101000).toOption = some .cln ∧
    (decodeWord 0b0000000010101111).toOption = some .ccc ∧
    (decodeWord 0b0000000010110000).toOption = some .nopSet ∧
    (decodeWord 0b0000000010110001).toOption = some .sec ∧
    (decodeWord 0b0000000010110010).toOption = some .sev ∧
    (decodeWord 0b0000000010110100).toOption = some .sez ∧
    (decodeWord 0b0000000010111000).toOption = some .sen ∧
    (decodeWord 0b0000000010111111).toOption = some .scc := by
  decide +kernel

/-- Every word of the single family, written out from R152 and R158. -/
theorem test_decode_single :
    (decodeWord 0b0000000011000101).toOption = some (.swab (.reg .r5)) ∧
    (decodeWord 0b0000101000100110).toOption = some (.clr (.mem .autoDec .sp)) ∧
    (decodeWord 0b0000101001000101).toOption = some (.com (.reg .r5)) ∧
    (decodeWord 0b0000101010011111).toOption = some (.inc (.mem .autoIncDef .pc)) ∧
    (decodeWord 0b0000101011111001).toOption = some (.dec (.mem .indexDef .r1)) ∧
    (decodeWord 0b0000101100100110).toOption = some (.neg (.mem .autoDec .sp)) ∧
    (decodeWord 0b0000101101000101).toOption = some (.adc (.reg .r5)) ∧
    (decodeWord 0b0000101110011111).toOption = some (.sbc (.mem .autoIncDef .pc)) ∧
    (decodeWord 0b0000101111111001).toOption = some (.tst (.mem .indexDef .r1)) ∧
    (decodeWord 0b0000110000100110).toOption = some (.ror (.mem .autoDec .sp)) ∧
    (decodeWord 0b0000110001000101).toOption = some (.rol (.reg .r5)) ∧
    (decodeWord 0b0000110010011111).toOption = some (.asr (.mem .autoIncDef .pc)) ∧
    (decodeWord 0b0000110011111001).toOption = some (.asl (.mem .indexDef .r1)) ∧
    (decodeWord 0b0000110111100110).toOption = some (.sxt (.mem .autoDec .sp)) := by
  decide +kernel

/-- Every word of the branch family, written out from R152 and R158. -/
theorem test_decode_branch :
    (decodeWord 0b0000000110110001).toOption = some (.br 0b10110001) ∧
    (decodeWord 0b0000001010110001).toOption = some (.bne 0b10110001) ∧
    (decodeWord 0b0000001110110001).toOption = some (.beq 0b10110001) ∧
    (decodeWord 0b0000010010110001).toOption = some (.bge 0b10110001) ∧
    (decodeWord 0b0000010110110001).toOption = some (.blt 0b10110001) ∧
    (decodeWord 0b0000011010110001).toOption = some (.bgt 0b10110001) ∧
    (decodeWord 0b0000011110110001).toOption = some (.ble 0b10110001) ∧
    (decodeWord 0b1000000010110001).toOption = some (.bpl 0b10110001) ∧
    (decodeWord 0b1000000110110001).toOption = some (.bmi 0b10110001) ∧
    (decodeWord 0b1000001010110001).toOption = some (.bhi 0b10110001) ∧
    (decodeWord 0b1000001110110001).toOption = some (.blos 0b10110001) ∧
    (decodeWord 0b1000010010110001).toOption = some (.bvc 0b10110001) ∧
    (decodeWord 0b1000010110110001).toOption = some (.bvs 0b10110001) ∧
    (decodeWord 0b1000011010110001).toOption = some (.bcc 0b10110001) ∧
    (decodeWord 0b1000011110110001).toOption = some (.bcs 0b10110001) := by
  decide +kernel

/-- Every word of the double family, written out from R152 and R158. -/
theorem test_decode_double :
    (decodeWord 0b0001000101111001).toOption = some (.mov (.reg .r5) (.mem .indexDef .r1)) ∧
    (decodeWord 0b0010111001000101).toOption = some (.cmp (.mem .indexDef .r1) (.reg .r5)) ∧
    (decodeWord 0b0011000101111001).toOption = some (.bit (.reg .r5) (.mem .indexDef .r1)) ∧
    (decodeWord 0b0100111001000101).toOption = some (.bic (.mem .indexDef .r1) (.reg .r5)) ∧
    (decodeWord 0b0101000101111001).toOption = some (.bis (.reg .r5) (.mem .indexDef .r1)) ∧
    (decodeWord 0b0110111001000101).toOption = some (.add (.mem .indexDef .r1) (.reg .r5)) ∧
    (decodeWord 0b0111100100000101).toOption = some (.xor .r4 (.reg .r5)) ∧
    (decodeWord 0b1110011111100110).toOption = some (.sub (.mem .autoIncDef .pc) (.mem .autoDec .sp)) := by
  decide +kernel

/-- Every word of the mul family, written out from R152 and R158. -/
theorem test_decode_mul :
    (decodeWord 0b0111000010111001).toOption = some (.mul .r2 (.mem .indexDef .r1)) := by
  decide +kernel

/-- Every word of the single byte family, written out from R152 and R158. -/
theorem test_decode_single_byte :
    (decodeWord 0b1000101000011111).toOption = some (.clrb (.mem .autoIncDef .pc)) ∧
    (decodeWord 0b1000101001111001).toOption = some (.comb (.mem .indexDef .r1)) ∧
    (decodeWord 0b1000101010100110).toOption = some (.incb (.mem .autoDec .sp)) ∧
    (decodeWord 0b1000101011000101).toOption = some (.decb (.reg .r5)) ∧
    (decodeWord 0b1000101100011111).toOption = some (.negb (.mem .autoIncDef .pc)) ∧
    (decodeWord 0b1000101101111001).toOption = some (.adcb (.mem .indexDef .r1)) ∧
    (decodeWord 0b1000101110100110).toOption = some (.sbcb (.mem .autoDec .sp)) ∧
    (decodeWord 0b1000101111000101).toOption = some (.tstb (.reg .r5)) ∧
    (decodeWord 0b1000110000011111).toOption = some (.rorb (.mem .autoIncDef .pc)) ∧
    (decodeWord 0b1000110001111001).toOption = some (.rolb (.mem .indexDef .r1)) ∧
    (decodeWord 0b1000110010100110).toOption = some (.asrb (.mem .autoDec .sp)) ∧
    (decodeWord 0b1000110011000101).toOption = some (.aslb (.reg .r5)) := by
  decide +kernel

/-- Every word of the psw family, written out from R152 and R158. -/
theorem test_decode_psw :
    (decodeWord 0b1000110100011111).toOption = some (.mtps (.mem .autoIncDef .pc)) ∧
    (decodeWord 0b1000110111111001).toOption = some (.mfps (.mem .indexDef .r1)) := by
  decide +kernel

/-- Every word of the double byte family, written out from R152 and R158. -/
theorem test_decode_double_byte :
    (decodeWord 0b1001100110011111).toOption = some (.movb (.mem .autoDec .sp) (.mem .autoIncDef .pc)) ∧
    (decodeWord 0b1010011111100110).toOption = some (.cmpb (.mem .autoIncDef .pc) (.mem .autoDec .sp)) ∧
    (decodeWord 0b1011100110011111).toOption = some (.bitb (.mem .autoDec .sp) (.mem .autoIncDef .pc)) ∧
    (decodeWord 0b1100011111100110).toOption = some (.bicb (.mem .autoIncDef .pc) (.mem .autoDec .sp)) ∧
    (decodeWord 0b1101100110011111).toOption = some (.bisb (.mem .autoDec .sp) (.mem .autoIncDef .pc)) := by
  decide +kernel

/-- The edges of the illegal blocks of R160, with the legal words beside them. -/
theorem test_illegal_block_edges : ([0o000007, 0o000020, 0o000077, 0o000210, 0o000237, 0o006500, 0o006677, 0o007000, 0o007777, 0o071000,
      0o073777, 0o075000, 0o076777, 0o106500, 0o106677, 0o107000, 0o107777, 0o170000, 0o177777].all fun w : Nat =>
      (decodeWord (BitVec.ofNat 16 w)).toOption.isNone) = true := by
  decide +kernel

/-- The legal words beside those blocks. -/
theorem test_legal_block_edges : ([0o000006, 0o000010, 0o000017, 0o000100, 0o000207, 0o000240, 0o006477, 0o006700, 0o006777, 0o010000,
      0o070000, 0o070777, 0o074000, 0o074777, 0o077000, 0o106477, 0o106700, 0o106777, 0o110000, 0o167777].all fun w : Nat =>
      (decodeWord (BitVec.ofNat 16 w)).toOption.isSome) = true := by
  decide +kernel

/-- Too few bytes for a word. -/
theorem test_decode_too_short : (decode [0x05]).toOption = none ∧ (decode []).toOption = none := by decide +kernel

/-- The low byte of a word comes first (R71): 012700 000005, `MOV #5,R0`. -/
theorem test_decode_bytes : (decode [0xC0, 0x15, 0x05, 0x00]).toOption =
    some (.mov (.mem .autoInc .pc) (.reg .r0), [0x05, 0x00]) := by
  decide +kernel

/-! ### One step -/

/-- The words `l` stored in memory. -/
def stocked : List (Word × Word) → State → State
  | [], s => s
  | (a, w) :: l, s => stocked l (s.putWord a w)

/-- The values `l` in registers. -/
def loaded : List (Reg × Word) → State → State
  | [], s => s
  | (r, v) :: l, s => loaded l (s.setReg r v)

/-- A started machine about to fetch at 001000, all memory RAM. -/
def calm : State :=
  { State.reset with
    inputs := []
    ints := { State.reset.ints with acok := true }
    seq := { State.reset.seq with irLoaded := false } }

/-- `calm` with PSW, registers (PC is 001000 unless listed) and words of memory. -/
def ready (psw : Word) (rs : List (Reg × Word)) (ws : List (Word × Word)) : State :=
  loaded rs (stocked ws ({ calm with psw := psw }.setReg .pc 0o001000))

/-- `ready` on ВМ1Г. -/
def readyG (psw : Word) (rs : List (Reg × Word)) (ws : List (Word × Word)) : State :=
  { ready psw rs ws with cfg := { Config.default with variant := .vm1g } }

/-- `s` with the slave `sl` at the addresses from `lo` to `hi`. -/
def withSlave (s : State) (lo hi : Word) (sl : Slave) : State :=
  { s with plat := { s.plat with map := [⟨lo, hi, sl, 0, .always⟩] } }

/-- What `f` shows of the state after one step. -/
def after {α : Type} (s : State) (f : State → α) : Option α :=
  match step s with
  | .next t => some (f t)
  | _ => none

/-- Vector AM6 of spec/95_test_vectors.md. -/
theorem test_mov_am6 : after (ready 0o000000 [(.r1, 0o002004)]
    [(0o002000, 0o123456), (0o002002, 0o000377), (0o002004, 0o002010), (0o002010, 0o000777), (0o002012, 0o002001), (0o001000, 0o013102)])
    (fun t => (t.reg .r1, t.reg .r2, t.psw &&& 15)) = some (0o002006, 0o000777, 0o000000) := by decide +kernel

/-- Vector AM19 of spec/95_test_vectors.md. -/
theorem test_mov_am19 : after (ready 0o000000 [(.r0, 0o002002)]
    [(0o001000, 0o010040)])
    (fun t => (t.reg .r0, t.memWord 0o002000)) = some (0o002000, 0o002002) := by decide +kernel

/-- Vector AM4 of spec/95_test_vectors.md. -/
theorem test_movb_am4 : after (ready 0o000000 [(.r1, 0o002001)]
    [(0o002000, 0o123456), (0o002002, 0o000377), (0o002004, 0o002010), (0o002010, 0o000777), (0o002012, 0o002001), (0o001000, 0o112102)])
    (fun t => (t.reg .r1, t.reg .r2, t.psw &&& 15)) = some (0o002002, 0o177647, 0o000010) := by decide +kernel

/-- Vector DB3 of spec/95_test_vectors.md. -/
theorem test_movb_db3 : after (ready 0o000000 [(.r0, 0o123456), (.r1, 0o002001)]
    [(0o002000, 0o000377), (0o001000, 0o110021)])
    (fun t => (t.memWord 0o002000, t.reg .r1, t.psw &&& 15)) = some (0o027377, 0o002002, 0o000000) := by decide +kernel

/-- Vector AM25 of spec/95_test_vectors.md. -/
theorem test_clr_am25 : after (ready 0o000000 []
    [(0o001000, 0o005007)])
    (fun t => (t.reg .pc, t.psw &&& 15)) = some (0o000000, 0o000004) := by decide +kernel

/-- Vector SO5 of spec/95_test_vectors.md. -/
theorem test_clr_so5 : after (ready 0o000000 [(.r1, 0o002000)]
    [(0o002000, 0o177777), (0o001000, 0o005021)])
    (fun t => (t.memWord 0o002000, t.reg .r1, t.psw &&& 15)) = some (0o000000, 0o002002, 0o000004) := by decide +kernel

/-- Vector AM26 of spec/95_test_vectors.md. -/
theorem test_clrb_am26 : after (ready 0o000000 [(.pc, 0o001234)]
    [(0o001234, 0o105007)])
    (fun t => (t.reg .pc, t.psw &&& 15)) = some (0o001000, 0o000004) := by decide +kernel

/-- Vector SB2 of spec/95_test_vectors.md. -/
theorem test_clrb_sb2 : after (ready 0o000000 []
    [(0o002000, 0o123456), (0o001000, 0o105037), (0o001002, 0o002001)])
    (fun t => (t.memWord 0o002000, t.psw &&& 15)) = some (0o000056, 0o000004) := by decide +kernel

/-- Vector SO6 of spec/95_test_vectors.md. -/
theorem test_com_so6 : after (ready 0o000000 [(.r0, 0o013333)]
    [(0o001000, 0o005100)])
    (fun t => (t.reg .r0, t.psw &&& 15)) = some (0o164444, 0o000011) := by decide +kernel

/-- Vector SB4 of spec/95_test_vectors.md. -/
theorem test_comb_sb4 : after (ready 0o000000 [(.r0, 0o125000)]
    [(0o001000, 0o105100)])
    (fun t => (t.reg .r0, t.psw &&& 15)) = some (0o125377, 0o000011) := by decide +kernel

/-- Vector SO8 of spec/95_test_vectors.md. -/
theorem test_inc_so8 : after (ready 0o000001 [(.r0, 0o077777)]
    [(0o001000, 0o005200)])
    (fun t => (t.reg .r0, t.psw &&& 15)) = some (0o100000, 0o000013) := by decide +kernel

/-- Vector AM28 of spec/95_test_vectors.md. -/
theorem test_inc_am28 : after (ready 0o000000 []
    [(0o002002, 0o000377), (0o001000, 0o005237), (0o001002, 0o002002)])
    (fun t => (t.memWord 0o002002, t.reg .pc, t.psw &&& 15)) = some (0o000400, 0o001004, 0o000000) := by decide +kernel

/-- Vector SB5 of spec/95_test_vectors.md. -/
theorem test_incb_sb5 : after (ready 0o000001 [(.r0, 0o000377)]
    [(0o001000, 0o105200)])
    (fun t => (t.reg .r0, t.psw &&& 15)) = some (0o000000, 0o000005) := by decide +kernel

/-- Vector SB23 of spec/95_test_vectors.md. -/
theorem test_incb_sb23 : after (ready 0o000000 [(.r1, 0o002001)]
    [(0o002000, 0o077401), (0o001000, 0o105221)])
    (fun t => (t.memWord 0o002000, t.reg .r1, t.psw &&& 15)) = some (0o100001, 0o002002, 0o000012) := by decide +kernel

/-- Vector SO10 of spec/95_test_vectors.md. -/
theorem test_dec_so10 : after (ready 0o000001 [(.r0, 0o100000)]
    [(0o001000, 0o005300)])
    (fun t => (t.reg .r0, t.psw &&& 15)) = some (0o077777, 0o000003) := by decide +kernel

/-- Vector SB7 of spec/95_test_vectors.md. -/
theorem test_decb_sb7 : after (ready 0o000000 [(.r0, 0o000400)]
    [(0o001000, 0o105300)])
    (fun t => (t.reg .r0, t.psw &&& 15)) = some (0o000777, 0o000010) := by decide +kernel

/-- Vector SO14 of spec/95_test_vectors.md. -/
theorem test_neg_so14 : after (ready 0o000000 [(.r0, 0o100000)]
    [(0o001000, 0o005400)])
    (fun t => (t.reg .r0, t.psw &&& 15)) = some (0o100000, 0o000013) := by decide +kernel

/-- Vector SO15 of spec/95_test_vectors.md. -/
theorem test_neg_so15 : after (ready 0o000017 [(.r0, 0o000000)]
    [(0o001000, 0o005400)])
    (fun t => (t.reg .r0, t.psw &&& 15)) = some (0o000000, 0o000004) := by decide +kernel

/-- Vector SB10 of spec/95_test_vectors.md. -/
theorem test_negb_sb10 : after (ready 0o000000 [(.r0, 0o177600)]
    [(0o001000, 0o105400)])
    (fun t => (t.reg .r0, t.psw &&& 15)) = some (0o177600, 0o000013) := by decide +kernel

/-- Vector SO16 of spec/95_test_vectors.md. -/
theorem test_adc_so16 : after (ready 0o000001 [(.r0, 0o177777)]
    [(0o001000, 0o005500)])
    (fun t => (t.reg .r0, t.psw &&& 15)) = some (0o000000, 0o000005) := by decide +kernel

/-- Vector SO17 of spec/95_test_vectors.md. -/
theorem test_adc_so17 : after (ready 0o000001 [(.r0, 0o077777)]
    [(0o001000, 0o005500)])
    (fun t => (t.reg .r0, t.psw &&& 15)) = some (0o100000, 0o000012) := by decide +kernel

/-- Vector SB11 of spec/95_test_vectors.md. -/
theorem test_adcb_sb11 : after (ready 0o000001 [(.r0, 0o000177)]
    [(0o001000, 0o105500)])
    (fun t => (t.reg .r0, t.psw &&& 15)) = some (0o000200, 0o000012) := by decide +kernel

/-- Vector SO19 of spec/95_test_vectors.md. -/
theorem test_sbc_so19 : after (ready 0o000001 [(.r0, 0o000000)]
    [(0o001000, 0o005600)])
    (fun t => (t.reg .r0, t.psw &&& 15)) = some (0o177777, 0o000011) := by decide +kernel

/-- Vector SO20 of spec/95_test_vectors.md. -/
theorem test_sbc_so20 : after (ready 0o000001 [(.r0, 0o100000)]
    [(0o001000, 0o005600)])
    (fun t => (t.reg .r0, t.psw &&& 15)) = some (0o077777, 0o000002) := by decide +kernel

/-- Vector SB14 of spec/95_test_vectors.md. -/
theorem test_sbcb_sb14 : after (ready 0o000001 [(.r0, 0o001000)]
    [(0o001000, 0o105600)])
    (fun t => (t.reg .r0, t.psw &&& 15)) = some (0o001377, 0o000011) := by decide +kernel

/-- Vector SO22 of spec/95_test_vectors.md. -/
theorem test_tst_so22 : after (ready 0o000007 [(.r0, 0o100000)]
    [(0o001000, 0o005700)])
    (fun t => (t.psw &&& 15)) = some (0o000010) := by decide +kernel

/-- Vector SO23 of spec/95_test_vectors.md. -/
theorem test_tst_so23 : after (ready 0o000013 [(.r1, 0o002000)]
    [(0o001000, 0o005721)])
    (fun t => (t.reg .r1, t.psw &&& 15)) = some (0o002002, 0o000004) := by decide +kernel

/-- Vector SB16 of spec/95_test_vectors.md. -/
theorem test_tstb_sb16 : after (ready 0o000003 []
    [(0o002000, 0o100000), (0o001000, 0o105737), (0o001002, 0o002001)])
    (fun t => (t.psw &&& 15)) = some (0o000010) := by decide +kernel

/-- Vector AM29 of spec/95_test_vectors.md. -/
theorem test_tstb_am29 : after (ready 0o000000 [(.sp, 0o002002)]
    [(0o002000, 0o123456), (0o002002, 0o000377), (0o002004, 0o002010), (0o002010, 0o000777), (0o002012, 0o002001), (0o001000, 0o105746)])
    (fun t => (t.reg .sp, t.psw &&& 15)) = some (0o002000, 0o000000) := by decide +kernel

/-- Vector SO27 of spec/95_test_vectors.md. -/
theorem test_ror_so27 : after (ready 0o000000 [(.r0, 0o000001)]
    [(0o001000, 0o006000)])
    (fun t => (t.reg .r0, t.psw &&& 15)) = some (0o000000, 0o000007) := by decide +kernel

/-- Vector SO28 of spec/95_test_vectors.md. -/
theorem test_ror_so28 : after (ready 0o000001 [(.r0, 0o000002)]
    [(0o001000, 0o006000)])
    (fun t => (t.reg .r0, t.psw &&& 15)) = some (0o100001, 0o000012) := by decide +kernel

/-- Vector SB17 of spec/95_test_vectors.md. -/
theorem test_rorb_sb17 : after (ready 0o000001 [(.r0, 0o000401)]
    [(0o001000, 0o106000)])
    (fun t => (t.reg .r0, t.psw &&& 15)) = some (0o000600, 0o000011) := by decide +kernel

/-- Vector SO29 of spec/95_test_vectors.md. -/
theorem test_rol_so29 : after (ready 0o000001 [(.r0, 0o100000)]
    [(0o001000, 0o006100)])
    (fun t => (t.reg .r0, t.psw &&& 15)) = some (0o000001, 0o000003) := by decide +kernel

/-- Vector SB18 of spec/95_test_vectors.md. -/
theorem test_rolb_sb18 : after (ready 0o000000 [(.r0, 0o000200)]
    [(0o001000, 0o106100)])
    (fun t => (t.reg .r0, t.psw &&& 15)) = some (0o000000, 0o000007) := by decide +kernel

/-- Vector SO31 of spec/95_test_vectors.md. -/
theorem test_asr_so31 : after (ready 0o000000 [(.r0, 0o100001)]
    [(0o001000, 0o006200)])
    (fun t => (t.reg .r0, t.psw &&& 15)) = some (0o140000, 0o000011) := by decide +kernel

/-- Vector SO32 of spec/95_test_vectors.md. -/
theorem test_asr_so32 : after (ready 0o000000 [(.r0, 0o000001)]
    [(0o001000, 0o006200)])
    (fun t => (t.reg .r0, t.psw &&& 15)) = some (0o000000, 0o000007) := by decide +kernel

/-- Vector SB20 of spec/95_test_vectors.md. -/
theorem test_asrb_sb20 : after (ready 0o000000 [(.r0, 0o000201)]
    [(0o001000, 0o106200)])
    (fun t => (t.reg .r0, t.psw &&& 15)) = some (0o000300, 0o000011) := by decide +kernel

/-- Vector SB22 of spec/95_test_vectors.md. -/
theorem test_asrb_sb22 : after (ready 0o000000 []
    [(0o002000, 0o000477), (0o001000, 0o106237), (0o001002, 0o002001)])
    (fun t => (t.memWord 0o002000, t.psw &&& 15)) = some (0o000077, 0o000007) := by decide +kernel

/-- Vector SO34 of spec/95_test_vectors.md. -/
theorem test_asl_so34 : after (ready 0o000000 [(.r0, 0o100000)]
    [(0o001000, 0o006300)])
    (fun t => (t.reg .r0, t.psw &&& 15)) = some (0o000000, 0o000007) := by decide +kernel

/-- Vector SB21 of spec/95_test_vectors.md. -/
theorem test_aslb_sb21 : after (ready 0o000000 [(.r0, 0o000300)]
    [(0o001000, 0o106300)])
    (fun t => (t.reg .r0, t.psw &&& 15)) = some (0o000200, 0o000011) := by decide +kernel

/-- Vector SO2 of spec/95_test_vectors.md. -/
theorem test_swab_so2 : after (ready 0o000017 [(.r0, 0o100377)]
    [(0o001000, 0o000300)])
    (fun t => (t.reg .r0, t.psw &&& 15)) = some (0o177600, 0o000010) := by decide +kernel

/-- Vector SO3 of spec/95_test_vectors.md. -/
theorem test_swab_so3 : after (ready 0o000000 [(.r1, 0o002000)]
    [(0o002000, 0o000200), (0o001000, 0o000311)])
    (fun t => (t.memWord 0o002000, t.psw &&& 15)) = some (0o100000, 0o000004) := by decide +kernel

/-- Vector SO25 of spec/95_test_vectors.md. -/
theorem test_sxt_so25 : after (ready 0o000003 [(.r0, 0o052525)]
    [(0o001000, 0o006700)])
    (fun t => (t.reg .r0, t.psw &&& 15)) = some (0o000000, 0o000005) := by decide +kernel

/-- Vector SO26 of spec/95_test_vectors.md. -/
theorem test_sxt_so26 : after (ready 0o000010 []
    [(0o002000, 0o000001), (0o001000, 0o006737), (0o001002, 0o002000)])
    (fun t => (t.memWord 0o002000, t.psw &&& 15)) = some (0o177777, 0o000010) := by decide +kernel

/-- Vector PS2 of spec/95_test_vectors.md. -/
theorem test_mtps_ps2 : after (ready 0o000000 [(.r0, 0o000377)]
    [(0o001000, 0o106400)])
    (fun t => (t.psw)) = some (0o000357) := by decide +kernel

/-- Vector PS4 of spec/95_test_vectors.md. -/
theorem test_mtps_ps4 : after (ready 0o000340 [(.r1, 0o002001)]
    [(0o002000, 0o005000), (0o001000, 0o106421)])
    (fun t => (t.psw, t.reg .r1)) = some (0o000012, 0o002002) := by decide +kernel

/-- Vector PS5 of spec/95_test_vectors.md. -/
theorem test_mfps_ps5 : after (ready 0o000341 [(.r0, 0o052525)]
    [(0o001000, 0o106700)])
    (fun t => (t.reg .r0, t.psw)) = some (0o177741, 0o000351) := by decide +kernel

/-- Vector PS7 of spec/95_test_vectors.md. -/
theorem test_mfps_ps7 : after (ready 0o000217 []
    [(0o002000, 0o052525), (0o001000, 0o106737), (0o001002, 0o002001)])
    (fun t => (t.memWord 0o002000, t.psw)) = some (0o107525, 0o000211) := by decide +kernel

/-- Vector DO3 of spec/95_test_vectors.md. -/
theorem test_cmp_do3 : after (ready 0o000000 [(.r0, 0o000001), (.r1, 0o000002)]
    [(0o001000, 0o020001)])
    (fun t => (t.psw &&& 15)) = some (0o000011) := by decide +kernel

/-- Vector DO5 of spec/95_test_vectors.md. -/
theorem test_cmp_do5 : after (ready 0o000000 [(.r0, 0o077777), (.r1, 0o177777)]
    [(0o001000, 0o020001)])
    (fun t => (t.psw &&& 15)) = some (0o000013) := by decide +kernel

/-- Vector DO7 of spec/95_test_vectors.md. -/
theorem test_bit_do7 : after (ready 0o000013 [(.r0, 0o177776)]
    [(0o001000, 0o032700), (0o001002, 0o000001)])
    (fun t => (t.psw &&& 15)) = some (0o000005) := by decide +kernel

/-- Vector DO9 of spec/95_test_vectors.md. -/
theorem test_bic_do9 : after (ready 0o000003 [(.r0, 0o000377)]
    [(0o001000, 0o042700), (0o001002, 0o000017)])
    (fun t => (t.reg .r0, t.psw &&& 15)) = some (0o000360, 0o000001) := by decide +kernel

/-- Vector DO11 of spec/95_test_vectors.md. -/
theorem test_bis_do11 : after (ready 0o000003 [(.r0, 0o000001)]
    [(0o001000, 0o052700), (0o001002, 0o100000)])
    (fun t => (t.reg .r0, t.psw &&& 15)) = some (0o100001, 0o000011) := by decide +kernel

/-- Vector DO14 of spec/95_test_vectors.md. -/
theorem test_add_do14 : after (ready 0o000000 [(.r0, 0o100000), (.r1, 0o100000)]
    [(0o001000, 0o060001)])
    (fun t => (t.reg .r1, t.psw &&& 15)) = some (0o000000, 0o000007) := by decide +kernel

/-- Vector AM20 of spec/95_test_vectors.md. -/
theorem test_add_am20 : after (ready 0o000000 [(.r0, 0o002002)]
    [(0o002002, 0o000377), (0o001000, 0o062000)])
    (fun t => (t.reg .r0, t.psw &&& 15)) = some (0o002403, 0o000000) := by decide +kernel

/-- Vector DO17 of spec/95_test_vectors.md. -/
theorem test_sub_do17 : after (ready 0o000000 [(.r0, 0o000001), (.r1, 0o100000)]
    [(0o001000, 0o160001)])
    (fun t => (t.reg .r1, t.psw &&& 15)) = some (0o077777, 0o000002) := by decide +kernel

/-- Vector DO18 of spec/95_test_vectors.md. -/
theorem test_sub_do18 : after (ready 0o000000 [(.r0, 0o100000), (.r1, 0o077777)]
    [(0o001000, 0o160001)])
    (fun t => (t.reg .r1, t.psw &&& 15)) = some (0o177777, 0o000013) := by decide +kernel

/-- Vector DO20 of spec/95_test_vectors.md. -/
theorem test_xor_do20 : after (ready 0o000001 [(.r0, 0o177777), (.r1, 0o052525)]
    [(0o001000, 0o074001)])
    (fun t => (t.reg .r1, t.psw &&& 15)) = some (0o125252, 0o000011) := by decide +kernel

/-- Vector DO21 of spec/95_test_vectors.md. -/
theorem test_xor_do21 : after (ready 0o000012 [(.r0, 0o052525), (.r1, 0o002000)]
    [(0o002000, 0o052525), (0o001000, 0o074011)])
    (fun t => (t.memWord 0o002000, t.psw &&& 15)) = some (0o000000, 0o000004) := by decide +kernel

/-- Vector DB6 of spec/95_test_vectors.md. -/
theorem test_cmpb_db6 : after (ready 0o000000 [(.r0, 0o123001), (.r1, 0o055402)]
    [(0o001000, 0o120001)])
    (fun t => (t.psw &&& 15)) = some (0o000011) := by decide +kernel

/-- Vector AM23 of spec/95_test_vectors.md. -/
theorem test_cmpb_am23 : after (ready 0o000000 []
    [(0o002002, 0o000401), (0o001000, 0o126727), (0o001002, 0o000776), (0o001004, 0o000001)])
    (fun t => (t.reg .pc, t.psw &&& 15)) = some (0o001006, 0o000004) := by decide +kernel

/-- Vector DB7 of spec/95_test_vectors.md. -/
theorem test_bitb_db7 : after (ready 0o000003 [(.r0, 0o177600)]
    [(0o001000, 0o132700), (0o001002, 0o000200)])
    (fun t => (t.psw &&& 15)) = some (0o000011) := by decide +kernel

/-- Vector DB11 of spec/95_test_vectors.md. -/
theorem test_bicb_db11 : after (ready 0o000000 [(.r1, 0o002000), (.r2, 0o002003)]
    [(0o002000, 0o000017), (0o002002, 0o177777), (0o001000, 0o142122)])
    (fun t => (t.memWord 0o002002, t.reg .r1, t.reg .r2, t.psw &&& 15)) = some (0o170377, 0o002001, 0o002004, 0o000010) := by decide +kernel

/-- Vector DB10 of spec/95_test_vectors.md. -/
theorem test_bisb_db10 : after (ready 0o000000 [(.r0, 0o000360)]
    [(0o002000, 0o007400), (0o001000, 0o150037), (0o001002, 0o002001)])
    (fun t => (t.memWord 0o002000, t.psw &&& 15)) = some (0o177400, 0o000010) := by decide +kernel

/-- Vector MU1 of spec/95_test_vectors.md. -/
theorem test_mul_mu1 : after (readyG 0o000000 [(.r0, 0o000003), (.r1, 0o177776)]
    [(0o001000, 0o070001)])
    (fun t => (t.reg .r0, t.reg .r1, t.psw &&& 15)) = some (0o177777, 0o177772, 0o000010) := by decide +kernel

/-- Vector MU8 of spec/95_test_vectors.md. -/
theorem test_mul_mu8 : after (readyG 0o000000 [(.r0, 0o100000), (.r1, 0o177777)]
    [(0o001000, 0o070001)])
    (fun t => (t.reg .r0, t.reg .r1, t.psw &&& 15)) = some (0o000000, 0o100000, 0o000001) := by decide +kernel

/-- Vector X10 of spec/95_test_vectors.md. -/
theorem test_halt_x10 : after (ready 0o000017 [(.sp, 0o001000)]
    [(0o160002, 0o170000), (0o160004, 0o004340)])
    (fun t => (t.memWord 0o177674, t.reg .pc, t.psw)) = some (0o001002, 0o170000, 0o004340) := by decide +kernel

/-- Vector X3 of spec/95_test_vectors.md. -/
theorem test_bpt_x3 : after (ready 0o000000 [(.sp, 0o001000)]
    [(0o000014, 0o003014), (0o000016, 0o000343), (0o001000, 0o000003)])
    (fun t => (t.memWord 0o000774, t.reg .pc, t.psw)) = some (0o001002, 0o003014, 0o000343) := by decide +kernel

/-- Vector X4 of spec/95_test_vectors.md. -/
theorem test_iot_x4 : after (ready 0o000000 [(.sp, 0o001000)]
    [(0o000020, 0o003020), (0o000022, 0o000344), (0o001000, 0o000004)])
    (fun t => (t.memWord 0o000774, t.reg .sp, t.reg .pc, t.psw)) = some (0o001002, 0o000774, 0o003020, 0o000344) := by decide +kernel

/-- Vector X2 of spec/95_test_vectors.md. -/
theorem test_emt_x2 : after (ready 0o000001 [(.sp, 0o001000)]
    [(0o000030, 0o003030), (0o000032, 0o000345), (0o001000, 0o104123)])
    (fun t => (t.memWord 0o000776, t.memWord 0o000774, t.reg .sp, t.reg .pc)) = some (0o000001, 0o001002, 0o000774, 0o003030) := by decide +kernel

/-- Vector X1 of spec/95_test_vectors.md. -/
theorem test_trap_x1 : after (ready 0o000017 [(.sp, 0o001000)]
    [(0o000034, 0o003034), (0o000036, 0o177777), (0o001000, 0o104401)])
    (fun t => (t.memWord 0o000776, t.memWord 0o000774, t.reg .sp, t.reg .pc)) = some (0o000017, 0o001002, 0o000774, 0o003034) := by decide +kernel

/-- Vector X14 of spec/95_test_vectors.md. -/
theorem test_rti_x14 : after (ready 0o000000 [(.sp, 0o000770)]
    [(0o000770, 0o002000), (0o000772, 0o177417), (0o001000, 0o000002)])
    (fun t => (t.reg .pc, t.psw, t.reg .sp)) = some (0o002000, 0o000017, 0o000774) := by decide +kernel

/-- Vector X16 of spec/95_test_vectors.md. -/
theorem test_rti_x16 : after (ready 0o000000 [(.sp, 0o000770)]
    [(0o000770, 0o002000), (0o000772, 0o000020), (0o000014, 0o003014), (0o000016, 0o000343), (0o001000, 0o000002)])
    (fun t => (t.memWord 0o000772, t.memWord 0o000770, t.reg .sp, t.reg .pc)) = some (0o000020, 0o002000, 0o000770, 0o003014) := by decide +kernel

/-- Vector X11 of spec/95_test_vectors.md. -/
theorem test_start_x11 : after (ready 0o004340 [(.sp, 0o001000), (.pc, 0o002000)]
    [(0o177674, 0o001002), (0o177676, 0o000017), (0o002000, 0o000010)])
    (fun t => (t.reg .pc, t.psw)) = some (0o001002, 0o000017) := by decide +kernel

/-- Vector J6 of spec/95_test_vectors.md. -/
theorem test_jmp_j6 : after (ready 0o000000 [(.r1, 0o002000)]
    [(0o001000, 0o000161), (0o001002, 0o000010)])
    (fun t => (t.reg .pc)) = some (0o002010) := by decide +kernel

/-- Vector X7 of spec/95_test_vectors.md. -/
theorem test_jmp_x7 : after (ready 0o000000 [(.sp, 0o001000), (.r0, 0o002000)]
    [(0o000004, 0o003004), (0o000006, 0o000341), (0o001000, 0o000100)])
    (fun t => (t.memWord 0o000774, t.reg .sp, t.reg .pc)) = some (0o001002, 0o000774, 0o003004) := by decide +kernel

/-- Vector J12 of spec/95_test_vectors.md. -/
theorem test_jsr_j12 : after (ready 0o000000 [(.sp, 0o001000)]
    [(0o001000, 0o004637), (0o001002, 0o002000)])
    (fun t => (t.memWord 0o000776, t.reg .sp, t.reg .pc)) = some (0o000776, 0o001004, 0o002000) := by decide +kernel

/-- Vector X8 of spec/95_test_vectors.md. -/
theorem test_jsr_x8 : after (ready 0o000000 [(.sp, 0o001000)]
    [(0o000004, 0o003004), (0o000006, 0o000341), (0o001000, 0o004701)])
    (fun t => (t.memWord 0o000774, t.reg .sp, t.reg .pc)) = some (0o001002, 0o000774, 0o003004) := by decide +kernel

/-- Vector J13 of spec/95_test_vectors.md. -/
theorem test_rts_j13 : after (ready 0o000000 [(.r5, 0o001234), (.sp, 0o000776)]
    [(0o000776, 0o000555), (0o001000, 0o000205)])
    (fun t => (t.reg .pc, t.reg .r5, t.reg .sp)) = some (0o001234, 0o000555, 0o001000) := by decide +kernel

/-- Vector J14 of spec/95_test_vectors.md. -/
theorem test_rts_j14 : after (ready 0o000000 [(.sp, 0o000776)]
    [(0o000776, 0o001004), (0o001000, 0o000207)])
    (fun t => (t.reg .pc, t.reg .sp)) = some (0o001004, 0o001000) := by decide +kernel

/-- Vector J15 of spec/95_test_vectors.md. -/
theorem test_mark_j15 : after (ready 0o000000 [(.r5, 0o001234), (.sp, 0o000770), (.pc, 0o000770)]
    [(0o000776, 0o004321), (0o000770, 0o006402)])
    (fun t => (t.reg .sp, t.reg .pc, t.reg .r5)) = some (0o001000, 0o001234, 0o004321) := by decide +kernel

/-- Vector J18 of spec/95_test_vectors.md. -/
theorem test_sob_j18 : after (ready 0o000000 [(.r2, 0o000000), (.pc, 0o001006)]
    [(0o001006, 0o077203)])
    (fun t => (t.reg .r2, t.reg .pc)) = some (0o177777, 0o001002) := by decide +kernel

/-- Vector J21 of spec/95_test_vectors.md. -/
theorem test_sob_j21 : after (ready 0o000000 []
    [(0o001000, 0o077701)])
    (fun t => (t.reg .pc)) = some (0o000777) := by decide +kernel

/-! Section 2.5 of spec/95_test_vectors.md: PSW before and after each condition-code word. -/

theorem test_clx : after (ready 0o357 [] [(0o001000, 0o000243)]) (fun t => (t.psw, t.reg .pc)) = some (0o354, 0o001002) := by
  decide +kernel

theorem test_sex : after (ready 0o340 [] [(0o001000, 0o000265)]) (fun t => (t.psw, t.reg .pc)) = some (0o345, 0o001002) := by
  decide +kernel

theorem test_nop : after (ready 0o357 [] [(0o001000, 0o000240)]) (fun t => (t.psw, t.reg .pc)) = some (0o357, 0o001002) := by
  decide +kernel

theorem test_clc : after (ready 0o357 [] [(0o001000, 0o000241)]) (fun t => (t.psw, t.reg .pc)) = some (0o356, 0o001002) := by
  decide +kernel

theorem test_clv : after (ready 0o357 [] [(0o001000, 0o000242)]) (fun t => (t.psw, t.reg .pc)) = some (0o355, 0o001002) := by
  decide +kernel

theorem test_clz : after (ready 0o357 [] [(0o001000, 0o000244)]) (fun t => (t.psw, t.reg .pc)) = some (0o353, 0o001002) := by
  decide +kernel

theorem test_cln : after (ready 0o357 [] [(0o001000, 0o000250)]) (fun t => (t.psw, t.reg .pc)) = some (0o347, 0o001002) := by
  decide +kernel

theorem test_ccc : after (ready 0o357 [] [(0o001000, 0o000257)]) (fun t => (t.psw, t.reg .pc)) = some (0o340, 0o001002) := by
  decide +kernel

theorem test_nopSet : after (ready 0o340 [] [(0o001000, 0o000260)]) (fun t => (t.psw, t.reg .pc)) = some (0o340, 0o001002) := by
  decide +kernel

theorem test_sec : after (ready 0o340 [] [(0o001000, 0o000261)]) (fun t => (t.psw, t.reg .pc)) = some (0o341, 0o001002) := by
  decide +kernel

theorem test_sev : after (ready 0o340 [] [(0o001000, 0o000262)]) (fun t => (t.psw, t.reg .pc)) = some (0o342, 0o001002) := by
  decide +kernel

theorem test_sez : after (ready 0o340 [] [(0o001000, 0o000264)]) (fun t => (t.psw, t.reg .pc)) = some (0o344, 0o001002) := by
  decide +kernel

theorem test_sen : after (ready 0o340 [] [(0o001000, 0o000270)]) (fun t => (t.psw, t.reg .pc)) = some (0o350, 0o001002) := by
  decide +kernel

theorem test_scc : after (ready 0o340 [] [(0o001000, 0o000277)]) (fun t => (t.psw, t.reg .pc)) = some (0o357, 0o001002) := by
  decide +kernel

/-! Section 2.6 of spec/95_test_vectors.md: whether a branch is taken, for NZVC from 0000 to 1111. -/

/-- Whether the branch word at 001000 is taken, for each value of NZVC. -/
def takenAt (w : Word) : List Bool :=
  (List.range 16).map fun k =>
    after (ready (BitVec.ofNat 16 k) [] [(0o001000, w)]) (fun t => t.reg .pc) == some 0o001004

theorem test_br : takenAt 0o000401 =
    [true, true, true, true, true, true, true, true, true, true, true, true, true, true, true, true] := by
  decide +kernel

theorem test_bne : takenAt 0o001001 =
    [true, true, true, true, false, false, false, false, true, true, true, true, false, false, false, false] := by
  decide +kernel

theorem test_beq : takenAt 0o001401 =
    [false, false, false, false, true, true, true, true, false, false, false, false, true, true, true, true] := by
  decide +kernel

theorem test_bge : takenAt 0o002001 =
    [true, true, false, false, true, true, false, false, false, false, true, true, false, false, true, true] := by
  decide +kernel

theorem test_blt : takenAt 0o002401 =
    [false, false, true, true, false, false, true, true, true, true, false, false, true, true, false, false] := by
  decide +kernel

theorem test_bgt : takenAt 0o003001 =
    [true, true, false, false, false, false, false, false, false, false, true, true, false, false, false, false] := by
  decide +kernel

theorem test_ble : takenAt 0o003401 =
    [false, false, true, true, true, true, true, true, true, true, false, false, true, true, true, true] := by
  decide +kernel

theorem test_bpl : takenAt 0o100001 =
    [true, true, true, true, true, true, true, true, false, false, false, false, false, false, false, false] := by
  decide +kernel

theorem test_bmi : takenAt 0o100401 =
    [false, false, false, false, false, false, false, false, true, true, true, true, true, true, true, true] := by
  decide +kernel

theorem test_bhi : takenAt 0o101001 =
    [true, false, true, false, false, false, false, false, true, false, true, false, false, false, false, false] := by
  decide +kernel

theorem test_blos : takenAt 0o101401 =
    [false, true, false, true, true, true, true, true, false, true, false, true, true, true, true, true] := by
  decide +kernel

theorem test_bvc : takenAt 0o102001 =
    [true, true, false, false, true, true, false, false, true, true, false, false, true, true, false, false] := by
  decide +kernel

theorem test_bvs : takenAt 0o102401 =
    [false, false, true, true, false, false, true, true, false, false, true, true, false, false, true, true] := by
  decide +kernel

theorem test_bcc : takenAt 0o103001 =
    [true, false, true, false, true, false, true, false, true, false, true, false, true, false, true, false] := by
  decide +kernel

theorem test_bcs : takenAt 0o103401 =
    [false, true, false, true, false, true, false, true, false, true, false, true, false, true, false, true] := by
  decide +kernel

/-! ### The bus and the environment, one step each -/

/-- R28: NOP reads the next word before it ends, and PC stays behind that word. -/
theorem test_nop_prefetches : after (ready 0 [] [(0o001000, 0o000240), (0o001002, 0o005200)])
    (fun t => (t.seq.shadow, t.reg .pc)) = some (some 0o005200, 0o001002) := by decide +kernel

/-- R28: what was prefetched is executed, not what another master has stored there since. -/
theorem test_shadow_runs : after { ready 0 [(.r2, 0o5)] [(0o001000, 0o000240)] with
      seq := { calm.seq with shadow := some 0o005202 } }
    (fun t => (t.reg .r2, t.reg .pc)) = some (0o6, 0o001002) := by decide +kernel

/-- Row 01 of R473, D16: with R7 as the source register the word at PC is read and dropped: a hole there is a timeout. -/
theorem test_xor_discarded_read :
    let s := ready 0 [(.sp, 0o002000), (.pc, 0o157776)] [(0o157776, 0o074701), (0o000004, 0o003004)]
    after { s with plat := { s.plat with map := [⟨0o160000, 0o160000, .absent, 0, .always⟩] } }
      (fun t => (t.reg .pc, t.memWord 0o001774, t.reg .r1)) = some (0o003004, 0o160000, 0) := by decide +kernel

/-- R240, R361: SEC has raised C before the word at PC is read, so a hole there pushes PSW with C = 1. -/
theorem test_sec_before_prefetch :
    let s := ready 0 [(.sp, 0o002000), (.pc, 0o157776)] [(0o157776, 0o000261), (0o000004, 0o003004)]
    after { s with plat := { s.plat with map := [⟨0o160000, 0o160000, .absent, 0, .always⟩] } }
      (fun t => (t.reg .pc, t.memWord 0o001776)) = some (0o003004, 0o000001) := by decide +kernel

/-- R110, R399, R430 (a): while nDCLO is low the timer of another chip takes no control bits. -/
theorem test_dclo_holds_other_timer :
    let c : Chip := { cfg := { Config.default with ncpu := 3 }, per := Peripheral.clear, timer := calm.timer,
                      sel1 := 0, sel2 := 0 }
    let s := { calm with plat := { calm.plat with chips := [c] } }
    (match applyEvents [.dclo true, .busWrite 0o177772 0o000020] s with
      | .ok _ t => t.plat.chips.map (fun d => d.timer.csr)
      | _ => []) = [0] := by decide +kernel

/-- R74, D5: the default policy declines a word access at an odd address. -/
theorem test_odd_word_refused :
    (match step (ready 0 [(.r1, 0o002001)] [(0o001000, 0o011102)]) with
      | .refused r => r == .oddWordAccess
      | _ => false) = true := by decide +kernel

/-- R397, D17: TVE_COUNT ticks between the two reads of one BIT: 1 and then 0 have no bit in common. -/
theorem test_bit_sees_time_pass :
    let s := ready 0 [] [(0o001000, 0o033737), (0o001002, 0o177710), (0o001004, 0o177710)]
    after { s with cfg := { Config.default with variant := .vm1g }
                   timer := { calm.timer with count := 1, csr := 0b00010010 }
                   inputs := [[], [], [], [], [], [.clocks 128]] }
      (fun t => (t.psw, t.timer.count)) = some (0o000004, 0) := by decide +kernel

/-- R80, R134: another master stores into the source between the fetch and its read. -/
theorem test_mov_sees_other_master :
    after { ready 0 [(.r1, 0o002000)] [(0o001000, 0o011102), (0o002000, 0o1)] with
      inputs := [[], [], [.busWrite 0o002000 0o123456]] } (fun t => t.reg .r2) = some 0o123456 := by decide +kernel

/-- R365: the map switches on the pult bit inside the entry: the save cells and the vector are those of bank 1. -/
theorem test_halt_switches_map :
    let s := ready 0o000017 [] [(0o001000, 0o000000)]
    let u := { s with plat := { s.plat with map := [⟨0o160000, 0o177677, .ram, 1, .pult true⟩]
                                            sel1 := 0o10 } }
    let v := u.putWord 0o160002 0o170000
    after { v with plat := { v.plat with sel1 := 0 } }
      (fun t => (t.memWord 0o177674, t.reg .pc, Memory.read t.mem 0o177674)) =
      some (0o001002, 0o170000, 0) := by decide +kernel

/-- R81, U9: a slave that holds nRPLY hangs the bus in the fetch, and the next step does nothing. -/
theorem test_hang :
    let s := ready 0 [(.pc, 0o150000)] []
    let u := { s with plat := { s.plat with map := [⟨0o150000, 0o150000, .hang, 0, .always⟩] } }
    (after u (fun t => t.seq.hung), after u (fun t => after t (fun v => v == t))) = (some true, some (some true)) := by
  decide +kernel

/-- R81, R117: a device that answers the acknowledge read and holds nRPLY hangs the bus after the two pushes. -/
theorem test_ack_hang :
    let s := ready 0 [(.sp, 0o002000)] [(0o001000, 0o000240)]
    after { s with plat := { (s.setVirq true).plat with iack := [⟨0o060, true, true⟩] } }
      (fun t => (t.seq.hung, t.reg .sp, t.memWord 0o001774, t.plat.pins.virqLow)) =
      some (true, 0o001774, 0o001000, true) := by decide +kernel

/-- R463, R473: a hang at the vector of BPT holds the automaton at 3C, with the vector that row 1E wrote in A and Q. -/
theorem test_vector_hang :
    let s := ready 0 [(.sp, 0o002000)] [(0o001000, 0o000003)]
    after { s with plat := { s.plat with map := [⟨0o000014, 0o000017, .hang, 0, .always⟩] } }
      (fun t => (t.seq.hung, t.micro.ma, t.micro.a, t.micro.q)) = some (true, 0x3C, 0o000014, 0o000014) := by decide +kernel

/-- R360, R473: a hang of the push of PC holds the automaton at 0B, past 1E, which wrote the vector into A and Q. -/
theorem test_push_hang :
    after (withSlave (ready 0 [(.sp, 0o002000)] [(0o001000, 0o000003)]) 0o001774 0o001774 .hang)
      (fun t => (t.seq.hung, t.micro.ma, t.micro.a, t.micro.q)) = some (true, 0x0B, 0o000014, 0o000014) := by decide +kernel

/-- R472, R473: where another master hangs the bus before that push is granted, A is not free and 1E waits. -/
theorem test_push_not_granted :
    after { withSlave (ready 0 [(.sp, 0o002000)] [(0o001000, 0o000003)]) 0o000070 0o000070 .hang with
        inputs := [[], [], [], [.busRead 0o000070]] }
      (fun t => (t.seq.hung, t.micro.ma, t.micro.a, t.micro.q)) = some (true, 0x1E, 0o001774, 0o001002) := by decide +kernel

/-- R220, R473: the fetch after STEP, and after RTT with T = 1, is awaited at 6A; after RTT with T = 0 at 01 (R27). -/
theorem test_unpolled_fetch_hang :
    let f := fun psw ir => after (withSlave { ready psw [] [] with
        seq := { calm.seq with pollEnabled := false, ir := ir } } 0o001000 0o001000 .hang) (fun t => (t.seq.hung, t.micro.ma))
    (f 0 0o000014, f 0o000020 0o000006, f 0 0o000006) =
      (some (true, 0x6A), some (true, 0x6A), some (true, 0x01)) := by decide +kernel

/-- R310, R473: row 01 has advanced PC where the prefetch of MOV R1, R2 hangs; with R7 as an operand it has not. -/
theorem test_prefetch_hang :
    let f := fun w => after (withSlave (ready 0 [(.r1, 0o5)] [(0o001000, w)]) 0o001002 0o001002 .hang)
      (fun t => (t.seq.hung, t.reg .pc, t.reg .r2))
    (f 0o010102, f 0o010702) = (some (true, 0o001004, 0), some (true, 0o001002, 0)) := by decide +kernel

/-- R382, R449: a hardware reset ends the hang, and the rise of nACLO starts the processor. -/
theorem test_reset_ends_hang :
    let s := { ready 0 [] [] with seq := { calm.seq with hung := true }
                                  inputs := [[.dclo true, .dclo false, .act (.aclo true)]] }
    after { s with plat := { s.plat with sel1 := 0o140000 } }
      (fun t => (t.reg .pc, t.psw, t.seq.hung, t.ints.acok)) = some (0o140000, 0o000340, false, true) := by decide +kernel

/-! ### Hypotheses that are met

For every statement with hypotheses, states and operands that meet all of them together, one theorem for each clause.
A shape of Safety.lean serves every instruction stated with it, so its witnesses stand once. -/

/-- `x` gives a value and a state with `p`. -/
def okWith {α : Type} (x : Res α) (p : α → State → Bool) : Bool :=
  match x with
  | .ok a s => p a s
  | _ => false

theorem okWith_spec {α : Type} {x : Res α} {p : α → State → Bool} (h : okWith x p = true) :
    ∃ a s, x = .ok a s ∧ p a s = true := by
  cases x with
  | ok a s => exact ⟨a, s, rfl, h⟩
  | abort e s => cases h

/-- `x` is cut short by a timeout. -/
def timesOut {α : Type} (x : Res α) : Bool :=
  match x with
  | .abort (.timeout _) _ => true
  | _ => false

theorem timesOut_spec {α : Type} {x : Res α} (h : timesOut x = true) : ∃ k s, x = .abort (.timeout k) s := by
  cases x with
  | ok a s => cases h
  | abort e s =>
    cases e with
    | timeout k => exact ⟨k, s, rfl⟩
    | refused r => cases h
    | reset => cases h
    | hang g => cases h

/-- A step that goes on. -/
def goesOn (s : State) : Bool :=
  match step s with
  | .next _ => true
  | _ => false

theorem goesOn_spec {s : State} (h : goesOn s = true) : ∃ t, step s = .next t := by
  unfold goesOn at h
  split at h
  · exact ⟨_, by assumption⟩
  · cases h

/-- `ready` with nothing answering from 160000 to 177677. -/
def holed (psw : Word) (rs : List (Reg × Word)) (ws : List (Word × Word)) : State :=
  withSlave (ready psw rs ws) 0o160000 0o177677 .absent

/-- `ready` on processor 1. -/
def second (psw : Word) (rs : List (Reg × Word)) (ws : List (Word × Word)) : State :=
  { ready psw rs ws with cfg := { Config.default with ncpu := 1 } }

/-- `s` before its start, with the word in IR that a hardware reset leaves. -/
def unstarted (s : State) : State :=
  { s with seq := { s.seq with irLoaded := true }, ints := { s.ints with acok := false } }

/-- `s` waiting in WAIT. -/
def asleep (s : State) : State :=
  { s with seq := { s.seq with irLoaded := true, waiting := true }, per := { s.per with wcpu := true } }

theorem witness_DecodeOfEncode : (Instr.sub (.mem .autoDecDef .sp) (.mem .index .r1)).wf = true := by decide

theorem witness_EncodeOfDecode : decodeWord 0o012700 = .ok (.mov (.mem .autoInc .pc) (.reg .r0)) := by rfl

/-- Sound as one check. -/
def soundNow (s : State) : Bool :=
  s.mem.wf && s.psw &&& 0x0300 == 0 && s.per.errFlags &&& 0x20 == 0 && decide (s.timer.window ≤ 4) && !s.seq.waiting &&
  s.ints.acok && !s.plat.pins.dcloLow && (s.micro.ma == 0 || s.micro.ma == 1) && !s.initLine

theorem soundNow_spec {s : State} (h : soundNow s = true) : Sound s := by
  simp only [soundNow, Bool.and_eq_true, Bool.or_eq_true, Bool.not_eq_true', beq_iff_eq, decide_eq_true_eq] at h
  obtain ⟨⟨⟨⟨⟨⟨⟨⟨h1, h2⟩, h3⟩, h4⟩, h5⟩, h6⟩, h7⟩, h8⟩, h9⟩ := h
  have h10 : s.plat.pins.initOut = false := by revert h9; rw [State.initLine]; cases s.plat.pins.initOut <;> simp
  exact ⟨h1, h2, h3, h4, fun w => by simp [h5] at w, fun a => by simp [h6] at a, fun d => by simp [h7] at d, h8.imp_right .inl,
    h10.trans h7.symm, fun l => by simp [h9] at l⟩

/-- With time passing before the step and another master storing between its transactions. -/
theorem witness_StepKeepsSound : ∃ s : State, Sound s ∧ ∃ t, step s = .next t :=
  ⟨{ ready 0o000017 [(.r1, 0o002001)] [(0o001000, 0o105221), (0o002000, 0o077401)] with
      inputs := [[.clocks 5], [], [.busWrite 0o002000 0o1]] },
    soundNow_spec (by decide +kernel), goesOn_spec (by decide +kernel)⟩

theorem witness_StepKeepsConfig : ∃ t, step (second 0 [] [(0o001000, 0o000240)]) = .next t :=
  goesOn_spec (by decide +kernel)

theorem witness_HardwareReset : State.reset.plat.pins.dcloLow = false ∧
    ∃ s : State, s.plat.pins.dcloLow = true ∧ s.inputs = [] :=
  ⟨by decide, calm.setDclo true, by decide⟩

theorem witness_HardwareReset_held : ∃ (s t : State), applyEvent (.act (.irq2 true)) s = .ok () t ∧
    t.plat.pins.dcloLow = true ∧ InitHeld s :=
  ⟨calm.setDclo true, _, rfl, by decide, by unfold InitHeld; decide⟩

/-- A list that only stores, before a read and before a write. -/
theorem witness_EnvironmentActsBetweenTransactions : ∃ s u v : State,
    s.inputs = [[.busWrite 0o2 0o1]] ∧ .dclo true ∉ [Event.busWrite 0o2 0o1] ∧
    applyEvents [.busWrite 0o2 0o1] { s.latch .readWord 0o177776 with inputs := [] } = .ok () u ∧ u.seq.hung = false ∧
    applyEvents [.busWrite 0o2 0o1] { s.noted .writeWord 0 0 with inputs := [] } = .ok () v ∧ v.seq.hung = false :=
  ⟨{ calm with inputs := [[.busWrite 0o2 0o1]] }, _, _, by decide, by decide, rfl, by decide +kernel, rfl, by decide +kernel⟩

/-- A list in which another master's read hangs the bus. -/
theorem witness_EnvironmentActsBetweenTransactions_hang : ∃ s u v : State,
    s.inputs = [[.busRead 0o2]] ∧ .dclo true ∉ [Event.busRead 0o2] ∧
    applyEvents [.busRead 0o2] { s.latch .readWord 0 with inputs := [] } = .ok () u ∧ u.seq.hung = true ∧
    applyEvents [.busRead 0o2] { s.noted .writeWord 0 0 with inputs := [] } = .ok () v ∧ v.seq.hung = true :=
  ⟨{ withSlave calm 0o2 0o2 .hang with inputs := [[.busRead 0o2]] }, _, _, by decide, by decide, rfl, by decide +kernel, rfl,
    by decide +kernel⟩

/-- A list with a hardware reset. -/
theorem witness_EnvironmentActsBetweenTransactions_reset : ∃ s u v : State,
    s.inputs = [[.clocks 1, .dclo true]] ∧ .dclo true ∈ [Event.clocks 1, .dclo true] ∧
    applyEvents [.clocks 1, .dclo true] { s.latch .readWord 0 with inputs := [] } = .ok () u ∧
    applyEvents [.clocks 1, .dclo true] { s.noted .writeWord 0 0 with inputs := [] } = .ok () v :=
  ⟨{ calm with inputs := [[.clocks 1, .dclo true]] }, _, _, by decide, by decide, rfl, rfl⟩

/-- The highest word of RAM, and the timer from its last count on. -/
theorem witness_EnvironmentActsBetweenTransactions_clauses :
    calm.seq.hung = false ∧ calm.plat.pins.dcloLow = false ∧ calm.mem.wf = true ∧ calm.isRam 0o177776 = true ∧
    isOdd 0o177776 = false ∧
    ∃ t : State, t.cfg.timerAlive = true ∧ (Timer.clocks 127 t.timer).window = 0 ∧ t.timer.count = 1 :=
  ⟨by decide, by decide, by decide, by decide +kernel, by decide,
    { calm with timer := { calm.timer with count := 1, csr := 0b00010000 } }, by decide +kernel⟩

theorem witness_HangEndsByReset : ∃ s : State,
    s.quiet = true ∧ s.plat.pins.dcloLow = false ∧ s.per.hlt = false ∧ s.seq.retry = false ∧ s.seq.irLoaded = false ∧
    s.seq.shadow = none ∧ s.ownBlock (s.reg .pc) = false ∧ s.chipAt (s.reg .pc) = none ∧
    s.slaveAt (s.reg .pc) = .hang :=
  ⟨withSlave (ready 0 [(.pc, 0o177676)] []) 0o177676 0o177676 .hang, by decide +kernel⟩

theorem witness_HangEndsByReset_ends : ∃ s t : State, s.seq.hung = true ∧ s.inputs = [] ∧
    applyEvent (.act (.aclo true)) s = .ok () t ∧ s.plat.pins.dcloLow = false :=
  ⟨calm.hang, _, by decide, by decide, rfl, by decide⟩

/-- A started machine about to fetch `INC R0`. -/
def incNext : State := ready 0 [] [(0o001000, 0o005200)]

theorem witness_StepRunsDecoded_polled :
    AboutToFetch incNext 0o005200 ∧ incNext.per.st = false ∧ decodeWord 0o005200 = .ok (.inc (.reg .r0)) ∧
    incNext.seq.pollEnabled = true ∧ incNext.seq.waiting = false ∧ (matrix (fetched incNext 0o005200)).mcir = 0b001 := by
  refine ⟨?_, by decide +kernel, rfl, by decide +kernel, by decide +kernel, by decide +kernel⟩
  unfold AboutToFetch; decide +kernel

/-- From the shadow of IR, with nothing answering at PC. -/
theorem witness_StepRunsDecoded_unpolled : ∃ s : State,
    AboutToFetch s 0o005200 ∧ s.noReply (s.reg .pc) = true ∧ s.per.st = false ∧ s.seq.pollEnabled = false :=
  ⟨{ holed 0 [(.pc, 0o160000)] [] with seq := { calm.seq with pollEnabled := false, shadow := some 0o005200 } }, by
    unfold AboutToFetch; decide +kernel⟩

/-- A started machine about to fetch an illegal word. -/
def badNext : State := ready 0 [(.sp, 0o002000)] [(0o001000, 0o177777)]

theorem witness_IllegalWordTraps :
    AboutToFetch badNext 0o177777 ∧ badNext.per.st = false ∧ decodeWord 0o177777 = .error (.illegal .op17) ∧
    NoError (fetched badNext 0o177777) ∧ badNext.seq.pollEnabled = true ∧ badNext.seq.waiting = false ∧
    (matrix (fetched badNext 0o177777)).mcir = 0b001 ∧ UserRoom badNext 0o10 := by
  refine ⟨?_, by decide +kernel, rfl, ?_⟩
  · unfold AboutToFetch; decide +kernel
  · unfold NoError UserRoom; decide +kernel

/-- Right after RTT, with a request pending that is not taken. -/
theorem witness_IllegalWordTraps_unpolled : ∃ s : State,
    AboutToFetch s 0o177777 ∧ NoError (fetched s 0o177777) ∧ s.seq.pollEnabled = false ∧ s.ints.irq2 = true ∧
    UserRoom s 0o10 :=
  ⟨{ badNext.setIrq2 true with seq := { calm.seq with pollEnabled := false } }, by
    unfold AboutToFetch NoError UserRoom; decide +kernel⟩

theorem witness_HltAndSingleStep_hlt : ∃ s : State, s.inputs = [] ∧ s.per.hlt = true :=
  ⟨{ incNext with per := { incNext.per with hlt := true } }, by decide +kernel⟩

theorem witness_HltAndSingleStep_st : ∃ s : State, AboutToFetch s 0o005200 ∧ s.per.st = true :=
  ⟨{ incNext with per := { incNext.per with st := true } }, by unfold AboutToFetch; decide +kernel⟩

theorem witness_InitialStartOfChip_poll : ∃ s : State,
    AboutToPoll s ∧ s.ints.acok = false ∧ s.ints.acin = false :=
  ⟨{ State.reset with inputs := [] }, by unfold AboutToPoll; decide +kernel⟩

theorem witness_InitialStartOfChip_start : ∃ s : State,
    AboutToPoll s ∧ s.ints.acok = false ∧ s.ints.acin = true ∧ s.cfg.sel1Kind = .register :=
  ⟨({ State.reset with inputs := [] } : State).setAclo true, by unfold AboutToPoll; decide +kernel⟩

/-- Every request pending, and every one masked by PSW10. -/
theorem witness_MaskedRequestsWait_psw10 : ∃ s : State,
    s.ints.acok = true ∧ s.ints.iato = false ∧ s.ints.dble = false ∧ s.ints.qbto = false ∧ s.ints.uerr = false ∧
    s.psw.getLsbD 4 = false ∧ s.ints.aclo = true ∧ s.plat.pins.irq1Low = true ∧ s.ints.irq2 = true ∧
    s.psw.getLsbD 10 = true ∧ s.psw.getLsbD 7 = false :=
  ⟨((((ready 0o002000 [] []).setAclo true).setAclo false).setIrq1 true).setIrq2 true, by decide +kernel⟩

/-- Interrupts masked by bit 7, nIRQ1 by PSW11. -/
theorem witness_MaskedRequestsWait_psw7 : ∃ s : State,
    s.ints.acok = true ∧ s.ints.iato = false ∧ s.ints.dble = false ∧ s.ints.qbto = false ∧ s.ints.uerr = false ∧
    s.psw.getLsbD 4 = false ∧ s.ints.aclo = false ∧ s.psw.getLsbD 10 = false ∧ s.plat.pins.irq1Low = true ∧
    s.psw.getLsbD 11 = true ∧ s.psw.getLsbD 7 = true ∧ s.ints.irq2 = true ∧ s.plat.pins.virqLow = true :=
  ⟨(((ready 0o004200 [] []).setIrq1 true).setIrq2 true).setVirq true, by decide +kernel⟩

/-- Nothing masked and nothing pending. -/
theorem witness_MaskedRequestsWait_none : ∃ s : State,
    s.ints.acok = true ∧ s.ints.iato = false ∧ s.ints.dble = false ∧ s.ints.qbto = false ∧ s.ints.uerr = false ∧
    s.psw.getLsbD 4 = false ∧ s.ints.aclo = false ∧ s.plat.pins.irq1Low = false ∧ s.ints.irq2 = false ∧
    s.ints.irq3 = false ∧ s.plat.pins.virqLow = false ∧ s.cfg.variant = .vm1a ∧ s.psw = 0 :=
  ⟨ready 0 [] [], by decide +kernel⟩

/-- The common hypotheses of `PollOrder`. -/
def pollable (s : State) : Bool :=
  s.ints.acok && !s.ints.iato && !s.ints.dble && !s.ints.qbto && !s.ints.uerr

theorem witness_PollOrder_trace : ∃ s : State, pollable s = true ∧ s.psw.getLsbD 4 = true ∧ s.per.wcpu = false :=
  ⟨ready 0o000020 [] [], by decide +kernel⟩

theorem witness_PollOrder_powerFail : ∃ s : State,
    pollable s = true ∧ s.psw.getLsbD 4 = false ∧ s.psw.getLsbD 10 = false ∧ s.ints.aclo = true :=
  ⟨((ready 0 [] []).setAclo true).setAclo false, by decide +kernel⟩

/-- With T = 1 while WCPU = 1. -/
theorem witness_PollOrder_irq1 : ∃ s : State,
    pollable s = true ∧ s.psw.getLsbD 4 = true ∧ s.per.wcpu = true ∧ s.psw.getLsbD 10 = false ∧ s.ints.aclo = false ∧
    s.plat.pins.irq1Low = true ∧ s.psw.getLsbD 11 = false :=
  ⟨asleep ((ready 0o000220 [] []).setIrq1 true), by decide +kernel⟩

/-- The common hypotheses of the interrupts of `PollOrder`. -/
def interruptible (s : State) : Bool :=
  pollable s && !(s.psw.getLsbD 4 && !s.per.wcpu) && !s.psw.getLsbD 10 && !s.ints.aclo &&
  (!s.plat.pins.irq1Low || s.psw.getLsbD 11) && !s.psw.getLsbD 7

theorem witness_PollOrder_timer : ∃ s : State,
    interruptible s = true ∧ s.cfg.variant = .vm1g ∧ s.timer.req = true ∧ s.timer.csr.getLsbD 2 = true :=
  ⟨{ readyG 0 [] [] with timer := { calm.timer with req := true, csr := 4 } }, by decide +kernel⟩

/-- A low nIRQ1 that PSW11 masks. -/
theorem witness_PollOrder_irq2 : ∃ s : State,
    interruptible s = true ∧ s.plat.pins.irq1Low = true ∧ s.cfg.variant = .vm1a ∧ s.ints.irq2 = true :=
  ⟨((ready 0o004000 [] []).setIrq2 true).setIrq1 true, by decide +kernel⟩

/-- With T = 1 while WCPU = 1. -/
theorem witness_PollOrder_irq3 : ∃ s : State,
    interruptible s = true ∧ s.psw.getLsbD 4 = true ∧ s.timer.req = false ∧ s.ints.irq2 = false ∧ s.ints.irq3 = true :=
  ⟨asleep ((readyG 0o000020 [] []).setIrq3 true), by decide +kernel⟩

theorem witness_PollOrder_virq : ∃ s : State,
    interruptible s = true ∧ s.timer.csr.getLsbD 2 = false ∧ s.ints.irq2 = false ∧ s.ints.irq3 = false ∧
    s.cfg.ncpu = 0 ∧ s.plat.pins.virqLow = true :=
  ⟨(ready 0 [] []).setVirq true, by decide +kernel⟩

theorem witness_RequestLatches : calm.plat.pins.dcloLow = false ∧ (readyG 0 [] []).cfg.variant = .vm1g := by
  decide +kernel

/-- The fall of nIRQ2 and of nIRQ3, with nINIT high, and while nINIT is low, where it sets no latch (assumption 15). -/
theorem witness_RequestLatches_fall :
    let held : State := calm.setInit true
    calm.plat.pins.dcloLow = false ∧ calm.initLine = false ∧ (calm.setIrq2 true).ints.irq2 = true ∧
    (calm.setIrq3 true).ints.irq3 = true ∧
    held.plat.pins.dcloLow = false ∧ held.initLine = true ∧ held.plat.pins.irq2Low = false ∧
    held.plat.pins.irq3Low = false ∧ (held.setIrq2 true).ints.irq2 = false ∧ (held.setIrq2 true).plat.pins.irq2Low = true ∧
    (held.setIrq3 true).ints.irq3 = false ∧ (held.setIrq3 true).plat.pins.irq3Low = true := by
  decide +kernel

/-- A started machine about to fetch `NOP`, with a stack at 002000. -/
def nopNext : State := ready 0 [(.sp, 0o002000)] [(0o001000, 0o000240)]

/-- The same with T = 1. -/
def traceNext : State := { nopNext with psw := 0o000020 }

/-- The hypotheses of `InterruptEntry` for one source. -/
def Interrupted (s : State) (v : Vsel) (va : Word) (rr : BitVec 3) : Prop :=
  AboutToFetch s 0o000240 ∧ s.per.st = false ∧ s.seq.pollEnabled = true ∧ s.ints.acok = true ∧
  matrix (fetched s 0o000240) = ⟨0b100, v, rr⟩ ∧ UserRoom s va

theorem witness_InterruptEntry :
    Interrupted traceNext .tBit 0o000014 0b010 ∧
    Interrupted ((nopNext.setAclo true).setAclo false) .powerFail 0o000024 0b100 ∧
    Interrupted (nopNext.setIrq2 true) .irq2 0o000100 0b011 ∧
    Interrupted (nopNext.setIrq3 true) .irq3OrTimer 0o000270 0b001 := by
  refine ⟨?_, ?_, ?_, ?_⟩ <;> (unfold Interrupted AboutToFetch UserRoom; decide +kernel)

theorem witness_VectoredInterrupt : ∃ s : State,
    AboutToFetch s 0o000240 ∧ s.per.st = false ∧ s.seq.pollEnabled = true ∧ s.ints.acok = true ∧
    matrix (fetched s 0o000240) = ⟨0b100, .ext, 0b010⟩ ∧ s.plat.iack = [⟨0o060, true, false⟩] ∧ UserRoom s 0o060 :=
  ⟨{ nopNext with plat := { (nopNext.setVirq true).plat with iack := [⟨0o060, true, false⟩] } },
    by unfold AboutToFetch UserRoom; decide +kernel⟩

/-- A device that answers and holds nRPLY. -/
def heldAck (s : State) : State := { s with plat := { (s.setVirq true).plat with iack := [⟨0o060, true, true⟩] } }

theorem witness_VectoredInterrupt_holds : ∃ s : State,
    AboutToFetch s 0o000240 ∧ s.per.st = false ∧ s.seq.pollEnabled = true ∧ s.ints.acok = true ∧
    matrix (fetched s 0o000240) = ⟨0b100, .ext, 0b010⟩ ∧ s.plat.iack = [⟨0o060, true, true⟩] ∧ StackRoom s :=
  ⟨heldAck nopNext, by unfold AboutToFetch StackRoom; decide +kernel⟩

theorem witness_HangEndsByReset_ack : (heldAck nopNext).quiet = true ∧
    (heldAck nopNext).plat.iack = [⟨0o060, true, true⟩] := by decide +kernel

theorem witness_IackTimeout : ∃ s : State,
    AboutToFetch s 0o000240 ∧ s.per.st = false ∧ s.seq.pollEnabled = true ∧ s.ints.acok = true ∧
    matrix (fetched s 0o000240) = ⟨0b100, .ext, 0b010⟩ ∧ s.plat.iack = [] ∧ s.cfg.sel1Kind = .register ∧
    s.fixedMap = true ∧ UserRoom s 0o160012 ∧ PultRoom s 0o160012 ∧ s.reg .sp - 2 ≠ 0o177674 ∧
    s.reg .sp - 2 ≠ 0o177676 ∧ s.reg .sp - 4 ≠ 0o177674 ∧ s.reg .sp - 4 ≠ 0o177676 :=
  ⟨nopNext.setVirq true, by unfold AboutToFetch UserRoom PultRoom; decide +kernel⟩

/-- The pult's memory is switched in by the pult bit only. -/
def banked (s : State) : State :=
  { s with plat := { s.plat with map := [⟨0o160000, 0o177677, .absent, 0, .pult false⟩] } }

theorem witness_HaltRequestEntry : ∃ s : State,
    AboutToFetch s 0o000240 ∧ s.per.st = false ∧ s.seq.pollEnabled = true ∧ s.ints.acok = true ∧
    matrix (fetched s 0o000240) = ⟨0b010, .halt, 0b111⟩ ∧ PultReady (fetched s 0o000240) ∧
    PultRoom ((fetched s 0o000240).pultWith true) 0o160002 :=
  ⟨banked (nopNext.setIrq1 true), by unfold AboutToFetch PultReady PultRoom; decide +kernel⟩

theorem witness_PultBitSetAndCleared_register :
    calm.quiet = true ∧ calm.cfg.ncpu = 0 ∧ calm.cfg.sel1Kind = .register := by decide

theorem witness_PultBitSetAndCleared_memory :
    (second 0 [] []).cfg.ncpu ≠ 0 ∧ (second 0 [] []).mem.wf = true ∧ (second 0 [] []).ramWord 0o177716 = true := by
  decide +kernel

theorem witness_PultBitSetAndCleared_frame : ∃ t, setPultBit true calm = .ok () t := by
  obtain ⟨_, t, h, -⟩ := okWith_spec (x := setPultBit true calm) (p := fun _ _ => true) (by decide +kernel)
  exact ⟨t, h⟩

theorem witness_TimeoutEntersByPswBits_user :
    NoError nopNext ∧ nopNext.psw.getLsbD 10 = false ∧ nopNext.psw.getLsbD 11 = false ∧ UserRoom nopNext 0o4 := by
  unfold NoError UserRoom; decide +kernel

/-- The state of the second clause of `TimeoutEntersByPswBits` before bit 3 of 177716 is set. -/
def timedOut (s : State) : State :=
  { s with per := { s.per with errFlags := s.per.errFlags ||| 0x10 }
           seq := { s.seq with irLoaded := false, pollEnabled := true } }

theorem witness_TimeoutEntersByPswBits_psw11 : ∃ s : State,
    NoError s ∧ s.psw.getLsbD 11 = true ∧ PultReady (timedOut s) ∧ PultRoom ((timedOut s).pultWith true) 0o160002 ∧
    s.cfg.variant = .vm1a :=
  ⟨banked (ready 0o004000 [] []), by unfold NoError PultReady PultRoom; decide +kernel⟩

/-- On processor 1, where a word of RAM holds the pult bit. -/
theorem witness_TimeoutEntersByPswBits_psw10 : ∃ s : State,
    NoError s ∧ s.psw.getLsbD 10 = true ∧ PultReady (timedOut s) ∧ PultRoom ((timedOut s).pultWith true) 0o160002 ∧
    s.cfg.ncpu = 1 :=
  ⟨second 0o002000 [] [], by unfold NoError PultReady PultRoom; decide +kernel⟩

/-- A stack in a hole from 140000 to 157777; the pult is RAM. -/
def deadStack : State := withSlave (ready 0 [(.sp, 0o150000)] []) 0o140000 0o157777 .absent

/-- Nothing answers at the first push. -/
theorem witness_DoubleTimeoutEntersPult_first : ∃ u, NoError deadStack ∧ deadStack.psw.getLsbD 10 = false ∧
    deadStack.psw.getLsbD 11 = false ∧ EntryFails deadStack u ∧ PultReady (twiceFailed u) ∧
    PultRoom ((twiceFailed u).pultWith true) 0o160006 := by
  refine ⟨deadStack.setReg .sp 0o147776, ?_, ?_, ?_, ⟨?_, .inl ⟨?_, ?_⟩⟩, ?_, ?_⟩ <;>
    first | decide +kernel | (unfold NoError; decide +kernel) | (unfold PultReady; decide +kernel) |
      (unfold PultRoom; decide +kernel)

/-- Nothing answers at the second push, below the lowest word of a stack that starts after a hole. -/
theorem witness_DoubleTimeoutEntersPult_second : ∃ s u, NoError s ∧ EntryFails s u ∧ PultReady (twiceFailed u) ∧
    PultRoom ((twiceFailed u).pultWith true) 0o160006 := by
  let s := withSlave (ready 0 [(.sp, 0o160002)] []) 0o140000 0o157777 .absent
  refine ⟨s, (s.setReg .sp 0o157776).putWord 0o160000 (fullPsw s), ?_, ⟨?_, .inr (.inl ⟨?_, ?_, ?_⟩)⟩, ?_, ?_⟩ <;>
    first | decide +kernel | (unfold NoError; decide +kernel) | (unfold PultReady; decide +kernel) |
      (unfold PultRoom; decide +kernel)

/-- Nothing answers at the vector. -/
theorem witness_DoubleTimeoutEntersPult_vector : ∃ s u, NoError s ∧ EntryFails s u ∧ PultReady (twiceFailed u) ∧
    PultRoom ((twiceFailed u).pultWith true) 0o160006 := by
  let s := withSlave (ready 0 [(.sp, 0o002000)] []) 0 0o77 .absent
  refine ⟨s, ((s.setReg .sp 0o001774).putWord 0o001776 (fullPsw s)).putWord 0o001774 (s.reg .pc), ?_,
    ⟨?_, .inr (.inr ⟨?_, ?_, ?_, ?_⟩)⟩, ?_, ?_⟩ <;>
    first | decide +kernel | (unfold NoError; decide +kernel) | (unfold PultReady; decide +kernel) |
      (unfold PultRoom; decide +kernel)

/-- Processor 1 with nothing from 140000 on, 177716 included. -/
def noPult : State := withSlave (second 0 [(.sp, 0o150000)] []) 0o140000 0o177777 .absent

theorem witness_DoubleTimeoutEntersPult_no_pult : ∃ u, NoError noPult ∧ EntryFails noPult u ∧ noPult.cfg.ncpu ≠ 0 ∧
    noPult.noReply 0o177716 = true := by
  refine ⟨noPult.setReg .sp 0o147776, ?_, ⟨?_, .inl ⟨?_, ?_⟩⟩, ?_, ?_⟩ <;>
    first | decide +kernel | (unfold NoError; decide +kernel)

/-- `s` after a double error whose entry has failed. -/
def parked (s : State) : State :=
  { s with ints := { s.ints with qbto := true, dble := true }, per := { s.per with errFlags := 0x11 }
           seq := { s.seq with retry := true } }

/-- The pult has come back; or 177716 is silent; or the vector at 160006 is. -/
theorem witness_DoubleTimeoutEntersPult_again :
    (AboutToRetry (parked nopNext) ∧ PultReady (parked nopNext) ∧
      PultRoom ((attempted (parked nopNext)).pultWith true) 0o160006) ∧
    (AboutToRetry (parked noPult) ∧ (parked noPult).cfg.ncpu ≠ 0 ∧ (parked noPult).noReply 0o177716 = true) ∧
    ∃ s v : State, AboutToRetry s ∧ PultReady s ∧ v = s.pultWith true ∧ v.ramWord 0o177676 = true ∧
      v.ramWord 0o177674 = true ∧ v.noReply 0o160006 = true := by
  refine ⟨?_, ?_, parked (withSlave nopNext 0o160006 0o160006 .absent), _, ?_, ?_, rfl, ?_, ?_, ?_⟩ <;>
    first | decide +kernel | (unfold AboutToRetry; decide +kernel) | (unfold PultReady; decide +kernel) |
      (unfold AboutToRetry PultReady PultRoom; decide +kernel)

theorem witness_HaltEntersPult : PultReady (banked nopNext) ∧ PultRoom ((banked nopNext).pultWith true) 0o160002 := by
  unfold PultReady PultRoom; decide +kernel

theorem witness_HaltEntersPult_entry :
    okWith (setPultBit true nopNext) (fun _ t => t.mem.wf && t.ramWord 0o177676 && t.ramWord 0o177674 &&
      t.ramWord 0o160002 && t.ramWord 0o160004) = true := by decide +kernel

theorem witness_HaltEntersPult_timeout : ∃ s s1 : State, ∃ k, setPultBit true s = .abort (.timeout k) s1 := by
  obtain ⟨k, t, h⟩ := timesOut_spec (x := setPultBit true (withSlave (second 0 [] []) 0o177716 0o177716 .absent))
    (by decide +kernel)
  exact ⟨_, t, k, h⟩

theorem witness_WaitPolls_none : AboutToPoll (asleep nopNext) ∧ (asleep nopNext).ints.acok = true ∧
    (asleep nopNext).seq.waiting = true ∧ matrix (asleep nopNext) = ⟨0b000, .halt, 0b111⟩ := by
  unfold AboutToPoll; decide +kernel

theorem witness_WaitPolls_taken : ∃ s : State, AboutToPoll s ∧ s.ints.acok = true ∧ s.seq.waiting = true ∧
    matrix s = ⟨0b100, .irq3OrTimer, 0b001⟩ ∧ UserRoom s 0o000270 :=
  ⟨(asleep nopNext).setIrq3 true, by unfold AboutToPoll UserRoom; decide +kernel⟩

theorem witness_WaitPolls_vectored : ∃ s : State, AboutToPoll s ∧ s.ints.acok = true ∧ s.seq.waiting = true ∧
    matrix s = ⟨0b100, .ext, 0b010⟩ ∧ s.plat.iack = [⟨0o060, true, false⟩] ∧ UserRoom s 0o060 :=
  ⟨asleep { nopNext with plat := { (nopNext.setVirq true).plat with iack := [⟨0o060, true, false⟩] } }, by
    unfold AboutToPoll UserRoom; decide +kernel⟩

theorem witness_WaitPolls_vectored_holds : ∃ s : State, AboutToPoll s ∧ s.ints.acok = true ∧ s.seq.waiting = true ∧
    matrix s = ⟨0b100, .ext, 0b010⟩ ∧ s.plat.iack = [⟨0o060, true, true⟩] ∧ StackRoom s :=
  ⟨heldAck (asleep nopNext), by unfold AboutToPoll StackRoom; decide +kernel⟩

theorem witness_WaitPolls_halt : ∃ s x : State, AboutToPoll s ∧ s.ints.acok = true ∧ s.seq.waiting = true ∧
    x = { s with seq := { s.seq with irLoaded := false } } ∧ matrix s = ⟨0b010, .halt, 0b111⟩ ∧ PultReady x ∧
    PultRoom (x.pultWith true) 0o160002 := by
  refine ⟨banked (asleep (nopNext.setIrq1 true)), _, ?_, ?_, ?_, rfl, ?_, ?_, ?_⟩ <;>
    first | decide +kernel | (unfold AboutToPoll; decide +kernel) | (unfold PultReady; decide +kernel) |
      (unfold PultRoom; decide +kernel)

/-- Another master has cleared WT while T = 1, or while a request is latched (assumption 16). -/
theorem witness_WaitPolls_after_write :
    (∃ s : State, AboutToPoll s ∧ s.ints.acok = true ∧ s.seq.waiting = true ∧ s.per.wcpu = false ∧
      matrix s = ⟨0b100, .tBit, 0b010⟩ ∧ UserRoom s 0o000014) ∧
    ∃ s : State, AboutToPoll s ∧ s.ints.acok = true ∧ s.seq.waiting = true ∧ s.per.wcpu = false ∧
      matrix s = ⟨0b100, .irq2, 0b011⟩ ∧ UserRoom s 0o000100 :=
  ⟨⟨(asleep traceNext).putPreg .mode 0, by unfold AboutToPoll UserRoom; decide +kernel⟩,
   ⟨((asleep nopNext).setIrq2 true).putPreg .mode 0, by unfold AboutToPoll UserRoom; decide +kernel⟩⟩

/-- Another master has cleared WT. -/
theorem witness_WaitPolls_ended : ∃ s : State, AboutToPoll s ∧ s.ints.acok = true ∧ s.seq.waiting = true ∧
    matrix s = ⟨0b001, .halt, 0b111⟩ :=
  ⟨(asleep nopNext).putPreg .mode 0, by unfold AboutToPoll; decide +kernel⟩

theorem witness_SoftwareTraps :
    UserRoom nopNext 0o14 ∧ UserRoom nopNext 0o20 ∧ UserRoom nopNext 0o34 ∧ UserRoom nopNext 0o30 := by
  unfold UserRoom; decide +kernel

/-- A stack that holds 001234 and then PSW `p`. -/
def framed (p : Word) : State := ready 0 [(.sp, 0o002000)] [(0o002000, 0o001234), (0o002002, p)]

theorem witness_ReturnsFromTrap_rti :
    (framed 0o177757).ramWord ((framed 0o177757).reg .sp) = true ∧
    (framed 0o177757).ramWord ((framed 0o177757).reg .sp + 2) = true ∧
    ((framed 0o177757).memWord ((framed 0o177757).reg .sp + 2)).getLsbD 4 = false := by
  decide +kernel

theorem witness_ReturnsFromTrap_rti_traps : ∃ s u : State,
    s.ramWord (s.reg .sp) = true ∧ s.ramWord (s.reg .sp + 2) = true ∧ (s.memWord (s.reg .sp + 2)).getLsbD 4 = true ∧
    u = { (s.setReg .sp (s.reg .sp + 4)).setReg .pc (s.memWord (s.reg .sp)) with
          psw := s.memWord (s.reg .sp + 2) &&& 0x00FF } ∧ UserRoom u 0o14 :=
  ⟨framed 0o000020, _, by decide +kernel, by decide +kernel, by decide +kernel, rfl,
    by unfold UserRoom; decide +kernel⟩

/-- The hypothesis of the timeouts of RTI, RTT and RTS. -/
theorem witness_ReturnsFromTrap_timeout :
    (holed 0 [(.sp, 0o160000)] []).noReply ((holed 0 [(.sp, 0o160000)] []).reg .sp) = true := by
  decide +kernel

/-- `s` after the loads of START. -/
def startLoaded (s : State) : State :=
  { s.setReg .pc (s.memWord 0o177674) with psw := s.memWord 0o177676 &&& 0xFCFF }

theorem witness_StartAndStep : ∃ s : State,
    s.ramWord 0o177674 = true ∧ s.ramWord 0o177676 = true ∧ PultReady (startLoaded s) :=
  ⟨ready 0 [] [(0o177674, 0o001234), (0o177676, 0o000340)], by unfold PultReady; decide +kernel⟩

/-- An index word in RAM: the operand's address is 002004. Serves JMP, and every shape whose operand is a word of
memory. -/
theorem witness_word_address : ∃ a s1,
    effAddr .index .r1 .word (ready 0 [(.r1, 0o002000)] [(0o001000, 0o000004)]) = .ok a s1 ∧
    (s1.ramWord a && s1.mem.wf) = true :=
  okWith_spec (by decide +kernel)

/-- Nothing answers at the index word. Serves every instruction with an operand in memory. -/
theorem witness_word_address_timeout : ∃ k s1,
    effAddr .index .r1 .word (holed 0 [(.pc, 0o177676)] []) = .abort (.timeout k) s1 :=
  timesOut_spec (by decide +kernel)

/-- Nothing answers at the operand. -/
theorem witness_word_no_reply : ∃ a s1,
    effAddr .autoInc .r1 .word (holed 0 [(.r1, 0o160000)] []) = .ok a s1 ∧ s1.noReply a = true :=
  okWith_spec (by decide +kernel)

theorem witness_byte_address : ∃ a s1,
    effAddr .autoDec .r1 .byte (ready 0 [(.r1, 0o002000)] [(0o001000, 0o000004)]) = .ok a s1 ∧
    (s1.ramByte a && s1.mem.wf) = true :=
  okWith_spec (by decide +kernel)

theorem witness_byte_address_timeout : ∃ k s1,
    effAddr .autoIncDef .r1 .byte (holed 0 [(.r1, 0o177676)] []) = .abort (.timeout k) s1 :=
  timesOut_spec (by decide +kernel)

theorem witness_byte_no_reply : ∃ a s1,
    effAddr .deferred .r1 .byte (holed 0 [(.r1, 0o177677)] []) = .ok a s1 ∧ s1.noReply a = true :=
  okWith_spec (by decide +kernel)

/-- RAM at PC, and nothing at PC: the register forms of every shape, and the condition codes. -/
theorem witness_shapes_register : nopNext.mem.wf = true ∧ nopNext.ramWord (nopNext.reg .pc) = true ∧
    (holed 0 [(.pc, 0o177676)] []).noReply ((holed 0 [(.pc, 0o177676)] []).reg .pc) = true := by decide +kernel

theorem witness_JumpToRegisterTraps : UserRoom nopNext 0o4 := by unfold UserRoom; decide +kernel

/-- JSR with a link register other than R7, with R7 and with R6 alike: the stack is RAM. -/
theorem witness_JsrPushesLinkAndJumps : nopNext.mem.wf = true ∧ ∃ a s1, effAddr .deferred .r1 .word nopNext = .ok a s1 ∧
    (s1.setReg .sp (s1.reg .sp - 2)).ramWord ((s1.setReg .sp (s1.reg .sp - 2)).reg .sp) = true :=
  ⟨by decide +kernel, okWith_spec (by decide +kernel)⟩

theorem witness_JsrPushesLinkAndJumps_address_timeout : ∃ k s1,
    effAddr .indexDef .r1 .word (holed 0 [(.pc, 0o160000)] []) = .abort (.timeout k) s1 :=
  timesOut_spec (by decide +kernel)

theorem witness_JsrPushesLinkAndJumps_push_timeout : ∃ a s1,
    effAddr .deferred .r1 .word (holed 0 [(.sp, 0o160002)] []) = .ok a s1 ∧
    s1.noReply (s1.reg .sp - 2) = true :=
  okWith_spec (by decide +kernel)

/-- RTS with R5, and with R6, where the pop is at the address that SP holds. -/
theorem witness_RtsReturnsAndPopsLink : ∀ r ∈ [Reg.r5, .sp, .pc],
    nopNext.ramWord ((nopNext.setReg .pc (nopNext.reg r)).reg .sp) = true := by
  decide +kernel

theorem witness_MarkUnwindsFrame :
    nopNext.ramWord (nopNext.reg .pc + 2 * (0o77 : BitVec 6).setWidth 16) = true ∧
    (holed 0 [(.pc, 0o160000)] []).noReply
      ((holed 0 [(.pc, 0o160000)] []).reg .pc + 2 * (0 : BitVec 6).setWidth 16) = true := by
  decide +kernel

theorem witness_CarryBranchesSeeFrC : ∃ s : State,
    s.cc.c = true ∧ s.cfg.erratumFrc = true ∧ s.seq.frcStale = true ∧
    false = (s.cc.c && !(s.cfg.erratumFrc && s.seq.frcStale)) :=
  ⟨{ ready 1 [] [] with seq := { calm.seq with frcStale := true } }, by decide +kernel⟩

theorem witness_OperandAccess_step_size : Reg.r5 ≠ .sp ∧ Reg.r5 ≠ .pc := by decide

/-- The words at the register, below it, at PC and at the indexed address are RAM, at the ends of the address space. -/
theorem witness_OperandAccess_ram : ∃ s : State,
    s.ramWord (s.reg .r1) = true ∧ s.ramWord (s.reg .r1 - 2) = true ∧ s.ramWord (s.reg .pc) = true ∧
    s.ramWord ((s.setReg .pc (s.reg .pc + 2)).reg .r1 + s.memWord (s.reg .pc)) = true :=
  ⟨ready 0 [(.r1, 0), (.pc, 0o177776)] [(0o177776, 0o177776)], by decide +kernel⟩

theorem witness_OperandAccess_no_reply : ∃ s : State,
    s.noReply (s.reg .r1) = true ∧ s.noReply (s.reg .r1 - 2) = true ∧ s.noReply (s.reg .pc) = true :=
  ⟨holed 0 [(.r1, 0o177676), (.pc, 0o160000)] [], by decide +kernel⟩

/-- RAM at PC, nothing at the indexed address. -/
theorem witness_OperandAccess_indexed_no_reply : ∃ s : State,
    s.ramWord (s.reg .pc) = true ∧
    s.noReply ((s.setReg .pc (s.reg .pc + 2)).reg .r1 + s.memWord (s.reg .pc)) = true :=
  ⟨holed 0 [(.r1, 0o160000)] [], by decide +kernel⟩

/-- An address computed with nothing from the environment and no device that reacts to a read. -/
theorem witness_OperandAccess_frame : ∃ a s1, (holed 0 [] []).quiet = true ∧ (holed 0 [] []).inert = true ∧
    effAddr .index .pc .byte (holed 0 [] []) = .ok a s1 := by
  obtain ⟨a, s1, h, -⟩ := okWith_spec (x := effAddr .index .pc .byte (holed 0 [] [])) (p := fun _ _ => true)
    (by decide +kernel)
  exact ⟨a, s1, by decide +kernel, by decide +kernel, h⟩

/-- Source read, then a register destination: the pairs, and MUL. -/
theorem witness_pair_register : ∃ v s1,
    readOpWord (.mem .autoInc .r1) (ready 0 [(.r1, 0o002000)] [(0o002000, 0o123456)]) = .ok v s1 ∧
    s1.ramWord (s1.reg .pc) = true :=
  okWith_spec (by decide +kernel)

/-- Source read, nothing at PC. -/
theorem witness_pair_register_no_reply : ∃ v s1,
    readOpWord (.mem .autoInc .r1) (holed 0 [(.r1, 0o002000), (.pc, 0o160000)] []) = .ok v s1 ∧
    s1.noReply (s1.reg .pc) = true :=
  okWith_spec (by decide +kernel)

theorem witness_pair_memory : ∃ v s1,
    readOpWord (.mem .autoInc .r1) (ready 0 [(.r1, 0o002000)] [(0o002000, 0o123456)]) = .ok v s1 ∧
    okWith (effAddr .autoDec .r1 .word s1) (fun a s2 => s2.ramWord a && s2.mem.wf) = true :=
  okWith_spec (by decide +kernel)

theorem witness_pair_source_timeout : ∃ k s1,
    readOpWord (.mem .autoDec .r1) (holed 0 [(.r1, 0o177700)] []) = .abort (.timeout k) s1 :=
  timesOut_spec (by decide +kernel)

theorem witness_pair_address_timeout : ∃ v s1,
    readOpWord (.reg .r0) (holed 0 [(.r1, 0o160000)] []) = .ok v s1 ∧
    timesOut (effAddr .autoIncDef .r1 .word s1) = true :=
  okWith_spec (by decide +kernel)

theorem witness_pair_no_reply : ∃ v s1,
    readOpWord (.reg .r0) (holed 0 [(.r1, 0o160000)] []) = .ok v s1 ∧
    okWith (effAddr .deferred .r1 .word s1) (fun a s2 => s2.noReply a) = true :=
  okWith_spec (by decide +kernel)

/-- A machine with a device at 160000 that pulls nVIRQ when it is read and lets it go when it is written. -/
def wired (rs : List (Reg × Word)) : State :=
  withSlave (ready 0 rs []) 0o160000 0o160000 (.device [.virq true] [.virq false])

/-- At the address `a` the device of `wired` answers. -/
def deviceAt (a : Word) (s : State) : Bool :=
  s.quiet && !s.ownBlock a && (s.chipAt a).isNone && s.slaveAt a == .device [.virq true] [.virq false]

theorem witness_MovWritesSource_device : ∃ v s1,
    readOpWord (.reg .r0) (wired [(.r1, 0o160000)]) = .ok v s1 ∧
    okWith (effAddr .autoInc .r1 .word s1) (fun a s2 => deviceAt a s2 && !isOdd a) = true :=
  okWith_spec (by decide +kernel)

theorem witness_MovbExtendsOrStoresByte_device : ∃ v s1,
    readOpByte (.reg .r0) (wired [(.r1, 0o160002)]) = .ok v s1 ∧
    okWith (effAddr .autoDec .r1 .byte s1) (fun a s2 => deviceAt a s2 && isOdd a) = true :=
  okWith_spec (by decide +kernel)

/-- The same for bytes: BytePair, BytePairTest and MOVB. -/
theorem witness_byte_pair_register : ∃ v s1,
    readOpByte (.mem .autoInc .r1) (ready 0 [(.r1, 0o002001)] [(0o002000, 0o123456)]) = .ok v s1 ∧
    s1.ramWord (s1.reg .pc) = true :=
  okWith_spec (by decide +kernel)

theorem witness_byte_pair_register_no_reply : ∃ v s1,
    readOpByte (.mem .autoInc .r1) (holed 0 [(.r1, 0o002001), (.pc, 0o160000)] []) = .ok v s1 ∧
    s1.noReply (s1.reg .pc) = true :=
  okWith_spec (by decide +kernel)

theorem witness_byte_pair_memory : ∃ v s1,
    readOpByte (.mem .autoInc .r1) (ready 0 [(.r1, 0o002001)] [(0o002000, 0o123456)]) = .ok v s1 ∧
    okWith (effAddr .autoDec .r1 .byte s1) (fun a s2 => s2.ramByte a && s2.mem.wf) = true :=
  okWith_spec (by decide +kernel)

theorem witness_byte_pair_source_timeout : ∃ k s1,
    readOpByte (.mem .deferred .r1) (holed 0 [(.r1, 0o160001)] []) = .abort (.timeout k) s1 :=
  timesOut_spec (by decide +kernel)

theorem witness_byte_pair_address_timeout : ∃ v s1,
    readOpByte (.reg .r0) (holed 0 [(.r1, 0o160002)] []) = .ok v s1 ∧
    timesOut (effAddr .autoDecDef .r1 .byte s1) = true :=
  okWith_spec (by decide +kernel)

theorem witness_byte_pair_no_reply : ∃ v s1,
    readOpByte (.reg .r0) (holed 0 [(.r1, 0o160001)] []) = .ok v s1 ∧
    okWith (effAddr .deferred .r1 .byte s1) (fun a s2 => s2.noReply a) = true :=
  okWith_spec (by decide +kernel)

/-- MUL on ВМ1Г with the most negative product that does not fit a word, under both choices for N, Z, V. -/
theorem witness_MulProductOnVm1g : ∃ v s1,
    readOpWord (.reg .r2) (readyG 0 [(.r0, 0o100000), (.r2, 0o077777)] []) = .ok v s1 ∧
    (s1.cfg.variant == .vm1g && s1.cfg.mulNzv == .product && (s1.reg .r0).toInt * v.toInt == -1073709056) = true :=
  okWith_spec (by decide +kernel)

theorem witness_MulProductOnVm1g_timeout : (holed 0 [] []).cfg.variant = .vm1a ∧
    ∃ s s1 : State, ∃ k, s.cfg.variant = .vm1g ∧ readOpWord (.mem .deferred .r1) s = .abort (.timeout k) s1 := by
  refine ⟨by decide +kernel, ?_⟩
  obtain ⟨k, t, h⟩ := timesOut_spec (x := readOpWord (.mem .deferred .r1)
    { holed 0 [(.r1, 0o160000)] [] with cfg := { Config.default with variant := .vm1g } }) (by decide +kernel)
  exact ⟨_, t, k, by decide +kernel, h⟩

theorem witness_MulIllegalOnVm1a : nopNext.cfg.variant = .vm1a ∧ NoError nopNext ∧ UserRoom nopNext 0o10 := by
  unfold NoError UserRoom; decide +kernel

/-- The lowest and highest words and bytes of RAM, and a hole. -/
theorem witness_RamTransactions :
    nopNext.mem.wf = true ∧ nopNext.ramWord 0 = true ∧ nopNext.ramWord 0o177776 = true ∧
    nopNext.ramByte 0o177777 = true ∧ (holed 0 [] []).mem.wf = true ∧ (holed 0 [] []).noReply 0o160000 = true ∧
    (holed 0 [] []).noReply 0o177677 = true := by
  decide +kernel

/-- An odd address of RAM, under each policy. -/
theorem witness_SlavesOfThePlatform_odd : calm.quiet = true ∧ calm.mem.wf = true ∧ calm.isRam 0o177777 = true ∧ isOdd 0o177777 = true ∧
    ∀ p ∈ [OddWordPolicy.refuse, .ignoreBit0, .platform], ∃ s : State, s.quiet = true ∧ s.isRam 1 = true ∧ s.cfg.oddWord = p := by
  refine ⟨by decide +kernel, by decide +kernel, by decide +kernel, by decide, fun p _ => ⟨{ calm with cfg := { calm.cfg with oddWord := p } }, ?_⟩⟩
  cases p <;> decide +kernel

theorem witness_SlavesOfThePlatform_rom : ∀ b : Bool, ∃ s : State, s.quiet = true ∧ s.ownBlock 0o140000 = false ∧
    s.chipAt 0o140000 = none ∧ s.slaveAt 0o140000 = .rom b :=
  fun b => ⟨withSlave calm 0o140000 0o157777 (.rom b), by cases b <;> decide +kernel⟩

theorem witness_SlavesOfThePlatform_device :
    IsDevice (wired []) 0o160000 [.virq true] [.virq false] ∧ isOdd 0o160000 = false := by
  unfold IsDevice; decide +kernel

/-- The chip number 3 beside the chip number 0, with a request in its CPU_IVEC or without. -/
theorem witness_SlavesOfThePlatform_chip : ∀ req : Bool, ∃ (s : State) (c : Chip), s.quiet = true ∧
    c.cfg.ncpu ≠ s.cfg.ncpu ∧ s.chipAt (chipAddr c.cfg.ncpu 0 true) = some c ∧ c.cfg.timerAlive = true ∧
    c.timer.window = 0 ∧ c.cfg.sel1Kind = .register ∧ c.cfg.sel2Kind = .register ∧ c.per.ivecReq = req := by
  intro req
  let c : Chip := { cfg := { Config.default with ncpu := 3 }, per := { Peripheral.clear with ivecReq := req },
                    timer := calm.timer, sel1 := 0, sel2 := 0 }
  exact ⟨{ calm with plat := { calm.plat with chips := [c] } }, c, by cases req <;> decide +kernel⟩

theorem witness_PeripheralReads :
    calm.quiet = true ∧ calm.cfg.timerAlive = true ∧ calm.timer.window = 0 ∧ calm.cfg.sel1Kind = .register ∧
    calm.cfg.sel2Kind = .register ∧ calm.per.ivecReq = false := by
  decide +kernel

/-- The same with a request in CPU_IVEC: of `PeripheralReads` and `PeripheralWrites`. -/
theorem witness_Peripheral_ivec : ∃ s : State,
    s.quiet = true ∧ s.cfg.timerAlive = true ∧ s.timer.window = 0 ∧ s.cfg.sel1Kind = .register ∧
    s.cfg.sel2Kind = .register ∧ s.per.ivecReq = true :=
  ⟨{ calm with per := { calm.per with ivecReq := true } }, by decide +kernel⟩

theorem witness_PeripheralWrites : calm.quiet = true ∧ calm.cfg.timerAlive = true ∧ calm.initLine = false ∧
    calm.per.errFlags &&& 0o040 = 0 ∧ (calm.setInit true).quiet = true ∧ (calm.setInit true).cfg.timerAlive = true ∧
    (calm.setInit true).initLine = true := by
  decide +kernel

/-- Stopped, counting nSP, and counting each of the four clocks. -/
theorem witness_ClocksAreSinglePeriods : ∀ csr ∈ [(0o000 : Byte), 0o021, 0o020, 0o060, 0o120, 0o160],
    ((csr.getLsbD 4 = false ∨ csr.getLsbD 0 = true) ∨ (csr.getLsbD 4 = true ∧ csr.getLsbD 0 = false)) ∧
    countPeriod { calm.timer with csr := csr } ∈ [128, 512, 2048, 8192] := by
  decide

theorem witness_TimerTick :
    (calm.timer.count ≠ 1) ∧
    (∃ t : Timer, t.count = 1 ∧ t.csr.getLsbD 1 = true) ∧ (∃ t : Timer, t.count = 1 ∧ t.csr.getLsbD 1 = false) :=
  ⟨by decide, ⟨{ calm.timer with count := 1, csr := 2 }, by decide⟩, ⟨{ calm.timer with count := 1 }, by decide⟩⟩

/-- A level that stays, and a falling edge under each choice of RUN, CAP and SP. -/
theorem witness_TimerTick_edge : calm.plat.pins.spLow = false ∧ (calm.setSp true).plat.pins.spLow = true ∧
    ∀ csr ∈ [(0o020 : Byte), 0o021, 0o022, 0o023, 0o000, 0o002], ∃ s : State, s.plat.pins.spLow = false ∧ s.timer.csr = csr :=
  ⟨by decide, by decide, fun csr _ => ⟨{ calm with timer := { calm.timer with csr := csr } }, rfl, rfl⟩⟩

end Sys2Proof.Tests
end

section
/-! What one instruction leaves as it was: every instruction but WAIT keeps what `Halted` says, because its activity is
calm; and from there no step changes the parameters of the machine (R11). -/

namespace Sys2Proof.Machine

/-! ### The parts of single instructions -/

/-- The source register of MTPS under `MTPS_CLEARS_SRC_BIT4` (R300). -/
theorem steady_mtpsSource (s : State) (r : Reg) : Steady s (s.mtpsSource r) := by
  unfold State.mtpsSource
  split
  · exact steady_setReg _ _ _
  · exact .refl s

/-- The branch of SOB, taken or not (R234). -/
theorem steady_loopBack (s : State) (r : Reg) (uu : BitVec 6) : Steady s (s.loopBack r uu) := by
  unfold State.loopBack
  split
  · exact .refl s
  · exact steady_setReg _ _ _

/-- SP and PC as MARK sets them (R233). -/
theorem steady_markFrame (s : State) (nn : BitVec 6) : Steady s (s.markFrame nn) :=
  (steady_setReg s .sp _).trans (steady_setReg _ .pc _)

/-- The register pair of MUL (R330). -/
theorem steady_putProduct (s : State) (r : Reg) (p : Int) : Steady s (s.putProduct r p) :=
  (steady_setReg s r _).trans (steady_setReg _ (Reg.orOne r) _)

/-- The flags of MUL, free ones too (R332). -/
theorem steady_mulCc (s : State) (p : Int) : Steady s (s.mulCc p) := by
  unfold State.mulCc
  split
  · exact steady_setCc _ _
  · exact (steady_setCc s _).trans (steady_of rfl rfl id rfl rfl id (.inl ⟨rfl, id⟩) rfl rfl id)

/-- MCIR after MUL (R331). -/
theorem steady_mulMcir (s : State) (m : Word) : Steady s (s.mulMcir m) := by
  unfold State.mulMcir
  split
  · exact .refl s
  · exact steady_micro s (s.setMcir 0b110).micro rfl

/-- MCIR and VSEL of the trap that RTI raises (R213). -/
theorem steady_trapAs (s : State) (v : Vsel) : Steady s (s.trapAs v) := steady_micro s (s.trapAs v).micro rfl

/-- EMT's clear of the request flip-flop of CPU_IVEC (R221). -/
theorem steady_clearIvec (s : State) : Steady s s.clearIvec :=
  steady_of rfl rfl id rfl rfl id (.inl ⟨rfl, id⟩) rfl rfl id

/-- What RESET does to the machine (R216, D27). -/
def State.afterReset (s : State) : State := (s.peripheralReset.pulseInit.advance 448).releaseInit.setMcir 0b110

theorem execReset_eq (s : State) : execReset s = finish false (.ok () s.afterReset) := rfl

/-- RESET leaves nINIT where nDCLO has it, and the control of every timer reset (R216, R399, R430). -/
theorem initHeld_afterReset (s : State) : InitHeld s.afterReset := by
  refine ⟨rfl, fun _ => ⟨csr_clocks 448 s.timer.init rfl, fun c hc => ?_⟩⟩
  obtain ⟨d, hd, rfl⟩ := List.mem_map.1 hc
  obtain ⟨e, _, rfl⟩ := List.mem_map.1 hd
  exact csr_clocks 448 _ rfl

theorem steady_afterReset (s : State) : Steady s s.afterReset :=
  ⟨⟨rfl, id, id, id, window_clocks 448 s.timer.init, id, id, fun _ => initHeld_afterReset s⟩, id⟩

/-- The call of JSR (R232). -/
theorem calm_call (r : Reg) (a : Word) (s : State) : Calm s (call r a s) :=
  calm_andThen (calm_push _ _) fun _ t => (steady_setReg t r _).trans (steady_setReg _ .pc _)

/-! ### Outcomes -/

/-- The next state, where there is one, keeps what `Halted` says. -/
def Keeps (s : State) (o : Host.Outcome State Fault Refusal) : Prop := ∀ t, o = .next t → Halted s t

theorem keeps_finish {b : Bool} {s : State} {r : Res Unit} (c : Calm s r) : Keeps s (finish b r) :=
  fun _ h => finish_halted c h

/-- A branch, taken or not (R250). -/
theorem keeps_branchIf (c : Bool) (bb : BitVec 8) (s : State) : Keeps s (branchIf c bb s) := by
  refine keeps_finish ?_
  cases c
  · exact calm_ok () s
  · exact steady_setReg _ _ _

/-- A condition-code instruction that clears flags (R240). -/
theorem keeps_clear (m : BitVec 4) (s : State) : Keeps s (changeCc (fun s => s.clearCc m) s) :=
  keeps_finish ((steady_clearCc s m).calm (calm_prefetchNext _))

/-- A condition-code instruction that sets flags (R240). -/
theorem keeps_raise (m : BitVec 4) (s : State) : Keeps s (changeCc (fun s => s.raiseCc m) s) :=
  keeps_finish ((steady_raiseCc s m).calm (calm_prefetchNext _))

/-- RTI returns, and a popped T traps (R213). -/
theorem keeps_rti (s : State) : Keeps s (execRti s) := by
  refine keeps_finish (calm_andThen (calm_popPcPsw s) fun _ t => ?_)
  split
  · exact (steady_trapAs t .tBit).calm (calm_userEntry _ _ _)
  · exact calm_ok () t

/-- RESET completes in one state (R216). -/
theorem keeps_reset (s : State) : Keeps s (execReset s) := by
  rw [execReset_eq]
  exact keeps_finish (steady_afterReset s)

/-- JMP traps on a register and jumps elsewhere (R230). -/
theorem keeps_jmp (dd : Operand) (s : State) : Keeps s (execJmp dd s) := by
  cases dd with
  | reg r => exact keeps_finish (calm_userEntry _ _ _)
  | mem m r => exact keeps_finish (calm_andThen (calm_effAddr _ _ _ _) fun _ _ => steady_setReg _ _ _)

/-- JSR traps on a register and calls elsewhere (R232). -/
theorem keeps_jsr (r : Reg) (dd : Operand) (s : State) : Keeps s (execJsr r dd s) := by
  cases dd with
  | reg r => exact keeps_finish (calm_userEntry _ _ _)
  | mem m rd => exact keeps_finish (calm_andThen (calm_effAddr _ _ _ _) fun _ _ => calm_call _ _ _)

/-- RTS pops into the link register (R231). -/
theorem keeps_rts (r : Reg) (s : State) : Keeps s (execRts r s) :=
  keeps_finish (calm_andThen (calm_waitsAt (by decide) (calm_setReg (calm_pop _))) fun _ _ => steady_setReg _ _ _)

/-- MARK pops into R5 from the frame it names (R233). -/
theorem keeps_mark (nn : BitVec 6) (s : State) : Keeps s (execMark nn s) :=
  keeps_finish (calm_andThen (calm_waitsAt (by decide) ((steady_markFrame s nn).calm (calm_pop _)))
    fun _ _ => steady_setReg _ _ _)

/-- SOB counts a register down (R234). -/
theorem keeps_sob (r : Reg) (uu : BitVec 6) (s : State) : Keeps s (execSob r uu s) :=
  keeps_finish (r := .ok () _) ((steady_setReg s r _).trans (steady_loopBack _ r uu))

/-- MUL is illegal on ВМ1А and multiplies on ВМ1Г (R163, R330). -/
theorem keeps_mul (r : Reg) (ss : Operand) (s : State) : Keeps s (execMul r ss s) := by
  unfold execMul
  split
  · exact fun _ h => raiseIllegal_halted h
  · exact keeps_finish (calm_andThen (calm_readOpWord _ _) fun _ t =>
      ((steady_putProduct t r _).trans (steady_mulCc _ _)).trans (steady_mulMcir _ _))

/-- MTPS loads PSW from a register, or from a byte of memory (R300). -/
theorem keeps_mtps (ss : Operand) (s : State) : Keeps s (execMtps ss s) := by
  cases ss with
  | reg r =>
    exact keeps_finish (((steady_mtpsSource s r).trans (steady_loadPswMtps _ _)).calm (calm_discardedAt _ _))
  | mem m r =>
    exact keeps_finish (calm_andThen (calm_effAddr _ _ _ _) fun _ _ => calm_andThen (calm_readByte _ _)
      fun _ _ => steady_loadPswMtps _ _)

/-- MFPS stores the low byte of PSW in a register, or in memory (R301). -/
theorem keeps_mfps (dd : Operand) (s : State) : Keeps s (execMfps dd s) := by
  cases dd with
  | reg r => exact keeps_finish (calm_storeByte _ _ _ _ _)
  | mem m r => exact keeps_finish (calm_modifyByte _ _ _ _)

/-- Every instruction keeps what `Halted` says, but for WAIT, which starts to wait (R211). -/
theorem exec_keeps {i : Instr} (hw : i ≠ .wait) (s : State) : Keeps s (exec i s) := by
  cases i with
  | wait => exact absurd rfl hw
  | halt => exact keeps_finish (calm_pultEntry _ _ _)
  | bpt | iot | trap nn => exact keeps_finish (calm_userEntry _ _ _)
  | emt nn => exact keeps_finish ((steady_clearIvec s).calm (calm_userEntry _ _ _))
  | rti => exact keeps_rti s
  | rtt => exact keeps_finish (calm_andThen (calm_popPcPsw s) fun _ t => steady_skipPoll t)
  | reset => exact keeps_reset s
  | start x => exact keeps_finish (calm_pultReturn s)
  | step x => exact keeps_finish (calm_andThen (calm_pultReturn s) fun _ t => steady_skipPoll t)
  | jmp dd => exact keeps_jmp dd s
  | jsr r dd => exact keeps_jsr r dd s
  | rts r => exact keeps_rts r s
  | mark nn => exact keeps_mark nn s
  | sob r uu => exact keeps_sob r uu s
  | clx m => exact keeps_clear m s
  | nop | clc | clv | clz | cln | ccc => exact keeps_clear _ s
  | sex m => exact keeps_raise m s
  | nopSet | sec | sev | sez | sen | scc => exact keeps_raise _ s
  | br bb | bne bb | beq bb | bge bb | blt bb | bgt bb | ble bb | bpl bb | bmi bb | bhi bb | blos bb | bvc bb | bvs bb
  | bcc bb | bcs bb | bhis bb | blo bb => exact keeps_branchIf _ bb s
  | swab dd | clr dd | com dd | inc dd | dec dd | neg dd | adc dd | sbc dd | ror dd | rol dd | asr dd | asl dd | sxt dd
  | xor r dd => exact keeps_finish (calm_modifyWord _ dd _ s)
  | tst dd => exact keeps_finish (calm_testWord _ dd _ s)
  | clrb dd | comb dd | incb dd | decb dd | negb dd | adcb dd | sbcb dd | rorb dd | rolb dd | asrb dd | aslb dd =>
    exact keeps_finish (calm_modifyByte _ dd _ s)
  | tstb dd => exact keeps_finish (calm_testByte _ dd _ s)
  | mtps ss => exact keeps_mtps ss s
  | mfps dd => exact keeps_mfps dd s
  | mov ss dd => exact keeps_finish (calm_andThen (calm_readOpWord ss s) fun _ _ => calm_storeWord _ dd _ _ _)
  | movb ss dd => exact keeps_finish (calm_andThen (calm_readOpByte ss s) fun _ _ => calm_storeByte _ dd _ _ _)
  | cmp ss dd | bit ss dd =>
    exact keeps_finish (calm_andThen (calm_readOpWord ss s) fun _ _ => calm_testWord _ dd _ _)
  | bic ss dd | bis ss dd | add ss dd | sub ss dd =>
    exact keeps_finish (calm_andThen (calm_readOpWord ss s) fun _ _ => calm_modifyWord _ dd _ _)
  | cmpb ss dd | bitb ss dd =>
    exact keeps_finish (calm_andThen (calm_readOpByte ss s) fun _ _ => calm_testByte _ dd _ _)
  | bicb ss dd | bisb ss dd =>
    exact keeps_finish (calm_andThen (calm_readOpByte ss s) fun _ _ => calm_modifyByte _ dd _ _)
  | mul r ss => exact keeps_mul r ss s

/-! ### The parameters -/

theorem Halted.cfg {s t : State} (h : Halted s t) : t.cfg = s.cfg := h.kept.cfg

theorem Steady.cfg {s t : State} (h : Steady s t) : t.cfg = s.cfg := h.kept.cfg

/-- WAIT completes in one state (R211). -/
theorem exec_wait (s : State) : exec .wait s = .next ((s.setReg .pc (s.reg .pc + 2)).wait.retire false) := rfl

theorem exec_cfg {i : Instr} {s t : State} (h : exec i s = .next t) : t.cfg = s.cfg := by
  by_cases hw : i = .wait
  · subst hw
    rw [exec_wait] at h
    cases h
    rfl
  · exact (exec_keeps hw s t h).cfg

/-- The word in IR, legal or not (R27, R342). -/
theorem execWord_cfg {s t : State} (h : execWord s = .next t) : t.cfg = s.cfg := by
  unfold execWord at h
  split at h
  · exact (exec_cfg h).trans (steady_steer s _).cfg
  · exact (raiseIllegal_halted h).cfg

theorem onAnswer_cfg {a : Answer} {s t : State} (h : onAnswer a s = .next t) : t.cfg = s.cfg := by
  unfold onAnswer at h
  split at h
  · cases h; rfl
  · split at h
    · cases h
    · exact execWord_cfg h
  · exact (conclude_halted (calm_enter a s) h).cfg

/-- The dispatch, with or without a poll (R27, R29). -/
theorem dispatch_cfg {s t : State} (h : dispatch s = .next t) : t.cfg = s.cfg := by
  simp only [dispatch] at h
  split at h
  · exact (onAnswer_cfg h).trans (steady_poll s.takeIr).cfg
  · exact (execWord_cfg h).trans rfl

theorem afterFetch_cfg {s t : State} (h : afterFetch s = .next t) : t.cfg = s.cfg := by
  unfold afterFetch at h
  split at h
  · cases h; rfl
  · exact dispatch_cfg h

/-- The step of the processor block: held, stopped, an entry repeated, a dispatch, or a fetch and what follows where it
completes or is cut short (R27, R372, R410). -/
theorem cycle_cfg {s t : State} (h : cycle s = .next t) : t.cfg = s.cfg := by
  unfold cycle at h
  split_ifs at h
  · cases h; rfl
  · cases h; rfl
  · exact (lastAttempt_halted h).cfg
  · exact dispatch_cfg h
  · have c := calm_fetch s
    split at h <;> rename_i e <;> rw [e] at c
    · exact (afterFetch_cfg h).trans (Steady.cfg c)
    · exact (conclude_halted c h).cfg

/-- Settles O8: what the environment does keeps the parameters (`Acted`), and so does each way the processor block can
take its step. -/
theorem stepKeepsConfig : Obligations.StepKeepsConfig := by
  intro s t h
  have acted := acted_takeInputs s
  simp only [step, fullStep] at h
  split at h <;> rename_i e <;> rw [e] at acted
  · exact (cycle_cfg h).trans acted.cfg
  · obtain ⟨_, rfl⟩ := takeInputs_abort e
    cases h

end Sys2Proof.Machine
end

section
/-! The invariant of the machine is kept by every step (O6): what the environment does keeps it (`Acted.sound`), and so does
each way the processor block can take its step. What every activity keeps (`Formed`) follows from `Kept`; that nothing waits
without a word to poll over (`Waits`) turns on how an entry is cut short (`Awake`). -/

namespace Sys2Proof.Machine

/-! ### A hardware reset among the next actions -/

/-- After a list of actions with a fall of nDCLO in it nothing waits (R382, R430). -/
theorem applyEvents_reset (l : List Event) : ∀ {s t : State} {u : Unit}, applyEvents l s = .ok u t → .dclo true ∈ l →
    s.plat.pins.dcloLow = false → t.seq.waiting = false := by
  induction l with
  | nil => intro s t u _ hm; cases hm
  | cons e rest ih =>
    intro s t u h hm hd
    obtain ⟨_, s1, h1, h2⟩ := andThen_eq_ok.1 h
    by_cases he : e = .dclo true
    · subst he
      have w : s1.seq.waiting = false := by
        cases h1
        rw [(outside_holdReset _).2]
        simp only [State.setDclo, hd]
        rfl
      have g := acted_events rest s1
      rw [h2] at g
      exact g.still w
    · have g := outside_event he s
      rw [h1] at g
      refine ih h2 ?_ (g.dclo hd)
      exact (List.mem_cons.1 hm).resolve_left (Ne.symm he)

/-- Where the next actions bring a hardware reset nothing waits after them. -/
theorem takeInputs_reset {s t : State} {u : Unit} (h : takeInputs s = .ok u t) (hr : s.resetComes = true)
    (hd : s.plat.pins.dcloLow = false) : t.seq.waiting = false := by
  unfold takeInputs at h
  split at h
  · rename_i hi
    simp [State.resetComes, hi] at hr
  · rename_i now later hi
    refine applyEvents_reset now h ?_ hd
    simpa [State.resetComes, hi] using hr

/-! ### No transaction is ended by a reset of its own -/

theorem readPreg_ne_reset (p : PReg) (s t : State) : readPreg p s ≠ .abort .reset t := by
  unfold readPreg; repeat' split
  all_goals simp

theorem writePreg_ne_reset (p : PReg) (w : Word) (s t : State) : writePreg p w s ≠ .abort .reset t := by
  unfold writePreg; split <;> simp

theorem extReadWord_ne_reset (a : Word) (s t : State) : extReadWord a s ≠ .abort .reset t := by
  unfold extReadWord; repeat' split
  all_goals simp

theorem extWriteWord_ne_reset (a w : Word) (s t : State) : extWriteWord a w s ≠ .abort .reset t := by
  unfold extWriteWord; repeat' split
  all_goals simp

theorem decoded_ne_reset {α : Type} {a : Word} {block ext : State → Res α} {s : State}
    (hb : ∀ s t, block s ≠ .abort .reset t) (he : ∀ t, ext s ≠ .abort .reset t) (t : State) :
    decoded a block ext s ≠ .abort .reset t := by
  unfold decoded
  split
  · exact hb s t
  · split
    · unfold chipAccess
      split
      · simp
      · rename_i e
        intro h
        cases h
        exact hb _ _ e
    · exact he t

theorem busReadWord_ne_reset (a : Word) (s t : State) : busReadWord a s ≠ .abort .reset t :=
  decoded_ne_reset (readPreg_ne_reset _) (extReadWord_ne_reset _ _) t

theorem busWriteWord_ne_reset (a w : Word) (s t : State) : busWriteWord a w s ≠ .abort .reset t :=
  decoded_ne_reset (writePreg_ne_reset _ _) (extWriteWord_ne_reset _ _ _) t

/-! ### What a cut leaves waiting -/

/-- An activity of a processor block that is not held: it goes on, or times out, with the block still not held, and where a
hardware reset or a hang of the bus ends it nothing waits any more (R81, R382, R449). -/
def Awake {α : Type} (r : Res α) : Prop :=
  match r with
  | .ok _ t => t.held = false
  | .abort (.timeout _) t => t.held = false
  | .abort .reset t => t.seq.waiting = false
  | .abort (.hang _) t => t.seq.waiting = false
  | .abort (.refused _) _ => True

/-- Only nDCLO and a bus that hangs hold the processor block (R431, R449). -/
theorem held_eq_false_iff {s : State} : s.held = false ↔ s.plat.pins.dcloLow = false ∧ s.seq.hung = false := by
  simp [State.held]

theorem awake_andThen {α β : Type} {r : Res α} {k : α → State → Res β} (h : Awake r)
    (g : ∀ a t, t.held = false → Awake (k a t)) : Awake (r.andThen k) := by
  cases r with
  | ok a t => exact g a t h
  | abort e t => cases e <;> exact h

theorem awake_waitsAt {α : Type} {ma : BitVec 7} {r : Res α} (h : Awake r) : Awake (waitsAt ma r) := by
  cases r with
  | ok a t => exact h
  | abort e t => cases e <;> exact h

theorem Outside.held {s t : State} (h : Outside s t) (hq : t.seq = s.seq) (hs : s.held = false) : t.held = false := by
  obtain ⟨hd, hh⟩ := held_eq_false_iff.1 hs
  exact held_eq_false_iff.2 ⟨h.dclo hd, by rw [hq]; exact hh⟩

theorem awake_tenure {s : State} (hs : s.held = false) : Awake (tenure s) := by
  obtain ⟨hd, hh⟩ := held_eq_false_iff.1 hs
  cases h : tenure s with
  | ok u t => exact (tenure_ok h).1.held (tenure_ok h).2 hs
  | abort a t =>
    rcases tenure_abort h with ⟨rfl, _⟩ | ⟨rfl, g, ht⟩ | ⟨r, rfl⟩
    · rcases andThen_eq_abort.1 h with h1 | ⟨_, s1, h1, h2⟩
      · obtain ⟨r, hr⟩ := takeInputs_abort h1
        cases hr
      · split at h2
        · rename_i hr
          cases h2
          exact takeInputs_reset h1 hr hd
        · split at h2 <;> cases h2
    · rcases g.seq with e | e
      · rw [e, hh] at ht; cases ht
      · show t.seq.waiting = false
        rw [e]; rfl
    · trivial

/-- What one transaction on the bus leaves, where no reset of its own ends it. -/
theorem OnBus.awake {α : Type} {s : State} {r : Res α} (h : OnBus s r) (hr : ∀ t, r ≠ .abort .reset t)
    (hs : s.held = false) : Awake r := by
  cases r with
  | ok a t => exact h.1.held h.2 hs
  | abort e t =>
    cases e with
    | reset => exact absurd rfl (hr t)
    | hang b => show t.seq.waiting = false; rw [show t = s.hang from h]; rfl
    | timeout k => show t.held = false; rw [show t = s from h]; exact hs
    | refused r => trivial

theorem awake_transact {α : Type} {op : BusOp} {a : Word} {k : State → Res α} {s : State}
    (h : ∀ t, t.held = false → Awake (k t)) (hs : s.held = false) : Awake (transact op a k s) :=
  awake_andThen (awake_tenure (s := s.latch op a) hs) fun _ t ht => h t ht

theorem awake_readToQ {r : Res Word} (h : Awake r) : Awake (readToQ r) := awake_andThen h fun _ _ ht => ht

theorem awake_busRead (a : Word) {s : State} (hs : s.held = false) : Awake (readToQ (busReadWord a s)) :=
  awake_readToQ ((onBus_busReadWord a s).awake (busReadWord_ne_reset a s) hs)

theorem awake_busWriteWord (a w : Word) {s : State} (hs : s.held = false) : Awake (busWriteWord a w s) :=
  (onBus_busWriteWord a w s).awake (busWriteWord_ne_reset a w s) hs

theorem awake_readWord (a : Word) {s : State} (hs : s.held = false) : Awake (readWord a s) :=
  awake_transact (fun _ ht => awake_busRead a ht) hs

theorem awake_writeWord (a w : Word) {s : State} (hs : s.held = false) : Awake (writeWord a w s) :=
  awake_transact (s := s.setQ w) (fun _ ht => awake_busWriteWord a w ht) hs

theorem awake_setPultBit (on : Bool) {s : State} (hs : s.held = false) : Awake (setPultBit on s) :=
  awake_transact (fun _ ht => awake_andThen (awake_busRead _ ht) fun _ u hu =>
    awake_andThen (awake_busWriteWord _ _ (s := u.setQ _) hu) fun _ _ hv => hv) hs

/-! ### Entries that are cut short -/

theorem awake_push (w : State → Word) {s : State} (hs : s.held = false) : Awake (push w s) := awake_writeWord _ _ hs

theorem awake_takeAck {s : State} (hs : s.held = false) : Awake (takeAck s) := by
  unfold takeAck
  split
  · exact hs
  · split
    · exact (rfl : (State.hang _).seq.waiting = false)
    · exact hs

theorem awake_vectorOf (v : Vsel) {s : State} (hs : s.held = false) : Awake (vectorOf v s) := by
  unfold vectorOf
  split
  · exact awake_waitsAt (awake_andThen (awake_tenure (s := s.latchOp .ackRead) hs) fun _ _ ht =>
      awake_readToQ (awake_takeAck ht))
  · exact hs

theorem awake_savesPc (v : Vsel) {r : Res Unit} (h : Awake r) : Awake (savesPc v r) := by
  unfold savesPc
  split
  · exact awake_waitsAt h
  · split <;> exact h

theorem held_correctPc (b : Bool) {s : State} (hs : s.held = false) : (s.correctPc b).held = false := by
  cases b <;> exact hs

theorem awake_loadVector (whole : Bool) (va : Word) {s : State} (hs : s.held = false) : Awake (loadVector whole va s) :=
  awake_andThen (awake_waitsAt (awake_readWord _ hs)) fun _ _ ht =>
    awake_andThen (awake_waitsAt (awake_readWord _ (s := State.setReg _ _ _) ht)) fun _ _ hu => by cases whole <;> exact hu

theorem awake_userEntry (v : Vsel) (correct : Bool) {s : State} (hs : s.held = false) : Awake (userEntry v correct s) :=
  awake_andThen (awake_waitsAt (awake_push _ hs)) fun _ _ ht =>
    awake_andThen (awake_savesPc v (awake_push _ (held_correctPc correct ht))) fun _ _ hu =>
      awake_andThen (awake_vectorOf v hu) fun _ _ hw => awake_loadVector _ _ hw

theorem awake_pultEntry (v : Vsel) (correct : Bool) {s : State} (hs : s.held = false) : Awake (pultEntry v correct s) :=
  awake_andThen (awake_waitsAt (awake_setPultBit true hs)) fun _ _ ht =>
    awake_andThen (awake_waitsAt (awake_writeWord _ _ ht)) fun _ _ hu =>
      awake_andThen (awake_savesPc v (awake_writeWord _ _ (held_correctPc correct hu))) fun _ x hw =>
        awake_loadVector true _ (s := x.showVector v) hw

theorem awake_initialStart {s : State} (hs : s.held = false) : Awake (initialStart s) :=
  awake_andThen (awake_waitsAt (awake_readWord _ hs)) fun _ _ ht => ht

/-- An entry that a poll names (R27). -/
theorem awake_enter (a : Answer) {s : State} (hs : s.held = false) : Awake (enter a s) := by
  unfold enter
  split
  · exact awake_pultEntry _ _ hs
  · exact awake_pultEntry _ _ hs
  · exact awake_userEntry _ _ hs
  · exact awake_userEntry _ _ hs
  · exact awake_initialStart hs
  · exact awake_initialStart hs
  · exact hs

/-- The fetch of an instruction word (R27, R28). -/
theorem awake_fetch {s : State} (hs : s.held = false) : Awake (fetch s) := by
  unfold fetch
  split
  · exact hs
  · exact awake_andThen (awake_waitsAt (awake_readWord _ (s := State.setReg _ _ _) hs)) fun _ _ ht => ht

/-! ### What waits after an entry -/

/-- A waiting processor polls over a word in IR, or has an entry to repeat (R211, R372). -/
def Waits (s : State) : Prop :=
  s.seq.waiting = true → s.seq.pollEnabled = true ∧ (s.seq.irLoaded = true ∨ s.seq.retry = true)

theorem waits_of_still {s : State} (h : s.seq.waiting = false) : Waits s := fun w => by rw [h] at w; cases w

/-- A poll does not hold the processor block. -/
theorem held_poll (s : State) : (poll s).2.held = s.held := by
  show ((s.rearm (matrix s).rearm).plat.pins.dcloLow || (s.rearm (matrix s).rearm).seq.hung) = _
  obtain ⟨_, _, hp, _, _, hq, _⟩ := rearm_frame s (matrix s).rearm
  rw [hp, hq, State.held]

/-- A completed entry ends the wait; where nothing is entered the word in IR is polled over (R27, R211). -/
theorem waits_enter {a : Answer} {s t : State} (hp : s.seq.waiting = true → s.seq.pollEnabled = true)
    (h : enter a s = .ok () t) : Waits t := by
  rcases enter_seq h with w | q
  · exact waits_of_still w
  · unfold Waits
    rw [q]
    exact fun w => ⟨hp w, .inl rfl⟩

theorem waits_lastAttempt {s t : State} (hs : s.held = false) (hp : s.seq.waiting = true → s.seq.pollEnabled = true)
    (h : lastAttempt s = .next t) : Waits t := by
  have c : Awake (forcedEntry s) := awake_enter _ ((held_poll s).trans hs)
  unfold lastAttempt at h
  split at h <;> rename_i e <;> rw [e] at c <;> cases h
  · exact waits_enter (by rw [poll_seq]; exact hp) e
  · exact fun _ => ⟨rfl, .inr rfl⟩
  · exact waits_of_still c
  · exact waits_of_still c

theorem waits_enterError {s t : State} (hs : s.held = false) (hp : s.seq.waiting = true → s.seq.pollEnabled = true)
    (h : enterError s = .next t) : Waits t := by
  have c : Awake (forcedEntry s) := awake_enter _ ((held_poll s).trans hs)
  unfold enterError at h
  split at h <;> rename_i e <;> rw [e] at c
  · cases h
    exact waits_enter (by rw [poll_seq]; exact hp) e
  · rename_i k u
    exact waits_lastAttempt (s := u.noteTimeout k) c (fun _ => rfl) h
  · cases h
  · cases h
    exact waits_of_still c
  · cases h
    exact waits_of_still c

/-- However the entry that a poll names ends, nothing waits without a word to poll over (R27, R341, R372). -/
theorem waits_conclude_enter {a : Answer} {s t : State} (hs : s.held = false)
    (hp : s.seq.waiting = true → s.seq.pollEnabled = true) (h : conclude (enter a s) = .next t) : Waits t := by
  have c : Awake (enter a s) := awake_enter a hs
  unfold conclude at h
  split at h <;> rename_i e <;> rw [e] at c
  · cases h
    exact waits_enter hp e
  · rename_i k u
    exact waits_enterError (s := u.noteTimeout k) c (fun _ => rfl) h
  · cases h
  · cases h
    exact waits_of_still c
  · cases h
    exact waits_of_still c

/-! ### The invariant, taken apart -/

/-- The part of the invariant that every activity keeps: the forms of the data, MA and nINIT. -/
structure Formed (s : State) : Prop where
  mem : s.mem.wf = true
  psw : s.psw &&& 0x0300 = 0
  err : s.per.errFlags &&& 0x20 = 0
  window : s.timer.window ≤ 4
  ma : MaLegal s
  init : InitHeld s

theorem Sound.formed {s : State} (h : Sound s) : Formed s := ⟨h.mem, h.psw, h.err, h.window, h.ma, h.init⟩

theorem Kept.formed {s t : State} (h : Kept s t) (f : Formed s) : Formed t :=
  ⟨h.mem f.mem, h.psw f.psw, h.err f.err, h.window f.window, h.ma f.ma, h.init f.init⟩

/-- A started processor, or one that waits for its start, has the invariant where its data are formed and nothing waits
without a word to poll over. -/
theorem Formed.sound {s : State} (f : Formed s) (l : Live s ∨ Booted s) (w : Waits s) : Sound s where
  mem := f.mem
  psw := f.psw
  err := f.err
  window := f.window
  waits := w
  start := fun ha => by
    rcases l with ⟨h, _⟩ | ⟨_, h1, h2, h3, _⟩
    · rw [ha] at h; cases h
    · exact ⟨h1, h2, h3⟩
  hold := fun hd => by
    rcases l with ⟨_, h⟩ | ⟨h, _⟩
    · rw [hd] at h; cases h
    · exact h
  ma := f.ma
  init := f.init

/-- A started processor whose reset is not held is live. -/
theorem Sound.live_of_start {s : State} (h : Sound s) (hd : s.plat.pins.dcloLow = false)
    (hn : ¬ (s.seq.irLoaded = true ∧ s.seq.pollEnabled = true ∧ s.seq.retry = false)) : Live s := by
  refine ⟨?_, hd⟩
  cases ha : s.ints.acok
  · exact absurd (h.start ha) hn
  · rfl

/-- What the environment does keeps the invariant (R430, R431). -/
theorem Acted.sound {s t : State} (h : Acted s t) (hs : Sound s) : Sound t := by
  have f : Formed t := ⟨h.mem hs.mem, h.psw hs.psw, h.err hs.err, h.window hs.window, h.ma hs.ma, h.init hs.init⟩
  rcases h.either with g | b
  · have w : Waits t := by
      rcases g.seq with e | e
      · unfold Waits; rw [e]; exact hs.waits
      · exact waits_of_still (by rw [e]; rfl)
    have off : t.ints.acok = false → s.ints.acok = false := fun ha => by
      cases hd : s.plat.pins.dcloLow
      · exact (g.acok hd).symm.trans ha
      · exact hs.hold hd
    refine ⟨f.mem, f.psw, f.err, f.window, w, fun ha => ?_, fun hd => ?_, f.ma, f.init⟩
    · obtain ⟨h1, h2, h3⟩ := hs.start (off ha)
      rcases g.seq with e | e <;> rw [e]
      · exact ⟨h1, h2, h3⟩
      · exact ⟨h1, h2, rfl⟩
    · cases hd' : s.plat.pins.dcloLow
      · rw [g.dclo hd'] at hd; cases hd
      · exact g.off (hs.hold hd')
  · obtain ⟨_, _, _, _, hw⟩ := id b
    exact f.sound (.inr b) (waits_of_still hw)

/-! ### The step of the processor block -/

/-- What keeps `Halted` from a live state in which nothing waits is sound. -/
theorem Halted.sound {s t : State} (h : Halted s t) (f : Formed s) (l : Live s) (w : s.seq.waiting = false) : Sound t :=
  (h.kept.formed f).sound (h.live l) (waits_of_still (h.kept.still w))

/-- An instruction keeps the invariant: WAIT polls over its word (R211), every other one starts no wait. -/
theorem exec_sound {i : Instr} {s t : State} (f : Formed s) (l : Live s) (hp : s.seq.pollEnabled = true)
    (w : s.seq.waiting = false) (h : exec i s = .next t) : Sound t := by
  by_cases hw : i = .wait
  · subst hw
    rw [exec_wait] at h
    cases h
    exact Formed.sound ⟨f.mem, f.psw, f.err, f.window, f.ma, f.init⟩ (.inl l) fun _ => ⟨hp, .inl rfl⟩
  · exact (exec_keeps hw s t h).sound f l w

/-- The start of an instruction leaves the sequencer. -/
theorem steer_seq (s : State) (i : Instr) : (s.steer i).seq = s.seq := by
  obtain ⟨m, e⟩ := steer_micro s i
  rw [e]

/-- The word in IR, legal or not (R27, R342). -/
theorem execWord_sound {s t : State} (f : Formed s) (l : Live s) (hp : s.seq.pollEnabled = true)
    (w : s.seq.waiting = false) (h : execWord s = .next t) : Sound t := by
  unfold execWord at h
  split at h
  · rename_i i _
    have g := steady_steer s i
    exact exec_sound (g.kept.formed f) (g.live l) (by rw [steer_seq]; exact hp) (g.kept.still w) h
  · exact (raiseIllegal_halted h).sound f l w

theorem steady_takeIr (s : State) : Steady s s.takeIr := steady_of rfl rfl id rfl rfl id (.inr rfl) rfl rfl id

/-- A poll that answers anything but 000 finds the processor started, or starts it (R43, R348). -/
theorem poll_acok {s : State} (h : (matrix s).mcir.toNat ≠ 0) : (poll s).2.ints.acok = true := by
  show (s.ints.acok || s.ints.acin) = true
  cases ha : s.ints.acok
  · rw [matrix_start ha] at h
    cases hi : s.ints.acin
    · rw [hi] at h; exact absurd rfl h
    · rfl
  · rfl

/-- The dispatch of the word in IR, with or without a poll (R27, R29). -/
theorem dispatch_sound {s t : State} (hs : Sound s) (hh : s.held = false) (h : dispatch s = .next t) : Sound t := by
  obtain ⟨hd, _⟩ := held_eq_false_iff.1 hh
  have g := (steady_takeIr s).trans (steady_poll s.takeIr)
  have f := g.kept.formed hs.formed
  have hq : (poll s.takeIr).2.seq = s.takeIr.seq := poll_seq _
  have hpd : (poll s.takeIr).2.plat.pins.dcloLow = false :=
    (held_eq_false_iff.1 ((held_poll s.takeIr).trans hh)).1
  simp only [dispatch] at h
  split at h
  · rename_i hp
    have hp' : (poll s.takeIr).2.seq.pollEnabled = true := by rw [hq]; exact hp
    unfold onAnswer at h
    split at h
    · cases h
      have f' : Formed (poll s.takeIr).2.idle := ⟨f.mem, f.psw, f.err, f.window, f.ma, f.init⟩
      refine f'.sound ?_ fun _ => ⟨hp', .inl rfl⟩
      cases ha : (poll s.takeIr).2.ints.acok
      · have ha' : s.ints.acok = false := (Bool.or_eq_false_iff.1 ha).1
        have hr : (poll s.takeIr).2.seq.retry = false := by rw [hq]; exact (hs.start ha').2.2
        exact .inr ⟨ha, rfl, hp', hr, ha⟩
      · exact .inl ⟨ha, hpd⟩
    · rename_i hm
      split at h
      · cases h
      · rename_i hw
        have ha := poll_acok (s := s.takeIr) (by rw [show (matrix s.takeIr).mcir.toNat = 1 from hm]; decide)
        exact execWord_sound f ⟨ha, hpd⟩ hp' (Bool.not_eq_true _ ▸ hw) h
    · rename_i h0 _
      have l : Live (poll s.takeIr).2 := ⟨poll_acok h0, hpd⟩
      have c := conclude_halted (calm_enter _ _) h
      exact (c.kept.formed f).sound (c.live l)
        (waits_conclude_enter ((held_poll s.takeIr).trans hh) (fun _ => hp') h)
  · rename_i hp
    have hw : s.seq.waiting = false := by
      cases hw : s.seq.waiting
      · rfl
      · exact absurd (hs.waits hw).1 hp
    have l : Live s := hs.live_of_start hd fun hst => hp hst.2.1
    have f' := (steady_takeIr s).kept.formed hs.formed
    exact execWord_sound (s := ({ s.takeIr with seq := { s.takeIr.seq with pollEnabled := true } } : State).setMcir 0b001)
      ⟨f'.mem, f'.psw, f'.err, f'.window, f'.ma, f'.init⟩ l rfl hw h

/-- After a fetch the pipeline stops, or the word is dispatched (R27, R411). -/
theorem afterFetch_sound {s t : State} (hs : Sound s) (hh : s.held = false) (h : afterFetch s = .next t) : Sound t := by
  unfold afterFetch at h
  split at h
  · cases h
    exact ⟨hs.mem, hs.psw, hs.err, hs.window, hs.waits, hs.start, hs.hold, hs.ma, hs.init⟩
  · exact dispatch_sound hs hh h

/-- The entry for the double error that is attempted again (R372). -/
theorem retry_sound {s t : State} (hs : Sound s) (hh : s.held = false) (hr : s.seq.retry = true)
    (h : lastAttempt { s with seq := { s.seq with retry := false } } = .next t) : Sound t := by
  have l : Live s := hs.live_of_start (held_eq_false_iff.1 hh).1 fun hst => by rw [hst.2.2] at hr; cases hr
  have c := lastAttempt_halted h
  exact (c.kept.formed ⟨hs.mem, hs.psw, hs.err, hs.window, hs.ma, hs.init⟩).sound (c.live l)
    (waits_lastAttempt (s := { s with seq := { s.seq with retry := false } }) hh (fun w => (hs.waits w).1) h)

/-- A step of the processor block keeps the invariant: held, stopped, an entry repeated, a dispatch, or a fetch and what
follows where it completes or is cut short (R27, R372, R410). -/
theorem cycle_sound {s t : State} (hs : Sound s) (h : cycle s = .next t) : Sound t := by
  unfold cycle at h
  split at h
  · cases h; exact hs
  rename_i hh
  replace hh := Bool.not_eq_true _ ▸ hh
  split at h
  · cases h; exact hs
  split at h
  · rename_i hr
    exact retry_sound hs hh hr h
  rename_i hr
  split at h
  · exact dispatch_sound hs hh h
  · rename_i hl
    have l : Live s := hs.live_of_start (held_eq_false_iff.1 hh).1 fun hst => hl hst.1
    have w : s.seq.waiting = false := by
      cases hw : s.seq.waiting
      · rfl
      · rcases (hs.waits hw).2 with g | g
        · exact absurd g hl
        · exact absurd g hr
    have c := calm_fetch s
    have a := awake_fetch hh
    split at h <;> rename_i e <;> rw [e] at c a
    · exact afterFetch_sound ((Steady.halted c).sound hs.formed l w) a h
    · exact (conclude_halted c h).sound hs.formed l w

/-- Settles O6: what the environment does keeps the invariant (`Acted.sound`), and so does each way the processor block can
take its step (`cycle_sound`). -/
theorem stepKeepsSound : Obligations.StepKeepsSound := by
  intro s t hs h
  have acted := acted_takeInputs s
  simp only [step, fullStep] at h
  split at h <;> rename_i e <;> rw [e] at acted
  · exact cycle_sound (acted.sound hs) h
  · obtain ⟨_, rfl⟩ := takeInputs_abort e
    cases h

end Sys2Proof.Machine
end

section
/-! What one action of the environment does, for the hardware reset (O10) and the detectors of the input lines (O19). -/

namespace Sys2Proof.Machine

/-! ### The level of nDCLO -/

/-- While nDCLO is high nothing is held reset. -/
theorem holdReset_of_high {s : State} (h : s.plat.pins.dcloLow = false) : s.holdReset = s := by
  simp [State.holdReset, h]

/-- What a low nDCLO holds (R430 a, R431). -/
theorem holdReset_of_low {s : State} (h : s.plat.pins.dcloLow = true) :
    s.holdReset = { s with ints := Interrupts.clear, per := Peripheral.clear
                           timer := { s.timer.init with req := false } } := if_pos h

/-- Holding the reset leaves the level of nDCLO. -/
theorem holdReset_dclo (s : State) : s.holdReset.plat.pins.dcloLow = s.plat.pins.dcloLow := by
  unfold State.holdReset
  split <;> rfl

/-- An action of the environment that completes ends with what a low nDCLO holds. -/
theorem applyEvent_ok {e : Event} {s t : State} (h : applyEvent e s = .ok () t) : ∃ u, t = State.holdReset u := by
  obtain ⟨_, u, _, h2⟩ := andThen_eq_ok.1 h
  cases h2
  exact ⟨u, rfl⟩

/-- While nDCLO is low every action of the environment leaves the interrupt block, the peripheral block and the timer's
control reset (R431). -/
theorem applyEvent_held {e : Event} {s t : State} (h : applyEvent e s = .ok () t) (hd : t.plat.pins.dcloLow = true) :
    t.ints = Interrupts.clear ∧ t.per = Peripheral.clear ∧ t.timer.csr = 0 ∧ t.timer.req = false := by
  obtain ⟨u, rfl⟩ := applyEvent_ok h
  rw [holdReset_of_low ((holdReset_dclo u).symm.trans hd)]
  exact ⟨rfl, rfl, rfl, rfl⟩

/-- The fall of nDCLO is the hardware reset, with nINIT driven low (R430 a); holding it reset changes nothing more. -/
theorem applyEvent_dcloFall {s : State} (h : s.plat.pins.dcloLow = false) :
    applyEvent (.dclo true) s = .ok () { s.hardwareReset with
      plat := { s.hardwareReset.plat with pins := { s.plat.pins with dcloLow := true, initOut := true } } } := by
  show Res.ok () (s.setDclo true).holdReset = _
  simp only [State.setDclo, h]
  rfl

/-- The rise of nDCLO releases nINIT (R430 a). -/
theorem applyEvent_dcloRise (s : State) : applyEvent (.dclo false) s =
    .ok () { s with plat := { s.plat with pins := { s.plat.pins with dcloLow := false, initOut := false } } } := rfl

/-- The hardware reset resets the timers of the other chips on the line nINIT (R399, R430 a). -/
theorem hardwareReset_chips {s : State} : ∀ c ∈ s.hardwareReset.plat.chips, c.timer.csr = 0 := by
  intro c hc
  obtain ⟨d, _, rfl⟩ := List.mem_map.1 hc
  rfl

/-- Settles O10: the fall and the rise of nDCLO as states, a step under a low nDCLO, and what it holds. -/
theorem hardwareReset : Obligations.HardwareReset := by
  refine ⟨fun s h => ?_, fun s => ⟨_, applyEvent_dcloRise s, rfl⟩, fun s h hi => ?_, fun e s t h hd => ?_⟩
  · exact ⟨_, applyEvent_dcloFall h, rfl, rfl, rfl, rfl, rfl, rfl, rfl, rfl, rfl, rfl, rfl, rfl, rfl, rfl, rfl, rfl,
      hardwareReset_chips (s := s)⟩
  · rw [step_quiet hi, cycle, if_pos (by simp [State.held, h])]
  · obtain ⟨h1, h2, h3, h4⟩ := applyEvent_held h hd
    refine ⟨h1, h2, h3, h4, fun hs => ?_⟩
    have acted : Acted s t := by
      have g := acted_event e s
      rw [h] at g
      exact g
    obtain ⟨hout, hline⟩ := acted.init hs
    have low : t.plat.pins.initOut = true := hout.trans hd
    exact ⟨low, (hline (by rw [State.initLine, low, Bool.or_true])).2⟩

/-! ### The detectors of the input lines -/

/-- While nDCLO is high an action of the platform is all that happens. -/
theorem applyEvent_act {s : State} (h : s.plat.pins.dcloLow = false) (r : Reaction) :
    applyEvent (.act r) s = .ok () (s.react r) := by
  show Res.ok () (s.react r).holdReset = _
  rw [holdReset_of_high ((outside_react s r).1.dclo h)]

/-- The edges of nACLO and their latches (R45, R346). -/
theorem setAclo_ints (s : State) (high : Bool) : (s.setAclo high).ints =
    { s.ints with acin := s.ints.acin || (high && !s.plat.pins.acloHigh)
                  aclo := s.ints.aclo || (!high && s.plat.pins.acloHigh) } := by
  simp only [State.setAclo, Bool.and_comm]

/-- The falling edge of nIRQ2 and its latch (R45, R346, R430). -/
theorem setIrq2_ints (s : State) (low : Bool) : (s.setIrq2 low).ints =
    { s.ints with irq2 := s.ints.irq2 || (low && !s.plat.pins.irq2Low && !s.initLine) } := by
  simp only [State.setIrq2, Bool.and_comm low]

/-- The falling edge of nIRQ3 and its latch (R45, R346, R430). -/
theorem setIrq3_ints (s : State) (low : Bool) : (s.setIrq3 low).ints =
    { s.ints with irq3 := s.ints.irq3 || (low && !s.plat.pins.irq3Low && !s.initLine) } := by
  simp only [State.setIrq3, Bool.and_comm low]

/-- The latch of the timer request is there on ВМ1Г only (R42, R346). -/
theorem rearm_timer {s : State} (h : s.cfg.variant = .vm1g) :
    s.rearm 0b101 = { s with timer := { s.timer with req := false } } := if_pos h

/-- Settles O19: each line by its own detector, and each REARM by the latch it names. -/
theorem requestLatches : Obligations.RequestLatches := by
  refine ⟨fun s h => ?_, fun s => ⟨rfl, rfl, rfl, rfl, rfl, rearm_timer, rfl⟩⟩
  refine ⟨fun high => ⟨_, applyEvent_act h _, rfl, setAclo_ints s high⟩,
    fun low => ⟨_, applyEvent_act h _, rfl, setIrq2_ints s low⟩,
    fun low => ⟨_, applyEvent_act h _, rfl, setIrq3_ints s low⟩,
    fun low => ⟨_, applyEvent_act h _, rfl, rfl⟩, fun low => ⟨_, applyEvent_act h _, rfl, rfl⟩,
    ⟨_, applyEvent_act h _, rfl, rfl, rfl⟩⟩

end Sys2Proof.Machine
end

section
/-! The registers of the own peripheral block as a program reads and writes them (O57, O58), and bit 3 of 177716, which is
behind one of them on processor 0 (O24). -/

namespace Sys2Proof.Machine

/-! ### Addresses of the block -/

/-- The offset of each register in the block (R50). -/
def PReg.offset : PReg → Word
  | .mode => 0
  | .ivec => 2
  | .error => 4
  | .limit => 6
  | .count => 8
  | .csr => 10
  | .sel2 => 12
  | .sel1 => 14

/-- The addresses of a block, of its words and of their high bytes, are in the block, and bits 3:1 name the register
(R50, R400). -/
theorem chipAddr_offset (p : PReg) (n : BitVec 2) (odd : Bool) :
    inBlock n (chipAddr n p.offset odd) = true ∧ pregOf (chipAddr n p.offset odd) = p ∧
    isOdd (chipAddr n p.offset odd) = odd := by
  cases p <;> revert n odd <;> decide

/-- The addresses of the own block. -/
theorem blockAddr_offset (s : State) (p : PReg) (odd : Bool) :
    s.ownBlock (blockAddr s p.offset odd) = true ∧ pregOf (blockAddr s p.offset odd) = p ∧
    isOdd (blockAddr s p.offset odd) = odd := chipAddr_offset p s.cfg.ncpu odd

/-- A register of the block gives no reply to an access: CPU_IVEC with its request set (R52). -/
def State.pregBusy (s : State) (p : PReg) : Prop := p = .ivec ∧ s.per.ivecReq = true

/-- Only CPU_IVEC can be busy. -/
theorem not_pregBusy {p : PReg} (h : p ≠ .ivec) (s : State) : ¬ s.pregBusy p := fun b => h b.1

/-- CPU_IVEC is not busy while its request is clear. -/
theorem not_pregBusy_of_clear {s : State} (h : s.per.ivecReq = false) (p : PReg) : ¬ s.pregBusy p := fun b => by
  rw [b.2] at h; cases h

/-- What a read of a register shows is settled: it replies, nothing leaves the value free, and no reload is being seen
(R52, R58, R390, R393). -/
def State.pregReads (s : State) (p : PReg) : Prop :=
  ¬ s.pregBusy p ∧ s.pregFree p = false ∧ (p = .count → s.timer.window = 0)

/-! ### One access -/

/-- A settled register of the own block reads as `pregWord` says (R400). -/
theorem busReadWord_settled {s : State} {a : Word} (hb : s.ownBlock a = true) (h : s.pregReads (pregOf a)) :
    busReadWord a s = .ok (s.pregWord (pregOf a)) s := by
  obtain ⟨hn, hf, hw⟩ := h
  rw [busReadWord_own hb, readPreg, if_neg (show ¬ (_ ∧ _) from hn), if_neg (by rw [hf]; decide),
    if_neg fun hc => by have := hw hc.1; omega]

/-- A busy register of the own block times out a read (R52). -/
theorem busReadWord_busy {s : State} {a : Word} (hb : s.ownBlock a = true) (h : s.pregBusy (pregOf a)) :
    busReadWord a s = .abort (.timeout .data) s := (busReadWord_own hb).trans (if_pos h)

/-- A register of the own block that is not busy takes a write (R400). -/
theorem busWriteWord_free {s : State} {a : Word} (hb : s.ownBlock a = true) (h : ¬ s.pregBusy (pregOf a)) (w : Word) :
    busWriteWord a w s = .ok () (s.putPreg (pregOf a) w) := (busWriteWord_own hb).trans (if_neg h)

/-- A busy register of the own block times out a write (R52). -/
theorem busWriteWord_busy {s : State} {a : Word} (hb : s.ownBlock a = true) (h : s.pregBusy (pregOf a)) (w : Word) :
    busWriteWord a w s = .abort (.timeout .data) s := (busWriteWord_own hb).trans (if_pos h)

/-- A byte write to the own block is a write of the word the register shows with one half replaced (R400, D24). -/
theorem busWriteByte_own {s : State} {a : Word} (hb : s.ownBlock a = true) (v : Byte) :
    busWriteByte a v s = busWriteWord a (mergeByte (isOdd a) v (s.pregWord (pregOf a))) s := by
  rw [busWriteWord_own hb, busWriteByte, decoded, hb]; rfl

/-- A write to the block and the hidden registers do not meet. -/
theorem putPreg_micro (s : State) (m : Micro) (p : PReg) (w : Word) :
    State.putPreg { s with micro := m } p w = { s.putPreg p w with micro := m } := by
  cases p with
  | limit | csr => simp only [State.putPreg]; split <;> rfl
  | _ => rfl

/-! ### One transaction of the processor block -/

/-- A word read of a settled register (R76, R400). -/
theorem readWord_own {s : State} {a : Word} (hq : s.quiet = true) (hb : s.ownBlock a = true)
    (h : s.pregReads (pregOf a)) : Gives (readWord a s) (s.pregWord (pregOf a)) s := by
  refine ⟨(s.noted .readWord a (s.pregWord (pregOf a))).micro, ?_⟩
  rw [readWord, transact_quiet hq, busReadWord_settled (s := s.latch .readWord a) hb h]
  rfl

/-- A word read of a busy register (R52). -/
theorem readWord_own_busy {s : State} {a : Word} (hq : s.quiet = true) (hb : s.ownBlock a = true)
    (h : s.pregBusy (pregOf a)) : TimesOut (readWord a s) s := by
  refine ⟨(s.latch .readWord a).micro, ?_⟩
  rw [readWord, transact_quiet hq, busReadWord_busy (s := s.latch .readWord a) hb h]
  rfl

/-- A word write to a register (R78, R400). -/
theorem writeWord_own {s : State} {a : Word} (hq : s.quiet = true) (hb : s.ownBlock a = true)
    (h : ¬ s.pregBusy (pregOf a)) (w : Word) : Gives (writeWord a w s) () (s.putPreg (pregOf a) w) := by
  refine ⟨(s.noted .writeWord a w).micro, ?_⟩
  rw [writeWord, transact_quiet (s := s.setQ w) hq, busWriteWord_free (s := (s.setQ w).latch .writeWord a) hb h]
  exact congrArg (Res.ok ()) (putPreg_micro s _ _ w)

/-- A word write to a busy register (R52). -/
theorem writeWord_own_busy {s : State} {a : Word} (hq : s.quiet = true) (hb : s.ownBlock a = true)
    (h : s.pregBusy (pregOf a)) (w : Word) : TimesOut (writeWord a w s) s := by
  refine ⟨(s.noted .writeWord a w).micro, ?_⟩
  rw [writeWord, transact_quiet (s := s.setQ w) hq, busWriteWord_busy (s := (s.setQ w).latch .writeWord a) hb h]
  rfl

/-- A byte write to a register (R78, R400). -/
theorem writeByte_own {s : State} {a : Word} (hq : s.quiet = true) (hb : s.ownBlock a = true)
    (h : ¬ s.pregBusy (pregOf a)) (v : Byte) :
    Gives (writeByte a v s) () (s.putPreg (pregOf a) (mergeByte (isOdd a) v (s.pregWord (pregOf a)))) := by
  let u := (s.setQ (byteInQ v)).latch .writeByte a
  refine ⟨u.micro, ?_⟩
  rw [writeByte, transact_quiet (s := s.setQ (byteInQ v)) hq, busWriteByte_own (s := u) hb, busWriteWord_free (s := u) hb h]
  exact congrArg (Res.ok ()) (putPreg_micro s u.micro _ _)

/-- A byte write to a busy register (R52). -/
theorem writeByte_own_busy {s : State} {a : Word} (hq : s.quiet = true) (hb : s.ownBlock a = true)
    (h : s.pregBusy (pregOf a)) (v : Byte) : TimesOut (writeByte a v s) s := by
  let u := (s.setQ (byteInQ v)).latch .writeByte a
  refine ⟨u.micro, ?_⟩
  rw [writeByte, transact_quiet (s := s.setQ (byteInQ v)) hq, busWriteByte_own (s := u) hb, busWriteWord_busy (s := u) hb h]
  rfl

/-- A read-modify-write of a settled register (R79, R400). -/
theorem rmwWord_own {α : Type} {s : State} {a : Word} (hq : s.quiet = true) (hb : s.ownBlock a = true)
    (h : s.pregReads (pregOf a)) (f : Word → Word × α) :
    Gives (rmwWord a f s) (f (s.pregWord (pregOf a))).2 (s.putPreg (pregOf a) (f (s.pregWord (pregOf a))).1) := by
  let o := s.pregWord (pregOf a)
  let u := ((s.latch .rmwWord a).setQ o).setQ (f o).1
  refine ⟨u.micro, ?_⟩
  rw [rmwWord, transact_quiet hq, busReadWord_settled (s := s.latch .rmwWord a) hb h]
  show ((busWriteWord a (f o).1 u).andThen fun _ t => .ok (f o).2 t) = _
  rw [busWriteWord_free (s := u) hb h.1]
  exact congrArg (Res.ok (f o).2) (putPreg_micro s u.micro _ _)

/-! ### By the names of the registers -/

/-- A word read of a settled register of the own block (R400). -/
theorem readWord_block {s : State} {p : PReg} (hq : s.quiet = true) (h : s.pregReads p) (odd : Bool) :
    Gives (readWord (blockAddr s p.offset odd) s) (s.pregWord p) s := by
  obtain ⟨hb, hp, _⟩ := blockAddr_offset s p odd
  have g := readWord_own (a := blockAddr s p.offset odd) hq hb (by rw [hp]; exact h)
  rwa [hp] at g

/-- A word read of a busy register of the own block (R52). -/
theorem readWord_block_busy {s : State} {p : PReg} (hq : s.quiet = true) (h : s.pregBusy p) (odd : Bool) :
    TimesOut (readWord (blockAddr s p.offset odd) s) s := by
  obtain ⟨hb, hp, _⟩ := blockAddr_offset s p odd
  exact readWord_own_busy hq hb (by rw [hp]; exact h)

/-- A word write to a register of the own block (R400). -/
theorem writeWord_block {s : State} {p : PReg} (hq : s.quiet = true) (h : ¬ s.pregBusy p) (odd : Bool) (w : Word) :
    Gives (writeWord (blockAddr s p.offset odd) w s) () (s.putPreg p w) := by
  obtain ⟨hb, hp, _⟩ := blockAddr_offset s p odd
  have g := writeWord_own (a := blockAddr s p.offset odd) hq hb (by rw [hp]; exact h) w
  rwa [hp] at g

/-- A word write to a busy register of the own block (R52). -/
theorem writeWord_block_busy {s : State} {p : PReg} (hq : s.quiet = true) (h : s.pregBusy p) (odd : Bool) (w : Word) :
    TimesOut (writeWord (blockAddr s p.offset odd) w s) s := by
  obtain ⟨hb, hp, _⟩ := blockAddr_offset s p odd
  exact writeWord_own_busy hq hb (by rw [hp]; exact h) w

/-- A byte write to a register of the own block: the word it shows with one half replaced (R400, D24). -/
theorem writeByte_block {s : State} {p : PReg} (hq : s.quiet = true) (h : ¬ s.pregBusy p) (odd : Bool) (v : Byte) :
    Gives (writeByte (blockAddr s p.offset odd) v s) () (s.putPreg p (mergeByte odd v (s.pregWord p))) := by
  obtain ⟨hb, hp, ho⟩ := blockAddr_offset s p odd
  have g := writeByte_own (a := blockAddr s p.offset odd) hq hb (by rw [hp]; exact h) v
  rwa [hp, ho] at g

/-- A byte write to a busy register of the own block (R52). -/
theorem writeByte_block_busy {s : State} {p : PReg} (hq : s.quiet = true) (h : s.pregBusy p) (odd : Bool) (v : Byte) :
    TimesOut (writeByte (blockAddr s p.offset odd) v s) s := by
  obtain ⟨hb, hp, _⟩ := blockAddr_offset s p odd
  exact writeByte_own_busy hq hb (by rw [hp]; exact h) v

/-! ### The words of the registers -/

/-- The three low bits of CPU_MODE (R51). -/
theorem modeBits_eq : ∀ w t h : Bool, (0 : BitVec 13) ++ (BitVec.ofBool w ++ (BitVec.ofBool t ++ BitVec.ofBool h)) =
    (if w then 4 else 0) ||| (if t then 2 else 0) ||| (if h then 1 else 0 : Word) := by decide

/-- CPU_MODE as the table of R51 prints it. -/
theorem modeWord_eq (s : State) : s.modeWord = (0o177740 : Word) ||| (s.cfg.ncpu.setWidth 16 <<< 3) |||
    (if s.per.wcpu then 4 else 0) ||| (if s.per.st then 2 else 0) ||| (if s.per.hlt then 1 else 0) := by
  rw [State.modeWord, modeBits_eq, State.ncpuWord, numberWord, BitVec.or_assoc, BitVec.or_assoc, BitVec.or_assoc,
    BitVec.or_assoc, BitVec.or_assoc]

/-- The bits 2 to 0 of the three low bits of CPU_MODE. -/
theorem modeBits_getLsbD : ∀ w t h : Bool,
    ((0 : BitVec 13) ++ (BitVec.ofBool w ++ (BitVec.ofBool t ++ BitVec.ofBool h)) : Word).getLsbD 2 = w ∧
    ((0 : BitVec 13) ++ (BitVec.ofBool w ++ (BitVec.ofBool t ++ BitVec.ofBool h)) : Word).getLsbD 1 = t ∧
    ((0 : BitVec 13) ++ (BitVec.ofBool w ++ (BitVec.ofBool t ++ BitVec.ofBool h)) : Word).getLsbD 0 = h := by decide

/-- The bits of CPU_MODE that a program writes read back (R51). -/
theorem modeWord_getLsbD (s : State) : s.modeWord.getLsbD 2 = s.per.wcpu ∧ s.modeWord.getLsbD 1 = s.per.st ∧
    s.modeWord.getLsbD 0 = s.per.hlt := by
  obtain ⟨h2, h1, h0⟩ := modeBits_getLsbD s.per.wcpu s.per.st s.per.hlt
  have zero : ∀ k < 3, ((0xFFE0 : Word) ||| (s.ncpuWord <<< 3)).getLsbD k = false := by
    intro k hk
    have : ∀ j : Fin 3, (0xFFE0 : Word).getLsbD j = false := by decide
    rw [BitVec.getLsbD_or, this ⟨k, hk⟩, BitVec.getLsbD_shiftLeft]
    simp [hk]
  refine ⟨?_, ?_, ?_⟩
  · rw [State.modeWord, BitVec.getLsbD_or, zero 2 (by decide), h2, Bool.false_or]
  · rw [State.modeWord, BitVec.getLsbD_or, zero 1 (by decide), h1, Bool.false_or]
  · rw [State.modeWord, BitVec.getLsbD_or, zero 0 (by decide), h0, Bool.false_or]

/-- The low byte of a word has its bits 7:0. -/
theorem getLsbD_loByte (w : Word) {k : Nat} (h : k < 8) : (loByte w).getLsbD k = w.getLsbD k := by
  simp [loByte, h]

/-- The bits 7:0 of a word put together are those of its low byte. -/
theorem getLsbD_mkWord_low (lo hi : Byte) {k : Nat} (h : k < 8) : (mkWord lo hi).getLsbD k = lo.getLsbD k := by
  rw [← getLsbD_loByte _ h, loByte_mkWord]

/-- The low byte of a disjunction. -/
theorem loByte_or (m w : Word) : loByte (m ||| w) = loByte m ||| loByte w := by
  simp [loByte, BitVec.extractLsb'_or]

/-- A byte as a word. -/
theorem loByte_setWidth (v : Byte) : loByte (v.setWidth 16) = v := by
  apply BitVec.eq_of_getLsbD_eq
  intro i hi
  rw [getLsbD_loByte _ hi, BitVec.getLsbD_setWidth]
  simp [show i < 16 by omega]

/-- The low byte of TVE_CSR as read is the one stored (R56). -/
theorem loByte_csrWord (s : State) : loByte s.csrWord = s.timer.csr := by
  rw [State.csrWord, loByte_or, loByte_setWidth, show loByte (0xFF00 : Word) = 0#8 from by decide, BitVec.zero_or]

/-- The flags of CPU_ERROR as read, without bit 5, are those stored (R53). -/
theorem loByte_errorWord {s : State} (h : s.per.errFlags &&& 0x20 = 0) : loByte s.errorWord &&& 0xDF = s.per.errFlags := by
  have halves : s.per.errFlags = s.per.errFlags &&& 0xDF ||| s.per.errFlags &&& 0x20 := by
    rw [BitVec.and_comm _ 0xDF, BitVec.and_comm _ 0x20, ← or_and_mask]
    exact (BitVec.allOnes_and).symm
  rw [State.errorWord, loByte_or, loByte_setWidth, or_and_mask, show loByte (0xFF20 : Word) &&& 0xDF = 0#8 from by decide,
    BitVec.zero_or]
  exact (halves.trans (by rw [h]; exact BitVec.or_zero)).symm

/-! ### Reads -/

/-- With a timer that works, registers behind the select lines and no reload being seen, every register but CPU_IVEC is
settled. -/
theorem pregReads_of {s : State} (ha : s.cfg.timerAlive = true) (hw : s.timer.window = 0)
    (h1 : s.cfg.sel1Kind = .register) (h2 : s.cfg.sel2Kind = .register) {p : PReg} (hp : ¬ s.pregBusy p) :
    s.pregReads p := by
  refine ⟨hp, ?_, fun _ => hw⟩
  cases p with
  | mode | ivec | error => rfl
  | limit | count | csr => simp [State.pregFree, ha]
  | sel2 => simp [State.pregFree, h2]
  | sel1 => simp [State.pregFree, h1]

/-- Settles O57: each register by the word it shows; CPU_IVEC with its request set gives no reply. -/
theorem peripheralReads : Obligations.PeripheralReads := by
  intro s odd hq ha hw h1 h2
  have shows : ∀ p, p ≠ .ivec → Gives (readWord (blockAddr s p.offset odd) s) (s.pregWord p) s :=
    fun p hp => readWord_block hq (pregReads_of ha hw h1 h2 (not_pregBusy hp s)) odd
  refine ⟨?_, fun hi => ?_, fun hi => readWord_block_busy (p := .ivec) hq ⟨rfl, hi⟩ odd, shows .error (by decide),
    shows .limit (by decide), shows .count (by decide), shows .csr (by decide), shows .sel2 (by decide),
    shows .sel1 (by decide)⟩
  · rw [← modeWord_eq]
    exact shows .mode (by decide)
  · exact readWord_block (p := .ivec) hq (pregReads_of ha hw h1 h2 (not_pregBusy_of_clear hi _)) odd

/-! ### Writes -/

/-- A write of TVE_LIMIT of a timer that works (R54). -/
theorem putPreg_limit {s : State} (ha : s.cfg.timerAlive = true) (w : Word) :
    s.putPreg .limit w = { s with timer := { s.timer with limit := w } } := if_pos ha

/-- A write of TVE_CSR of a timer that works: the control bits, held at 0 by a low nINIT, and the copy of TVE_LIMIT
(R395, R399). -/
theorem putPreg_csr {s : State} (ha : s.cfg.timerAlive = true) (w : Word) : s.putPreg .csr w =
    { s with timer := { s.timer with csr := if s.initLine then 0 else loByte w, count := s.timer.limit, window := 0 } } :=
  if_pos ha

/-- A byte write to the low half of CPU_MODE stores the three bits (R51, D24). -/
theorem putPreg_mode_low (s : State) (v : Byte) : s.putPreg .mode (mergeByte false v s.modeWord) =
    { s with per := { s.per with wcpu := v.getLsbD 2, st := v.getLsbD 1, hlt := v.getLsbD 0 } } := by
  have bit : ∀ k < 8, (mergeByte false v s.modeWord).getLsbD k = v.getLsbD k := fun k hk => getLsbD_mkWord_low _ _ hk
  rw [State.putPreg, bit 2 (by decide), bit 1 (by decide), bit 0 (by decide)]

/-- A byte write to the high half of CPU_MODE changes nothing (R51, D24). -/
theorem putPreg_mode_high (s : State) (v : Byte) : s.putPreg .mode (mergeByte true v s.modeWord) = s := by
  obtain ⟨h2, h1, h0⟩ := modeWord_getLsbD s
  have bit : ∀ k < 8, (mergeByte true v s.modeWord).getLsbD k = s.modeWord.getLsbD k := fun k hk =>
    (getLsbD_mkWord_low _ _ hk).trans (getLsbD_loByte _ hk)
  rw [State.putPreg, bit 2 (by decide), bit 1 (by decide), bit 0 (by decide), h2, h1, h0]

/-- A byte write to the low half of CPU_ERROR stores its flags (R401, D24, D25). -/
theorem putPreg_error_low (s : State) (v : Byte) : s.putPreg .error (mergeByte false v s.errorWord) =
    { s with per := { s.per with errFlags := v &&& 0o337 } } := by
  rw [State.putPreg, mergeByte, if_neg Bool.false_ne_true, loByte_mkWord]

/-- A byte write to the high half of CPU_ERROR changes nothing (R401, D24). -/
theorem putPreg_error_high {s : State} (h : s.per.errFlags &&& 0o040 = 0) (v : Byte) :
    s.putPreg .error (mergeByte true v s.errorWord) = s := by
  rw [State.putPreg, mergeByte, if_pos rfl, loByte_mkWord, loByte_errorWord h]

/-- A byte write to either half of TVE_CSR copies TVE_LIMIT; the low half stores the control bits, but for a low nINIT
(R395, R399, D24). -/
theorem putPreg_csr_byte {s : State} (ha : s.cfg.timerAlive = true) (odd : Bool) (v : Byte) :
    s.putPreg .csr (mergeByte odd v s.csrWord) = { s with timer := { s.timer with
      csr := if s.initLine then 0 else if odd then s.timer.csr else v, count := s.timer.limit, window := 0 } } := by
  have e : loByte (mergeByte odd v s.csrWord) = if odd then s.timer.csr else v := by
    cases odd
    · exact loByte_mkWord _ _
    · exact (loByte_mkWord _ _).trans (loByte_csrWord s)
  rw [putPreg_csr ha, e]

/-- Settles O58: a word write stores in the register what `putPreg` makes of the word, a byte write what it makes of the
word the register shows with one half replaced; CPU_IVEC with its request set gives no reply. -/
theorem peripheralWrites : Obligations.PeripheralWrites := by
  refine ⟨fun s w odd hq ha => ?_, fun s v hq ha => ?_⟩
  · have stores : ∀ p, p ≠ .ivec → Gives (writeWord (blockAddr s p.offset odd) w s) () (s.putPreg p w) :=
      fun p hp => writeWord_block hq (not_pregBusy hp s) odd w
    have csr := stores .csr (by decide)
    rw [putPreg_csr ha] at csr
    refine ⟨stores .mode (by decide), fun hi => writeWord_block (p := .ivec) hq (not_pregBusy_of_clear hi _) odd w,
      fun hi => writeWord_block_busy (p := .ivec) hq ⟨rfl, hi⟩ odd w, stores .error (by decide), ?_,
      stores .count (by decide), fun hn => ?_, fun hn => ?_, stores .sel2 (by decide), stores .sel1 (by decide)⟩
    · rw [← putPreg_limit ha]
      exact stores .limit (by decide)
    · rw [hn] at csr
      exact csr
    · rw [hn] at csr
      exact csr
  · have stores : ∀ p odd, p ≠ .ivec → Gives (writeByte (blockAddr s p.offset odd) v s) ()
        (s.putPreg p (mergeByte odd v (s.pregWord p))) := fun p odd hp => writeByte_block hq (not_pregBusy hp s) odd v
    have limit : ∀ odd, Gives (writeByte (blockAddr s 6 odd) v s) () { s with
        timer := { s.timer with limit := mergeByte odd v s.timer.limit } } := fun odd => by
      rw [← putPreg_limit ha]
      exact stores .limit odd (by decide)
    have csr : ∀ odd, Gives (writeByte (blockAddr s 10 odd) v s) () { s with timer := { s.timer with
        csr := if s.initLine then 0 else if odd then s.timer.csr else v, count := s.timer.limit, window := 0 } } :=
      fun odd => by
        rw [← putPreg_csr_byte ha]
        exact stores .csr odd (by decide)
    refine ⟨?_, ?_, fun odd hi => writeByte_block (p := .ivec) hq (not_pregBusy_of_clear hi _) odd v,
      fun odd hi => writeByte_block_busy (p := .ivec) hq ⟨rfl, hi⟩ odd v, ?_, fun he => ?_, limit false, limit true,
      fun odd => stores .count odd (by decide), fun hn => ⟨?_, ?_⟩, fun odd hn => ?_,
      stores .sel2 false (by decide), stores .sel2 true (by decide), stores .sel1 false (by decide),
      stores .sel1 true (by decide)⟩
    · rw [← putPreg_mode_low]
      exact stores .mode false (by decide)
    · have g := stores .mode true (by decide)
      rwa [show s.pregWord .mode = s.modeWord from rfl, putPreg_mode_high] at g
    · rw [← putPreg_error_low]
      exact stores .error false (by decide)
    · have g := stores .error true (by decide)
      rwa [show s.pregWord .error = s.errorWord from rfl, putPreg_error_high he] at g
    · have g := csr false
      rw [hn] at g
      exact g
    · have g := csr true
      rw [hn] at g
      exact g
    · have g := csr odd
      rw [hn] at g
      exact g

/-! ### Bit 3 of 177716 -/

/-- On processor 0 with a register behind nSEL1 the pult bit is a bit of that register (R59, R420). -/
theorem setPultBit_register {s : State} (hq : s.quiet = true) (hn : s.cfg.ncpu = 0) (hk : s.cfg.sel1Kind = .register)
    (on : Bool) :
    Gives (setPultBit on s) () { s with plat := { s.plat with sel1 := pultWord on s.plat.sel1 } } := by
  have hb : s.ownBlock 0o177716 = true := by rw [State.ownBlock, sel1_block, hn]; rfl
  have hp : pregOf 0o177716 = .sel1 := by decide
  have hr : s.pregReads (pregOf 0o177716) := by
    rw [hp]
    exact ⟨not_pregBusy (by decide) s, by simp [State.pregFree, hk], fun h => by cases h⟩
  have g := rmwWord_own hq hb hr fun o => (pultWord on o, ())
  rw [hp] at g
  exact g

/-- Elsewhere the pult bit is a bit of the word of RAM at 177716 (R59). -/
theorem setPultBit_ram {s : State} (hr : s.ramWord 0o177716 = true) (on : Bool) :
    setPultBit on s = .ok () ((s.noted .rmwWord 0o177716 (pultWord on (s.memWord 0o177716))).putWord 0o177716
      (pultWord on (s.memWord 0o177716))) :=
  rmwWord_ram hr fun o => (pultWord on o, ())

/-- Settles O24: the register behind nSEL1 on processor 0, the word of RAM on the others, and what no answer changes. -/
theorem pultBitSetAndCleared : Obligations.PultBitSetAndCleared := by
  refine fun s on => ⟨fun hq hn hk => setPultBit_register hq hn hk on, fun _ hm hr => ?_, fun t h => ?_⟩
  · exact ⟨_, setPultBit_ram hr on, rfl, rfl, rfl, rfl, rfl, rfl, rfl, onlyWord_put hm rfl rfl rfl⟩
  · obtain ⟨⟨hc, hp, hs⟩, hr⟩ := setPultBit_done h
    exact ⟨hr, hp, hc, hs⟩

end Sys2Proof.Machine
end

section
/-! The state after reset (O7, O9), and the step that runs a decoded instruction (O13). -/

namespace Sys2Proof.Machine

/-- After reset the processor waits for its start (R27, R43, R60). -/
theorem booted_reset : Booted State.reset := ⟨rfl, rfl, rfl, rfl, rfl⟩

/-- The data of the state after reset have their forms, and no line holds anything. -/
theorem formed_reset : Formed State.reset where
  mem := wf_reset
  psw := by decide
  err := zero_and
  window := Nat.zero_le _
  ma := .inl rfl
  init := ⟨rfl, fun h => absurd h (by decide)⟩

/-- Settles O7: after reset the processor waits for its start, and nothing waits. -/
theorem resetIsSound : Obligations.ResetIsSound := formed_reset.sound (.inr booted_reset) (waits_of_still rfl)

/-- After reset a read of the own block shows what `pregWord` says (R400). -/
theorem busReadWord_reset {a : Word} (hb : State.reset.ownBlock a = true) :
    busReadWord a State.reset = .ok (State.reset.pregWord (pregOf a)) State.reset :=
  busReadWord_settled hb (pregReads_of rfl rfl rfl rfl (not_pregBusy_of_clear rfl _))

/-- Settles O9: the fields, and four registers of the own block. -/
theorem resetValues : Obligations.ResetValues :=
  ⟨rfl, rfl, rfl, rfl, rfl, rfl, rfl, rfl, rfl, rfl, rfl, rfl, rfl, rfl, rfl,
    busReadWord_reset (a := 0o177700) (by decide), busReadWord_reset (a := 0o177702) (by decide), busReadWord_reset (a := 0o177704) (by decide),
    busReadWord_reset (a := 0o177712) (by decide)⟩

/-- The answer 001 executes the word in IR, where nothing waits (R27). -/
theorem onAnswer_one {a : Answer} {s : State} (ha : a.mcir = 0b001) (hw : s.seq.waiting = false) :
    onAnswer a s = execWord s := by
  unfold onAnswer
  rw [ha]
  exact if_neg (by rw [hw]; decide)

/-- Settles O13: the fetch and the dispatch of `step_dispatch`, and the instruction that the word decodes to. -/
theorem stepRunsDecoded : Obligations.StepRunsDecoded := by
  intro s w i h hst hd
  obtain ⟨polled, unpolled⟩ := step_dispatch h hst
  refine ⟨fun hp hw ha => ?_, fun hp => ?_⟩
  · obtain ⟨m, e⟩ := polled hp
    rw [polled_one ha] at e
    have run := onAnswer_one (s := { fetched s w with micro := m }) ha hw
    obtain ⟨m', e'⟩ := execWord_ok (s := { fetched s w with micro := m }) rfl hd
    exact ⟨m', e.trans (run.trans e')⟩
  · obtain ⟨m, e⟩ := unpolled hp
    obtain ⟨m', e'⟩ := execWord_ok
      (s := { fetched s w with micro := m, seq := { (fetched s w).seq with pollEnabled := true } }) rfl hd
    exact ⟨m', e.trans e'⟩

end Sys2Proof.Machine
end

section
/-! Plain RAM, word by word and byte by byte (O55), and the vectored interrupt (O21). -/

namespace Sys2Proof.Machine

/-! ### Plain RAM -/

/-- A write of memory and of what no program sees leaves the addresses of RAM. -/
theorem ramWord_write {s t : State} (h : t = { s with mem := t.mem, micro := t.micro }) {a : Word}
    (hr : s.ramWord a = true) : t.ramWord a = true := by
  rw [h]
  exact (ramWord_congr (s := s) rfl rfl rfl rfl a).trans hr

/-- A write of memory and of what no program sees leaves the addresses of bytes of RAM. -/
theorem ramByte_write {s t : State} (h : t = { s with mem := t.mem, micro := t.micro }) {a : Word}
    (hr : s.ramByte a = true) : t.ramByte a = true := by
  obtain ⟨hq, hram⟩ := ramByte_iff.1 hr
  rw [h]
  exact ramByte_iff.2 ⟨hq, (isRam_congr (s := s) rfl rfl a).trans hram⟩

/-- A word write to RAM stores the word, which reads back, by its bytes too (R70, R71, R78). -/
theorem writeWord_reads_back {s : State} {a : Word} (hm : s.mem.wf = true) (hr : s.ramWord a = true) (w : Word) :
    ∃ t, writeWord a w s = .ok () t ∧ Gives (readWord a t) w t ∧ t.readByteAt a = loByte w ∧
      t.readByteAt (a + 1) = hiByte w ∧ OnlyWord s t a w ∧ t.mem.wf = true ∧
      t = { s with mem := t.mem, micro := t.micro } := by
  let u := s.noted .writeWord a w
  have only : OnlyWord s (u.putWord a w) a w := onlyWord_put hm rfl rfl rfl
  have bytes := readByteAt_putWord u hm a w
  have back := readWord_ram (ramWord_write (s := s) (t := u.putWord a w) rfl hr)
  rw [only.1] at back
  refine ⟨u.putWord a w, writeWord_ram hr w, ⟨_, back⟩, ?_, ?_, only, wf_putWord u hm a w, rfl⟩
  · rw [bytes, if_neg (succ_ne a).symm, if_pos rfl]
  · rw [bytes, if_pos rfl]

/-- A byte write to RAM stores the byte, which reads back (R70, R71, R78). -/
theorem writeByte_reads_back {s : State} {a : Word} (hm : s.mem.wf = true) (hr : s.ramByte a = true) (v : Byte) :
    ∃ t, writeByte a v s = .ok () t ∧ Gives (readByte a t) v t ∧ OnlyByte s t a v ∧ t.mem.wf = true ∧
      t = { s with mem := t.mem, micro := t.micro } := by
  let u := s.noted .writeByte a (byteInQ v)
  have only : OnlyByte s (u.putByte a v) a v := onlyByte_put hm rfl rfl rfl
  have back := readByte_ram (ramByte_write (s := s) (t := u.putByte a v) rfl hr)
  rw [only.1] at back
  exact ⟨u.putByte a v, writeByte_ram hr v, ⟨_, back⟩, only, wf_putByte u hm a v, rfl⟩

/-- Settles O55: each transaction by its law in RAM, and by its law where nothing answers. -/
theorem ramTransactions : Obligations.RamTransactions := by
  refine fun s a hm => ⟨fun hr => ⟨⟨_, readWord_ram hr⟩, writeWord_reads_back hm hr, fun f => ?_⟩,
    fun hr => ⟨⟨_, readByte_ram hr⟩, writeByte_reads_back hm hr, fun f => ?_⟩, fun hn => ?_⟩
  · exact ⟨_, rmwWord_ram hr f, onlyWord_put hm rfl rfl rfl, wf_putWord (s.noted _ _ _) hm a _, rfl⟩
  · exact ⟨_, rmwByte_ram hr f, onlyByte_put hm rfl rfl rfl, wf_putByte (s.noted _ _ _) hm a _, rfl⟩
  · exact ⟨⟨_, readWord_noReply hn⟩, ⟨_, readByte_noReply hn⟩,
      fun w v => ⟨⟨_, writeWord_noReply hn w⟩, ⟨_, writeByte_noReply hn v⟩⟩,
      fun f => ⟨_, rmwWord_noReply hn f⟩, fun f => ⟨_, rmwByte_noReply hn f⟩⟩

/-! ### The vectored interrupt -/

/-- The answer 100 is a user entry that corrects PC (R27, R360). -/
theorem onAnswer_user (v : Vsel) (rr : BitVec 3) (s : State) :
    onAnswer ⟨0b100, v, rr⟩ s = conclude (userEntry v true s) := rfl

/-- With power good, a step whose poll answers 100 is a user entry in place of the fetched instruction, after the latch
that the answer names is cleared (R27, R348, R360). -/
theorem step_userEntry {s : State} {w : Word} {v : Vsel} {rr : BitVec 3} (h : AboutToFetch s w) (hst : s.per.st = false)
    (hp : s.seq.pollEnabled = true) (ha : s.ints.acok = true) (hx : matrix (fetched s w) = ⟨0b100, v, rr⟩) :
    ∃ m, step s = conclude (userEntry v true { (fetched s w).rearm rr with micro := m }) := by
  obtain ⟨m, e⟩ := (step_dispatch h hst).1 hp
  rw [hx, onAnswer_user, polled_live (s := fetched s w) ha] at e
  exact ⟨m, e⟩

/-- The saved PC of an entry in place of a fetched instruction is the address of that instruction (R361). -/
theorem reg_pc_correct_fetched (s : State) (w : Word) : ((fetched s w).correctPc true).reg .pc = s.reg .pc :=
  show s.reg .pc + 2 - 2 = s.reg .pc by bv_omega

/-- Settles O21: the step is the user entry through the device's vector, which completes (`userEntry_ext_ram`) or hangs in
the acknowledge read (`userEntry_ext_holds`). -/
theorem vectoredInterrupt : Obligations.VectoredInterrupt := by
  intro s w reply rest h hst hp ha hx hi
  obtain ⟨m, e⟩ := step_userEntry h hst hp ha hx
  let u : State := { fetched s w with micro := m }
  have pc : (u.correctPc true).reg .pc = s.reg .pc := reg_pc_correct_fetched s w
  refine ⟨fun hh room => ?_, fun hh ⟨hm, r1, r2⟩ => ?_⟩
  · have room' : UserRoom u reply.vector := userRoom_congr (s := s) rfl rfl rfl rfl rfl rfl room
    obtain ⟨t, ht, entered⟩ := userEntry_ext_ram true (s := u) hi hh room'
    rw [pc] at entered
    exact ⟨t, e.trans (congrArg conclude ht), entered⟩
  · have ram : ∀ a, u.ramWord a = s.ramWord a := ramWord_congr rfl rfl rfl rfl
    obtain ⟨t, ht, hung⟩ := userEntry_ext_holds true (s := u) hi hh ⟨hm, (ram _).trans r1, (ram _).trans r2⟩
    rw [pc] at hung
    exact ⟨t, e.trans (congrArg conclude ht), hung⟩

end Sys2Proof.Machine
end

section
/-! One transaction with nothing from the environment: it is what the bus does with it. -/

namespace Sys2Proof.Machine

theorem readWord_quiet {s : State} (hq : s.quiet = true) (a : Word) :
    readWord a s = readToQ (busReadWord a (s.latch .readWord a)) := by rw [readWord, transact_quiet hq]

theorem readByte_quiet {s : State} (hq : s.quiet = true) (a : Word) :
    readByte a s = (readToQ (busReadLanes a (s.latch .readByte a))).andThen fun w t => .ok (laneOf a w) t := by
  rw [readByte, transact_quiet hq]

theorem writeWord_quiet {s : State} (hq : s.quiet = true) (a w : Word) :
    writeWord a w s = busWriteWord a w (s.noted .writeWord a w) := by
  rw [writeWord, transact_quiet (s := s.setQ w) hq]
  rfl

theorem writeByte_quiet {s : State} (hq : s.quiet = true) (a : Word) (v : Byte) :
    writeByte a v s = busWriteByte a v (s.noted .writeByte a (byteInQ v)) := by
  rw [writeByte, transact_quiet (s := s.setQ (byteInQ v)) hq]
  rfl

/-- An external slave of the kind `k` serves an address (R95). -/
def State.servedBy (s : State) (a : Word) (k : Slave) : Prop :=
  s.ownBlock a = false ∧ s.chipAt a = none ∧ s.slaveAt a = k

theorem State.servedBy.slave {s : State} {a : Word} {k : Slave} (h : s.servedBy a k) : s.slaveAt a = k := h.2.2

/-- Which slave serves an address depends on the configuration and the platform only. -/
theorem servedBy_congr {s t : State} (hc : t.cfg = s.cfg) (hp : t.plat = s.plat) {a : Word} {k : Slave}
    (h : s.servedBy a k) : t.servedBy a k := by
  obtain ⟨hb, hchip, hs⟩ := h
  refine ⟨?_, ?_, (slaveAt_congr hc hp a).trans hs⟩
  · rw [State.ownBlock, hc]; exact hb
  · rw [State.chipAt, hp]; exact hchip

/-- One slave serves both bytes of a word. -/
theorem servedBy_evenAddr {s : State} {a : Word} {k : Slave} (h : s.servedBy a k) : s.servedBy (evenAddr a) k := by
  obtain ⟨hb, hchip, hs⟩ := h
  exact ⟨(ownBlock_evenAddr s a).trans hb, (chipAt_evenAddr s a).trans hchip, (slaveAt_evenAddr s a).trans hs⟩

/-- A transaction that an external slave serves (R95). -/
theorem decoded_servedBy {α : Type} {s : State} {a : Word} {k : Slave} (h : s.servedBy a k)
    (block ext : State → Res α) : decoded a block ext s = ext s := by
  obtain ⟨hb, hc, _⟩ := h
  rw [decoded, hb, hc]
  exact if_neg Bool.false_ne_true

end Sys2Proof.Machine
end

section
/-! A slave that never releases nRPLY, and the hardware reset that ends the hang (O12). -/

namespace Sys2Proof.Machine

/-! ### The transaction that hangs -/

theorem busReadWord_hangs {s : State} {a : Word} (h : s.servedBy a .hang) :
    busReadWord a s = .abort (.hang true) s.hang := by
  rw [busReadWord, decoded_servedBy h, extReadWord, h.slave]

theorem busReadLanes_hangs {s : State} {a : Word} (h : s.servedBy a .hang) :
    busReadLanes a s = .abort (.hang true) s.hang :=
  busReadWord_hangs (servedBy_evenAddr h)

theorem busWriteWord_hangs {s : State} {a : Word} (h : s.servedBy a .hang) (w : Word) :
    busWriteWord a w s = .abort (.hang true) s.hang := by
  rw [busWriteWord, decoded_servedBy h, extWriteWord, h.slave]

theorem busWriteByte_hangs {s : State} {a : Word} (h : s.servedBy a .hang) (v : Byte) :
    busWriteByte a v s = .abort (.hang true) s.hang := by
  rw [busWriteByte, decoded_servedBy h, extWriteByte, h.slave]

/-- A word read of a slave that hangs (R76, R81). -/
theorem readWord_hangs {s : State} {a : Word} (hq : s.quiet = true) (h : s.servedBy a .hang) :
    readWord a s = .abort (.hang true) (s.latch .readWord a).hang := by
  rw [readWord_quiet hq, busReadWord_hangs (s := s.latch .readWord a) (servedBy_congr rfl rfl h)]
  rfl

/-- A byte read of a slave that hangs (R77, R81). -/
theorem readByte_hangs {s : State} {a : Word} (hq : s.quiet = true) (h : s.servedBy a .hang) :
    readByte a s = .abort (.hang true) (s.latch .readByte a).hang := by
  rw [readByte_quiet hq, busReadLanes_hangs (s := s.latch .readByte a) (servedBy_congr rfl rfl h)]
  rfl

/-- A word write to a slave that hangs (R78, R81). -/
theorem writeWord_hangs {s : State} {a : Word} (hq : s.quiet = true) (h : s.servedBy a .hang) (w : Word) :
    writeWord a w s = .abort (.hang true) (s.noted .writeWord a w).hang :=
  (writeWord_quiet hq a w).trans (busWriteWord_hangs (s := s.noted .writeWord a w) (servedBy_congr rfl rfl h) w)

/-- A byte write to a slave that hangs (R78, R81). -/
theorem writeByte_hangs {s : State} {a : Word} (hq : s.quiet = true) (h : s.servedBy a .hang) (v : Byte) :
    writeByte a v s = .abort (.hang true) (s.noted .writeByte a (byteInQ v)).hang :=
  (writeByte_quiet hq a v).trans
    (busWriteByte_hangs (s := s.noted .writeByte a (byteInQ v)) (servedBy_congr rfl rfl h) v)

/-- An acknowledge read whose answer the device holds (R81, R99, R117). -/
theorem ackRead_holds {s : State} {reply : IackReply} {rest : List IackReply} (hq : s.quiet = true)
    (hi : s.plat.iack = reply :: rest) (hh : reply.holds = true) :
    ackRead s = .abort (.hang true)
      { s.hang with micro := (s.latchOp .ackRead).micro, plat := { s.plat with iack := rest } } := by
  have taken : takeAck (s.latchOp .ackRead) = .abort (.hang true)
      { s.hang with micro := (s.latchOp .ackRead).micro, plat := { s.plat with iack := rest } } := by
    rw [takeAck, show (s.latchOp .ackRead).plat.iack = reply :: rest from hi]
    exact if_pos hh
  rw [ackRead, tenure_quiet (s := s.latchOp .ackRead) ((quiet_congr rfl rfl).trans hq), andThen_ok, taken]
  rfl

/-- A step whose fetch hangs: PC is advanced, no instruction is executed (R24, R81). -/
theorem step_fetch_hangs {s : State} (hq : s.quiet = true) (hd : s.plat.pins.dcloLow = false) (hh : s.per.hlt = false)
    (hr : s.seq.retry = false) (hl : s.seq.irLoaded = false) (hn : s.seq.shadow = none)
    (h : s.servedBy (s.reg .pc) .hang) :
    ∃ m, step s = .next { (s.setReg .pc (s.reg .pc + 2)).hang with micro := m } := by
  let u := s.setReg .pc (s.reg .pc + 2)
  have read := readWord_hangs (s := u) (a := s.reg .pc) hq (servedBy_congr (s := s) rfl rfl h)
  have fetched : fetch s = .abort (.hang true) ((u.latch .readWord (s.reg .pc)).hang.waitAt s.fetchPoint) := by
    simp only [fetch, hn]
    rw [read, waitsAt_hang, andThen_abort]
  refine ⟨((u.latch .readWord (s.reg .pc)).waitAt s.fetchPoint).micro, ?_⟩
  rw [step_quiet (quiet_iff.1 hq).1, cycle, if_neg (by simp [held_false hq hd]), if_neg (by simp [hh]),
    if_neg (by simp [hr]), if_neg (by simp [hl]), fetched]
  rfl

/-! ### While the bus hangs, and its end -/

/-- A processor that is held does nothing (R382, R431, R449). -/
theorem cycle_held {s : State} (h : s.held = true) : cycle s = .next s := if_pos h

/-- Without a rise of nACLO a poll that names no latch changes nothing (R43). -/
theorem polled_unlatched {s : State} (hi : s.ints.acin = false) {a : Answer} (hr : a.rearm = 0b111) :
    s.polled a = s := by
  have same : { s.ints with acok := s.ints.acok || s.ints.acin } = s.ints := by
    refine interrupts_ext ?_ rfl rfl rfl rfl rfl rfl rfl rfl
    show (s.ints.acok || s.ints.acin) = _
    rw [hi, Bool.or_false]
  rw [State.polled, hr]
  show ({ s with ints := { s.ints with acok := s.ints.acok || s.ints.acin } } : State) = s
  rw [same]

/-- Before power is good and without a rise of nACLO a dispatch waits for the start: the word in IR stays, and nothing else
changes but the hidden registers (R43, R382). -/
theorem dispatch_unstarted {s : State} (hp : s.seq.pollEnabled = true) (ha : s.ints.acok = false)
    (hi : s.ints.acin = false) (m : Micro) : ∃ m', dispatch { s with micro := m, seq := { s.seq with irLoaded := true } } =
      .next { s with micro := m', seq := { s.seq with irLoaded := true, waiting := false } } := by
  obtain ⟨m', e⟩ := dispatch_polled hp m
  have answer : matrix s = ⟨0b000, .powerFail, 0b111⟩ := by
    rw [matrix_start ha, hi]
    rfl
  rw [answer, polled_unlatched (s := { s with seq := { s.seq with irLoaded := false } }) hi rfl] at e
  refine ⟨m', e.trans ?_⟩
  show Host.Outcome.next { s with micro := m', seq := { s.seq with irLoaded := true, waiting := s.ints.acok } } = _
  rw [ha]

/-- `s` after a pulse on nDCLO: the hardware reset, with nDCLO high and nINIT released again (R430 a). -/
def State.afterPulse (s : State) : State :=
  { s.hardwareReset with
    plat := { s.hardwareReset.plat with pins := { s.plat.pins with dcloLow := false, initOut := false } } }

/-- The fall and the rise of nDCLO, where it was high (R430 a). -/
theorem applyEvents_dcloPulse {s : State} (h : s.plat.pins.dcloLow = false) :
    applyEvents [.dclo true, .dclo false] s = .ok () s.afterPulse := by
  rw [applyEvents, applyEvent_dcloFall h]
  rfl

/-- A step before which nDCLO pulses waits for the start: whatever was under way is gone (R382, R430 a). -/
theorem step_dcloPulse {s : State} {later : List (List Event)} (hd : s.plat.pins.dcloLow = false)
    (hi : s.inputs = [.dclo true, .dclo false] :: later) :
    ∃ m, step s = .next { State.afterPulse { s with inputs := later } with micro := m } := by
  let u := State.afterPulse { s with inputs := later }
  have taken : takeInputs s = .ok () u := by
    rw [takeInputs, hi]
    exact applyEvents_dcloPulse (s := { s with inputs := later }) hd
  have run : step s = dispatch u := by
    show fullStep s = _
    rw [fullStep, taken]
    rfl
  obtain ⟨m, e⟩ := dispatch_unstarted (s := u) rfl rfl rfl u.micro
  exact ⟨m, run.trans e⟩

/-- An action of the environment that completes, other than a fall of nDCLO (R430). -/
theorem outside_applyEvent {e : Event} (he : e ≠ .dclo true) {s t : State} (h : applyEvent e s = .ok () t) :
    Outside s t := by
  have g := outside_event he s
  rwa [h] at g

/-- Settles O12: each transaction with a slave that hangs, the step that fetches from one, a step while the bus hangs, each
action of the environment short of a hardware reset, and the step after one. -/
theorem hangEndsByReset : Obligations.HangEndsByReset := by
  refine ⟨fun s a hq hb hc hs => ?_, fun s reply rest hq hi hh => ⟨_, ackRead_holds hq hi hh⟩,
    fun s hq hd hh hr hl hn hb hc hs => step_fetch_hangs hq hd hh hr hl hn ⟨hb, hc, hs⟩,
    fun s hh hi => (step_quiet hi).trans (cycle_held (by simp [State.held, hh])), fun e s t he hh h => ?_,
    fun s later _ hd hi => ?_⟩
  · have h : s.servedBy a .hang := ⟨hb, hc, hs⟩
    exact ⟨⟨_, readWord_hangs hq h⟩, ⟨_, readByte_hangs hq h⟩, fun w => ⟨_, writeWord_hangs hq h w⟩,
      fun v => ⟨_, writeByte_hangs hq h v⟩⟩
  · have g := outside_applyEvent he h
    exact ⟨g.hung hh, g.regs, g.psw⟩
  · obtain ⟨m, e⟩ := step_dcloPulse hd hi
    exact ⟨_, e, rfl, rfl, rfl, rfl, rfl, rfl⟩

end Sys2Proof.Machine
end

section
/-! The actions of the environment before a transaction (O11). -/

namespace Sys2Proof.Machine

/-- The next list of actions brings a hardware reset where a fall of nDCLO is among them. -/
theorem resetComes_cons {s : State} {now : List Event} {later : List (List Event)} (h : s.inputs = now :: later) :
    s.resetComes = true ↔ .dclo true ∈ now := by
  simp [State.resetComes, h]

/-- A tenure after the next list of actions, which leads to `u`: it begins in `u`, unless that list hangs the bus or brings a
hardware reset (R80, R134, R382, R449). -/
theorem tenure_taken {s u : State} {now : List Event} {later : List (List Event)} (h : s.inputs = now :: later)
    (happ : applyEvents now { s with inputs := later } = .ok () u) :
    (.dclo true ∉ now → u.seq.hung = false → tenure s = .ok () u) ∧
    (.dclo true ∉ now → u.seq.hung = true → tenure s = .abort (.hang false) u) ∧
    (.dclo true ∈ now → tenure s = .abort .reset u) := by
  have taken : tenure s =
      if s.resetComes then .abort .reset u else if u.seq.hung then .abort (.hang false) u else .ok () u := by
    rw [tenure, takeInputs, h]
    simp only [happ, andThen_ok]
  have reset := resetComes_cons h
  refine ⟨fun hn hu => ?_, fun hn hu => ?_, fun hr => ?_⟩
  · rw [taken, if_neg (mt reset.1 hn), hu]; rfl
  · rw [taken, if_neg (mt reset.1 hn), if_pos hu]
  · rw [taken, if_pos (reset.2 hr)]

/-- A word read is a tenure, then the read on the bus in the state in which the tenure began (R76, R80). -/
theorem readWord_eq (a : Word) (s : State) :
    readWord a s = (tenure (s.latch .readWord a)).andThen fun _ u => readToQ (busReadWord a u) := rfl

/-- A word write is a tenure, its data in Q already, then the write on the bus (R78, R80, R472). -/
theorem writeWord_eq (a w : Word) (s : State) :
    writeWord a w s = (tenure (s.noted .writeWord a w)).andThen fun _ u => busWriteWord a w u := rfl

/-- While nDCLO is high an action that changes something is all that happens. -/
theorem applyEvents_one {e : Event} {s u : State} (h : eventEffect e s = .ok () u) (hd : u.plat.pins.dcloLow = false) :
    applyEvents [e] s = .ok () u := by
  simp only [applyEvents, applyEvent, h, andThen_ok, holdReset_of_high hd]

/-- Another master writes a word of RAM (R80). -/
theorem applyEvents_busWrite_ram {s : State} {a : Word} (hh : s.seq.hung = false) (hd : s.plat.pins.dcloLow = false)
    (hr : s.isRam a = true) (ho : isOdd a = false) (w : Word) :
    applyEvents [.busWrite a w] s = .ok () (s.putWord a w) := by
  refine applyEvents_one ?_ hd
  simp only [eventEffect, foreign, hh, busWriteWord_ram hr ho, Bool.false_eq_true, if_false]

/-- CLC periods pass (R397). -/
theorem applyEvents_clocks {s : State} (hd : s.plat.pins.dcloLow = false) (n : Nat) :
    applyEvents [.clocks n] s = .ok () (s.advance n) := applyEvents_one rfl hd

/-- A read sees the word that another master has written just before it (R80, R90). -/
theorem readWord_after_busWrite {s : State} {a w : Word} {later : List (List Event)} (hh : s.seq.hung = false)
    (hd : s.plat.pins.dcloLow = false) (hm : s.mem.wf = true) (hr : s.isRam a = true) (ho : isOdd a = false)
    (hi : s.inputs = [.busWrite a w] :: later) :
    Gives (readWord a s) w ({ s with inputs := later }.putWord a w) := by
  let v : State := { s.latch .readWord a with inputs := later }
  have wrote := applyEvents_busWrite_ram (s := v) hh hd ((isRam_congr (s := s) rfl rfl a).trans hr) ho w
  have begins := (tenure_taken (s := s.latch .readWord a) hi wrote).1 (by simp) hh
  refine ⟨((s.latch .readWord a).setQ w).micro, ?_⟩
  rw [readWord_eq, begins, andThen_ok, busReadWord_ram (s := v.putWord a w) ((isRam_congr (s := s) rfl rfl a).trans hr) ho,
    memWord_putWord v hm a w]
  rfl

/-- A read of TVE_COUNT sees the time that passed just before it (R397). -/
theorem readCount_after_clocks {s : State} {n : Nat} {later : List (List Event)} (hh : s.seq.hung = false)
    (hd : s.plat.pins.dcloLow = false) (ha : s.cfg.timerAlive = true) (hw : (Timer.clocks n s.timer).window = 0)
    (hi : s.inputs = [.clocks n] :: later) :
    ∃ t, readWord (blockAddr s 8 false) s = .ok (Timer.clocks n s.timer).count t ∧ t.timer = Timer.clocks n s.timer := by
  let a := blockAddr s 8 false
  let v : State := { s.latch .readWord a with inputs := later }
  let u : State := v.advance n
  obtain ⟨hb, hp, _⟩ := blockAddr_offset u .count false
  have settled : u.pregReads .count :=
    ⟨not_pregBusy (by decide) u, by simp [State.pregFree, show u.cfg.timerAlive = true from ha], fun _ => hw⟩
  have begins := (tenure_taken (s := s.latch .readWord a) hi (applyEvents_clocks (s := v) hd n)).1 (by simp) hh
  have read := busReadWord_settled hb (by rw [hp]; exact settled)
  rw [hp] at read
  refine ⟨u.setQ (Timer.clocks n s.timer).count, ?_, rfl⟩
  rw [readWord_eq, begins, andThen_ok]
  exact congrArg readToQ read

/-- Nothing comes between the phases of a read-modify-write of RAM, whatever is to come after it (R79, R122, R134). -/
theorem rmwWord_before_later {s : State} {a : Word} {α : Type} (f : Word → Word × α) {later : List (List Event)}
    (hh : s.seq.hung = false) (hr : s.isRam a = true) (ho : isOdd a = false) (hi : s.inputs = [] :: later) :
    Gives (rmwWord a f s) (f (s.memWord a)).2 ({ s with inputs := later }.putWord a (f (s.memWord a)).1) := by
  let u : State := { s.latch .rmwWord a with inputs := later }
  let o := s.memWord a
  have begins : tenure (s.latch .rmwWord a) = .ok () u := (tenure_taken (s := s.latch .rmwWord a) hi rfl).1 (by simp) hh
  have read : busReadWord a u = .ok o u := busReadWord_ram ((isRam_congr (s := s) rfl rfl a).trans hr) ho
  refine ⟨(u.setQ (f o).1).micro, ?_⟩
  rw [rmwWord, transact, begins, andThen_ok, read]
  show ((busWriteWord a (f o).1 ((u.setQ o).setQ (f o).1)).andThen fun _ s => .ok (f o).2 s) = _
  rw [busWriteWord_ram (s := (u.setQ o).setQ (f o).1) ((isRam_congr (s := s) rfl rfl a).trans hr) ho]
  rfl

/-- Settles O11: the tenure of a read and of a write after a list of actions, what such a list did as the transaction sees
it, and a read-modify-write as one tenure. -/
theorem environmentActsBetweenTransactions : Obligations.EnvironmentActsBetweenTransactions := by
  refine ⟨fun s u now later a hi => ⟨fun happ => ?_, fun w happ => ?_⟩,
    fun s a w later hh hd hm hr ho hi => readWord_after_busWrite hh hd hm hr ho hi,
    fun s n later hh hd ha hw hi => readCount_after_clocks hh hd ha hw hi,
    fun s a f later hh hr ho hi => rmwWord_before_later f hh hr ho hi⟩
  · obtain ⟨begins, hangs, resets⟩ := tenure_taken (s := s.latch .readWord a) hi happ
    exact ⟨fun hn hu => by rw [readWord_eq, begins hn hu, andThen_ok],
      fun hn hu => by rw [readWord_eq, hangs hn hu, andThen_abort],
      fun hr => by rw [readWord_eq, resets hr, andThen_abort]⟩
  · obtain ⟨begins, hangs, resets⟩ := tenure_taken (s := s.noted .writeWord a w) hi happ
    exact ⟨fun hn hu => by rw [writeWord_eq, begins hn hu, andThen_ok],
      fun hn hu => by rw [writeWord_eq, hangs hn hu, andThen_abort],
      fun hr => by rw [writeWord_eq, resets hr, andThen_abort]⟩

end Sys2Proof.Machine
end

section
/-! The slaves of the platform: RAM at odd addresses, ROM, devices, and the registers of another chip (O56). -/

namespace Sys2Proof.Machine

/-! ### RAM at odd addresses -/

/-- The word address of an odd address is the address before it. -/
theorem evenAddr_eq_pred {a : Word} (h : isOdd a = true) : evenAddr a = a - 1 := by
  have e := evenAddr_odd h
  bv_omega

/-- A word read of RAM at an odd address on the bus, by the policy (R74, D5). -/
theorem busReadWord_odd {s : State} {a : Word} (hr : s.isRam a = true) (ho : isOdd a = true) :
    (s.cfg.oddWord = .refuse → busReadWord a s = .abort (.refused .oddWordAccess) s) ∧
    (s.cfg.oddWord = .ignoreBit0 → busReadWord a s = .ok (s.memWord (a - 1)) s) ∧
    (s.cfg.oddWord = .platform → busReadWord a s = .ok s.freshWord s.useFree) := by
  have ram : s.servedBy a .ram := isRam_iff.1 hr
  rw [busReadWord, decoded_servedBy ram, extReadWord, ram.slave, ← evenAddr_eq_pred ho]
  exact ⟨fun hp => by simp [ho, hp], fun hp => by simp [hp], fun hp => by simp [ho, hp]⟩

/-- A word write to RAM at an odd address on the bus, by the policy (R74, D5). -/
theorem busWriteWord_odd {s : State} {a : Word} (hr : s.isRam a = true) (ho : isOdd a = true) (w : Word) :
    (s.cfg.oddWord = .refuse → busWriteWord a w s = .abort (.refused .oddWordAccess) s) ∧
    (s.cfg.oddWord = .ignoreBit0 → busWriteWord a w s = .ok () (s.putWord (a - 1) w)) ∧
    (s.cfg.oddWord = .platform → busWriteWord a w s = .ok () (s.scramble a)) := by
  have ram : s.servedBy a .ram := isRam_iff.1 hr
  rw [busWriteWord, decoded_servedBy ram, extWriteWord, ram.slave, ← evenAddr_eq_pred ho]
  exact ⟨fun hp => by simp [ho, hp], fun hp => by simp [hp], fun hp => by simp [ho, hp]⟩

/-- A word read of RAM at an odd address by the processor block (R74, D5). -/
theorem readWord_odd {s : State} {a : Word} (hq : s.quiet = true) (hr : s.isRam a = true) (ho : isOdd a = true) :
    (s.cfg.oddWord = .refuse → ∃ m, readWord a s = .abort (.refused .oddWordAccess) { s with micro := m }) ∧
    (s.cfg.oddWord = .ignoreBit0 → Gives (readWord a s) (s.memWord (a - 1)) s) ∧
    (s.cfg.oddWord = .platform → Gives (readWord a s) s.freshWord s.useFree) := by
  obtain ⟨refused, even, free⟩ :=
    busReadWord_odd (s := s.latch .readWord a) ((isRam_congr (s := s) rfl rfl a).trans hr) ho
  have read : ∀ {r}, busReadWord a (s.latch .readWord a) = r → readWord a s = readToQ r := fun e =>
    (readWord_quiet hq a).trans (congrArg readToQ e)
  exact ⟨fun hp => ⟨_, read (refused hp)⟩, fun hp => ⟨_, read (even hp)⟩, fun hp => ⟨_, read (free hp)⟩⟩

/-- The write of a free word keeps the canonical form, and leaves every byte outside the word (R71). -/
theorem putFree_frame {s : State} (hm : s.mem.wf = true) (a : Word) :
    (s.putWord a s.freshWord).useFree.mem.wf = true ∧
    ∀ b, b ≠ a → b ≠ a + 1 → (s.putWord a s.freshWord).useFree.readByteAt b = s.readByteAt b := by
  refine ⟨wf_putWord s hm a _, fun b h h1 => ?_⟩
  have bytes := readByteAt_putWord s hm a s.freshWord b
  rw [if_neg h1, if_neg h] at bytes
  exact (readByteAt_congr (s := s.putWord a s.freshWord) rfl rfl rfl b).trans bytes

/-- The platform's write at an odd address changes memory and uses free values, and of memory only the two words it
touches (R74, D5). -/
theorem scramble_frame {s : State} (hm : s.mem.wf = true) {a : Word} (ho : isOdd a = true) :
    s.scramble a = { s with mem := (s.scramble a).mem, freeCtr := (s.scramble a).freeCtr } ∧
    (s.scramble a).mem.wf = true ∧
    ∀ b, b ≠ a - 1 → b ≠ a → b ≠ a + 1 → b ≠ a + 2 → (s.scramble a).readByteAt b = s.readByteAt b := by
  obtain ⟨wf1, low⟩ := putFree_frame hm (evenAddr a)
  rw [evenAddr_odd ho] at low
  have only1 : (s.putWord (evenAddr a) s.freshWord).useFree = { s with
      mem := (s.putWord (evenAddr a) s.freshWord).useFree.mem
      freeCtr := (s.putWord (evenAddr a) s.freshWord).useFree.freeCtr } := rfl
  unfold State.scramble
  generalize (s.putWord (evenAddr a) s.freshWord).useFree = s1 at wf1 low only1 ⊢
  rw [evenAddr_eq_pred ho] at low
  dsimp only
  split
  · obtain ⟨wf2, high⟩ := putFree_frame wf1 (a + 1)
    rw [show a + 1 + 1 = a + 2 by bv_omega] at high
    refine ⟨?_, wf2, fun b h h0 h1 h2 => (high b h1 h2).trans (low b h h0)⟩
    rw [only1]
    rfl
  · exact ⟨only1, wf1, fun b h h0 _ _ => low b h h0⟩

/-- A word write to RAM at an odd address by the processor block (R74, D5). -/
theorem writeWord_odd {s : State} {a : Word} (hq : s.quiet = true) (hr : s.isRam a = true) (ho : isOdd a = true)
    (w : Word) :
    (s.cfg.oddWord = .refuse → ∃ m, writeWord a w s = .abort (.refused .oddWordAccess) { s with micro := m }) ∧
    (s.cfg.oddWord = .ignoreBit0 → Gives (writeWord a w s) () (s.putWord (a - 1) w)) ∧
    (s.cfg.oddWord = .platform → ∃ m, writeWord a w s = .ok () (State.scramble { s with micro := m } a)) := by
  obtain ⟨refused, even, free⟩ :=
    busWriteWord_odd (s := s.noted .writeWord a w) ((isRam_congr (s := s) rfl rfl a).trans hr) ho w
  have write := writeWord_quiet hq a w
  exact ⟨fun hp => ⟨_, write.trans (refused hp)⟩, fun hp => ⟨_, write.trans (even hp)⟩,
    fun hp => ⟨_, write.trans (free hp)⟩⟩

/-! ### ROM -/

/-- A word read of ROM (R87, R95). -/
theorem busReadWord_rom {s : State} {a : Word} {b : Bool} (h : s.servedBy a (.rom b)) (ho : isOdd a = false) :
    busReadWord a s = .ok (s.memWord a) s := by
  rw [busReadWord, decoded_servedBy h, extReadWord, h.slave]
  simp [ho, evenAddr_even ho]

/-- A byte read of ROM transfers the word (R77, R87). -/
theorem busReadLanes_rom {s : State} {a : Word} {b : Bool} (h : s.servedBy a (.rom b)) :
    busReadLanes a s = .ok (s.memWord (evenAddr a)) s := busReadWord_rom (servedBy_evenAddr h) (isOdd_evenAddr a)

/-- A word write to ROM stores nothing; the ROM replies or not (R87, R95). -/
theorem busWriteWord_rom {s : State} {a : Word} {b : Bool} (h : s.servedBy a (.rom b)) (ho : isOdd a = false) (w : Word) :
    busWriteWord a w s = if b then .ok () s else .abort (.timeout .data) s := by
  rw [busWriteWord, decoded_servedBy h, extWriteWord, h.slave]
  cases b <;> simp [ho]

/-- A byte write to ROM stores nothing; the ROM replies or not (R87, R95). -/
theorem busWriteByte_rom {s : State} {a : Word} {b : Bool} (h : s.servedBy a (.rom b)) (v : Byte) :
    busWriteByte a v s = if b then .ok () s else .abort (.timeout .data) s := by
  rw [busWriteByte, decoded_servedBy h, extWriteByte, h.slave]
  cases b <;> rfl

/-- A word read of ROM by the processor block (R76, R87). -/
theorem readWord_rom {s : State} {a : Word} {b : Bool} (hq : s.quiet = true) (h : s.servedBy a (.rom b))
    (ho : isOdd a = false) : Gives (readWord a s) (s.memWord a) s := by
  refine ⟨(s.noted .readWord a (s.memWord a)).micro, ?_⟩
  rw [readWord_quiet hq, busReadWord_rom (s := s.latch .readWord a) (servedBy_congr rfl rfl h) ho]
  rfl

/-- A byte read of ROM by the processor block (R77, R87). -/
theorem readByte_rom {s : State} {a : Word} {b : Bool} (hq : s.quiet = true) (h : s.servedBy a (.rom b)) :
    Gives (readByte a s) (s.readByteAt a) s := by
  refine ⟨(s.noted .readByte a (s.memWord (evenAddr a))).micro, ?_⟩
  rw [readByte_quiet hq, busReadLanes_rom (s := s.latch .readByte a) (servedBy_congr rfl rfl h)]
  exact congrArg (fun v => Res.ok v (s.noted .readByte a (s.memWord (evenAddr a)))) (laneOf_memWord s a)

/-- The writes of the processor block to ROM (R78, R87). -/
theorem write_rom {s : State} {a : Word} {b : Bool} (hq : s.quiet = true) (h : s.servedBy a (.rom b))
    (ho : isOdd a = false) (w : Word) (v : Byte) :
    (b = true → Gives (writeWord a w s) () s ∧ Gives (writeByte a v s) () s) ∧
    (b = false → TimesOut (writeWord a w s) s ∧ TimesOut (writeByte a v s) s) := by
  have word := (writeWord_quiet hq a w).trans
    (busWriteWord_rom (s := s.noted .writeWord a w) (servedBy_congr rfl rfl h) ho w)
  have byte := (writeByte_quiet hq a v).trans
    (busWriteByte_rom (s := s.noted .writeByte a (byteInQ v)) (servedBy_congr rfl rfl h) v)
  refine ⟨fun hb => ?_, fun hb => ?_⟩ <;> subst hb
  · exact ⟨⟨_, word⟩, ⟨_, byte⟩⟩
  · exact ⟨⟨_, word⟩, ⟨_, byte⟩⟩

/-! ### The registers of another chip -/

/-- The block of another chip takes a word read as the own block of that chip does (R95, R98). -/
theorem busReadWord_chip {s : State} {a : Word} {c : Chip} (hb : s.ownBlock a = false) (hc : s.chipAt a = some c)
    (hown : (s.asChip c).ownBlock a = true) : busReadWord a s = chipAccess c (busReadWord a) s := by
  have reach : busReadWord a s = chipAccess c (readPreg (pregOf a)) s := by simp only [busReadWord, decoded, hb, hc]; rfl
  rw [reach, chipAccess, chipAccess, busReadWord_own hown]

/-- The block of another chip takes a word write as the own block of that chip does (R95, R98). -/
theorem busWriteWord_chip {s : State} {a : Word} {c : Chip} (hb : s.ownBlock a = false) (hc : s.chipAt a = some c)
    (hown : (s.asChip c).ownBlock a = true) (w : Word) : busWriteWord a w s = chipAccess c (busWriteWord a w) s := by
  have reach : busWriteWord a w s = chipAccess c (writePreg (pregOf a) w) s := by
    simp only [busWriteWord, decoded, hb, hc]; rfl
  rw [reach, chipAccess, chipAccess, busWriteWord_own hown]

/-- An access that changes nothing in the block of another chip changes nothing (R98). -/
theorem putChip_asChip (s : State) (c : Chip) : s.putChip c (s.asChip c) = s := by
  have same : ∀ d : Chip, (if d = c then c else d) = d := fun d => by
    split
    · rename_i h; exact h.symm
    · rfl
  show ({ s with plat := { s.plat with chips := s.plat.chips.map fun d => if d = c then c else d } } : State) = s
  simp only [same, List.map_id']

/-- An address of a block lies in the block of its own chip and of no other (R50). -/
theorem inBlock_chipAddr (p : PReg) (m n : BitVec 2) (odd : Bool) :
    inBlock m (chipAddr n p.offset odd) = (m == n) := by
  cases p <;> revert m n odd <;> decide

/-- `c` is the other chip that answers at the addresses of its block (R95). -/
def State.hasChip (s : State) (c : Chip) : Prop :=
  c.cfg.ncpu ≠ s.cfg.ncpu ∧ s.plat.chips.find? (fun d => d.cfg.ncpu == c.cfg.ncpu) = some c

/-- Who answers at one address of a block answers at each (R50, R95). -/
theorem chipAt_chipAddr (s : State) (p : PReg) (n : BitVec 2) (odd : Bool) :
    s.chipAt (chipAddr n p.offset odd) = s.plat.chips.find? fun d => d.cfg.ncpu == n := by
  simp only [State.chipAt, inBlock_chipAddr]

/-- Where the addresses of the block of a chip lead (R50, R95, R400). -/
theorem hasChip_addr {s : State} {c : Chip} (h : s.hasChip c) (p : PReg) (odd : Bool) :
    s.ownBlock (chipAddr c.cfg.ncpu p.offset odd) = false ∧ s.chipAt (chipAddr c.cfg.ncpu p.offset odd) = some c ∧
    (s.asChip c).ownBlock (chipAddr c.cfg.ncpu p.offset odd) = true ∧ pregOf (chipAddr c.cfg.ncpu p.offset odd) = p := by
  obtain ⟨hne, hfind⟩ := h
  obtain ⟨hin, hp, _⟩ := chipAddr_offset p c.cfg.ncpu odd
  refine ⟨?_, (chipAt_chipAddr s p _ odd).trans hfind, hin, hp⟩
  rw [State.ownBlock, inBlock_chipAddr]
  exact beq_eq_false_iff_ne.2 (Ne.symm hne)

/-- A word read of a settled register of another chip (R400). -/
theorem readWord_chip {s : State} {c : Chip} {p : PReg} (hq : s.quiet = true) (h : s.hasChip c)
    (hp : (s.asChip c).pregReads p) (odd : Bool) :
    Gives (readWord (chipAddr c.cfg.ncpu p.offset odd) s) ((s.asChip c).pregWord p) s := by
  generalize ha : chipAddr c.cfg.ncpu p.offset odd = a
  let u := s.latch .readWord a
  obtain ⟨hb, hc, hown, hreg⟩ := ha ▸ hasChip_addr (s := u) h p odd
  have read := busReadWord_settled (s := u.asChip c) hown (by rw [hreg]; exact hp)
  refine ⟨(u.setQ ((s.asChip c).pregWord p)).micro, ?_⟩
  rw [readWord_quiet hq, busReadWord_chip (s := u) hb hc hown, chipAccess, read, hreg]
  show readToQ (.ok ((s.asChip c).pregWord p) (u.putChip c (u.asChip c))) = _
  rw [putChip_asChip]
  rfl

/-- A word read of a busy register of another chip (R52). -/
theorem readWord_chip_busy {s : State} {c : Chip} {p : PReg} (hq : s.quiet = true) (h : s.hasChip c)
    (hp : (s.asChip c).pregBusy p) (odd : Bool) : TimesOut (readWord (chipAddr c.cfg.ncpu p.offset odd) s) s := by
  generalize ha : chipAddr c.cfg.ncpu p.offset odd = a
  let u := s.latch .readWord a
  obtain ⟨hb, hc, hown, hreg⟩ := ha ▸ hasChip_addr (s := u) h p odd
  have busy := busReadWord_busy (s := u.asChip c) hown (by rw [hreg]; exact hp)
  refine ⟨u.micro, ?_⟩
  rw [readWord_quiet hq, busReadWord_chip (s := u) hb hc hown, chipAccess, busy]
  rfl

/-- A word write to a register of another chip (R98, R400). -/
theorem writeWord_chip {s : State} {c : Chip} {p : PReg} (hq : s.quiet = true) (h : s.hasChip c)
    (hp : ¬ (s.asChip c).pregBusy p) (odd : Bool) (w : Word) :
    Gives (writeWord (chipAddr c.cfg.ncpu p.offset odd) w s) () (s.putChip c ((s.asChip c).putPreg p w)) := by
  generalize ha : chipAddr c.cfg.ncpu p.offset odd = a
  let u := s.noted .writeWord a w
  obtain ⟨hb, hc, hown, hreg⟩ := ha ▸ hasChip_addr (s := u) h p odd
  have wrote := busWriteWord_free (s := u.asChip c) hown (by rw [hreg]; exact hp) w
  refine ⟨u.micro, ?_⟩
  rw [writeWord_quiet hq, busWriteWord_chip (s := u) hb hc hown, chipAccess, wrote, hreg]
  show Res.ok () (u.putChip c (State.putPreg { s.asChip c with micro := u.micro } p w)) = _
  rw [putPreg_micro]
  rfl

/-- A word write to a busy register of another chip (R52). -/
theorem writeWord_chip_busy {s : State} {c : Chip} {p : PReg} (hq : s.quiet = true) (h : s.hasChip c)
    (hp : (s.asChip c).pregBusy p) (odd : Bool) (w : Word) :
    TimesOut (writeWord (chipAddr c.cfg.ncpu p.offset odd) w s) s := by
  generalize ha : chipAddr c.cfg.ncpu p.offset odd = a
  let u := s.noted .writeWord a w
  obtain ⟨hb, hc, hown, hreg⟩ := ha ▸ hasChip_addr (s := u) h p odd
  have busy := busWriteWord_busy (s := u.asChip c) hown (by rw [hreg]; exact hp) w
  refine ⟨u.micro, ?_⟩
  rw [writeWord_quiet hq, busWriteWord_chip (s := u) hb hc hown, chipAccess, busy]
  rfl

/-- What a word write to TVE_LIMIT and to TVE_CSR of a timer that works leaves in another chip (R54, R395, R399). -/
theorem putChip_timer {s : State} {c : Chip} (ha : c.cfg.timerAlive = true) (w : Word) :
    s.putChip c ((s.asChip c).putPreg .limit w) = s.withChip c { c with timer := { c.timer with limit := w } } ∧
    s.putChip c ((s.asChip c).putPreg .csr w) = s.withChip c { c with
      timer := { c.timer with csr := if s.initLine then 0 else loByte w, count := c.timer.limit, window := 0 } } := by
  rw [putPreg_limit (s := s.asChip c) ha, putPreg_csr (s := s.asChip c) ha]
  exact ⟨rfl, rfl⟩

/-- The registers of another chip as word reads show them (R98, R400). -/
theorem chip_reads {s : State} {c : Chip} (hq : s.quiet = true) (h : s.hasChip c) (ha : c.cfg.timerAlive = true)
    (hw : c.timer.window = 0) (h1 : c.cfg.sel1Kind = .register) (h2 : c.cfg.sel2Kind = .register) {p : PReg}
    (hp : ¬ (s.asChip c).pregBusy p) (odd : Bool) :
    Gives (readWord (chipAddr c.cfg.ncpu p.offset odd) s) ((s.asChip c).pregWord p) s :=
  readWord_chip hq h (pregReads_of ha hw h1 h2 hp) odd

/-- Settles O56: RAM at an odd address by the policy, ROM and devices by their laws, and each register of another chip as the
own block of that chip reads and writes it. -/
theorem slavesOfThePlatform : Obligations.SlavesOfThePlatform := by
  refine ⟨fun s a hq hr ho w => ?_, fun s a w v b hq hb hc hs ho => ?_, fun s a w v onRead onWrite h ho => ?_,
    fun s c odd hq hne hat ha hw h1 h2 => ?_⟩
  · obtain ⟨readRefused, readEven, readFree⟩ := readWord_odd hq hr ho
    obtain ⟨writeRefused, writeEven, writeFree⟩ := writeWord_odd hq hr ho w
    refine ⟨fun hp => ⟨readRefused hp, writeRefused hp⟩, fun hp => ⟨readEven hp, writeEven hp⟩,
      fun hp => ⟨⟨_, readFree hp⟩, fun hm => ?_⟩⟩
    obtain ⟨m, write⟩ := writeFree hp
    obtain ⟨frame, wf, bytes⟩ := scramble_frame (s := { s with micro := m }) hm ho
    refine ⟨_, write, ?_, wf, bytes⟩
    rw [frame]
  · have rom : s.servedBy a (.rom b) := ⟨hb, hc, hs⟩
    exact ⟨readWord_rom hq rom ho, readByte_rom hq rom, write_rom hq rom ho w v⟩
  · obtain ⟨m, read⟩ := readWord_device h ho
    exact ⟨⟨_, m, read⟩, ⟨_, writeWord_device h ho w⟩, ⟨_, writeByte_device h v⟩⟩
  · have chip : s.hasChip c := ⟨hne, (chipAt_chipAddr s .mode c.cfg.ncpu odd).symm.trans hat⟩
    have shows : ∀ p, p ≠ .ivec → Gives (readWord (chipAddr c.cfg.ncpu p.offset odd) s) ((s.asChip c).pregWord p) s :=
      fun p hp => chip_reads hq chip ha hw h1 h2 (not_pregBusy hp _) odd
    refine ⟨?_, fun hi => chip_reads hq chip ha hw h1 h2 (p := .ivec) (not_pregBusy_of_clear hi _) odd,
      fun hi => readWord_chip_busy (p := .ivec) hq chip ⟨rfl, hi⟩ odd, shows .error (by decide),
      shows .limit (by decide), shows .count (by decide), shows .csr (by decide), shows .sel2 (by decide),
      shows .sel1 (by decide), fun w => ?_⟩
    · have mode := shows .mode (by decide)
      rwa [show (s.asChip c).pregWord .mode = (s.asChip c).modeWord from rfl, modeWord_eq] at mode
    · have stores : ∀ p, p ≠ .ivec → Gives (writeWord (chipAddr c.cfg.ncpu p.offset odd) w s) ()
          (s.putChip c ((s.asChip c).putPreg p w)) := fun p hp => writeWord_chip hq chip (not_pregBusy hp _) odd w
      obtain ⟨limit, csr⟩ := putChip_timer (s := s) ha w
      refine ⟨stores .mode (by decide), fun hi => writeWord_chip (p := .ivec) hq chip (not_pregBusy_of_clear hi _) odd w,
        fun hi => writeWord_chip_busy (p := .ivec) hq chip ⟨rfl, hi⟩ odd w, stores .error (by decide), ?_, ?_, ?_,
        stores .sel2 (by decide), stores .sel1 (by decide)⟩
      · rw [← limit]
        exact stores .limit (by decide)
      · have count := stores .count (by decide)
        rwa [show (s.asChip c).putPreg .count w = s.asChip c from rfl, putChip_asChip] at count
      · rw [← csr]
        exact stores .csr (by decide)

end Sys2Proof.Machine
end

section
/-! The formats of R152: the fields of an encoded word, and when a word is the encoding of its own fields. -/

namespace Sys2Proof

/-! ### Registers and operands -/

@[simp] theorem Reg.ofBits_toBits (r : Reg) : Reg.ofBits r.toBits = r := by cases r <;> rfl

@[simp] theorem Reg.toBits_ofBits : ∀ b : BitVec 3, (Reg.ofBits b).toBits = b := by decide

@[simp] theorem Operand.ofBits_toBits (o : Operand) : Operand.ofBits o.toBits = o := by
  cases o with
  | reg r => cases r <;> rfl
  | mem m r => cases m <;> cases r <;> rfl

@[simp] theorem Operand.toBits_ofBits : ∀ b : BitVec 6, (Operand.ofBits b).toBits = b := by decide

/-! ### The fields of an encoded word -/

/-- A word of format RD is one of format D1 whose opcode ends in the register. -/
theorem encRD_eq_encD1 (op : BitVec 7) (r : Reg) (dd : Operand) : encRD op r dd = encD1 (op ++ r.toBits) dd := by
  rw [encRD, encD1, BitVec.append_assoc, BitVec.cast_eq]

/-- The offset of MARK stands where format D1 has its operand (R233). -/
theorem encodeWord_mark (nn : BitVec 6) : encodeWord (.mark nn) = encD1 0o0064 (Operand.ofBits nn) := by
  rw [encD1, Operand.toBits_ofBits]; rfl

/-- The offset of SOB stands where format RD has its operand (R234). -/
theorem encodeWord_sob (r : Reg) (uu : BitVec 6) : encodeWord (.sob r uu) = encRD 0o077 r (Operand.ofBits uu) := by
  rw [encRD, Operand.toBits_ofBits]; rfl

theorem extractLsb'_encD1 {k n : Nat} (h : 6 ≤ k) (op : BitVec 10) (dd : Operand) :
    (encD1 op dd).extractLsb' k n = op.extractLsb' (k - 6) n := BitVec.extractLsb'_append_eq_of_le h

theorem extractLsb'_encRD {k n : Nat} (h : 9 ≤ k) (op : BitVec 7) (r : Reg) (dd : Operand) :
    (encRD op r dd).extractLsb' k n = op.extractLsb' (k - 9) n := BitVec.extractLsb'_append_eq_of_le h

theorem extractLsb'_encD2 {k n : Nat} (h : 12 ≤ k) (op : BitVec 4) (ss dd : Operand) :
    (encD2 op ss dd).extractLsb' k n = op.extractLsb' (k - 12) n := BitVec.extractLsb'_append_eq_of_le h

theorem extractLsb'_encBR {k n : Nat} (h : 8 ≤ k) (op bb : BitVec 8) :
    (encBR op bb).extractLsb' k n = op.extractLsb' (k - 8) n := BitVec.extractLsb'_append_eq_of_le h

@[simp] theorem lowBits_encD1 (op : BitVec 10) (dd : Operand) : (encD1 op dd).extractLsb' 0 6 = dd.toBits :=
  BitVec.extractLsb'_append_eq_right

@[simp] theorem lowBits_encRD (op : BitVec 7) (r : Reg) (dd : Operand) : (encRD op r dd).extractLsb' 0 6 = dd.toBits := by
  rw [encRD_eq_encD1, lowBits_encD1]

@[simp] theorem lowBits_encD2 (op : BitVec 4) (ss dd : Operand) : (encD2 op ss dd).extractLsb' 0 6 = dd.toBits :=
  (BitVec.extractLsb'_append_eq_of_add_le (by decide)).trans BitVec.extractLsb'_append_eq_right

@[simp] theorem lowBits_encBR (op bb : BitVec 8) : (encBR op bb).extractLsb' 0 8 = bb :=
  BitVec.extractLsb'_append_eq_right

@[simp] theorem fieldDd_encD1 (op : BitVec 10) (dd : Operand) : fieldDd (encD1 op dd) = dd := by simp [fieldDd]

@[simp] theorem fieldDd_encRD (op : BitVec 7) (r : Reg) (dd : Operand) : fieldDd (encRD op r dd) = dd := by simp [fieldDd]

@[simp] theorem fieldDd_encD2 (op : BitVec 4) (ss dd : Operand) : fieldDd (encD2 op ss dd) = dd := by simp [fieldDd]

@[simp] theorem fieldR_encRD (op : BitVec 7) (r : Reg) (dd : Operand) : fieldR (encRD op r dd) = r := by
  have low : (op ++ r.toBits).extractLsb' 0 3 = r.toBits := BitVec.extractLsb'_append_eq_right
  rw [fieldR, encRD_eq_encD1, extractLsb'_encD1 (by decide), low, Reg.ofBits_toBits]

@[simp] theorem fieldSs_encD2 (op : BitVec 4) (ss dd : Operand) : fieldSs (encD2 op ss dd) = ss := by
  have middle : (encD2 op ss dd).extractLsb' 6 6 = ss.toBits :=
    (BitVec.extractLsb'_append_eq_of_add_le (by decide)).trans BitVec.extractLsb'_append_eq_left
  rw [fieldSs, middle, Operand.ofBits_toBits]

/-! ### A word as the encoding of its own fields -/

/-- A field of a word as a number. -/
theorem toNat_field (w : Word) (k n : Nat) : (w.extractLsb' k n).toNat = w.toNat / 2 ^ k % 2 ^ n := by
  rw [BitVec.extractLsb'_toNat, Nat.shiftRight_eq_div_pow]

/-- A word is an opcode above its own low bits exactly if its high bits are that opcode. -/
theorem opcode_append_eq_iff {n m : Nat} (op : BitVec n) (w : BitVec (n + m)) :
    op ++ w.extractLsb' 0 m = w ↔ w.toNat / 2 ^ m = op.toNat := by
  have parts : w.extractLsb' m n ++ w.extractLsb' 0 m = w := by
    rw [BitVec.extractLsb'_append_extractLsb'_eq_extractLsb' (Nat.zero_add m).symm, BitVec.extractLsb'_eq_self]
  have high : (w.extractLsb' m n).toNat = w.toNat / 2 ^ m := by
    rw [BitVec.extractLsb'_toNat, Nat.shiftRight_eq_div_pow, Nat.mod_eq_of_lt]
    exact Nat.div_lt_of_lt_mul (by rw [← Nat.pow_add, Nat.add_comm m n]; exact w.isLt)
  constructor
  · intro e
    rw [← high, ← e, BitVec.extractLsb'_append_eq_left]
  · intro e
    rw [← BitVec.eq_of_toNat_eq (high.trans e), parts]

theorem encD1_eq_iff (op : BitVec 10) (w : Word) : encD1 op (fieldDd w) = w ↔ w.toNat / 64 = op.toNat := by
  rw [encD1, fieldDd, Operand.toBits_ofBits]
  exact opcode_append_eq_iff (m := 6) op w

theorem encRD_eq_iff (op : BitVec 7) (w : Word) :
    encRD op (fieldR w) (fieldDd w) = w ↔ w.toNat / 512 = op.toNat := by
  rw [encRD, fieldR, fieldDd, Operand.toBits_ofBits, Reg.toBits_ofBits,
    BitVec.extractLsb'_append_extractLsb'_eq_extractLsb' (start₁ := 0) (len₁ := 6) (by decide)]
  exact opcode_append_eq_iff (m := 9) op w

theorem encD2_eq_iff (op : BitVec 4) (w : Word) :
    encD2 op (fieldSs w) (fieldDd w) = w ↔ w.toNat / 4096 = op.toNat := by
  rw [encD2, fieldSs, fieldDd, Operand.toBits_ofBits, Operand.toBits_ofBits,
    BitVec.extractLsb'_append_extractLsb'_eq_extractLsb' (start₁ := 0) (len₁ := 6) (by decide)]
  exact opcode_append_eq_iff (m := 12) op w

theorem encBR_eq_iff (op : BitVec 8) (w : Word) : encBR op (w.extractLsb' 0 8) = w ↔ w.toNat / 256 = op.toNat :=
  opcode_append_eq_iff (m := 8) op w

theorem encCC_eq_iff (op : BitVec 12) (w : Word) : encCC op (w.extractLsb' 0 4) = w ↔ w.toNat / 16 = op.toNat :=
  opcode_append_eq_iff (m := 4) op w

theorem encRts_eq_iff (op : BitVec 13) (w : Word) :
    op ++ (Reg.ofBits (w.extractLsb' 0 3)).toBits = w ↔ w.toNat / 8 = op.toNat := by
  rw [Reg.toBits_ofBits]
  exact opcode_append_eq_iff (m := 3) op w

theorem encStart_eq_iff (op : BitVec 14) (w : Word) : op ++ w.extractLsb' 0 2 = w ↔ w.toNat / 4 = op.toNat :=
  opcode_append_eq_iff (m := 2) op w

end Sys2Proof
end

section
/-! Second names (O4), and the decoder on what the encoder wrote (O1, O5). -/

namespace Sys2Proof

/-! ### Second names -/

theorem encodeWord_clearForm : ∀ m, encodeWord (clearForm m) = encCC 0o0012 m := by decide

theorem encodeWord_setForm : ∀ m, encodeWord (setForm m) = encCC 0o0013 m := by decide

theorem clearForm_wf : ∀ m, (clearForm m).wf = true := by decide

theorem setForm_wf : ∀ m, (setForm m).wf = true := by decide

theorem clearForm_of_not_named : ∀ m, (Instr.clx m).wf = true → clearForm m = .clx m := by decide

theorem setForm_of_not_named : ∀ m, (Instr.sex m).wf = true → setForm m = .sex m := by decide

theorem exec_clearForm (m : BitVec 4) (s : Machine.State) : Machine.exec (clearForm m) s = Machine.exec (.clx m) s := by
  simp only [clearForm, Instr.canon]
  split_ifs <;> subst_vars <;> rfl

theorem exec_setForm (m : BitVec 4) (s : Machine.State) : Machine.exec (setForm m) s = Machine.exec (.sex m) s := by
  simp only [setForm, Instr.canon]
  split_ifs <;> subst_vars <;> rfl

theorem canon_wf (i : Instr) : i.canon.wf = true := by
  cases i with
  | clx m => exact clearForm_wf m
  | sex m => exact setForm_wf m
  | _ => rfl

theorem encodeWord_canon (i : Instr) : encodeWord i.canon = encodeWord i := by
  cases i with
  | clx m => exact encodeWord_clearForm m
  | sex m => exact encodeWord_setForm m
  | _ => rfl

theorem exec_canon (i : Instr) (s : Machine.State) : Machine.exec i.canon s = Machine.exec i s := by
  cases i with
  | clx m => exact exec_clearForm m s
  | sex m => exact exec_setForm m s
  | _ => rfl

/-- Settles O4: `canon` gives a well-formed instruction, with the word and the meaning of the name it replaces. -/
theorem secondNamesAgree : Obligations.SecondNamesAgree :=
  fun i s => ⟨canon_wf i, encodeWord_canon i, exec_canon i s⟩

/-! ### The decoder on an encoded word -/

theorem decodeWord_clear : ∀ m, decodeWord (encCC 0o0012 m) = .ok (clearForm m) := by decide

theorem decodeWord_set : ∀ m, decodeWord (encCC 0o0013 m) = .ok (setForm m) := by decide

/-- The register of JSR reaches into the field that selects within 000000..007777, which so has two values (R157). -/
theorem block_jsr (r : Reg) (dd : Operand) :
    ((encRD 0o004 r dd).extractLsb' 8 4).toNat = 8 ∨ ((encRD 0o004 r dd).extractLsb' 8 4).toNat = 9 := by
  rw [encRD_eq_encD1, extractLsb'_encD1 (by decide)]
  cases r <;> decide

theorem decodeWord_jsr (r : Reg) (dd : Operand) : decodeWord (encRD 0o004 r dd) = .ok (.jsr r dd) := by
  have top : ((encRD 0o004 r dd).extractLsb' 12 4).toNat = 0 := by rw [extractLsb'_encRD (by decide)]; rfl
  unfold decodeWord decode00
  rcases block_jsr r dd with block | block <;> simp only [top, block, fieldR_encRD, fieldDd_encRD]

/-- The decoder gives back every well-formed instruction. In formats D1, RD, D2 and BR the fields that the decoder selects
by lie in the opcode, so that it runs as on a number; the forms with operand bits among those fields stand apart. -/
theorem decodeWord_encodeWord {i : Instr} (h : i.wf = true) : decodeWord (encodeWord i) = .ok i := by
  cases i with
  | halt | wait | rti | bpt | iot | reset | rtt => rfl
  | nop | clc | clv | clz | cln | ccc | nopSet | sec | sev | sez | sen | scc => rfl
  | clx m => rw [← clearForm_of_not_named m h, encodeWord_clearForm, decodeWord_clear]
  | sex m => rw [← setForm_of_not_named m h, encodeWord_setForm, decodeWord_set]
  | bhis bb | blo bb => cases h
  | start x | step x => revert x; decide
  | rts r => cases r <;> rfl
  | jsr r dd => exact decodeWord_jsr r dd
  | mark nn => simp [encodeWord_mark, decodeWord, decode00, decode006, extractLsb'_encD1]
  | sob r uu => simp [encodeWord_sob, decodeWord, decode07, extractLsb'_encRD]
  | _ =>
    simp [encodeWord, decodeWord, decode00, decode0000, decode005, decode006, decode07, decode10, decode105, decode106,
      extractLsb'_encD1, extractLsb'_encRD, extractLsb'_encD2, extractLsb'_encBR]

/-- Settles O1: the two bytes make the word again, and `decodeWord_encodeWord` reads it. -/
theorem decodeOfEncode : Obligations.DecodeOfEncode := by
  intro i rest h
  simp only [encode, List.cons_append, List.nil_append, decode, Machine.mkWord_bytes, decodeWord_encodeWord h]

/-- Settles O5: each word is evaluated. -/
theorem sampleWordsDecode : Obligations.SampleWordsDecode :=
  ⟨rfl, rfl, rfl, rfl, rfl, rfl, rfl, rfl, rfl, rfl, rfl, rfl⟩

end Sys2Proof
end

section
/-! What the decoder answers for every word: one walk along its branches, for the words that decode (O2) and those that
are reserved (O3). -/

namespace Sys2Proof

/-- The reserved blocks of R160. -/
def Reserved (w : Word) : Prop :=
  w.toNat = 0o000007 ∨ (0o000020 ≤ w.toNat ∧ w.toNat ≤ 0o000077) ∨ (0o000210 ≤ w.toNat ∧ w.toNat ≤ 0o000237) ∨
  (0o006500 ≤ w.toNat ∧ w.toNat ≤ 0o006677) ∨ (0o007000 ≤ w.toNat ∧ w.toNat ≤ 0o007777) ∨
  (0o071000 ≤ w.toNat ∧ w.toNat ≤ 0o073777) ∨ (0o075000 ≤ w.toNat ∧ w.toNat ≤ 0o076777) ∨
  (0o106500 ≤ w.toNat ∧ w.toNat ≤ 0o106677) ∨ (0o107000 ≤ w.toNat ∧ w.toNat ≤ 0o107777) ∨
  0o170000 ≤ w.toNat

/-- The answer fits the word `w`: an instruction is the well-formed one with that word, which is not reserved; an error
says that the word is reserved. -/
def Fits (w : Word) : Except DecodeError Instr → Prop
  | .ok i => encodeWord i = w ∧ i.wf = true ∧ ¬ Reserved w
  | .error _ => Reserved w

/-! ### Words 000000..007777 -/

theorem fits_clearForm {w : Word} (h : w.toNat / 16 = 0o0012) : Fits w (.ok (clearForm (w.extractLsb' 0 4))) :=
  ⟨(encodeWord_clearForm _).trans ((encCC_eq_iff _ w).2 h), clearForm_wf _, by unfold Reserved; omega⟩

theorem fits_setForm {w : Word} (h : w.toNat / 16 = 0o0013) : Fits w (.ok (setForm (w.extractLsb' 0 4))) :=
  ⟨(encodeWord_setForm _).trans ((encCC_eq_iff _ w).2 h), setForm_wf _, by unfold Reserved; omega⟩

theorem fits_decode0000 {w : Word} (h : w.toNat / 256 = 0) : Fits w (decode0000 w) := by
  have form : (w.extractLsb' 3 3).toNat = w.toNat / 8 % 8 := toNat_field w 3 3
  have block : (w.extractLsb' 6 2).toNat = w.toNat / 64 % 4 := toNat_field w 6 2
  unfold decode0000
  split
  case h_1 =>
    split
    case h_1 | h_2 => split <;> simp [Fits, Reserved, encodeWord, Instr.wf, BitVec.toNat_eq] at * <;> omega
    all_goals
      simp [Fits, Reserved, encodeWord, Instr.wf, encStart_eq_iff] at *
      omega
  case h_3 =>
    split
    case h_2 | h_3 => exact fits_clearForm (by omega)
    case h_4 | h_5 => exact fits_setForm (by omega)
    all_goals
      simp [Fits, Reserved, encodeWord, Instr.wf, encRts_eq_iff, -Reg.toBits_ofBits] at *
      omega
  all_goals
    simp [Fits, Reserved, encodeWord, Instr.wf, encD1_eq_iff] at *
    omega

theorem fits_decode005 {w : Word} (h : w.toNat / 512 = 0o005) : Fits w (decode005 w) := by
  unfold decode005
  -- `simp` works on the hypotheses too: what excludes the last branch is no `≠` for `omega` before it
  split <;> simp [Fits, Reserved, encodeWord, Instr.wf, encD1_eq_iff] at * <;> omega

theorem fits_mark {w : Word} (h : w.toNat / 64 = 0o0064) : Fits w (.ok (.mark (w.extractLsb' 0 6))) :=
  ⟨(encodeWord_mark _).trans ((encD1_eq_iff _ w).2 h), rfl, by unfold Reserved; omega⟩

theorem fits_decode006 {w : Word} (h : w.toNat / 512 = 0o006) : Fits w (decode006 w) := by
  have block : (w.extractLsb' 6 3).toNat = w.toNat / 64 % 8 := toNat_field w 6 3
  unfold decode006
  split
  case h_5 => exact fits_mark (by omega)
  all_goals
    simp [Fits, Reserved, encodeWord, Instr.wf, encD1_eq_iff] at *
    omega

theorem fits_decode00 {w : Word} (h : w.toNat / 4096 = 0) : Fits w (decode00 w) := by
  have block : (w.extractLsb' 8 4).toNat = w.toNat / 256 % 16 := toNat_field w 8 4
  unfold decode00
  split
  case h_1 => exact fits_decode0000 (by omega)
  case h_11 | h_12 => exact fits_decode005 (by omega)
  case h_13 | h_14 => exact fits_decode006 (by omega)
  all_goals
    simp [Fits, Reserved, encodeWord, Instr.wf, encBR_eq_iff, encRD_eq_iff] at *
    omega

/-! ### Words 070000..077777 -/

theorem fits_sob {w : Word} (h : w.toNat / 512 = 0o077) : Fits w (.ok (.sob (fieldR w) (w.extractLsb' 0 6))) :=
  ⟨(encodeWord_sob _ _).trans ((encRD_eq_iff _ w).2 h), rfl, by unfold Reserved; omega⟩

theorem fits_decode07 {w : Word} (h : w.toNat / 4096 = 0o07) : Fits w (decode07 w) := by
  have block : (w.extractLsb' 9 3).toNat = w.toNat / 512 % 8 := toNat_field w 9 3
  unfold decode07
  split
  case h_6 => exact fits_sob (by omega)
  all_goals
    simp [Fits, Reserved, encodeWord, Instr.wf, encRD_eq_iff] at *
    omega

/-! ### Words 100000..107777 -/

theorem fits_decode105 {w : Word} (h : w.toNat / 512 = 0o105) : Fits w (decode105 w) := by
  unfold decode105
  split <;> simp [Fits, Reserved, encodeWord, Instr.wf, encD1_eq_iff] at * <;> omega

theorem fits_decode106 {w : Word} (h : w.toNat / 512 = 0o106) : Fits w (decode106 w) := by
  unfold decode106
  split <;> simp [Fits, Reserved, encodeWord, Instr.wf, encD1_eq_iff] at * <;> omega

theorem fits_decode10 {w : Word} (h : w.toNat / 4096 = 0o10) : Fits w (decode10 w) := by
  have block : (w.extractLsb' 8 4).toNat = w.toNat / 256 % 16 := toNat_field w 8 4
  unfold decode10
  split
  case h_11 | h_12 => exact fits_decode105 (by omega)
  case h_13 | h_14 => exact fits_decode106 (by omega)
  all_goals
    simp [Fits, Reserved, encodeWord, Instr.wf, encBR_eq_iff] at *
    omega

/-! ### All words -/

theorem fits_decodeWord (w : Word) : Fits w (decodeWord w) := by
  have block : (w.extractLsb' 12 4).toNat = w.toNat / 4096 % 16 := toNat_field w 12 4
  unfold decodeWord
  split
  case h_1 => exact fits_decode00 (by omega)
  case h_8 => exact fits_decode07 (by omega)
  case h_9 => exact fits_decode10 (by omega)
  all_goals
    simp [Fits, Reserved, encodeWord, Instr.wf, encD2_eq_iff] at *
    omega

/-- Settles O2: the instruction that the decoder answers fits the word. -/
theorem encodeOfDecode : Obligations.EncodeOfDecode := by
  intro w i h
  obtain ⟨word, wf, _⟩ : Fits w (.ok i) := h ▸ fits_decodeWord w
  exact ⟨word, wf⟩

/-- Settles O3: an error fits the reserved words only, and an instruction none of them. -/
theorem illegalWordsExactly : Obligations.IllegalWordsExactly := by
  intro w
  show (∃ e, decodeWord w = .error e) ↔ Reserved w
  have fits := fits_decodeWord w
  cases h : decodeWord w with
  | error e =>
    rw [h] at fits
    exact iff_of_true ⟨e, rfl⟩ fits
  | ok i =>
    rw [h] at fits
    obtain ⟨_, _, free⟩ := fits
    exact iff_of_false (by rintro ⟨e, he⟩; cases he) free

end Sys2Proof
end

section
/-! The exception for an illegal instruction in plain RAM (R342), which MUL raises on ВМ1А (O54). -/

namespace Sys2Proof.Machine

/-! ### The record of an error -/

/-- `s` with the bits `b` of CPU_ERROR set as well (R53). -/
def State.withError (s : State) (b : Byte) : State := { s with per := { s.per with errFlags := s.per.errFlags ||| b } }

/-- `s` with UOP set and UERR requested (R342). -/
def State.uopNoted (s : State) : State := { s.withError 0x02 with ints := { s.ints with uerr := true } }

/-- Where no error is pending, an error sets its bit and is no double error (R341, R342). -/
theorem noteError_eq {s : State} (h : NoError s) (b : Byte) : s.noteError b = s.withError b := by
  refine state_ext rfl rfl rfl rfl rfl (interrupts_ext rfl rfl rfl rfl rfl rfl rfl rfl ?_)
    (peripheral_ext rfl rfl rfl rfl ?_) rfl rfl rfl rfl rfl
  · show (s.ints.dble || s.errorPending) = s.ints.dble
    rw [h.pending, Bool.or_false]
  · show s.per.errFlags ||| b ||| (if s.errorPending then 1 else 0) = s.per.errFlags ||| b
    rw [h.pending]
    exact BitVec.or_zero

theorem noteIllegal_eq {s : State} (h : NoError s) :
    s.noteIllegal = { s.uopNoted with micro := { s.micro with ma := 1 } } := by
  rw [State.noteIllegal, noteError_eq h]
  rfl

/-! ### The forced poll and the entry -/

/-- The poll answers UERR where no error before it in the order is latched (R348). -/
theorem matrix_uerr {s : State} (acok : s.ints.acok = true) (iato : s.ints.iato = false) (dble : s.ints.dble = false)
    (qbto : s.ints.qbto = false) (uerr : s.ints.uerr = true) : matrix s = ⟨0b101, .illegal, 0b000⟩ := by
  simp [matrix, acok, iato, dble, qbto, uerr]

/-- The answer clears the request, so that of the record only UOP is left (R342, R346). -/
theorem polled_uopNoted {s : State} (h : NoError s) :
    s.uopNoted.polled ⟨0b101, .illegal, 0b000⟩ = s.withError 0x02 := by
  obtain ⟨acok, qbto, iato, _, uerr, _⟩ := h
  rw [polled_live (s := s.uopNoted) acok]
  exact state_ext rfl rfl rfl rfl rfl
    (interrupts_ext rfl rfl rfl rfl rfl uerr.symm qbto.symm iato.symm rfl) rfl rfl rfl rfl rfl rfl

theorem poll_noteIllegal {s : State} (h : NoError s) :
    ∃ m, poll s.noteIllegal = (⟨0b101, .illegal, 0b000⟩, { s.withError 0x02 with micro := m }) := by
  obtain ⟨acok, qbto, iato, dble, _, _⟩ := id h
  have answer : matrix s.uopNoted = ⟨0b101, .illegal, 0b000⟩ := matrix_uerr acok iato dble qbto rfl
  obtain ⟨m, e⟩ := poll_eq s.uopNoted { s.micro with ma := 1 }
  exact ⟨m, by rw [noteIllegal_eq h, e, answer, polled_uopNoted h]⟩

/-- An illegal instruction where no error is pending and the stack and the vector are RAM: the user entry through 000010
with UOP set (R342, R360). -/
theorem raiseIllegal_ram {s : State} (h : NoError s) (room : UserRoom s 0o10) :
    ∃ t, raiseIllegal s = .next t ∧ UserEntered (s.withError 0x02) t (s.reg .pc) 0o10 := by
  obtain ⟨m, e⟩ := poll_noteIllegal h
  have room' : UserRoom { s.withError 0x02 with micro := m } 0o10 :=
    userRoom_congr (s := s) rfl rfl rfl rfl rfl rfl room
  obtain ⟨t, ht, entered⟩ := userEntry_ram (v := .illegal) (by decide) false room'
  have entry : forcedEntry s.noteIllegal = .ok () t := by
    rw [forcedEntry, e]
    exact ht
  exact ⟨t, by rw [raiseIllegal, enterError, entry], entered⟩

/-! ### MUL on ВМ1А -/

theorem exec_mul_vm1a {s : State} (h : s.cfg.variant = .vm1a) (r : Reg) (ss : Operand) :
    exec (.mul r ss) s = raiseIllegal s := by
  show execMul r ss s = _
  rw [execMul, h]

/-- Settles O54: on ВМ1А MUL is the exception of `raiseIllegal_ram`. -/
theorem mulIllegalOnVm1a : Obligations.MulIllegalOnVm1a := by
  intro s r ss variant h room
  rw [exec_mul_vm1a variant]
  exact raiseIllegal_ram h room

end Sys2Proof.Machine
end

section
/-! The addressing modes and the source operands (O42), and the register operand that has no address (O34). -/

namespace Sys2Proof.Machine

/-! ### The step of autoincrement and autodecrement -/

theorem stepSize_word (r : Reg) : stepSize .word r = 2 := rfl

theorem stepSize_byte {r : Reg} (hsp : r ≠ .sp) (hpc : r ≠ .pc) : stepSize .byte r = 1 :=
  if_neg fun h => h.elim hsp hpc

theorem stepSize_byte_stack_or_pc {r : Reg} (h : r = .sp ∨ r = .pc) : stepSize .byte r = 2 := if_pos h

/-! ### Reads in the terms of claims -/

/-- A timeout ends the activity. -/
theorem TimesOut.andThen {α β : Type} {x : Res α} {s : State} (h : TimesOut x s) (k : α → State → Res β) :
    TimesOut (x.andThen k) s := by
  obtain ⟨m, h⟩ := h
  exact ⟨m, by rw [h, andThen_abort]⟩

theorem readWord_gives {s : State} {a : Word} (h : s.ramWord a = true) (m : Micro) :
    Gives (readWord a { s with micro := m }) (s.memWord a) s :=
  ⟨_, readWord_ram (s := { s with micro := m }) h⟩

theorem readWord_timesOut {s : State} {a : Word} (h : s.noReply a = true) (m : Micro) :
    TimesOut (readWord a { s with micro := m }) s :=
  ⟨_, readWord_noReply (s := { s with micro := m }) h⟩

/-- A register that has been changed does not matter to a read of RAM. -/
theorem readWord_setReg_gives {s : State} {a : Word} (h : s.ramWord a = true) (r : Reg) (v : Word) :
    Gives (readWord a (s.setReg r v)) (s.memWord a) (s.setReg r v) :=
  readWord_gives (s := s.setReg r v) h s.micro

/-- A register that has been changed stays so where a read times out (R81). -/
theorem readWord_setReg_timesOut {s : State} {a : Word} (h : s.noReply a = true) (r : Reg) (v : Word) :
    TimesOut (readWord a (s.setReg r v)) (s.setReg r v) :=
  readWord_timesOut (s := s.setReg r v) h s.micro

/-! ### The address of an indexed operand -/

/-- PC has moved past the index word when the register is read (R187, R198). -/
theorem effAddr_index_gives {s : State} (h : s.ramWord (s.reg .pc) = true) (r : Reg) (sz : Size) :
    Gives (effAddr .index r sz s) ((s.setReg .pc (s.reg .pc + 2)).reg r + s.memWord (s.reg .pc))
      (s.setReg .pc (s.reg .pc + 2)) := by
  obtain ⟨m, fetched⟩ := readWord_setReg_gives h .pc (s.reg .pc + 2)
  exact ⟨m, by rw [effAddr, fetchExt, fetched]; rfl⟩

/-- Mode 7 reads the word at the address of mode 6 (R188). -/
theorem effAddr_indexDef_eq (r : Reg) (sz : Size) (s : State) :
    effAddr .indexDef r sz s = (effAddr .index r sz s).andThen readWord := by
  rw [effAddr, effAddr]
  cases fetchExt s <;> rfl

theorem effAddr_index_timesOut {s : State} (h : s.noReply (s.reg .pc) = true) (r : Reg) (sz : Size) :
    TimesOut (effAddr .index r sz s) (s.setReg .pc (s.reg .pc + 2)) ∧
    TimesOut (effAddr .indexDef r sz s) (s.setReg .pc (s.reg .pc + 2)) :=
  have late : TimesOut (fetchExt s) _ := readWord_setReg_timesOut h .pc (s.reg .pc + 2)
  ⟨late.andThen _, late.andThen _⟩

/-! ### A source operand -/

theorem readOpWord_mem {m : MemMode} {r : Reg} {s s1 : State} {a : Word} (h : effAddr m r .word s = .ok a s1) :
    readOpWord (.mem m r) s = readWord a s1 := by rw [readOpWord, h, andThen_ok]

theorem readOpByte_mem {m : MemMode} {r : Reg} {s s1 : State} {a : Word} (h : effAddr m r .byte s = .ok a s1) :
    readOpByte (.mem m r) s = readByte a s1 := by rw [readOpByte, h, andThen_ok]

/-! ### What an operand leaves as it was -/

/-- Where nothing outside moved, the states differ in the registers, the hidden ones, and the count of free values. -/
theorem Unmoved.eq {s t : State} (h : Unmoved s t) :
    t = { s with regs := t.regs, micro := t.micro, freeCtr := t.freeCtr } :=
  state_ext h.cfg rfl h.psw h.seq rfl h.ints h.per h.timer h.mem h.plat h.inputs rfl

/-- Settles O42: each mode by the read it makes, a source operand by the read at its address, and what an operand leaves as
it was by the laws of addresses and operands (`effAddr_ok`, `unmoved_effAddr` and those of the operand reads). -/
theorem operandAccess : Obligations.OperandAccess := by
  refine ⟨fun r => ⟨stepSize_word r, stepSize_byte, stepSize_byte_stack_or_pc⟩, fun r sz s => ?modes, fun s => ?sources,
    fun s s1 m r sz o a w b h => ?frame⟩
  case modes =>
    refine ⟨rfl, rfl, rfl, fun ram => readWord_setReg_gives ram _ _, fun absent => readWord_setReg_timesOut absent _ _,
      fun ram => readWord_setReg_gives ram _ _, fun absent => readWord_setReg_timesOut absent _ _,
      fun absent => effAddr_index_timesOut absent r sz, ?_⟩
    rintro s1 a ramPc rfl rfl
    obtain ⟨m, index⟩ := effAddr_index_gives ramPc r sz
    rw [effAddr_indexDef_eq, index, andThen_ok]
    let u := s.setReg .pc (s.reg .pc + 2)
    exact ⟨⟨m, rfl⟩, fun ram => readWord_gives (s := u) ram m, fun absent => readWord_timesOut (s := u) absent m⟩
  case sources =>
    refine ⟨fun r => ⟨rfl, rfl⟩, fun m r a s1 h => ?_, fun m r a s1 h => ?_⟩
    · rw [readOpWord_mem h]
      exact ⟨fun ram => ⟨_, readWord_ram ram⟩, fun absent => ⟨_, readWord_noReply absent⟩⟩
    · rw [readOpByte_mem h]
      exact ⟨fun ram => ⟨_, readByte_ram ram⟩, fun absent => ⟨_, readByte_noReply absent⟩⟩
  case frame =>
    rcases h with address | word | byte
    · obtain ⟨kept, regs⟩ := effAddr_ok address
      exact ⟨⟨kept.psw, kept.seq, kept.cfg, fun q hr _ hpc => regs q hr hpc⟩,
        fun quiet inert => (unmoved_effAddr quiet inert address).eq⟩
    · obtain ⟨kept, regs⟩ := readOpWord_ok word
      exact ⟨⟨kept.psw, kept.seq, kept.cfg, fun q _ ho hpc => regs q ho hpc⟩,
        fun quiet inert => ((unmoved_readOp quiet inert).1 _ word).eq⟩
    · obtain ⟨kept, regs⟩ := readOpByte_ok byte
      exact ⟨⟨kept.psw, kept.seq, kept.cfg, fun q _ ho hpc => regs q ho hpc⟩,
        fun quiet inert => ((unmoved_readOp quiet inert).2 _ byte).eq⟩

/-! ### A register operand has no address -/

/-- JMP and JSR with a register operand are the user entry through 000004, at which nothing is recorded (R199, R342). -/
theorem exec_jump_reg (s : State) (r q : Reg) :
    exec (.jmp (.reg q)) s = finish false (userEntry .timeout false s) ∧
    exec (.jsr r (.reg q)) s = finish false (userEntry .timeout false s) := ⟨rfl, rfl⟩

/-- Settles O34: both are the user entry, whose frame keeps CPU_ERROR (`finish_userEntry_ram`). -/
theorem jumpToRegisterTraps : Obligations.JumpToRegisterTraps := by
  intro s r q room
  obtain ⟨jmp, jsr⟩ := exec_jump_reg s r q
  rw [jmp, jsr]
  have entry := finish_userEntry_ram (v := .timeout) (by decide) room
  exact ⟨entry, entry⟩

end Sys2Proof.Machine
end


section
/-! The instructions that are an entry: HALT (O27), and BPT, IOT, TRAP and EMT (O29). -/

namespace Sys2Proof.Machine

/-- HALT is a pult entry through 160002 that does not correct PC (R210). -/
theorem exec_halt (s : State) : exec .halt s = finish false (pultEntry .halt false s) := rfl

/-- A pult entry leaves FR.C fresh, so that HALT ends in the state of its entry (R210, R440). -/
theorem exec_halt_entered {s u t : State} {ret va : Word} (run : pultEntry .halt false s = .ok () t)
    (entered : PultEntered u t ret va) : exec .halt s = .next t := by
  rw [exec_halt, run, finish_ok, entered.retire]

/-- Settles O27: the pult entry of `pultEntry_ready`, or of `pultEntry_ram` after any answer at 177716; a timeout there is
its first transaction's. -/
theorem haltEntersPult : Obligations.HaltEntersPult := by
  refine ⟨fun s ready room => ?_, fun s s1 bit room => ?_, fun s s1 k timeout => ?_⟩
  · obtain ⟨t, run, entered⟩ := pultEntry_ready .halt false ready room
    exact ⟨t, exec_halt_entered run entered, entered⟩
  · obtain ⟨t, run, entered⟩ := pultEntry_ram .halt false bit room
    have pc : (s1.correctPc false).reg .pc = s.reg .pc := reg_congr (setPultBit_done bit).regs .pc
    rw [pc] at entered
    exact ⟨t, exec_halt_entered run entered, entered⟩
  · rw [exec_halt, pultEntry, timeout, waitsAt_timeout, andThen_abort, finish_timeout]

/-- BPT, IOT, TRAP and EMT are user entries; EMT clears IVEC_REQ before its entry (R214, R215, R221, R222). -/
theorem exec_softwareTrap (s : State) (nn : BitVec 8) :
    exec .bpt s = finish false (userEntry .tBit false s) ∧ exec .iot s = finish false (userEntry .iot false s) ∧
    exec (.trap nn) s = finish false (userEntry .trap false s) ∧
    exec (.emt nn) s = finish false (userEntry .emt false s.clearIvec) := ⟨rfl, rfl, rfl, rfl⟩

/-- Settles O29: each is the user entry of `finish_userEntry_ram`, EMT's in the state with IVEC_REQ cleared. -/
theorem softwareTraps : Obligations.SoftwareTraps := by
  intro s nn
  obtain ⟨bpt, iot, trap, emt⟩ := exec_softwareTrap s nn
  rw [bpt, iot, trap, emt]
  refine ⟨finish_userEntry_ram (v := .tBit) (by decide), finish_userEntry_ram (v := .iot) (by decide),
    finish_userEntry_ram (v := .trap) (by decide), fun room => ?_⟩
  exact finish_userEntry_ram (s := s.clearIvec) (v := .emt) (by decide)
    (userRoom_congr (s := s) rfl rfl rfl rfl rfl rfl room)

end Sys2Proof.Machine
end

section
/-! WAIT and the polls that end it (O28). -/

namespace Sys2Proof.Machine

/-! ### The poll of a dispatch that goes on -/

/-- With power good, a step that only polls goes on with the answer in the state whose latch the answer names is cleared
(R27, R348). -/
theorem step_answer {s : State} (h : AboutToPoll s) (power : s.ints.acok = true) {a : Answer} (answer : matrix s = a) :
    ∃ m, step s =
      onAnswer a { State.rearm { s with seq := { s.seq with irLoaded := false } } a.rearm with micro := m } := by
  obtain ⟨m, e⟩ := step_poll h
  rw [answer, polled_live (s := { s with seq := { s.seq with irLoaded := false } }) power] at e
  exact ⟨m, e⟩

/-- The answer 000 leaves a waiting processor as it is (R27, R211). -/
theorem step_idle {s : State} (h : AboutToPoll s) (power : s.ints.acok = true) (waits : s.seq.waiting = true)
    (answer : matrix s = ⟨0b000, .halt, 0b111⟩) : ∃ m, step s = .next { s with micro := m } := by
  obtain ⟨m, e⟩ := step_answer h power answer
  obtain ⟨_, _, _, _, loaded, _⟩ := h
  have seq : ({ s.seq with irLoaded := true, waiting := s.ints.acok } : Sequencer) = s.seq :=
    sequencer_ext rfl rfl loaded.symm rfl rfl (power.trans waits.symm) rfl rfl
  refine ⟨m, e.trans (congrArg Host.Outcome.next ?_)⟩
  exact state_ext rfl rfl rfl seq rfl rfl rfl rfl rfl rfl rfl rfl

/-- The answer 001 ends a wait in no entry, which is refused (R412, D12). -/
theorem onAnswer_refused {s : State} (waits : s.seq.waiting = true) (v : Vsel) (rr : BitVec 3) :
    onAnswer ⟨0b001, v, rr⟩ s = .refused .waitEndedByBus := if_pos waits

/-- The answer 010 is a pult entry that corrects PC (R27, R365). -/
theorem onAnswer_pult (v : Vsel) (rr : BitVec 3) (s : State) :
    onAnswer ⟨0b010, v, rr⟩ s = conclude (pultEntry v true s) := rfl

/-! ### The entries that end a wait -/

/-- The interrupts that are taken through a vector of the table, and their vectors (R347). -/
def tableInterrupts : List (Vsel × Word) :=
  [(.tBit, 0o000014), (.powerFail, 0o000024), (.irq2, 0o000100), (.irq3OrTimer, 0o000270)]

theorem vectorAddr_of_mem {v : Vsel} {va : Word} (h : (v, va) ∈ tableInterrupts) (n : BitVec 2) :
    v ≠ .ext ∧ vectorAddr n v = va := by
  simp only [tableInterrupts, List.mem_cons, Prod.mk.injEq, List.not_mem_nil, or_false] at h
  obtain ⟨rfl, rfl⟩ | ⟨rfl, rfl⟩ | ⟨rfl, rfl⟩ | ⟨rfl, rfl⟩ := h <;> exact ⟨by decide, rfl⟩

/-- Clearing a latch leaves what a user entry needs. -/
theorem userRoom_rearm {s : State} {va : Word} (room : UserRoom s va) (rr : BitVec 3) : UserRoom (s.rearm rr) va := by
  obtain ⟨cfg, regs, plat, mem, inputs, seq, _⟩ := rearm_frame s rr
  exact userRoom_congr cfg (reg_congr regs _) plat mem inputs (by rw [seq]) room

/-- Clearing a latch leaves PC, corrected or not. -/
theorem reg_pc_correct_rearm (s : State) (rr : BitVec 3) : ((s.rearm rr).correctPc true).reg .pc = s.reg .pc - 2 := by
  obtain ⟨_, regs, _⟩ := rearm_frame s rr
  exact (reg_setReg_same _ _ _).trans (congrArg (· - 2) (reg_congr regs .pc))

/-- A user entry that corrects PC, after a poll that has cleared a latch (R346, R360). -/
theorem conclude_userEntry_rearm {s : State} {v : Vsel} {va : Word} (h : (v, va) ∈ tableInterrupts) (rr : BitVec 3)
    (m : Micro) (room : UserRoom s va) :
    ∃ t, conclude (userEntry v true { s.rearm rr with micro := m }) = .next t ∧
      UserEntered (s.rearm rr) t (s.reg .pc - 2) va := by
  let u : State := { s.rearm rr with micro := m }
  obtain ⟨table, address⟩ := vectorAddr_of_mem h u.cfg.ncpu
  have room' : UserRoom u (vectorAddr u.cfg.ncpu v) := by
    rw [address]
    exact userRoom_congr (s := s.rearm rr) rfl rfl rfl rfl rfl rfl (userRoom_rearm room rr)
  obtain ⟨t, run, entered⟩ := userEntry_ram table true room'
  have pc : (u.correctPc true).reg .pc = s.reg .pc - 2 := reg_pc_correct_rearm s rr
  rw [address, pc] at entered
  exact ⟨t, congrArg conclude run, entered⟩

/-- The pult bit leaves the sequencer and PSW. -/
theorem pultWith_frame (s : State) (on : Bool) : (s.pultWith on).seq = s.seq ∧ (s.pultWith on).psw = s.psw := by
  unfold State.pultWith
  split <;> exact ⟨rfl, rfl⟩

/-- The pult bit and the hidden registers do not meet. -/
theorem pultWith_micro (s : State) (on : Bool) (m : Micro) :
    State.pultWith { s with micro := m } on = { s.pultWith on with micro := m } :=
  (pultWith_hidden s on s.seq m).trans (by rw [← (pultWith_frame s on).1])

/-- A pult entry that corrects PC (R365, R366). -/
theorem conclude_pultEntry_ready {s : State} (m : Micro) (ready : PultReady s)
    (room : PultRoom (s.pultWith true) 0o160002) :
    ∃ t, conclude (pultEntry .halt true { s with micro := m }) = .next t ∧
      PultEntered (s.pultWith true) t (s.reg .pc - 2) 0o160002 := by
  have hidden := pultWith_micro s true m
  obtain ⟨t, run, entered⟩ := pultEntry_ready .halt true (s := { s with micro := m }) ready
    (by rw [hidden]; exact room)
  rw [hidden] at entered
  exact ⟨t, congrArg conclude run, entered⟩

/-! ### The wait -/

/-- Settles O28: WAIT is one state (`exec_wait`), and each answer of the poll is the entry it names, nothing, or refused. -/
theorem waitPolls : Obligations.WaitPolls := by
  refine ⟨fun s => ?_, fun s x h power waits hx => ?_⟩
  · refine ⟨_, exec_wait s, ⟨rfl, fun q hq => reg_setReg_ne s hq _⟩, rfl, ?_, rfl, rfl, rfl, rfl, rfl,
      rfl, rfl⟩
    exact sameMemory_of rfl rfl rfl
  subst hx
  refine ⟨step_idle h power waits, fun v va rr answer table room => ?_, fun reply rest answer queue => ?_,
    fun answer ready room => ?_, fun answer => ?_⟩
  · obtain ⟨m, e⟩ := step_answer h power answer
    obtain ⟨t, run, entered⟩ := conclude_userEntry_rearm
      (s := { s with seq := { s.seq with irLoaded := false } }) table rr m
      (userRoom_congr (s := s) rfl rfl rfl rfl rfl rfl room)
    exact ⟨t, e.trans run, entered⟩
  · obtain ⟨m, e⟩ := step_answer h power answer
    let u : State := { s with seq := { s.seq with irLoaded := false }, micro := m }
    refine ⟨fun releases room => ?_, fun holds ⟨wf, first, second⟩ => ?_⟩
    · obtain ⟨t, run, entered⟩ := userEntry_ext_ram true (s := u) queue releases
        (userRoom_congr (s := s) rfl rfl rfl rfl rfl rfl room)
      exact ⟨t, e.trans (congrArg conclude run), entered⟩
    · have ram : ∀ a, u.ramWord a = s.ramWord a := ramWord_congr rfl rfl rfl rfl
      obtain ⟨t, run, hung⟩ := userEntry_ext_holds true (s := u) queue holds
        ⟨wf, (ram _).trans first, (ram _).trans second⟩
      exact ⟨t, e.trans (congrArg conclude run), hung⟩
  · obtain ⟨m, e⟩ := step_answer h power answer
    obtain ⟨t, run, entered⟩ := conclude_pultEntry_ready m ready room
    exact ⟨t, e.trans run, entered⟩
  · obtain ⟨m, e⟩ := step_answer h power answer
    exact e.trans (onAnswer_refused (by exact waits) _ _)

end Sys2Proof.Machine
end

section
/-! The returns: RTI and RTT (O30), START and STEP (O32). -/

namespace Sys2Proof.Machine

/-! ### RTI and RTT -/

/-- `s` after the pops of RTI and RTT, the hidden registers left out (R213, R217). -/
def State.returned (s : State) : State :=
  { (s.setReg .sp (s.reg .sp + 4)).setReg .pc (s.memWord (s.reg .sp)) with psw := s.memWord (s.reg .sp + 2) &&& 0x00FF }

theorem popPcPsw_returned {s : State} (first : s.ramWord (s.reg .sp) = true)
    (second : s.ramWord (s.reg .sp + 2) = true) : ∃ m, popPcPsw s = .ok () { s.returned with micro := m } :=
  popPcPsw_ram first second

theorem popPcPsw_noReply {s : State} (h : s.noReply (s.reg .sp) = true) :
    popPcPsw s = .abort (.timeout .data) ((s.setReg .sp (s.reg .sp + 2)).latch .readWord (s.reg .sp)) := by
  rw [popPcPsw, pop_noReply h, waitsAt_timeout, andThen_abort]

theorem returned_pc (s : State) : s.returned.reg .pc = s.memWord (s.reg .sp) := rfl

theorem returned_sp (s : State) : s.returned.reg .sp = s.reg .sp + 4 := rfl

theorem returned_reg (s : State) {q : Reg} (sp : q ≠ .sp) (pc : q ≠ .pc) : s.returned.reg q = s.reg q :=
  (reg_setReg_ne _ pc _).trans (reg_setReg_ne s sp _)

/-- T after the pops is bit 4 of the word popped for PSW (R213). -/
theorem returned_flagT (s : State) : s.returned.flagT = (s.memWord (s.reg .sp + 2)).getLsbD 4 := by
  show (s.memWord (s.reg .sp + 2) &&& 0x00FF).getLsbD 4 = _
  rw [BitVec.getLsbD_and, show (0x00FF : Word).getLsbD 4 = true from by decide, Bool.and_true]

theorem exec_rti (s : State) : exec .rti s = finish false ((popPcPsw s).andThen fun _ t =>
    if t.flagT then userEntry .tBit false (t.trapAs .tBit) else .ok () t) := rfl

theorem exec_rtt (s : State) : exec .rtt s = finish false ((popPcPsw s).andThen fun _ t => .ok () t.skipPoll) := rfl

/-- RTI that pops T = 0 (R213). -/
theorem exec_rti_returned {s : State} (first : s.ramWord (s.reg .sp) = true)
    (second : s.ramWord (s.reg .sp + 2) = true) (noTrap : s.returned.flagT = false) :
    ∃ m, exec .rti s = .next { s.returned.retire false with micro := m } := by
  obtain ⟨m, pops⟩ := popPcPsw_returned first second
  refine ⟨m, ?_⟩
  rw [exec_rti, pops, andThen_ok, if_neg (by show ¬ s.returned.flagT = true; simp [noTrap])]
  rfl

/-- RTI that pops T = 1 is a user entry through 000014 from the state it returned to (R213). -/
theorem exec_rti_trap {s : State} (first : s.ramWord (s.reg .sp) = true)
    (second : s.ramWord (s.reg .sp + 2) = true) (trap : s.returned.flagT = true) (room : UserRoom s.returned 0o14) :
    ∃ t, exec .rti s = .next t ∧ UserEntered s.returned t (s.memWord (s.reg .sp)) 0o14 := by
  obtain ⟨m, pops⟩ := popPcPsw_returned first second
  rw [exec_rti, pops, andThen_ok, if_pos (by exact trap), ← returned_pc]
  exact finish_userEntry_ram (s := State.trapAs { s.returned with micro := m } .tBit) (v := .tBit) (by decide)
    (userRoom_congr (s := s.returned) rfl rfl rfl rfl rfl rfl room)

theorem exec_rtt_returned {s : State} (first : s.ramWord (s.reg .sp) = true)
    (second : s.ramWord (s.reg .sp + 2) = true) :
    ∃ m, exec .rtt s = .next { s.returned.skipPoll.retire false with micro := m } := by
  obtain ⟨m, pops⟩ := popPcPsw_returned first second
  exact ⟨m, by rw [exec_rtt, pops]; rfl⟩

/-- Settles O30: both end in the state of `popPcPsw_returned`, from which RTI with T = 1 enters. -/
theorem returnsFromTrap : Obligations.ReturnsFromTrap := by
  refine ⟨⟨fun s first second tBit => ?_, fun s u first second tBit hu room => ?_, fun s absent => ?_⟩,
    fun s first second => ?_, fun s absent => ?_⟩
  · obtain ⟨m, e⟩ := exec_rti_returned first second ((returned_flagT s).trans tBit)
    exact ⟨_, e, returned_pc s, returned_sp s, rfl, fun q sp pc => returned_reg s sp pc, sameMemory_of rfl rfl rfl,
      rfl, rfl, rfl, rfl, rfl, rfl, rfl⟩
  · subst hu
    exact exec_rti_trap first second ((returned_flagT s).trans tBit) room
  · exact ⟨_, by rw [exec_rti, popPcPsw_noReply absent, andThen_abort, finish_timeout]; rfl⟩
  · obtain ⟨m, e⟩ := exec_rtt_returned first second
    exact ⟨_, e, returned_pc s, returned_sp s, rfl, fun q sp pc => returned_reg s sp pc, sameMemory_of rfl rfl rfl,
      rfl, rfl, rfl, rfl, rfl, rfl, rfl⟩
  · exact ⟨_, by rw [exec_rtt, popPcPsw_noReply absent, andThen_abort, finish_timeout]; rfl⟩

/-! ### START and STEP -/

/-- `s` with PC and the whole PSW from the save cells of the pult (R219). -/
def State.resumed (s : State) : State :=
  { s.setReg .pc (s.memWord 0o177674) with psw := s.memWord 0o177676 &&& 0xFCFF }

/-- The return of START and STEP in RAM: the two loads, then the pult bit cleared (R219). -/
theorem pultReturn_ram {s : State} (first : s.ramWord 0o177674 = true) (second : s.ramWord 0o177676 = true)
    (ready : PultReady s.resumed) :
    ∃ m, pultReturn s = .ok () { s.resumed.pultWith false with seq := s.seq, micro := m } := by
  let u : State := (s.noted .readWord 0o177674 (s.memWord 0o177674)).setReg .pc (s.memWord 0o177674)
  let v : State := (u.noted .readWord 0o177676 (s.memWord 0o177676)).loadPswWhole (s.memWord 0o177676)
  have psw : u.memWord 0o177676 = s.memWord 0o177676 := memWord_congr rfl rfl rfl _
  have read : readWord 0o177676 u = .ok (s.memWord 0o177676) (u.noted .readWord 0o177676 (s.memWord 0o177676)) := by
    rw [readWord_ram (s := u) ((ramWord_congr (s := s) rfl rfl rfl rfl _).trans second), psw]
  have resumed : v.pultWith false = { s.resumed.pultWith false with seq := s.seq, micro := v.micro } :=
    pultWith_hidden s.resumed false s.seq v.micro
  obtain ⟨m, clear⟩ := setPultBit_ready (s := v) ready false
  refine ⟨m, ?_⟩
  rw [pultReturn, readWord_ram first, waitsAt_ok, andThen_ok]
  show ((waitsAt 0x2C (readWord 0o177676 u)).andThen _) = _
  rw [read, waitsAt_ok, andThen_ok]
  show waitsAt 0x2A (setPultBit false v) = _
  rw [clear, waitsAt_ok, resumed]

theorem exec_start (n : BitVec 2) (s : State) : exec (.start n) s = finish false (pultReturn s) := rfl

theorem exec_step (n : BitVec 2) (s : State) :
    exec (.step n) s = finish false ((pultReturn s).andThen fun _ t => .ok () t.skipPoll) := rfl

/-- Settles O32: both end in the state of `pultReturn_ram`, STEP with the next poll skipped. -/
theorem startAndStep : Obligations.StartAndStep := by
  intro s x n first second hx ready
  subst hx
  obtain ⟨m, run⟩ := pultReturn_ram first second ready
  refine ⟨⟨m, ?_⟩, ⟨m, ?_⟩, ⟨?_, fun q hq => ?_⟩, (pultWith_frame s.resumed false).2⟩
  · rw [exec_start, run]
    rfl
  · rw [exec_step, run]
    rfl
  · exact reg_congr (pultWith_regs s.resumed false) .pc
  · exact (reg_congr (pultWith_regs s.resumed false) q).trans (reg_setReg_ne s hq _)

end Sys2Proof.Machine
end

section
/-! RESET (O31): time for a timer that is stopped, and the state that `State.afterReset` names. -/

namespace Sys2Proof.Machine

/-! ### A timer that is stopped -/

/-- The window and the prescalers do not decide whether a timer runs. -/
theorem run_stopped {t : Timer} (stopped : t.run = false) (w : Nat) (d : BitVec 2) (q : BitVec 4) :
    Timer.run { t with window := w, div4 := d, div16 := q } = false := stopped

theorem countClock_stopped {t : Timer} (stopped : t.run = false) : t.countClock = t :=
  if_neg (by rw [stopped]; decide)

/-- A period of CLC/128 moves the two prescalers, and clocks the count or not (R391). -/
theorem baseClock_eq (t : Timer) : ∃ (q : BitVec 4) (out : Bool), t.baseClock =
    if out then Timer.countClock { t with div4 := t.div4 + 1, div16 := q }
    else { t with div4 := t.div4 + 1, div16 := q } := by
  have stage : ∀ on : Bool, ∃ q, (if on then { t with div4 := t.div4 + 1, div16 := t.div16 + 1 }
      else { t with div4 := t.div4 + 1 } : Timer) = { t with div4 := t.div4 + 1, div16 := q } := by
    rintro (_ | _)
    · exact ⟨_, rfl⟩
    · exact ⟨_, rfl⟩
  obtain ⟨q, e⟩ := stage (if t.d4 then t.div4 == 3 else true)
  exact ⟨q, _, by rw [← e]; rfl⟩

/-- Of a timer that is stopped it moves the prescalers only (R57, R392). -/
theorem baseClock_stopped {t : Timer} (stopped : t.run = false) :
    ∃ d q, t.baseClock = { t with div4 := d, div16 := q } := by
  obtain ⟨q, out, e⟩ := baseClock_eq t
  rw [countClock_stopped (run_stopped stopped t.window (t.div4 + 1) q), ite_self] at e
  exact ⟨_, q, e⟩

theorem bases_stopped (k : Nat) {t : Timer} (stopped : t.run = false) :
    ∃ w d q, Timer.bases k t = { t with window := w, div4 := d, div16 := q } := by
  induction k generalizing t with
  | zero => exact ⟨_, _, _, rfl⟩
  | succ k ih =>
    obtain ⟨d, q, e⟩ := baseClock_stopped (run_stopped stopped (t.window - 128) t.div4 t.div16)
    obtain ⟨w, d', q', e'⟩ := ih (run_stopped stopped (t.window - 128) d q)
    exact ⟨w, d', q', by rw [Timer.bases, e, e']⟩

/-- The prescaler CLC/128 after it has wrapped (R391). -/
theorem ofNat_wrapped {p : BitVec 7} {n : Nat} (wraps : 128 - p.toNat ≤ n) :
    BitVec.ofNat 7 ((n - (128 - p.toNat)) % 128) = p + BitVec.ofNat 7 n := by
  apply BitVec.eq_of_toNat_eq
  rw [BitVec.toNat_add, BitVec.toNat_ofNat, BitVec.toNat_ofNat]
  omega

/-- Time moves the prescalers of a stopped timer, CLC/128 by the periods that pass, and closes its window (R391, R392). -/
theorem clocks_stopped (n : Nat) {t : Timer} (stopped : t.run = false) :
    ∃ w d q, Timer.clocks n t =
      { t with pre := t.pre + BitVec.ofNat 7 n, window := w, div4 := d, div16 := q } := by
  rw [Timer.clocks]
  split
  case isTrue => exact ⟨_, _, _, rfl⟩
  case isFalse wraps =>
    obtain ⟨d, q, e⟩ := baseClock_stopped (run_stopped stopped (t.window - (128 - t.pre.toNat)) t.div4 t.div16)
    obtain ⟨w, d', q', e'⟩ := bases_stopped ((n - (128 - t.pre.toNat)) / 128)
      (run_stopped stopped (t.window - (128 - t.pre.toNat)) d q)
    rw [e, e', ← ofNat_wrapped (Nat.le_of_not_lt wraps)]
    exact ⟨_, _, _, rfl⟩

/-! ### The timers of the other chips -/

/-- The pult bit as the map looks at it does not depend on the timers of other chips (R59). -/
theorem pultBit_of_timers {s t : State} (cfg : t.cfg = s.cfg) (sel1 : t.plat.sel1 = s.plat.sel1) (g : Timer → Timer)
    (chips : t.plat.chips = s.plat.chips.map fun c => { c with timer := g c.timer }) : t.pultBit = s.pultBit := by
  have first : t.plat.chips.find? (fun c => c.cfg.ncpu == 0) =
      (s.plat.chips.find? fun c => c.cfg.ncpu == 0).map fun c => { c with timer := g c.timer } := by
    rw [chips, List.find?_map]
    rfl
  rw [State.pultBit, State.pultBit, cfg, sel1, first]
  cases s.plat.chips.find? fun c => c.cfg.ncpu == 0 <;> rfl

/-- Memory is read alike where neither it, nor the map, nor what switches the map has changed. -/
theorem sameMemory_of_map {s t : State} (mem : t.mem = s.mem) (map : t.plat.map = s.plat.map)
    (mode : t.plat.mode = s.plat.mode) (pult : t.pultBit = s.pultBit) : SameMemory s t := by
  have gate : ∀ g, t.gateOpen g = s.gateOpen g := by
    rintro (_ | _ | _)
    · rfl
    · rw [State.gateOpen, pult]; rfl
    · rw [State.gateOpen, mode]; rfl
  intro b
  simp only [State.readByteAt, State.cellOf, State.bankAt, State.regionAt, mem, map, gate]

/-! ### The state after RESET -/

theorem init_stopped (t : Timer) : t.init.run = false := by simp [Timer.init, Timer.run]

theorem exec_reset (s : State) : exec .reset s = .next (s.afterReset.retire false) := rfl

/-- The line nINIT resets the timers of the other chips, told as a level and as a pulse, before time passes (R216, R399). -/
theorem chips_reset (g : Timer → Timer) (chips : List Chip) :
    ((chips.map fun c => { c with timer := c.timer.init }).map fun c => { c with timer := c.timer.init }).map
      (fun c => { c with timer := g c.timer }) = chips.map fun c => { c with timer := g { c.timer with csr := 0 } } := by
  rw [List.map_map, List.map_map]
  rfl

/-- What RESET leaves unchanged (R216). -/
theorem afterReset_frame (s : State) :
    s.afterReset.cfg = s.cfg ∧ s.afterReset.regs = s.regs ∧ s.afterReset.psw = s.psw ∧ s.afterReset.seq = s.seq ∧
    s.afterReset.per = s.per ∧ s.afterReset.mem = s.mem ∧ s.afterReset.inputs = s.inputs := by
  simp [State.afterReset]

theorem afterReset_ints (s : State) : s.afterReset.ints = { s.ints with irq2 := false, irq3 := false } := by
  simp [State.afterReset]

theorem afterReset_timer (s : State) : s.afterReset.timer = Timer.clocks 448 s.timer.init := by
  simp [State.afterReset]

/-- What RESET does on the platform (R216). -/
theorem afterReset_plat (s : State) : s.afterReset.plat = { s.plat with
    initPulses := s.plat.initPulses + 1
    pins := { s.plat.pins with initOut := s.plat.pins.dcloLow }
    chips := s.plat.chips.map fun c => { c with timer := Timer.clocks 448 { c.timer with csr := 0 } } } := by
  rw [← chips_reset]
  rfl

/-- RESET leaves what every byte of memory reads as: it does not touch what switches the map (R87, R216). -/
theorem sameMemory_afterReset (s : State) : SameMemory s s.afterReset := by
  obtain ⟨cfg, _, _, _, _, mem, _⟩ := afterReset_frame s
  have plat := afterReset_plat s
  generalize s.afterReset = t at cfg mem plat
  refine sameMemory_of_map mem (by rw [plat]) (by rw [plat]) ?_
  exact pultBit_of_timers cfg (by rw [plat]) (fun c => Timer.clocks 448 { c with csr := 0 }) (by rw [plat])

/-- Settles O31: RESET is one state, in which the timer, its control reset, has been stopped for 448 CLC. -/
theorem resetClearsPeripherals : Obligations.ResetClearsPeripherals := by
  intro s
  have run := exec_reset s
  obtain ⟨cfg, regs, psw, seq, per, _, inputs⟩ := afterReset_frame s
  have ints := afterReset_ints s
  have plat := afterReset_plat s
  have memory := sameMemory_afterReset s
  obtain ⟨w, d, q, stopped⟩ := clocks_stopped 448 (t := s.timer.init) (init_stopped s.timer)
  have timer := (afterReset_timer s).trans stopped
  generalize s.afterReset = t at run cfg regs psw seq per inputs ints plat memory timer
  refine ⟨t.retire false, run, regs, psw, memory, per, ?_, ?_, ?_, ?_, ?_, ints, plat, cfg, by rw [retire_seq, seq],
    inputs⟩ <;> rw [retire_timer, timer] <;> rfl

end Sys2Proof.Machine
end

section
/-! The instructions that load PC: JMP (O33), JSR (O35), RTS (O36), MARK (O37) and SOB (O38). -/

namespace Sys2Proof.Machine

/-! ### JMP -/

theorem exec_jmp_mem (m : MemMode) (r : Reg) (s : State) :
    exec (.jmp (.mem m r)) s = finish false ((effAddr m r .word s).andThen fun a t => .ok () (t.setReg .pc a)) := rfl

/-- Settles O33: the operand's address is computed and written into PC, and `effAddr_ok` says what computing it keeps. -/
theorem jmpLoadsOperandAddress : Obligations.JmpLoadsOperandAddress := by
  refine ⟨fun m r s s1 a address => ?_, fun m r s s1 k late => ?_⟩
  · obtain ⟨kept, others⟩ := effAddr_ok address
    refine ⟨(s1.setReg .pc a).retire false, by rw [exec_jmp_mem, address, andThen_ok, finish_ok],
      ⟨reg_setReg_same s1 .pc a, fun q hq => reg_setReg_ne s1 hq a⟩,
      fun q hr hpc => (reg_setReg_ne s1 hpc a).trans (others q hr hpc),
      kept.psw, sameMemory_of rfl rfl rfl, rfl, rest_of kept.seq rfl rfl rfl rfl rfl rfl rfl⟩
  · rw [exec_jmp_mem, late, andThen_abort, finish_timeout]

/-! ### JSR -/

theorem exec_jsr_mem (r rd : Reg) (m : MemMode) (s : State) :
    exec (.jsr r (.mem m rd)) s = finish false ((effAddr m rd .word s).andThen (call r)) := rfl

/-- `s` with the link register pushed, the hidden registers left out: SP is decremented before the link register is read
(R232). -/
def State.linkPushed (s : State) (r : Reg) : State :=
  (s.setReg .sp (s.reg .sp - 2)).putWord (s.reg .sp - 2) ((s.setReg .sp (s.reg .sp - 2)).reg r)

/-- `s` after the call of the subroutine at `a`, the hidden registers left out (R232). -/
def State.called (s : State) (r : Reg) (a : Word) : State := ((s.linkPushed r).setReg r (s.reg .pc)).setReg .pc a

theorem call_ram {s : State} (h : s.ramWord (s.reg .sp - 2) = true) (r : Reg) (a : Word) :
    ∃ m, call r a s = .ok () { s.called r a with micro := m } :=
  ⟨_, by rw [call, push_ram h, andThen_ok]; rfl⟩

theorem push_noReply {s : State} (h : s.noReply (s.reg .sp - 2) = true) (w : State → Word) :
    TimesOut (push w s) (s.setReg .sp (s.reg .sp - 2)) :=
  ⟨_, writeWord_noReply (s := s.setReg .sp (s.reg .sp - 2)) h _⟩

theorem reg_linkPushed_sp (s : State) (r : Reg) : (s.linkPushed r).reg .sp = s.reg .sp - 2 :=
  reg_setReg_same s .sp _

theorem reg_linkPushed_ne (s : State) (r : Reg) {q : Reg} (sp : q ≠ .sp) : (s.linkPushed r).reg q = s.reg q :=
  reg_setReg_ne s sp _

theorem reg_called_pc (s : State) (r : Reg) (a : Word) : (s.called r a).reg .pc = a := reg_setReg_same _ .pc a

/-- The link register takes PC, SP too where it is the link register. -/
theorem reg_called_link (s : State) {r : Reg} (pc : r ≠ .pc) (a : Word) : (s.called r a).reg r = s.reg .pc :=
  (reg_setReg_ne _ pc a).trans (reg_setReg_same _ r _)

/-- Besides PC and the link register the call changes what its push changes. -/
theorem reg_called_ne (s : State) {r q : Reg} (pc : q ≠ .pc) (link : q ≠ r) (a : Word) :
    (s.called r a).reg q = (s.linkPushed r).reg q :=
  (reg_setReg_ne _ pc a).trans (reg_setReg_ne _ link _)

/-- Settles O35: the address of the operand, then the state that `State.called` names. -/
theorem jsrPushesLinkAndJumps : Obligations.JsrPushesLinkAndJumps := by
  refine ⟨fun r rd m s s1 s2 a wf address hs2 ram => ?_, fun r rd m s s1 k late => ?_,
    fun r rd m s s1 a address absent => ?_⟩
  · subst hs2
    rw [reg_setReg_same] at ram
    obtain ⟨kept, others⟩ := effAddr_ok address
    obtain ⟨u, run⟩ := call_ram (s := s1) ((ramWord_congr (s := s1) rfl rfl rfl rfl _).symm.trans ram) r a
    have after : ∀ q, q ≠ .pc → q ≠ r → q ≠ .sp → (s1.called r a).reg q = s1.reg q := fun q pc link sp =>
      (reg_called_ne s1 pc link a).trans (reg_linkPushed_ne s1 r sp)
    refine ⟨({ s1.called r a with micro := u } : State).retire false,
      by rw [exec_jsr_mem, address, andThen_ok, run, finish_ok], reg_called_pc s1 r a,
      fun pc => reg_called_link s1 pc a,
      fun sp => (reg_called_ne s1 (by decide) sp.symm a).trans (reg_linkPushed_sp s1 r),
      fun q pc link sp hrd => (after q pc link sp).trans (others q hrd pc), after,
      onlyWord_put wf rfl rfl rfl, kept.psw, rest_of kept.seq rfl rfl rfl rfl rfl rfl rfl⟩
  · rw [exec_jsr_mem, late, andThen_abort, finish_timeout]
  · obtain ⟨u, late⟩ := push_noReply absent (fun t => t.reg r)
    exact ⟨u, by rw [exec_jsr_mem, address, andThen_ok, call, late, andThen_abort, finish_timeout]⟩

/-! ### RTS and MARK: a pop into a register -/

/-- The pop into `r` that is awaited at the micro-address `ma`, with which RTS and MARK end (R231, R233). -/
def popInto (ma : BitVec 7) (r : Reg) (s : State) : Res Unit :=
  (waitsAt ma (pop s)).andThen fun v t => .ok () (t.setReg r v)

/-- `s` with the top of the stack popped into `r`, the hidden registers left out: SP is incremented before `r` is written. -/
def State.poppedInto (s : State) (r : Reg) : State := (s.setReg .sp (s.reg .sp + 2)).setReg r (s.memWord (s.reg .sp))

theorem exec_rts (r : Reg) (s : State) : exec (.rts r) s = finish false (popInto 0x40 r (s.setReg .pc (s.reg r))) := rfl

theorem exec_mark (nn : BitVec 6) (s : State) : exec (.mark nn) s = finish false (popInto 0x6B .r5 (s.markFrame nn)) := rfl

theorem popInto_ram {s : State} (h : s.ramWord (s.reg .sp) = true) (ma : BitVec 7) (r : Reg) :
    ∃ m, popInto ma r s = .ok () { s.poppedInto r with micro := m } :=
  ⟨_, by rw [popInto, pop_ram h, waitsAt_ok, andThen_ok]; rfl⟩

theorem popInto_noReply {s : State} (h : s.noReply (s.reg .sp) = true) (ma : BitVec 7) (r : Reg) :
    TimesOut (popInto ma r s) (s.setReg .sp (s.reg .sp + 2)) :=
  ⟨_, by rw [popInto, pop_noReply h, waitsAt_timeout, andThen_abort]; rfl⟩

theorem reg_poppedInto_same (s : State) (r : Reg) : (s.poppedInto r).reg r = s.memWord (s.reg .sp) :=
  reg_setReg_same _ r _

theorem reg_poppedInto_sp (s : State) {r : Reg} (h : r ≠ .sp) : (s.poppedInto r).reg .sp = s.reg .sp + 2 :=
  (reg_setReg_ne _ h.symm _).trans (reg_setReg_same s .sp _)

theorem reg_poppedInto_ne (s : State) {r q : Reg} (sp : q ≠ .sp) (hr : q ≠ r) : (s.poppedInto r).reg q = s.reg q :=
  (reg_setReg_ne _ hr _).trans (reg_setReg_ne s sp _)

/-- An instruction that is a pop into `r` completes with `State.poppedInto` in its registers, and nothing else changed
(R231, R233). -/
theorem finish_popInto_ram {s : State} (h : s.ramWord (s.reg .sp) = true) (ma : BitVec 7) (r : Reg) :
    ∃ t, finish false (popInto ma r s) = .next t ∧ (∀ q, t.reg q = (s.poppedInto r).reg q) ∧ t.psw = s.psw ∧
      SameMemory s t ∧ Rest false s.seq.shadow s t := by
  obtain ⟨m, popped⟩ := popInto_ram h ma r
  exact ⟨({ s.poppedInto r with micro := m } : State).retire false, by rw [popped, finish_ok], fun _ => rfl, rfl,
    sameMemory_of rfl rfl rfl, rfl, rfl, rfl, rfl, rfl, rfl, rfl⟩

/-- An instruction that is a pop into `r` raises the timeout of the pop with SP incremented (R231, R233). -/
theorem raises_popInto {s : State} (h : s.noReply (s.reg .sp) = true) (ma : BitVec 7) (r : Reg) :
    Raises (finish false (popInto ma r s)) (s.setReg .sp (s.reg .sp + 2)) := by
  obtain ⟨m, late⟩ := popInto_noReply h ma r
  exact ⟨m, by rw [late, finish_timeout]⟩

/-- Settles O36: RTS is the pop into the link register from the state with PC loaded. -/
theorem rtsReturnsAndPopsLink : Obligations.RtsReturnsAndPopsLink := by
  refine ⟨?_, ?_⟩
  · rintro r s _ rfl ram
    let s1 := s.setReg .pc (s.reg r)
    have stack : s1.ramWord (s1.reg .sp) = true := (ramWord_congr (s := s) rfl rfl rfl rfl _).trans ram
    have word : s1.memWord (s1.reg .sp) = s.memWord (s1.reg .sp) := memWord_congr (s := s) rfl rfl rfl _
    obtain ⟨t, run, regs, psw, memory, rest⟩ := finish_popInto_ram stack 0x40 r
    refine ⟨t, (exec_rts r s).trans run, ?_, fun hr => ?_, fun hr => ?_, fun q pc sp hr => ?_, psw, memory, rest⟩
    · rw [regs, reg_poppedInto_same, word]
    · rw [regs, reg_poppedInto_ne s1 (by decide) hr.symm, reg_setReg_same]
    · rw [regs, reg_poppedInto_sp s1 hr]
    · rw [regs, reg_poppedInto_ne s1 sp hr, reg_setReg_ne s pc]
  · rintro r s _ rfl absent
    exact raises_popInto (s := s.setReg .pc (s.reg r)) absent 0x40 r

theorem reg_markFrame_sp (s : State) (nn : BitVec 6) : (s.markFrame nn).reg .sp = s.reg .pc + 2 * nn.setWidth 16 :=
  (reg_setReg_ne _ (by decide) _).trans (reg_setReg_same s .sp _)

theorem reg_markFrame_pc (s : State) (nn : BitVec 6) : (s.markFrame nn).reg .pc = s.reg .r5 := reg_setReg_same _ .pc _

theorem reg_markFrame_ne (s : State) (nn : BitVec 6) {q : Reg} (sp : q ≠ .sp) (pc : q ≠ .pc) :
    (s.markFrame nn).reg q = s.reg q := (reg_setReg_ne _ pc _).trans (reg_setReg_ne s sp _)

/-- MARK's opcode and its offset are the two parts of its word (R233). -/
theorem encodeWord_mark_or (nn : BitVec 6) : encodeWord (.mark nn) = (0o006400 : Word) ||| nn.setWidth 16 := by
  have parts := BitVec.setWidth_append_eq_shiftLeft_setWidth_or (w'' := 16) (b := (0o0064 : BitVec 10)) (b' := nn)
  exact (BitVec.setWidth_eq _).symm.trans parts

/-- Settles O37: MARK is the pop into R5 from `State.markFrame`, whose SP is the address of the frame. -/
theorem markUnwindsFrame : Obligations.MarkUnwindsFrame := by
  intro s nn a ha
  have frame : (s.markFrame nn).reg .sp = a := (reg_markFrame_sp s nn).trans ha.symm
  refine ⟨fun ram => ?_, fun absent => ?_, encodeWord_mark_or nn⟩
  · have stack : (s.markFrame nn).ramWord ((s.markFrame nn).reg .sp) = true := by
      rw [frame]; exact (ramWord_congr (s := s) rfl rfl rfl rfl a).trans ram
    have word : (s.markFrame nn).memWord ((s.markFrame nn).reg .sp) = s.memWord a := by
      rw [frame]; exact memWord_congr (s := s) rfl rfl rfl a
    obtain ⟨t, run, regs, psw, memory, rest⟩ := finish_popInto_ram stack 0x6B .r5
    refine ⟨t, (exec_mark nn s).trans run, ?_, ?_, ?_, fun q sp pc r5 => ?_, psw, memory, rest⟩
    · rw [regs, reg_poppedInto_sp _ (by decide), frame]
    · rw [regs, reg_poppedInto_ne _ (by decide) (by decide), reg_markFrame_pc]
    · rw [regs, reg_poppedInto_same, word]
    · rw [regs, reg_poppedInto_ne _ sp r5, reg_markFrame_ne s nn sp pc]
  · -- PC and SP are different registers: PC may as well be loaded after the increment of SP.
    have timeout := raises_popInto (s := s.markFrame nn) (by rw [frame]; exact absent) 0x6B .r5
    rw [frame] at timeout
    exact timeout

/-! ### SOB -/

theorem exec_sob (r : Reg) (uu : BitVec 6) (s : State) :
    exec (.sob r uu) s = .next (((s.setReg r (s.reg r - 1)).loopBack r uu).retire false) := rfl

theorem reg_loopBack_ne (s : State) (r : Reg) (uu : BitVec 6) {q : Reg} (pc : q ≠ .pc) :
    (s.loopBack r uu).reg q = s.reg q := by
  unfold State.loopBack; split
  · rfl
  · exact reg_setReg_ne s pc _

theorem reg_loopBack_pc (s : State) (r : Reg) (uu : BitVec 6) :
    (s.loopBack r uu).reg .pc = if s.reg r = 0 then s.reg .pc else s.reg .pc - 2 * uu.setWidth 16 := by
  unfold State.loopBack; split
  · rfl
  · exact reg_setReg_same s .pc _

/-- The branch of SOB, taken or not, changes registers only (R234). -/
theorem loopBack_eq (s : State) (r : Reg) (uu : BitVec 6) :
    s.loopBack r uu = { s with regs := (s.loopBack r uu).regs } := by
  unfold State.loopBack; split <;> rfl

/-- SOB's opcode, its register and its offset are the three parts of its word (R234). -/
theorem encodeWord_sob_or (r : Reg) (uu : BitVec 6) :
    encodeWord (.sob r uu) = (0o077000 : Word) ||| (r.toBits.setWidth 16 <<< 6) ||| uu.setWidth 16 := by
  have word := BitVec.setWidth_append_eq_shiftLeft_setWidth_or (w'' := 16) (b := (0o077 : BitVec 7)) (b' := r.toBits ++ uu)
  have field := BitVec.setWidth_append_eq_shiftLeft_setWidth_or (w'' := 16) (b := r.toBits) (b' := uu)
  rw [field, ← BitVec.or_assoc] at word
  exact (BitVec.setWidth_eq _).symm.trans word

/-- Settles O38: the register is decremented, and `State.loopBack` tests it; R7 is then PC itself. -/
theorem sobDecrementsAndBranches : Obligations.SobDecrementsAndBranches := by
  intro s r uu
  have run := exec_sob r uu s
  have pc := reg_loopBack_pc (s.setReg r (s.reg r - 1)) r uu
  have others := fun (q : Reg) => reg_loopBack_ne (s.setReg r (s.reg r - 1)) r uu (q := q)
  have frame := loopBack_eq (s.setReg r (s.reg r - 1)) r uu
  have zero : s.reg r - 1 = 0 ↔ s.reg r = 1 := sub_eq_zero
  rw [reg_setReg_same, if_congr zero rfl rfl] at pc
  generalize (s.setReg r (s.reg r - 1)).loopBack r uu = t at run pc others frame
  refine ⟨t.retire false, run, fun hr => ⟨?dec, ?target⟩, fun hr => ?own, fun q hq hpc => ?other, by rw [frame]; rfl,
    ?memory, ?rest, encodeWord_sob_or r uu⟩
  case dec => exact (others r hr).trans (reg_setReg_same s r _)
  case target => rw [reg_setReg_ne s (Ne.symm hr)] at pc; exact pc
  case own =>
    subst hr
    rw [reg_setReg_same] at pc
    refine Eq.trans pc ?_
    split
    · next one => exact zero.2 one
    · rfl
  case other => exact (others q hpc).trans (reg_setReg_ne s hq _)
  case memory => rw [frame]; exact sameMemory_of rfl rfl rfl
  case rest => rw [frame]; exact ⟨rfl, rfl, rfl, rfl, rfl, rfl, rfl⟩

end Sys2Proof.Machine
end

section
/-! The condition-code instructions (O39): the flags their mask selects, and the early read of the word at PC. -/

namespace Sys2Proof.Machine

/-! ### The flags a mask selects -/

/-- The flags `f` with those that the mask selects cleared (R240). -/
def Cc.cleared (f : Cc) (m : BitVec 4) : Cc :=
  ⟨f.n && !m.getLsbD 3, f.z && !m.getLsbD 2, f.v && !m.getLsbD 1, f.c && !m.getLsbD 0⟩

/-- The flags `f` with those that the mask selects set (R240). -/
def Cc.raised (f : Cc) (m : BitVec 4) : Cc :=
  ⟨f.n || m.getLsbD 3, f.z || m.getLsbD 2, f.v || m.getLsbD 1, f.c || m.getLsbD 0⟩

/-- The masks of NOP, CLC, CLV, CLZ, CLN and CCC (R241 to R245, R240). -/
theorem Cc.cleared_named (f : Cc) :
    f.cleared 0 = f ∧ f.cleared 1 = { f with c := false } ∧ f.cleared 2 = { f with v := false } ∧
    f.cleared 4 = { f with z := false } ∧ f.cleared 8 = { f with n := false } ∧
    f.cleared 15 = ⟨false, false, false, false⟩ := by
  simp [Cc.cleared]

/-- The masks of the second NOP, SEC, SEV, SEZ, SEN and SCC (R241, R246 to R249, R240). -/
theorem Cc.raised_named (f : Cc) :
    f.raised 0 = f ∧ f.raised 1 = { f with c := true } ∧ f.raised 2 = { f with v := true } ∧
    f.raised 4 = { f with z := true } ∧ f.raised 8 = { f with n := true } ∧
    f.raised 15 = ⟨true, true, true, true⟩ := by
  simp [Cc.raised]

/-- The mask is applied to PSW bit by bit, without any permutation (R240). -/
theorem clearCc_bits (s : State) (m : BitVec 4) (k : Nat) :
    (s.clearCc m).psw.getLsbD k = (s.psw.getLsbD k && !m.getLsbD k) := by
  by_cases inPsw : k < 16
  · simp [inPsw]
  · simp [BitVec.getLsbD_of_ge s.psw k (Nat.le_of_not_lt inPsw)]

theorem raiseCc_bits (s : State) (m : BitVec 4) (k : Nat) :
    (s.raiseCc m).psw.getLsbD k = (s.psw.getLsbD k || m.getLsbD k) := by
  by_cases inPsw : k < 16
  · simp [inPsw]
  · simp [BitVec.getLsbD_of_ge m k (by omega), inPsw]

/-- A mask has no bit above N, so T, I and the rest of PSW stay (R240). -/
theorem flagsAre_clearCc (s : State) (m : BitVec 4) : FlagsAre s (s.clearCc m) (s.cc.cleared m) :=
  ⟨clearCc_bits s m 3, clearCc_bits s m 2, clearCc_bits s m 1, clearCc_bits s m 0, fun k above => by
    simp only [clearCc_bits, BitVec.getLsbD_of_ge m k above, Bool.not_false, Bool.and_true]⟩

theorem flagsAre_raiseCc (s : State) (m : BitVec 4) : FlagsAre s (s.raiseCc m) (s.cc.raised m) :=
  ⟨raiseCc_bits s m 3, raiseCc_bits s m 2, raiseCc_bits s m 1, raiseCc_bits s m 0, fun k above => by
    simp only [raiseCc_bits, BitVec.getLsbD_of_ge m k above, Bool.or_false]⟩

/-! ### PSW is written, then the word at PC is read -/

/-- An instruction that ends with a prefetch from RAM, PSW already written, completes (R28, R240). -/
theorem flagged_prefetchNext {s : State} {p : Word} {f : Cc} (ram : s.ramWord (s.reg .pc) = true)
    (flags : FlagsAre s { s with psw := p } f) : Flagged s (finish false (prefetchNext { s with psw := p })) f := by
  have ram' : ({ s with psw := p } : State).ramWord (s.reg .pc) = true :=
    (ramWord_congr (s := s) rfl rfl rfl rfl _).trans ram
  have shadow : ({ s with psw := p } : State).prefetched false = s.prefetched false :=
    congrArg some (memWord_congr (s := s) rfl rfl rfl _)
  obtain ⟨m, run⟩ := prefetch_ram false ram'
  rw [shadow] at run
  exact ⟨_, congrArg (finish false) run, rfl, flags, sameMemory_of rfl rfl rfl, rfl, rfl, rfl, rfl, rfl, rfl, rfl⟩

/-- An instruction that ends with a prefetch that nothing answers raises the timeout with PSW already written (R81, D9). -/
theorem flaggedRaises_prefetchNext {s : State} {p : Word} {f : Cc} (absent : s.noReply (s.reg .pc) = true)
    (flags : FlagsAre s { s with psw := p } f) :
    FlaggedRaises s (finish false (prefetchNext { s with psw := p })) f := by
  obtain ⟨m, late⟩ := prefetch_noReply (s := { s with psw := p }) false absent
  exact ⟨p, flags, m, congrArg (finish false) late⟩

/-- An instruction that writes PSW, its flags only, and then ends with a prefetch (R28, R240). -/
theorem changesFlags_of_psw {i : Instr} {f : State → Cc} (p : State → Word)
    (run : ∀ s, exec i s = finish false (prefetchNext { s with psw := p s }))
    (flags : ∀ s, FlagsAre s { s with psw := p s } (f s)) : ChangesFlags i f := by
  intro s
  rw [run]
  exact ⟨fun ram => flagged_prefetchNext ram (flags s), fun absent => flaggedRaises_prefetchNext absent (flags s)⟩

/-- An instruction that is `changeCc` with the mask `m` cleared (R240). -/
theorem changesFlags_of_clear {i : Instr} {f : State → Cc} (m : BitVec 4)
    (run : ∀ s, exec i s = changeCc (fun s => s.clearCc m) s) (flags : ∀ s, s.cc.cleared m = f s) : ChangesFlags i f :=
  changesFlags_of_psw (fun s => (s.clearCc m).psw) run fun s => flags s ▸ flagsAre_clearCc s m

/-- An instruction that is `changeCc` with the mask `m` set (R240). -/
theorem changesFlags_of_raise {i : Instr} {f : State → Cc} (m : BitVec 4)
    (run : ∀ s, exec i s = changeCc (fun s => s.raiseCc m) s) (flags : ∀ s, s.cc.raised m = f s) : ChangesFlags i f :=
  changesFlags_of_psw (fun s => (s.raiseCc m).psw) run fun s => flags s ▸ flagsAre_raiseCc s m

/-! ### The words -/

/-- The opcode and the mask are the two parts of a condition-code word (R152, R240). -/
theorem encCC_or (op : BitVec 12) (m : BitVec 4) : encCC op m = op.setWidth 16 <<< 4 ||| m.setWidth 16 :=
  (BitVec.setWidth_eq _).symm.trans BitVec.setWidth_append_eq_shiftLeft_setWidth_or

/-! ### The instructions -/

/-- Settles O39: each form is `changeCc` with its mask cleared or set; a named form has the mask of its generic form. -/
theorem conditionCodesChangeMasked : Obligations.ConditionCodesChangeMasked := by
  refine ⟨fun m => changesFlags_of_clear m (fun _ => rfl) fun _ => rfl,
    fun m => changesFlags_of_raise m (fun _ => rfl) fun _ => rfl,
    changesFlags_of_clear 0 (fun _ => rfl) fun s => ?nop, changesFlags_of_raise 0 (fun _ => rfl) fun s => ?nopSet,
    changesFlags_of_clear 1 (fun _ => rfl) fun s => ?clc, changesFlags_of_clear 2 (fun _ => rfl) fun s => ?clv,
    changesFlags_of_clear 4 (fun _ => rfl) fun s => ?clz, changesFlags_of_clear 8 (fun _ => rfl) fun s => ?cln,
    changesFlags_of_clear 15 (fun _ => rfl) fun s => ?ccc, changesFlags_of_raise 1 (fun _ => rfl) fun s => ?sec,
    changesFlags_of_raise 2 (fun _ => rfl) fun s => ?sev, changesFlags_of_raise 4 (fun _ => rfl) fun s => ?sez,
    changesFlags_of_raise 8 (fun _ => rfl) fun s => ?sen, changesFlags_of_raise 15 (fun _ => rfl) fun s => ?scc,
    fun m => ⟨encCC_or 0o0012 m, encCC_or 0o0013 m⟩, rfl, rfl, rfl, rfl, rfl, rfl, rfl, rfl, rfl, rfl, rfl, rfl⟩
  all_goals
    obtain ⟨nop, clc, clv, clz, cln, ccc⟩ := s.cc.cleared_named
    obtain ⟨nopSet, sec, sev, sez, sen, scc⟩ := s.cc.raised_named
    assumption

end Sys2Proof.Machine
end

section
/-! The branches (O40, O41): each is `branchIf` on one test of the flags. -/

namespace Sys2Proof.Machine

/-! ### The two outcomes of a test -/

/-- A branch whose test holds moves PC by twice its signed offset (R250). -/
theorem branchIf_taken (bb : BitVec 8) (s : State) :
    branchIf true bb s = .next ((s.setReg .pc (s.reg .pc + 2 * bb.signExtend 16)).retire false) := rfl

/-- A branch whose test fails only retires (R250). -/
theorem branchIf_notTaken (bb : BitVec 8) (s : State) : branchIf false bb s = .next (s.retire false) := rfl

/-- An instruction that is `branchIf` branches on the condition that its test decides (R250). -/
theorem branched_of_test {i : Instr} {s : State} {bb : BitVec 8} {test : Bool} {cond : Prop}
    (run : exec i s = branchIf test bb s) (decides : test = true ↔ cond) : Branched s (exec i s) cond bb := by
  rw [run]
  cases test with
  | false =>
    have fails : ¬ cond := fun holds => absurd (decides.2 holds) Bool.false_ne_true
    exact ⟨_, branchIf_notTaken bb s, fun holds => absurd holds fails, fun _ => rfl, rfl, sameMemory_of rfl rfl rfl,
      rfl, rfl, rfl, rfl, rfl, rfl, rfl⟩
  | true =>
    have holds : cond := decides.1 rfl
    have moved : OnlyReg s ((s.setReg .pc (s.reg .pc + 2 * bb.signExtend 16)).retire false) .pc
        (s.reg .pc + 2 * bb.signExtend 16) := ⟨reg_setReg_same s .pc _, fun _ pc => reg_setReg_ne s pc _⟩
    exact ⟨_, branchIf_taken bb s, fun _ => moved, fun fails => absurd holds fails, rfl, sameMemory_of rfl rfl rfl,
      rfl, rfl, rfl, rfl, rfl, rfl, rfl⟩

/-- A branch that tests one flag, or FR.C, as 1. -/
theorem branched_of_set {i : Instr} {s : State} {bb : BitVec 8} {flag : Bool} (run : exec i s = branchIf flag bb s) :
    Branched s (exec i s) (flag = true) bb :=
  branched_of_test run Iff.rfl

/-- A branch that tests one flag, or FR.C, as 0. -/
theorem branched_of_clear {i : Instr} {s : State} {bb : BitVec 8} {flag : Bool}
    (run : exec i s = branchIf (!flag) bb s) : Branched s (exec i s) (flag = false) bb :=
  branched_of_test run (Bool.not_eq_true' flag).to_iff

/-! ### The tests of more than one flag -/

/-- FR.C is PSW.C, but 0 while it is stale with the erratum modelled (R250, R440, D11). -/
theorem frC_eq (s : State) : s.frC = (s.cc.c && !(s.cfg.erratumFrc && s.seq.frcStale)) := by
  unfold State.frC
  cases s.cfg.erratumFrc && s.seq.frcStale with
  | false => exact (Bool.and_true _).symm
  | true => exact (Bool.and_false _).symm

/-- BGE: N xor V is 0 where N and V agree (R254). -/
theorem not_xor_iff_eq (n v : Bool) : (!(n ^^ v)) = true ↔ n = v := by
  rw [Bool.not_eq_true', ← Bool.not_eq_true, Bool.xor_iff_ne, not_ne_iff]

/-- BGT: Z is 0, and N and V agree (R256). -/
theorem not_or_xor_iff (z n v : Bool) : (!(z || (n ^^ v))) = true ↔ z = false ∧ n = v := by
  rw [Bool.not_or, Bool.and_eq_true, not_xor_iff_eq, Bool.not_eq_true']

/-- BLE: Z is 1, or N and V differ (R257). -/
theorem or_xor_iff (z n v : Bool) : (z || (n ^^ v)) = true ↔ z = true ∨ n ≠ v := by
  rw [Bool.or_eq_true, Bool.xor_iff_ne]

/-- BHI: Z and FR.C are both 0 (R260). -/
theorem not_or_iff (z c : Bool) : (!(z || c)) = true ↔ z = false ∧ c = false := by
  rw [Bool.not_eq_true', Bool.or_eq_false_iff]

/-! ### The words -/

/-- The opcode and the offset are the two parts of a branch's word (R152, R250). -/
theorem encBR_or (op bb : BitVec 8) : encBR op bb = op.setWidth 16 <<< 8 ||| bb.setWidth 16 :=
  (BitVec.setWidth_eq _).symm.trans BitVec.setWidth_append_eq_shiftLeft_setWidth_or

/-! ### The instructions -/

/-- Settles O40: each of these branches is `branchIf` on its test of N, Z and V; BR's test always holds. -/
theorem branchesFollowConditions : Obligations.BranchesFollowConditions := by
  intro s bb
  have br : Branched s (exec (.br bb) s) true bb := branched_of_set rfl
  have bne : Branched s (exec (.bne bb) s) (s.cc.z = false) bb := branched_of_clear rfl
  have beq : Branched s (exec (.beq bb) s) (s.cc.z = true) bb := branched_of_set rfl
  have bge := branched_of_test (i := .bge bb) (s := s) rfl (not_xor_iff_eq s.cc.n s.cc.v)
  have blt := branched_of_test (i := .blt bb) (s := s) rfl (Bool.xor_iff_ne (x := s.cc.n) (y := s.cc.v))
  have bgt := branched_of_test (i := .bgt bb) (s := s) rfl (not_or_xor_iff s.cc.z s.cc.n s.cc.v)
  have ble := branched_of_test (i := .ble bb) (s := s) rfl (or_xor_iff s.cc.z s.cc.n s.cc.v)
  have bpl : Branched s (exec (.bpl bb) s) (s.cc.n = false) bb := branched_of_clear rfl
  have bmi : Branched s (exec (.bmi bb) s) (s.cc.n = true) bb := branched_of_set rfl
  have bvc : Branched s (exec (.bvc bb) s) (s.cc.v = false) bb := branched_of_clear rfl
  have bvs : Branched s (exec (.bvs bb) s) (s.cc.v = true) bb := branched_of_set rfl
  exact ⟨br, bne, beq, bge, blt, bgt, ble, bpl, bmi, bvc, bvs,
    encBR_or 0o001 bb, encBR_or 0o002 bb, encBR_or 0o003 bb, encBR_or 0o004 bb, encBR_or 0o005 bb, encBR_or 0o006 bb,
    encBR_or 0o007 bb, encBR_or 0o200 bb, encBR_or 0o201 bb, encBR_or 0o204 bb, encBR_or 0o205 bb⟩

/-- Settles O41: the C that these branches test is FR.C, which `frC_eq` gives; the second names run alike. -/
theorem carryBranchesSeeFrC : Obligations.CarryBranchesSeeFrC := by
  intro s bb c hc
  obtain rfl : c = s.frC := hc.trans (frC_eq s).symm
  have bhi := branched_of_test (i := .bhi bb) (s := s) rfl (not_or_iff s.cc.z s.frC)
  have blos := branched_of_test (i := .blos bb) (s := s) rfl (Bool.or_eq_true_iff (x := s.cc.z) (y := s.frC))
  have bcc : Branched s (exec (.bcc bb) s) (s.frC = false) bb := branched_of_clear rfl
  have bcs : Branched s (exec (.bcs bb) s) (s.frC = true) bb := branched_of_set rfl
  have bhis : Branched s (exec (.bhis bb) s) (s.frC = false) bb := branched_of_clear rfl
  have blo : Branched s (exec (.blo bb) s) (s.frC = true) bb := branched_of_set rfl
  exact ⟨bhi, blos, bcc, bcs, bhis, blo, encBR_or 0o202 bb, encBR_or 0o203 bb, encBR_or 0o206 bb, encBR_or 0o206 bb,
    encBR_or 0o207 bb, encBR_or 0o207 bb⟩

end Sys2Proof.Machine
end

section
/-! The single-operand instructions: arithmetic (O43), shifts (O44), SWAB and SXT (O45), TST and TSTB (O46). Each is
`modifyWord`, `modifyByte`, `testWord` or `testByte` on its own rule, so all that is left is what the rule computes. The
rules are stated for every width. -/

namespace Sys2Proof.Machine

section Rules

variable {w : Nat}

/-! ### Flags and the carry, for every width -/

/-- N is the top bit of the result, Z its being 0 (R33). -/
theorem ccOf_eq (r : BitVec w) (v c : Bool) : ccOf r v c = ⟨r.getLsbD (w - 1), r == 0, v, c⟩ := by
  rw [ccOf, BitVec.msb_eq_getLsbD_last]

/-- A result with the flags of a shift (R282). -/
theorem ccShift_eq (r : BitVec w) (c : Bool) : (r, ccShift r c) = shifted r c := by
  rw [ccShift, ccOf_eq, BitVec.msb_eq_getLsbD_last, shifted]

theorem carryIn_eq (s : State) : (BitVec.ofBool s.cc.c).setWidth w = carryIn w s := by
  unfold carryIn
  cases s.cc.c with
  | false => exact BitVec.setWidth_zero w 1
  | true => exact BitVec.setWidth_ofNat_one_eq_ofNat_one_of_lt Nat.one_pos

/-- The carry that a rotate to the right takes in stands in the top bit (R282, R294). -/
theorem topBit_eq (s : State) : topBit w s.cc.c = carryIn w s <<< (w - 1) := by
  unfold topBit carryIn
  cases s.cc.c with
  | false => simp
  | true => rfl

/-! ### The rules of arithmetic -/

theorem aluCom_eq (x : BitVec w) : aluCom x = (~~~x, ⟨(~~~x).getLsbD (w - 1), ~~~x == 0, false, true⟩) := by
  rw [aluCom, ccOf_eq]

theorem aluInc_eq (o : Cc) (x : BitVec w) :
    aluInc o x = (x + 1, ⟨(x + 1).getLsbD (w - 1), x + 1 == 0, x == maxPos w, o.c⟩) := by
  rw [aluInc, ccOf_eq]

theorem aluDec_eq (o : Cc) (x : BitVec w) :
    aluDec o x = (x - 1, ⟨(x - 1).getLsbD (w - 1), x - 1 == 0, x == minNeg w, o.c⟩) := by
  rw [aluDec, ccOf_eq]

/-- NEG subtracts from 0; its C is the borrow of that subtraction (R275, R290). -/
theorem aluNeg_eq (s : State) (x : BitVec w) :
    aluNeg s.cfg x = (0 - x, ⟨(0 - x).getLsbD (w - 1), 0 - x == 0, x == minNeg w, borrowFlag s (x != 0)⟩) := by
  rw [aluNeg, ccOf_eq, ← BitVec.zero_sub]
  rfl

theorem aluAdc_eq (s : State) (x : BitVec w) :
    aluAdc s.cc x = (x + carryIn w s, ⟨(x + carryIn w s).getLsbD (w - 1), x + carryIn w s == 0,
      x == maxPos w && s.cc.c, x == BitVec.allOnes w && s.cc.c⟩) := by
  simp only [aluAdc, ccOf_eq, carryIn_eq]

theorem aluSbc_eq (s : State) (x : BitVec w) :
    aluSbc s.cfg s.cc x = (x - carryIn w s, ⟨(x - carryIn w s).getLsbD (w - 1), x - carryIn w s == 0,
      x == minNeg w && s.cc.c, borrowFlag s (x == 0 && s.cc.c)⟩) := by
  simp only [aluSbc, ccOf_eq, carryIn_eq]
  rfl

theorem aluTst_eq (x : BitVec w) : aluTst x = ⟨x.getLsbD (w - 1), x == 0, false, false⟩ := ccOf_eq x false false

/-! ### The rules of the shifts -/

theorem aluRor_eq (s : State) (x : BitVec w) :
    aluRor s.cc x = shifted ((carryIn w s <<< (w - 1)) ||| (x >>> 1)) (x.getLsbD 0) := by
  rw [aluRor, topBit_eq, ccShift_eq]

theorem aluRol_eq (s : State) (x : BitVec w) :
    aluRol s.cc x = shifted ((x <<< 1) ||| carryIn w s) (x.getLsbD (w - 1)) := by
  rw [aluRol, carryIn_eq, ccShift_eq, BitVec.msb_eq_getLsbD_last]

/-- ASR keeps the sign bit (R284, R296). -/
theorem aluAsr_eq (x : BitVec w) : aluAsr x = shifted ((x &&& minNeg w) ||| (x >>> 1)) (x.getLsbD 0) := by
  rw [aluAsr, ccShift_eq, BitVec.or_comm]

theorem aluAsl_eq (x : BitVec w) : aluAsl x = shifted (x <<< 1) (x.getLsbD (w - 1)) := by
  rw [aluAsl, ccShift_eq, BitVec.msb_eq_getLsbD_last]

/-! ### The rules of SWAB and SXT -/

/-- The low byte of the result is the high byte of the operand, so N is bit 15 of the operand (R270). -/
theorem aluSwab_eq (x : Word) :
    aluSwab x = (mkWord (hiByte x) (loByte x), ⟨x.getLsbD 15, hiByte x == 0, false, false⟩) := by
  have sign : (hiByte x).getLsbD 7 = x.getLsbD 15 := BitVec.getLsbD_extractLsb' 8 8 x 7
  rw [aluSwab, loByte_mkWord, ccOf_eq, sign]

/-- The result of SXT is 0 exactly where N is 0, so Z is not N (D21). -/
theorem aluSxt_eq (o : Cc) (x : Word) : aluSxt o x = (if o.n then 0o177777 else 0, ⟨o.n, !o.n, false, o.c⟩) := by
  unfold aluSxt
  cases o.n <;> rfl

end Rules

/-! ### The instructions -/

/-- Settles O43: each instruction is `modifyWord` or `modifyByte` on the rule of its name, which is one for both widths. -/
theorem arithmeticResultsAndFlags : Obligations.ArithmeticResultsAndFlags :=
  ⟨wordModify_of .clr _ _ (fun _ _ => rfl) fun _ _ => rfl,
   wordModify_of .com _ _ (fun _ _ => rfl) fun _ => aluCom_eq,
   wordModify_of .inc _ _ (fun _ _ => rfl) fun s => aluInc_eq s.cc,
   wordModify_of .dec _ _ (fun _ _ => rfl) fun s => aluDec_eq s.cc,
   wordModify_of .neg _ _ (fun _ _ => rfl) aluNeg_eq,
   wordModify_of .adc _ _ (fun _ _ => rfl) aluAdc_eq,
   wordModify_of .sbc _ _ (fun _ _ => rfl) aluSbc_eq,
   byteModify_of .clrb _ _ (fun _ _ => rfl) fun _ _ => rfl,
   byteModify_of .comb _ _ (fun _ _ => rfl) fun _ => aluCom_eq,
   byteModify_of .incb _ _ (fun _ _ => rfl) fun s => aluInc_eq s.cc,
   byteModify_of .decb _ _ (fun _ _ => rfl) fun s => aluDec_eq s.cc,
   byteModify_of .negb _ _ (fun _ _ => rfl) aluNeg_eq,
   byteModify_of .adcb _ _ (fun _ _ => rfl) aluAdc_eq,
   byteModify_of .sbcb _ _ (fun _ _ => rfl) aluSbc_eq⟩

/-- Settles O44: each shift is `modifyWord` or `modifyByte` on the rule of its name, and each rule is `shifted` of the
result and the bit shifted out. -/
theorem shiftResultsAndFlags : Obligations.ShiftResultsAndFlags :=
  ⟨wordModify_of .ror _ _ (fun _ _ => rfl) aluRor_eq,
   wordModify_of .rol _ _ (fun _ _ => rfl) aluRol_eq,
   wordModify_of .asr _ _ (fun _ _ => rfl) fun _ => aluAsr_eq,
   wordModify_of .asl _ _ (fun _ _ => rfl) fun _ => aluAsl_eq,
   byteModify_of .rorb _ _ (fun _ _ => rfl) aluRor_eq,
   byteModify_of .rolb _ _ (fun _ _ => rfl) aluRol_eq,
   byteModify_of .asrb _ _ (fun _ _ => rfl) fun _ => aluAsr_eq,
   byteModify_of .aslb _ _ (fun _ _ => rfl) fun _ => aluAsl_eq⟩

/-- Settles O45: both are `modifyWord`; N and Z of SWAB are those of the operand's high byte, Z of SXT is not N. -/
theorem swabAndSxtResultsAndFlags : Obligations.SwabAndSxtResultsAndFlags :=
  ⟨wordModify_of .swab _ _ (fun _ _ => rfl) fun _ => aluSwab_eq,
   wordModify_of .sxt _ _ (fun _ _ => rfl) fun s => aluSxt_eq s.cc⟩

/-- Settles O46: TST is `testWord` and TSTB `testByte`, on one rule. -/
theorem testsOnlyRead : Obligations.TestsOnlyRead :=
  ⟨wordTest_of .tst _ _ (fun _ _ => rfl) fun _ => aluTst_eq,
   byteTest_of .tstb _ _ (fun _ _ => rfl) fun _ => aluTst_eq⟩

end Sys2Proof.Machine
end

section
/-! MTPS and MFPS (O47): the transfers of the low byte of PSW. -/

namespace Sys2Proof.Machine

/-! ### The bits of PSW -/

/-- MTPS takes bits 7:5 and 3:0 of PSW from its byte and keeps the others (R300). -/
theorem loadPswMtps_bits (s : State) (v : Byte) (k : Nat) :
    (s.loadPswMtps v).psw.getLsbD k = if k < 8 ∧ k ≠ 4 then v.getLsbD k else s.psw.getLsbD k := by
  by_cases inPsw : k < 16
  · have kept : ∀ j : Fin 16, (0xFF10 : Word).getLsbD j = !decide (j.val < 8 ∧ j.val ≠ 4) := by decide
    have taken : ∀ j : Fin 16, (0x00EF : Word).getLsbD j = decide (j.val < 8 ∧ j.val ≠ 4) := by decide
    rw [loadPswMtps_psw, BitVec.getLsbD_or, BitVec.getLsbD_and, BitVec.getLsbD_and, kept ⟨k, inPsw⟩, taken ⟨k, inPsw⟩]
    by_cases fromByte : k < 8 ∧ k ≠ 4
    · simp [fromByte, inPsw]
    · simp [fromByte]
  · have noByte : ¬(k < 8 ∧ k ≠ 4) := by omega
    rw [if_neg noByte, BitVec.getLsbD_of_ge _ k (by omega), BitVec.getLsbD_of_ge _ k (by omega)]

/-- The flags of MFPS are those of the stored byte (R301). -/
theorem ccLogic_pswRead (s : State) :
    ccLogic s.cc (loByte s.pswRead) = ⟨s.psw.getLsbD 7, loByte s.psw == 0, false, s.cc.c⟩ := by
  have sign : (loByte s.psw).getLsbD 7 = s.psw.getLsbD 7 := BitVec.getLsbD_extractLsb' 0 8 s.psw 7
  rw [loByte_pswRead, ccLogic, ccOf_eq, sign]

/-! ### MTPS -/

/-- What the register form of MTPS leaves in its source register (R300, D20). -/
def State.mtpsKept (s : State) (r : Reg) : Word := if s.cfg.mtpsClearsSrcBit4 then s.reg r &&& 0o177757 else s.reg r

theorem mtpsSource_eq (s : State) (r : Reg) : s.mtpsSource r = s.setReg r (s.mtpsKept r) := by
  unfold State.mtpsSource State.mtpsKept
  split
  · rfl
  · exact (setReg_self s r).symm

/-- The state in which the register form of MTPS reads the word at PC: PSW and the source register are written (R300, D9). -/
def State.mtpsLoaded (s : State) (r : Reg) : State := (s.setReg r (s.mtpsKept r)).loadPswMtps (s.regByte r)

theorem exec_mtps_reg (s : State) (r : Reg) :
    exec (.mtps (.reg r)) s = finish false (discardedAt (s.reg .pc) (s.mtpsLoaded r)) := by
  rw [State.mtpsLoaded, ← mtpsSource_eq]
  rfl

theorem exec_mtps_mem (s : State) (m : MemMode) (r : Reg) :
    exec (.mtps (.mem m r)) s = finish false ((effAddr m r .byte s).andThen fun a s =>
      (readByte a s).andThen fun v s => .ok () (s.loadPswMtps v)) := rfl

/-- The word that MTPS reads at PC is discarded (R300). -/
theorem exec_mtps_reg_ram {s : State} (ram : s.ramWord (s.reg .pc) = true) (r : Reg) :
    ∃ m, exec (.mtps (.reg r)) s = .next ({ s.mtpsLoaded r with micro := m }.retire false) := by
  have ram' : (s.mtpsLoaded r).ramWord (s.reg .pc) = true := (ramWord_congr (s := s) rfl rfl rfl rfl _).trans ram
  exact ⟨_, by rw [exec_mtps_reg, discardedAt_ram ram', finish_ok]; rfl⟩

/-- The timeout of that read keeps the new PSW (D9). -/
theorem raises_mtps_reg {s : State} (absent : s.noReply (s.reg .pc) = true) (r : Reg) :
    Raises (exec (.mtps (.reg r)) s) (s.mtpsLoaded r) :=
  ⟨_, by rw [exec_mtps_reg, discardedAt_noReply (s := s.mtpsLoaded r) absent, finish_timeout]; rfl⟩

theorem exec_mtps_mem_ram {m : MemMode} {r : Reg} {s s1 : State} {a : Word} (address : effAddr m r .byte s = .ok a s1)
    (ram : s1.ramByte a = true) : ∃ hidden, exec (.mtps (.mem m r)) s =
      .next ((State.loadPswMtps { s1 with micro := hidden } (s1.readByteAt a)).retire false) :=
  ⟨_, by rw [exec_mtps_mem, address, andThen_ok, readByte_ram ram, andThen_ok, finish_ok]; rfl⟩

theorem pswLow_mtpsLoaded (s : State) (r : Reg) : PswLow s (s.mtpsLoaded r) (loByte (s.reg r)) :=
  loadPswMtps_bits (s.setReg r (s.mtpsKept r)) (s.regByte r)

theorem onlyReg_mtpsLoaded (s : State) (r : Reg) : OnlyReg s (s.mtpsLoaded r) r (s.mtpsKept r) :=
  ⟨reg_setReg_same s r _, fun _ other => reg_setReg_ne s other _⟩

/-- MTPS from memory traps where its operand does (R198, R300). -/
theorem memTraps_mtps : MemTraps .byte .mtps := by
  refine ⟨fun m r s s1 k late => ?_, fun m r s s1 a address absent => ⟨(s1.latch .readByte a).micro, ?_⟩⟩
  · rw [exec_mtps_mem, late, andThen_abort, finish_timeout]
  · rw [exec_mtps_mem, address, andThen_ok, readByte_noReply absent, andThen_abort, finish_timeout]
    rfl

/-! ### MFPS -/

theorem exec_mfps_reg (s : State) (r : Reg) :
    exec (.mfps (.reg r)) s = finish true
      (storeByte false (.reg r) (loByte s.pswRead) (ccLogic s.cc (loByte s.pswRead)) s) := rfl

/-- MFPS to a register whose word at PC is in RAM (R28, R195, R301). -/
theorem exec_mfps_reg_ram {s : State} (ram : s.ramWord (s.reg .pc) = true) (r : Reg) :
    ∃ m, exec (.mfps (.reg r)) s = .next
      (((State.setReg { s with micro := m, seq := { s.seq with shadow := s.prefetched (r == .pc) } } r
        ((loByte s.pswRead).signExtend 16)).setCc (ccLogic s.cc (loByte s.pswRead))).retire true) := by
  obtain ⟨m, read⟩ := prefetch_ram (r == .pc) ram
  exact ⟨m, by rw [exec_mfps_reg, storeByte, Bool.false_or, read, andThen_ok, finish_ok]⟩

/-! ### The instructions -/

/-- Settles O47: the register form of MTPS is a discarded read in the state `mtpsLoaded`, MFPS is `storeByte` to a register
and `modifyByte` in memory. -/
theorem mtpsAndMfpsTransferPsw : Obligations.MtpsAndMfpsTransferPsw := by
  refine ⟨⟨fun r s ram => ?mtpsReg, fun r s absent => ?mtpsLate, fun m r s s1 a address ram => ?mtpsMem, memTraps_mtps⟩,
    fun r s ram => ?mfpsReg, fun r s absent => regForm_noReply _ absent, ?mfpsMem⟩
  case mtpsReg =>
    obtain ⟨m, run⟩ := exec_mtps_reg_ram ram r
    exact ⟨_, run, pswLow_mtpsLoaded s r, onlyReg_mtpsLoaded s r, sameMemory_of rfl rfl rfl, rfl, rfl, rfl, rfl, rfl, rfl,
      rfl⟩
  case mtpsLate =>
    exact ⟨s.mtpsLoaded r, pswLow_mtpsLoaded s r, onlyReg_mtpsLoaded s r, rfl, raises_mtps_reg absent r⟩
  case mtpsMem =>
    obtain ⟨kept, regs⟩ := effAddr_ok address
    obtain ⟨hidden, run⟩ := exec_mtps_mem_ram address ram
    refine ⟨_, run, fun k => ?_, rfl, regs, sameMemory_of rfl rfl rfl, rest_of kept.seq rfl rfl rfl rfl rfl rfl rfl⟩
    rw [← kept.psw]
    exact loadPswMtps_bits { s1 with micro := hidden } _ k
  case mfpsReg =>
    obtain ⟨m, run⟩ := exec_mfps_reg_ram ram r
    refine ⟨_, run, ?_, ?_, sameMemory_of rfl rfl rfl, rfl, rfl, rfl, rfl, rfl, rfl, rfl⟩
    · rw [← loByte_pswRead]
      exact ⟨reg_setReg_same _ r _, fun _ other => reg_setReg_ne _ other _⟩
    · rw [← ccLogic_pswRead]
      exact flagsAre_psw (s1 := s) rfl rfl
  case mfpsMem =>
    refine byteInMem_of false .mfps _ _ (fun _ _ _ => rfl) fun s _ => ?_
    rw [ccLogic_pswRead, loByte_pswRead]

end Sys2Proof.Machine
end

section
/-! The double-operand instructions that combine two operands: compares and bit tests (O49), logic (O50), ADD and SUB (O51).
Each is a source, then `modifyWord`, `testWord`, `modifyByte` or `testByte` on its own rule, so all that is left is what the
rule computes. The rules are stated for every width. -/

namespace Sys2Proof.Machine

section Rules

variable {w : Nat}

/-! ### The rules -/

theorem ccLogic_eq (o : Cc) (r : BitVec w) : ccLogic o r = ⟨r.getLsbD (w - 1), r == 0, false, o.c⟩ := ccOf_eq r false o.c

/-- A compare subtracts the destination from the source; its C is the borrow of that subtraction (R312, R322). -/
theorem aluCmp_eq (s : State) (v d : BitVec w) :
    aluCmp s.cfg v d = ⟨(v - d).getLsbD (w - 1), v - d == 0,
      v.getLsbD (w - 1) != d.getLsbD (w - 1) && (v - d).getLsbD (w - 1) == d.getLsbD (w - 1),
      borrowFlag s (v.ult d)⟩ := by
  simp only [aluCmp, ccOf_eq, BitVec.msb_eq_getLsbD_last]
  rfl

theorem aluBit_eq (o : Cc) (v d : BitVec w) :
    aluBit o v d = ⟨(v &&& d).getLsbD (w - 1), v &&& d == 0, false, o.c⟩ := ccLogic_eq o (v &&& d)

theorem aluBic_eq (o : Cc) (v d : BitVec w) :
    aluBic o v d = (d &&& ~~~v, ⟨(d &&& ~~~v).getLsbD (w - 1), d &&& ~~~v == 0, false, o.c⟩) := by
  rw [aluBic, ccLogic_eq]

theorem aluBis_eq (o : Cc) (v d : BitVec w) :
    aluBis o v d = (d ||| v, ⟨(d ||| v).getLsbD (w - 1), d ||| v == 0, false, o.c⟩) := by
  rw [aluBis, ccLogic_eq]

theorem aluXor_eq (o : Cc) (v d : Word) :
    aluXor o v d = (d ^^^ v, ⟨(d ^^^ v).getLsbD 15, d ^^^ v == 0, false, o.c⟩) := by
  rw [aluXor, ccLogic_eq]

theorem aluAdd_eq (v d : BitVec w) :
    aluAdd v d = (v + d, ⟨(v + d).getLsbD (w - 1), v + d == 0,
      v.getLsbD (w - 1) == d.getLsbD (w - 1) && (v + d).getLsbD (w - 1) != v.getLsbD (w - 1),
      decide (2 ^ w ≤ v.toNat + d.toNat)⟩) := by
  simp only [aluAdd, ccOf_eq, BitVec.msb_eq_getLsbD_last]

/-- SUB subtracts the source from the destination, the other way round than a compare (R317). -/
theorem aluSub_eq (s : State) (v d : BitVec w) :
    aluSub s.cfg v d = (d - v, ⟨(d - v).getLsbD (w - 1), d - v == 0,
      d.getLsbD (w - 1) != v.getLsbD (w - 1) && (d - v).getLsbD (w - 1) == v.getLsbD (w - 1),
      borrowFlag s (d.ult v)⟩) := by
  simp only [aluSub, ccOf_eq, BitVec.msb_eq_getLsbD_last]
  rfl

/-! ### The rule after the source has been read -/

variable {α : Type}

/-- Reading the source keeps the flags, so a rule of the flags may be taken in the state before it (R310, R320). -/
theorem rule_of_cc {g : Cc → BitVec w → BitVec w → α} {f : State → BitVec w → BitVec w → α}
    (rule : ∀ s v d, g s.cc v d = f s v d) (s s1 : State) (v d : BitVec w) (psw : s1.psw = s.psw) (_ : s1.cfg = s.cfg) :
    g s1.cc v d = f s v d := by rw [cc_congr psw, rule]

/-- Reading the source keeps the parameters, so a rule of the borrow may be taken in the state before it (R31, D3). -/
theorem rule_of_cfg {g : Config → BitVec w → BitVec w → α} {f : State → BitVec w → BitVec w → α}
    (rule : ∀ s v d, g s.cfg v d = f s v d) (s s1 : State) (v d : BitVec w) (_ : s1.psw = s.psw) (cfg : s1.cfg = s.cfg) :
    g s1.cfg v d = f s v d := by rw [cfg, rule]

end Rules

/-! ### The instructions -/

/-- Settles O49: each is a source and `testWord` or `testByte` on the rule of its name, which is one for both widths. -/
theorem comparesWriteNothing : Obligations.ComparesWriteNothing :=
  ⟨⟨wordPairTest_of .cmp _ _ (fun _ _ _ => rfl) (rule_of_cfg aluCmp_eq),
    wordPairTest_of .bit _ _ (fun _ _ _ => rfl) (rule_of_cc fun s => aluBit_eq s.cc)⟩,
   bytePairTest_of .cmpb _ _ (fun _ _ _ => rfl) (rule_of_cfg aluCmp_eq),
   bytePairTest_of .bitb _ _ (fun _ _ _ => rfl) (rule_of_cc fun s => aluBit_eq s.cc)⟩

/-- Settles O50: BIC and BIS are a source and `modifyWord` or `modifyByte` on the rule of their name; XOR is `modifyWord`
alone, on a rule that already holds the register's value. -/
theorem logicResultsAndFlags : Obligations.LogicResultsAndFlags :=
  ⟨⟨wordPair_of .bic _ _ (fun _ _ _ => rfl) (rule_of_cc fun s => aluBic_eq s.cc),
    wordPair_of .bis _ _ (fun _ _ _ => rfl) (rule_of_cc fun s => aluBis_eq s.cc),
    fun r => ⟨wordInReg_of (r == .pc) (.xor r) _ _ (fun _ _ => rfl) fun s => aluXor_eq s.cc (s.reg r),
      wordInMem_of (r == .pc) (.xor r) _ _ (fun _ _ _ => rfl) fun s => aluXor_eq s.cc (s.reg r)⟩⟩,
   bytePair_of .bicb _ _ (fun _ _ _ => rfl) (rule_of_cc fun s => aluBic_eq s.cc),
   bytePair_of .bisb _ _ (fun _ _ _ => rfl) (rule_of_cc fun s => aluBis_eq s.cc)⟩

/-- Settles O51: both are a source and `modifyWord` on the rule of their name. -/
theorem addAndSubResultsAndFlags : Obligations.AddAndSubResultsAndFlags :=
  ⟨wordPair_of .add _ _ (fun _ _ _ => rfl) fun _ _ v d _ _ => aluAdd_eq v d,
   wordPair_of .sub _ _ (fun _ _ _ => rfl) (rule_of_cfg aluSub_eq)⟩

end Sys2Proof.Machine
end

section
/-! The moves MOV (O48) and MOVB (O52): a destination that is written without being read. -/

namespace Sys2Proof.Machine

/-! ### The source has been read -/

theorem exec_mov {ss : Operand} {s s1 : State} {v : Word} (source : readOpWord ss s = .ok v s1) (dd : Operand) :
    exec (.mov ss dd) s = finish false (storeWord (isPc ss) dd v (ccLogic s1.cc v) s1) := by
  show finish false ((readOpWord ss s).andThen _) = _
  rw [source, andThen_ok]

theorem exec_movb {ss : Operand} {s s1 : State} {v : Byte} (source : readOpByte ss s = .ok v s1) (dd : Operand) :
    exec (.movb ss dd) s = finish (isRegForm dd) (storeByte (isPc ss) dd v (ccLogic s1.cc v) s1) := by
  show finish (isRegForm dd) ((readOpByte ss s).andThen _) = _
  rw [source, andThen_ok]

/-- The flags of a move are those of the value moved, and reading it kept C (R311, R321). -/
theorem ccLogic_source {w : Nat} {s s1 : State} (psw : s1.psw = s.psw) (v : BitVec w) :
    ccLogic s1.cc v = ⟨v.getLsbD (w - 1), v == 0, false, s.cc.c⟩ := by
  rw [cc_congr psw, ccLogic_eq]

/-! ### The destination -/

theorem storeWord_mem {m : MemMode} {r : Reg} {s s1 : State} {a : Word} (address : effAddr m r .word s = .ok a s1)
    (p : Bool) (v : Word) (f : Cc) :
    storeWord p (.mem m r) v f s = (writeWord a v s1).andThen fun _ s => .ok () (s.setCc f) := by
  rw [storeWord, address, andThen_ok]

theorem storeByte_mem {m : MemMode} {r : Reg} {s s1 : State} {a : Word} (address : effAddr m r .byte s = .ok a s1)
    (p : Bool) (v : Byte) (f : Cc) :
    storeByte p (.mem m r) v f s = (writeByte a v s1).andThen fun _ s => .ok () (s.setCc f) := by
  rw [storeByte, address, andThen_ok]

/-- MOVB to a register whose word at PC is in RAM: the register takes the sign extension (R28, R195, R321). -/
theorem exec_movb_reg_ram {ss : Operand} {s s1 : State} {v : Byte} (source : readOpByte ss s = .ok v s1)
    (ram : s1.ramWord (s1.reg .pc) = true) (r : Reg) :
    ∃ m, exec (.movb ss (.reg r)) s = .next
      (((State.setReg
        { s1 with micro := m, seq := { s1.seq with shadow := s1.prefetched (isPc ss || r == .pc) } } r
        (v.signExtend 16)).setCc (ccLogic s1.cc v)).retire true) := by
  obtain ⟨m, read⟩ := prefetch_ram (isPc ss || r == .pc) ram
  refine ⟨m, ?_⟩
  rw [exec_movb source, storeByte, read, andThen_ok, finish_ok]
  rfl

/-- MOVB to RAM: one byte is written (R321). -/
theorem exec_movb_mem_ram {ss : Operand} {m : MemMode} {r : Reg} {s s1 s2 : State} {v : Byte} {a : Word}
    (source : readOpByte ss s = .ok v s1) (address : effAddr m r .byte s1 = .ok a s2) (ram : s2.ramByte a = true) :
    exec (.movb ss (.mem m r)) s = .next
      ((((s2.noted .writeByte a (byteInQ v)).putByte a v).setCc (ccLogic s1.cc v)).retire false) := by
  rw [exec_movb source, storeByte_mem address, writeByte_ram ram, andThen_ok, finish_ok]
  rfl

/-! ### A device as the destination -/

/-- The state after a move to a device that reacts to the write by `onWrite`. -/
def State.movedToDevice (s : State) (onWrite : List Reaction) (m : Micro) (f : Cc) : State :=
  (State.setCc { s.reacts onWrite with micro := m } f).retire false

/-- What the device does is all that happens outside the registers and PSW: nothing of what it does at a read (R311, R321). -/
theorem movedToDevice_frame {s s2 : State} (psw : s2.psw = s.psw) (onWrite : List Reaction) (m : Micro) (f : Cc) :
    (s2.movedToDevice onWrite m f).regs = s2.regs ∧
    (s2.movedToDevice onWrite m f).freeCtr = (s2.reacts onWrite).freeCtr ∧
    (s2.movedToDevice onWrite m f).plat = (s2.reacts onWrite).plat ∧
    (s2.movedToDevice onWrite m f).mem = s2.mem ∧ FlagsAre s (s2.movedToDevice onWrite m f) f := by
  obtain ⟨outside, _⟩ := outside_reacts onWrite s2
  obtain ⟨mem, _⟩ := reacts_mem onWrite s2
  exact ⟨outside.regs, rfl, rfl, mem, flagsAre_psw (outside.psw.trans psw) rfl⟩

/-- MOV to a device (R311, R95). -/
theorem exec_mov_device {ss : Operand} {m : MemMode} {r : Reg} {s s1 s2 : State} {v a : Word}
    {onRead onWrite : List Reaction} (source : readOpWord ss s = .ok v s1) (address : effAddr m r .word s1 = .ok a s2)
    (device : IsDevice s2 a onRead onWrite) (even : isOdd a = false) :
    exec (.mov ss (.mem m r)) s =
      .next (s2.movedToDevice onWrite (s2.noted .writeWord a v).micro (ccLogic s1.cc v)) := by
  rw [exec_mov source, storeWord_mem address, writeWord_device device even, andThen_ok, finish_ok]
  rfl

/-- MOVB to a device, at an odd address too (R321, R95). -/
theorem exec_movb_device {ss : Operand} {m : MemMode} {r : Reg} {s s1 s2 : State} {v : Byte} {a : Word}
    {onRead onWrite : List Reaction} (source : readOpByte ss s = .ok v s1) (address : effAddr m r .byte s1 = .ok a s2)
    (device : IsDevice s2 a onRead onWrite) :
    exec (.movb ss (.mem m r)) s =
      .next (s2.movedToDevice onWrite (s2.noted .writeByte a (byteInQ v)).micro (ccLogic s1.cc v)) := by
  rw [exec_movb source, storeByte_mem address, writeByte_device device, andThen_ok, finish_ok]
  rfl

/-! ### Where MOVB traps -/

theorem bytePairTraps_movb : BytePairTraps .movb := by
  refine ⟨fun ss dd s s1 k late => ?source, fun ss r s s1 v source absent => ?prefetch,
    fun ss m r s s1 s2 v k source late => ?address, fun ss m r s s1 s2 v a source address absent => ?write⟩
  case source =>
    show finish (isRegForm dd) ((readOpByte ss s).andThen _) = _
    rw [late, andThen_abort, finish_timeout]
  case prefetch =>
    rw [exec_movb source]
    exact regForm_noReply _ absent
  case address => rw [exec_movb source, storeByte, late, andThen_abort, finish_timeout]
  case write =>
    refine ⟨(s2.noted .writeByte a (byteInQ v)).micro, ?_⟩
    rw [exec_movb source, storeByte_mem address, writeByte_noReply absent, andThen_abort, finish_timeout]
    rfl

/-! ### The instructions -/

/-- Settles O48: MOV is a source and `storeWord`, whose one transaction at the destination is a write. -/
theorem movWritesSource : Obligations.MovWritesSource := by
  refine ⟨wordPair_of_store .mov _ _ (fun _ _ _ => rfl) fun s s1 v _ psw _ => congrArg (Prod.mk v) (ccLogic_source psw v),
    fun ss m r s s1 s2 v a onRead onWrite source address device even => ?_⟩
  have fromSource := (readOpWord_ok source).1.psw
  have onTheWay := (effAddr_ok address).1.psw
  rw [← ccLogic_source fromSource]
  exact ⟨_, exec_mov_device source address device even, movedToDevice_frame (onTheWay.trans fromSource) onWrite _ _⟩

/-- Settles O52: MOVB is a source and `storeByte`, whose register form extends the sign and whose one transaction at a
destination in memory is a write. -/
theorem movbExtendsOrStoresByte : Obligations.MovbExtendsOrStoresByte := by
  refine ⟨fun ss r s s1 v source ram => ?reg, fun ss m r s s1 s2 v a wf source address ram => ?mem,
    fun ss m r s s1 s2 v a onRead onWrite source address device => ?device, bytePairTraps_movb⟩
  all_goals
    obtain ⟨atSource, sourceRegs⟩ := readOpByte_ok source
    rw [← ccLogic_source atSource.psw]
  case reg =>
    obtain ⟨m, run⟩ := exec_movb_reg_ram source ram r
    refine ⟨_, run, ⟨reg_setReg_same _ r _, fun _ other => reg_setReg_ne _ other _⟩, fun q hr hpc hss => ?_,
      flagsAre_psw (s1 := s1) atSource.psw rfl, sameMemory_of rfl rfl rfl, rfl, rfl, rfl, rfl, rfl, rfl, rfl⟩
    exact (reg_setReg_ne _ hr _).trans (sourceRegs q hss hpc)
  case mem =>
    obtain ⟨onTheWay, addressRegs⟩ := effAddr_ok address
    exact ⟨_, exec_movb_mem_ram source address ram, rfl,
      fun q hr hpc hss => (addressRegs q hr hpc).trans (sourceRegs q hss hpc), onlyByte_put wf rfl rfl rfl,
      flagsAre_psw (s1 := s2) (onTheWay.psw.trans atSource.psw) rfl,
      rest_of (onTheWay.seq.trans atSource.seq) rfl rfl rfl rfl rfl rfl rfl⟩
  case device =>
    have onTheWay := (effAddr_ok address).1.psw
    exact ⟨_, exec_movb_device source address device, movedToDevice_frame (onTheWay.trans atSource.psw) onWrite _ _⟩

end Sys2Proof.Machine
end

section
/-! MUL on ВМ1Г (O53): the signed product, its register pair and its flags. -/

namespace Sys2Proof.Machine

/-! ### The two halves of the product -/

theorem product_low (p : Int) : (BitVec.ofInt 32 p).extractLsb' 0 16 = BitVec.ofInt 16 p := by
  apply BitVec.eq_of_toNat_eq
  rw [BitVec.extractLsb'_toNat, BitVec.toNat_ofInt, BitVec.toNat_ofInt]
  omega

theorem product_high (p : Int) : (BitVec.ofInt 32 p).extractLsb' 16 16 = BitVec.ofInt 16 (p / 65536) := by
  apply BitVec.eq_of_toNat_eq
  rw [BitVec.extractLsb'_toNat, BitVec.toNat_ofInt, BitVec.toNat_ofInt, Nat.shiftRight_eq_div_pow]
  omega

/-- The register with the lowest bit of its number set, by its number and by name (R330). -/
theorem orOne_eq (r : Reg) : Reg.orOne r = oddOf r := by cases r <;> rfl

/-- The registers after MUL: the low word is written last, so that an odd register holds it (R330). -/
theorem reg_putProduct (s : State) (r q : Reg) (p : Int) : (s.putProduct r p).reg q =
    if q = oddOf r then BitVec.ofInt 16 p else if q = r then BitVec.ofInt 16 (p / 65536) else s.reg q := by
  rw [State.putProduct, reg_setReg, reg_setReg, orOne_eq, product_low, product_high]

/-! ### The flags -/

/-- MUL changes the four flags: C says that the product does not fit, and with `MUL_NZV = product` the others follow the
product too (R332). -/
theorem mulCc_eq (s : State) (p : Int) : ∃ f k, s.mulCc p = { s.setCc f with freeCtr := k } ∧ f.c = (ccMul p).c ∧
    (s.cfg.mulNzv = .product → f = ccMul p) := by
  rw [State.mulCc]
  cases s.cfg.mulNzv with
  | product => exact ⟨_, _, rfl, rfl, fun _ => rfl⟩
  | any => exact ⟨_, _, rfl, rfl, fun h => by cases h⟩

theorem mulMcir_eq (s : State) (m : Word) : ∃ u, s.mulMcir m = { s with micro := u } := by
  rw [State.mulMcir]
  split
  · exact ⟨_, rfl⟩
  · exact ⟨_, rfl⟩

/-! ### The instruction -/

theorem exec_mul_vm1g {s : State} (h : s.cfg.variant = .vm1g) (r : Reg) (ss : Operand) :
    exec (.mul r ss) s = finish false ((readOpWord ss s).andThen fun v t =>
      .ok () (((t.putProduct r (product (t.reg r) v)).mulCc (product (t.reg r) v)).mulMcir (t.reg r))) := by
  show execMul r ss s = _
  rw [execMul, h]

/-- MUL whose source has been read: the product is in the register pair, and its flags are set (R330, R332). -/
theorem exec_mul_read {s s1 : State} {v : Word} {ss : Operand} (h : s.cfg.variant = .vm1g) (r : Reg)
    (read : readOpWord ss s = .ok v s1) : ∃ f k m,
      exec (.mul r ss) s = .next (State.retire
        { (s1.putProduct r (product (s1.reg r) v)).setCc f with freeCtr := k, micro := m } false) ∧
      f.c = (ccMul (product (s1.reg r) v)).c ∧
      (s1.cfg.mulNzv = .product → f = ccMul (product (s1.reg r) v)) := by
  obtain ⟨f, k, flags, carry, all⟩ := mulCc_eq (s1.putProduct r (product (s1.reg r) v)) (product (s1.reg r) v)
  obtain ⟨m, mcir⟩ := mulMcir_eq ((s1.putProduct r (product (s1.reg r) v)).mulCc (product (s1.reg r) v)) (s1.reg r)
  refine ⟨f, k, m, ?_, carry, all⟩
  rw [exec_mul_vm1g h, read, andThen_ok, finish_ok, mcir, flags]

/-- Settles O53: the state of `exec_mul_read`, read by `reg_putProduct` and `flagsAre_setCc`. -/
theorem mulProductOnVm1g : Obligations.MulProductOnVm1g := by
  refine ⟨fun ss r s s1 v p variant read hp => ?_, fun ss r s s1 k variant timeout => ?_⟩
  · obtain ⟨f, k, m, run, carry, all⟩ := exec_mul_read variant r read
    obtain ⟨addressed, others⟩ := readOpWord_ok read
    rw [product, ← hp] at run carry all
    rw [addressed.cfg] at all
    have regs := fun q => reg_putProduct s1 r q p
    obtain ⟨n, z, ov, c, rest⟩ := flagsAre_setCc (s := s) (t := s1.putProduct r p) addressed.psw f
    refine ⟨_, run, ?_, fun even => ?_, fun q hr ho => ?_, fun q hr ho hpc hb => ?_, c.trans carry, fun hm => ?_, rest,
      sameMemory_of rfl rfl rfl, rest_of addressed.seq rfl rfl rfl rfl rfl rfl rfl⟩
    · exact (regs _).trans (if_pos rfl)
    · exact (regs _).trans ((if_neg even).trans (if_pos rfl))
    · exact (regs _).trans ((if_neg ho).trans (if_neg hr))
    · exact (regs _).trans ((if_neg ho).trans ((if_neg hr).trans (others q hb hpc)))
    · have follow := all hm
      exact ⟨n.trans (congrArg Cc.n follow), z.trans (congrArg Cc.z follow), ov.trans (congrArg Cc.v follow)⟩
  · rw [exec_mul_vm1g variant, timeout, andThen_abort, finish_timeout]

end Sys2Proof.Machine
end

section
/-! The poll (O17, O18), and what a step does where no instruction and no interrupt is taken: the illegal word (O14), HLT and
ST (O15), and the initial start (O16). -/

namespace Sys2Proof.Machine

/-! ### The requests below the errors -/

/-- `s` requests and admits the timer interrupt: ВМ1Г, TVE_REQ and MON set (R348). -/
theorem tveRequest_iff (s : State) : s.tveRequest = true ↔
    s.cfg.variant = .vm1g ∧ s.timer.req = true ∧ s.timer.csr.getLsbD 2 = true := by
  simp [State.tveRequest, Timer.mon, and_assoc]

theorem tveRequest_eq_false {s : State}
    (h : s.cfg.variant = .vm1a ∨ s.timer.req = false ∨ s.timer.csr.getLsbD 2 = false) : s.tveRequest = false := by
  rw [Bool.eq_false_iff, ne_eq, tveRequest_iff]
  rintro ⟨variant, req, mon⟩
  rw [variant, req, mon] at h
  simp at h

/-- The part of the matrix below the errors (R348). -/
def State.requested (s : State) : Answer :=
  if s.flagT = true ∧ s.per.wcpu = false then ⟨0b100, .tBit, 0b010⟩
  else if s.ints.aclo = true ∧ s.psw10 = false then ⟨0b100, .powerFail, 0b100⟩
  else if s.plat.pins.irq1Low = true ∧ s.psw10 = false ∧ s.psw11 = false then ⟨0b010, .halt, 0b111⟩
  else if s.tveRequest = true ∧ s.psw10 = false ∧ s.flagI = false then ⟨0b100, .irq3OrTimer, 0b101⟩
  else if s.ints.irq2 = true ∧ s.psw10 = false ∧ s.flagI = false then ⟨0b100, .irq2, 0b011⟩
  else if s.ints.irq3 = true ∧ s.psw10 = false ∧ s.flagI = false then ⟨0b100, .irq3OrTimer, 0b001⟩
  else if s.cfg.ncpu = 0 ∧ s.plat.pins.virqLow = true ∧ s.psw10 = false ∧ s.flagI = false then ⟨0b100, .ext, 0b010⟩
  else if s.per.wcpu then ⟨0b000, .halt, 0b111⟩
  else ⟨0b001, .halt, 0b111⟩

/-- With power good and no error request the matrix is the part below the errors (R348). -/
theorem matrix_requested {s : State} (acok : s.ints.acok = true) (iato : s.ints.iato = false)
    (dble : s.ints.dble = false) (qbto : s.ints.qbto = false) (uerr : s.ints.uerr = false) :
    matrix s = s.requested := by
  unfold matrix
  rw [if_neg (by rw [acok]; decide), if_neg (by rw [iato]; decide), if_neg (by rw [dble]; decide),
    if_neg (by rw [qbto]; decide), if_neg (by rw [uerr]; decide), State.requested]

/-- Settles O17: no request is unmasked, and the answer that is left clears no latch. -/
theorem maskedRequestsWait : Obligations.MaskedRequestsWait := by
  intro s acok iato dble qbto uerr trap power irq1 lines
  have quietLines : s.psw10 = false → s.flagI = false → s.tveRequest = false ∧ s.ints.irq2 = false ∧
      s.ints.irq3 = false ∧ (s.plat.pins.virqLow = false ∨ s.cfg.ncpu ≠ 0) := by
    intro high low
    obtain masked | masked | ⟨irq2, irq3, virq, timer⟩ := lines
    · exact absurd low (ne_false_of_eq_true masked)
    · exact absurd high (ne_false_of_eq_true masked)
    · exact ⟨tveRequest_eq_false timer, irq2, irq3, virq⟩
  have answer : matrix s = ⟨if s.per.wcpu then 0b000 else 0b001, .halt, 0b111⟩ := by
    rw [matrix_requested acok iato dble qbto uerr, State.requested]
    rw [if_neg fun ⟨t, _⟩ => ne_false_of_eq_true t trap,
      if_neg fun ⟨req, high⟩ => power.elim (ne_false_of_eq_true req) (ne_false_of_eq_true · high),
      if_neg fun ⟨req, high, high'⟩ => irq1.elim (ne_false_of_eq_true req)
        (Or.elim · (ne_false_of_eq_true · high) (ne_false_of_eq_true · high')),
      if_neg fun ⟨req, high, low⟩ => have ⟨tve, _⟩ := quietLines high low; ne_false_of_eq_true req tve,
      if_neg fun ⟨req, high, low⟩ => have ⟨_, irq2, _⟩ := quietLines high low; ne_false_of_eq_true req irq2,
      if_neg fun ⟨req, high, low⟩ => have ⟨_, _, irq3, _⟩ := quietLines high low; ne_false_of_eq_true req irq3,
      if_neg fun ⟨first, req, high, low⟩ =>
        have ⟨_, _, _, virq⟩ := quietLines high low; virq.elim (ne_false_of_eq_true req) (absurd first)]
    split
    · rfl
    · rfl
  obtain ⟨m, run⟩ := poll_eq s s.micro
  rw [answer, polled_none acok rfl] at run
  exact ⟨m, run⟩

/-- Settles O18: in each case the choices above the request fail and its own holds. -/
theorem pollOrder : Obligations.PollOrder := by
  intro s acok iato dble qbto uerr
  rw [matrix_requested acok iato dble qbto uerr, State.requested]
  refine ⟨fun trap run => if_pos ⟨trap, run⟩, fun trap high => ?_⟩
  rw [if_neg (show ¬ (s.flagT = true ∧ s.per.wcpu = false) from trap)]
  refine ⟨fun power => if_pos ⟨power, high⟩, fun power => ?_⟩
  rw [if_neg fun ⟨req, _⟩ => ne_false_of_eq_true req power]
  refine ⟨fun irq1 high' => if_pos ⟨irq1, high, high'⟩, fun irq1 low => ?_⟩
  rw [if_neg fun ⟨req, _, high'⟩ => irq1.elim (ne_false_of_eq_true req) (ne_false_of_eq_true · high')]
  refine ⟨fun variant req mon => if_pos ⟨(tveRequest_iff s).2 ⟨variant, req, mon⟩, high, low⟩, fun timer => ?_⟩
  rw [if_neg fun ⟨req, _⟩ => ne_false_of_eq_true req (tveRequest_eq_false timer)]
  refine ⟨fun irq2 => if_pos ⟨irq2, high, low⟩, fun irq2 irq3 => ?_, fun irq2 irq3 first virq => ?_⟩
  · rw [if_neg fun ⟨req, _⟩ => ne_false_of_eq_true req irq2, if_pos ⟨irq3, high, low⟩]
  · rw [if_neg fun ⟨req, _⟩ => ne_false_of_eq_true req irq2, if_neg fun ⟨req, _⟩ => ne_false_of_eq_true req irq3,
      if_pos ⟨first, virq, high, low⟩]

/-! ### A step that executes nothing -/

/-- The error of a word that decodes to nothing (R342). -/
theorem execWord_error {s : State} {e : DecodeError} (h : decodeWord s.seq.ir = .error e) :
    execWord s = raiseIllegal s := by
  rw [execWord, h]

/-- A fetch has cleared the bits of CPU_ERROR, so that an error after it leaves its own bit alone (R27, R341, R342). -/
theorem withError_fetched (s : State) (w : Word) (q : Sequencer) (b : Byte) :
    State.withError { fetched s w with seq := q } b =
      { fetched s w with seq := q, per := { (fetched s w).per with errFlags := b } } :=
  congrArg (fun f => { fetched s w with seq := q, per := { (fetched s w).per with errFlags := f } }) BitVec.zero_or

/-- A fetched word that decodes to nothing, at its execution (R342). -/
theorem execWord_illegal {s : State} {w : Word} {e : DecodeError} (illegal : decodeWord w = .error e)
    (noError : NoError (fetched s w)) (room : UserRoom s 0o10) (m : Micro) (q : Sequencer)
    (ir : q.ir = w) (hung : q.hung = s.seq.hung) :
    ∃ t, execWord { fetched s w with micro := m, seq := q } = .next t ∧
      UserEntered { fetched s w with seq := q, per := { (fetched s w).per with errFlags := 0x02 } } t
        (s.reg .pc + 2) 0o10 := by
  rw [execWord_error (s := { fetched s w with micro := m, seq := q }) (ir ▸ illegal), ← withError_fetched]
  exact raiseIllegal_ram (s := { fetched s w with micro := m, seq := q }) noError
    (userRoom_congr (s := s) rfl rfl rfl rfl rfl hung room)

/-- Settles O14: the dispatch of `step_dispatch`, polled or not, executes the word, which is the exception of
`execWord_illegal`. -/
theorem illegalWordTraps : Obligations.IllegalWordTraps := by
  intro s w e h run illegal noError poll room
  obtain ⟨polled, unpolled⟩ := step_dispatch h run
  have trap := fun m => execWord_illegal illegal noError room m { (fetched s w).seq with pollEnabled := true } rfl rfl
  cases hp : s.seq.pollEnabled with
  | true =>
    obtain ⟨waits, answer⟩ := poll hp
    obtain ⟨m, e⟩ := polled hp
    have seq : { (fetched s w).seq with pollEnabled := true } = (fetched s w).seq :=
      sequencer_ext rfl rfl rfl hp.symm rfl rfl rfl rfl
    rw [polled_one answer, onAnswer_one answer (by exact waits)] at e
    obtain ⟨t, next, entered⟩ := trap m
    rw [seq] at next
    exact ⟨t, e.trans next, entered⟩
  | false =>
    obtain ⟨m, e⟩ := unpolled hp
    obtain ⟨t, next, entered⟩ := trap m
    exact ⟨t, e.trans next, entered⟩

/-- Settles O15: HLT is looked at before anything else, and ST right after the fetch. -/
theorem hltAndSingleStep : Obligations.HltAndSingleStep := by
  refine ⟨fun s quiet hlt => ?_, fun s w h st => ?_⟩
  · rw [step_quiet quiet, cycle, if_pos hlt, ite_self]
  · obtain ⟨m, e⟩ := step_fetch h
    exact ⟨m, e.trans (if_pos st)⟩

/-! ### The initial start -/

/-- A step before the rise of nACLO is a poll without effect; ACOK stays clear (R43, R431). -/
theorem step_unstarted {s : State} (h : AboutToPoll s) (power : s.ints.acok = false) (rise : s.ints.acin = false) :
    ∃ m, step s = .next { s with micro := m, seq := { s.seq with waiting := false } } := by
  obtain ⟨m, e⟩ := step_poll h
  obtain ⟨_, _, _, _, loaded, _⟩ := h
  rw [matrix_start power, rise] at e
  refine ⟨m, e.trans (congrArg Host.Outcome.next ?_)⟩
  refine state_ext rfl rfl rfl (sequencer_ext rfl rfl loaded.symm rfl rfl ?_ rfl rfl) rfl
    (interrupts_ext ?_ rfl rfl rfl rfl rfl rfl rfl rfl) rfl rfl rfl rfl rfl rfl
  · show (s.ints.acok || s.ints.acin) = false
    rw [power, rise]; rfl
  · show (s.ints.acok || s.ints.acin) = s.ints.acok
    rw [rise, Bool.or_false]

/-- The start register is the one behind nSEL1 (R347, R432). -/
theorem vectorAddr_start (s : State) : vectorAddr s.cfg.ncpu .start = blockAddr s PReg.sel1.offset false := by
  show vectorAddr s.cfg.ncpu .start = chipAddr s.cfg.ncpu PReg.sel1.offset false
  generalize s.cfg.ncpu = n
  revert n
  decide

/-- The initial start, where a register stands behind nSEL1 (R432). -/
theorem initialStart_register {s : State} (quiet : s.quiet = true) (kind : s.cfg.sel1Kind = .register) :
    ∃ m, initialStart s = .ok () { s.setReg .pc (s.plat.sel1 &&& 0o177400) with
      psw := 0o000340, micro := m
      seq := { s.seq with irLoaded := false, pollEnabled := true, frcStale := false, waiting := false,
                          shadow := none } } := by
  have settled : s.pregReads .sel1 :=
    ⟨not_pregBusy (by decide) s, by simp [State.pregFree, kind], fun h => by cases h⟩
  obtain ⟨m, read⟩ := readWord_block quiet settled false
  refine ⟨m, ?_⟩
  rw [initialStart, vectorAddr_start, read]
  rfl

/-- Settles O16: the poll without effect, and the entry of `initialStart_register` after the poll that sees the rise. -/
theorem initialStartOfChip : Obligations.InitialStartOfChip := by
  refine ⟨fun s h power rise => step_unstarted h power rise, fun s h power rise kind => ?_⟩
  obtain ⟨m, e⟩ := step_poll h
  obtain ⟨quiet, _⟩ := h
  rw [matrix_start power, rise, if_pos rfl] at e
  let u := State.polled { s with seq := { s.seq with irLoaded := false } } ⟨0b111, .start, 0b100⟩
  obtain ⟨m', start⟩ := initialStart_register (s := { u with micro := m }) quiet kind
  refine ⟨_, e.trans (congrArg conclude start), ⟨rfl, fun q hq => reg_setReg_ne s hq _⟩, rfl, ?_, rfl,
    sameMemory_of rfl rfl rfl, rfl, rfl, rfl⟩
  refine interrupts_ext ?_ rfl rfl rfl rfl rfl rfl rfl rfl
  show (s.ints.acok || s.ints.acin) = true
  rw [rise, Bool.or_true]

end Sys2Proof.Machine
end

section
/-! What a count tick and an edge of nSP do (O60). -/

namespace Sys2Proof.Machine

/-! ### The timer event -/

@[simp] theorem event_limit (t : Timer) : t.event.limit = t.limit := by
  rw [Timer.event]; split <;> rfl

@[simp] theorem event_count (t : Timer) : t.event.count = t.count := by
  rw [Timer.event]; split <;> rfl

/-- An event with MON = 1 sets the request (R396). -/
theorem event_req (t : Timer) : t.event.req = (t.req || t.mon) := by
  rw [Timer.event]
  cases t.mon
  · rw [Bool.or_false]; rfl
  · rw [Bool.or_true]; rfl

/-- An event with MON = 1 sets FL where a request was still there (R396). -/
theorem event_csr (t : Timer) : t.event.csr = if t.mon && t.req then t.csr ||| 0x80 else t.csr := by
  rw [Timer.event]
  cases t.mon
  · rfl
  · rfl

/-- FL is bit 7 of TVE_CSR (R56). -/
theorem setFl_bit (b : Byte) (k : Nat) : (b ||| 0x80).getLsbD k = (b.getLsbD k || decide (k = 7)) := by
  rw [BitVec.getLsbD_or]
  congr 1
  by_cases hk : k < 8
  · exact (by decide : ∀ j : Fin 8, (0x80 : Byte).getLsbD j = decide (j.val = 7)) ⟨k, hk⟩
  · rw [BitVec.getLsbD_of_ge _ _ (Nat.le_of_not_lt hk), decide_eq_false (by omega)]

/-- RUN is bit 4 of TVE_CSR (R56). -/
theorem clearRun_bit (b : Byte) (k : Nat) : (b &&& 0xEF).getLsbD k = (b.getLsbD k && decide (k ≠ 4)) := by
  rw [BitVec.getLsbD_and]
  by_cases hk : k < 8
  · congr 1
    exact (by decide : ∀ j : Fin 8, (0xEF : Byte).getLsbD j = decide (j.val ≠ 4)) ⟨k, hk⟩
  · rw [BitVec.getLsbD_of_ge b _ (Nat.le_of_not_lt hk), Bool.false_and, Bool.false_and]

theorem event_csr_bit (t : Timer) (k : Nat) :
    t.event.csr.getLsbD k = (t.csr.getLsbD k || (t.mon && t.req && decide (k = 7))) := by
  rw [event_csr]
  cases t.mon && t.req
  · exact (Bool.or_false _).symm
  · exact setFl_bit t.csr k

/-! ### The count tick -/

/-- A count other than 1 is decremented (R393). -/
theorem tick_of_ne {t : Timer} (h : t.count ≠ 1) : t.tick = { t with count := t.count - 1 } := if_neg h

/-- With CAP = 1 every count is decremented, 1 to 0 as well, with no event (R393, R394). -/
theorem tick_capture {t : Timer} (h : t.cap = true) : t.tick = { t with count := t.count - 1 } := by
  rw [Timer.tick]
  split
  case isTrue one => rw [one]; rfl
  case isFalse => rfl

/-- From 1 with CAP = 0 a tick is an event and a reload, which a one-shot ends by clearing RUN (R393). -/
theorem tick_reload {t : Timer} (one : t.count = 1) (h : t.cap = false) :
    t.tick = { t.event with count := t.event.limit, window := 4,
                            csr := if t.event.os then t.event.csr &&& 0xEF else t.event.csr } := by
  rw [Timer.tick, if_pos one, if_neg (by rw [h]; decide)]

theorem event_os (t : Timer) : t.event.os = t.os := by
  rw [Timer.os, event_csr_bit]
  simp [Timer.os]

/-- The bits of TVE_CSR after a reload: FL may be set, and a one-shot clears RUN (R393, R396). -/
theorem tick_reload_bit {t : Timer} (one : t.count = 1) (h : t.cap = false) (k : Nat) :
    t.tick.csr.getLsbD k =
      ((t.csr.getLsbD k || (t.mon && t.req && decide (k = 7))) && !(t.os && decide (k = 4))) := by
  rw [tick_reload one h, event_os, ← event_csr_bit]
  cases t.os
  · exact (Bool.and_true _).symm
  · exact (clearRun_bit _ k).trans (by rw [decide_not]; rfl)

/-! ### The edges of nSP -/

/-- A falling edge of nSP acts on the timer; what R394 does not fix is a free value (R391, R394). -/
theorem setSp_fall {s : State} (h : s.plat.pins.spLow = false) :
    (s.setSp true).timer = s.timer.spFall s.freshBit s.freshWord := by
  rw [State.setSp, h]
  rfl

/-- Without a falling edge nSP does nothing. -/
theorem setSp_noFall {s : State} {low : Bool} (h : low = false ∨ s.plat.pins.spLow = true) :
    (s.setSp low).timer = s.timer := by
  have steady : (!s.plat.pins.spLow && low) = false := by
    obtain rfl | h := h
    · exact Bool.and_false _
    · rw [h]; rfl
  rw [State.setSp, steady]
  rfl

/-- An event does not look at the count and the limit. -/
theorem event_of (t : Timer) (l c : Word) :
    Timer.event { t with limit := l, count := c } = { t.event with limit := l, count := c } := by
  show (if t.mon = true then _ else _) = _
  rw [Timer.event]
  split
  · rfl
  · rfl

theorem capture_eq (t : Timer) : t.capture = { t.event with limit := t.count, count := t.count } :=
  event_of t t.count t.count

theorem event_cap (t : Timer) : t.event.cap = t.cap := by
  rw [Timer.cap, event_csr_bit]
  simp [Timer.cap]

/-- A falling edge with RUN = 1 (R391, R394): CAP copies the count with an event, SP counts, and with both the copied count is
the one before or after the tick (U7). -/
theorem spFall_run {t : Timer} (run : t.run = true) (before : Bool) (w : Word) :
    (t.cap = false → t.spClock = false → t.spFall before w = t) ∧
    (t.cap = false → t.spClock = true → t.spFall before w = t.tick) ∧
    (t.cap = true → t.spClock = false → t.spFall before w = t.capture) ∧
    (t.cap = true → t.spClock = true → t.spFall before w = { t.event with
      limit := if before then t.count else t.count - 1, count := t.count - 1 }) := by
  rw [Timer.spFall, if_pos run]
  refine ⟨fun cap sp => ?_, fun cap sp => ?_, fun cap sp => ?_, fun cap sp => ?_⟩
  · simp [cap, sp]
  · simp [cap, sp]
  · simp [cap, sp]
  · rw [cap, sp, if_pos (by decide)]
    cases before with
    | true =>
      have still : t.capture.cap = true := by rw [capture_eq]; exact (event_cap t).trans cap
      rw [if_pos rfl, tick_capture still, capture_eq]
      rfl
    | false =>
      rw [if_neg (by decide), tick_capture cap]
      exact event_of t (t.count - 1) (t.count - 1)

/-- With RUN = 0 an edge counts nothing and raises no event; with CAP = 1 TVE_LIMIT takes a free value (R394, U7). -/
theorem spFall_stopped {t : Timer} (run : t.run = false) (before : Bool) (w : Word) :
    t.spFall before w = if t.cap then { t with limit := w } else t := by
  rw [Timer.spFall, if_neg (by rw [run]; decide)]

/-- Settles O60: the tick by its three forms, the edge of nSP by its cases. -/
theorem timerTick : Obligations.TimerTick := by
  refine ⟨fun t => ⟨tick_of_ne, fun one cap => ?_, fun one cap => ?_⟩, fun s low h => setSp_noFall h,
    fun s t high edge => ?_⟩
  · rw [tick_capture cap, one]
    rfl
  · have bit := tick_reload_bit one cap
    rw [tick_reload one cap] at bit ⊢
    refine ⟨event_limit t, event_limit t, event_req t, (bit 7).trans ?_, (bit 4).trans ?_, fun k h7 h4 => (bit k).trans ?_⟩
    · simp [Timer.mon]
    · simp [Timer.os]
    · simp [h7, h4]
  rw [setSp_fall high] at edge
  subst edge
  refine ⟨fun run sp cap => ?_, fun run cap => ?_, fun run sp cap => ?_, fun run => ?_⟩
  · obtain ⟨_, counts, _⟩ := spFall_run (t := s.timer) run s.freshBit s.freshWord
    exact counts cap sp
  · obtain ⟨_, _, captures, both⟩ := spFall_run (t := s.timer) run s.freshBit s.freshWord
    cases sp : s.timer.spClock with
    | true =>
      rw [both cap sp]
      refine ⟨fun h => (ne_false_of_eq_true sp h).elim, fun _ => ⟨?_, rfl⟩, event_req _, event_csr _⟩
      cases s.freshBit
      · exact .inr rfl
      · exact .inl rfl
    | false =>
      rw [captures cap sp, capture_eq]
      exact ⟨fun _ => ⟨rfl, rfl⟩, fun h => (ne_false_of_eq_true h sp).elim,
        event_req _, event_csr _⟩
  · obtain ⟨nothing, _⟩ := spFall_run (t := s.timer) run s.freshBit s.freshWord
    exact nothing cap sp
  · rw [spFall_stopped run]
    cases cap : s.timer.cap with
    | true => exact ⟨rfl, rfl, rfl, fun h => (ne_false_of_eq_true cap h).elim⟩
    | false => exact ⟨rfl, rfl, rfl, fun _ => rfl⟩

end Sys2Proof.Machine
end
section
/-! Time for the timer (O59): CLC periods one by one and at once, and how many of them give one count tick. -/

namespace Sys2Proof.Machine

/-! ### CLC/128 does not enter what the count clock does -/

theorem event_pre (t : Timer) (p : BitVec 7) : Timer.event { t with pre := p } = { t.event with pre := p } := by
  show (if t.mon = true then _ else _) = _
  rw [Timer.event]
  split
  · rfl
  · rfl

theorem tick_pre (t : Timer) (p : BitVec 7) : Timer.tick { t with pre := p } = { t.tick with pre := p } := by
  rw [Timer.tick, Timer.tick, event_pre]
  show (if t.count = 1 then (if t.cap = true then _ else _) else _) = _
  split
  · split
    · rfl
    · rfl
  · rfl

theorem countClock_pre (t : Timer) (p : BitVec 7) :
    Timer.countClock { t with pre := p } = { t.countClock with pre := p } := by
  show (if t.run = true then _ else _) = _
  rw [Timer.countClock, tick_pre]
  split
  · rfl
  · rfl

/-! ### The base clock -/

/-- The base clock reaches the divide-by-16 stage in this period: always with D4 = 0, else where divide-by-4 wraps (R391). -/
def Timer.quarter (t : Timer) : Bool := if t.d4 then t.div4 == 3 else true

/-- The base clock is a period of the selected clock (R391). -/
def Timer.selected (t : Timer) : Bool := if t.d16 then t.quarter && t.div16 == 15 else t.quarter

/-- The two stages after a period of the base clock (R57, R391). -/
def Timer.divided (t : Timer) : Timer :=
  { t with div4 := t.div4 + 1, div16 := if t.quarter then t.div16 + 1 else t.div16 }

/-- A period of CLC/128 moves the stages, and is a count clock where it is one of the selected clock and SP = 0 (R391). -/
theorem baseClock_divided (t : Timer) :
    t.baseClock = if t.selected && !t.spClock then t.divided.countClock else t.divided := by
  have moved : t.divided = if t.quarter then { t with div4 := t.div4 + 1, div16 := t.div16 + 1 }
      else { t with div4 := t.div4 + 1 } := by
    rw [Timer.divided]
    split
    · rfl
    · rfl
  have d16 : t.divided.d16 = t.d16 := rfl
  have sp : t.divided.spClock = t.spClock := rfl
  rw [Timer.selected, ← d16, ← sp, moved]
  rfl

theorem baseClock_pre (t : Timer) (p : BitVec 7) :
    Timer.baseClock { t with pre := p } = { t.baseClock with pre := p } := by
  rw [baseClock_divided, baseClock_divided]
  show (if (t.selected && !t.spClock) = true then Timer.countClock { t.divided with pre := p } else _) = _
  rw [countClock_pre]
  split
  · rfl
  · rfl

theorem bases_pre (k : Nat) (t : Timer) (p : BitVec 7) :
    Timer.bases k { t with pre := p } = { Timer.bases k t with pre := p } := by
  induction k generalizing t with
  | zero => rfl
  | succ k ih => rw [Timer.bases, Timer.bases, ← ih, ← baseClock_pre]

/-! ### One CLC period -/

/-- A CLC period before the wrap of CLC/128 moves only that prescaler and the window (R391). -/
theorem clc_inside {t : Timer} (h : t.pre ≠ 127) : t.clc = { t with pre := t.pre + 1, window := t.window - 1 } :=
  if_neg (by simpa using h)

/-- The timer in the CLC period in which CLC/128 wraps, before the base clock. -/
def Timer.wrapped (t : Timer) : Timer := { t with pre := 0, window := t.window - 1 }

/-- The CLC period in which CLC/128 wraps is a period of the base clock (R391). -/
theorem clc_wraps {t : Timer} (h : t.pre = 127) : t.clc = t.wrapped.baseClock := by
  rw [Timer.clc, h]
  rfl

/-- `k` CLC periods after a wrap of CLC/128: the whole base periods, and the rest. -/
def Timer.pastWrap (k : Nat) (t : Timer) : Timer :=
  { Timer.bases (k / 128) t with pre := BitVec.ofNat 7 (k % 128), window := (Timer.bases (k / 128) t).window - k % 128 }

theorem clocks_inside {n : Nat} {t : Timer} (h : n < 128 - t.pre.toNat) :
    Timer.clocks n t = { t with pre := t.pre + BitVec.ofNat 7 n, window := t.window - n } := if_pos h

theorem clocks_wraps {n : Nat} {t : Timer} (h : ¬ n < 128 - t.pre.toNat) :
    Timer.clocks n t = Timer.pastWrap (n - (128 - t.pre.toNat))
      (Timer.baseClock { t with window := t.window - (128 - t.pre.toNat) }) := if_neg h

theorem pastWrap_pre (k : Nat) (t : Timer) (p : BitVec 7) :
    Timer.pastWrap k { t with pre := p } = Timer.pastWrap k t := by
  rw [Timer.pastWrap, Timer.pastWrap, bases_pre]

/-- From a wrap on, CLC periods at once are those periods. -/
theorem clocks_pastWrap (k : Nat) {t : Timer} (h : t.pre = 0) : Timer.clocks k t = Timer.pastWrap k t := by
  have left : 128 - t.pre.toNat = 128 := by rw [h]; rfl
  by_cases inside : k < 128
  · rw [clocks_inside (by rwa [left]), Timer.pastWrap, Nat.div_eq_of_lt inside, Nat.mod_eq_of_lt inside, h]
    exact congrArg (fun p => ({ t with pre := p, window := t.window - k } : Timer)) (zero_add _)
  · obtain ⟨j, rfl⟩ := Nat.exists_eq_add_of_le (Nat.le_of_not_lt inside)
    rw [clocks_wraps (by rwa [left]), left, Nat.add_sub_cancel_left, Timer.pastWrap, Timer.pastWrap,
      Nat.add_div_left j (by decide), Nat.add_mod_left]
    rfl

theorem toNat_pre_succ {p : BitVec 7} (h : p ≠ 127) : (p + 1).toNat = p.toNat + 1 := by
  have bound := p.isLt
  have last : p.toNat ≠ 127 := fun e => h (BitVec.eq_of_toNat_eq e)
  rw [BitVec.toNat_add]
  exact Nat.mod_eq_of_lt (by show p.toNat + 1 < 2 ^ 7; omega)

/-- One CLC period more at once is one period first. -/
theorem clocks_succ (n : Nat) (t : Timer) : Timer.clocks (n + 1) t = Timer.clocks n t.clc := by
  by_cases h : t.pre = 127
  · have left : 128 - t.pre.toNat = 1 := by rw [h]; rfl
    rw [clocks_wraps (by omega), left, Nat.add_sub_cancel, clc_wraps h]
    have reset : t.wrapped.baseClock = { Timer.baseClock { t with window := t.window - 1 } with pre := 0 } :=
      baseClock_pre { t with window := t.window - 1 } 0
    rw [reset, clocks_pastWrap n rfl]
    exact (pastWrap_pre n _ 0).symm
  · have next := toNat_pre_succ h
    rw [clc_inside h]
    by_cases inside : n + 1 < 128 - t.pre.toNat
    · rw [clocks_inside inside, clocks_inside (by show n < 128 - (t.pre + 1).toNat; omega)]
      have pre : t.pre + BitVec.ofNat 7 (n + 1) = t.pre + 1 + BitVec.ofNat 7 n := by
        rw [add_assoc, add_comm n 1, BitVec.ofNat_add]; rfl
      have window : t.window - (n + 1) = t.window - 1 - n := by omega
      exact congrArg₂ (fun p w => ({ t with pre := p, window := w } : Timer)) pre window
    · rw [clocks_wraps inside, clocks_wraps (by show ¬ n < 128 - (t.pre + 1).toNat; omega)]
      have rest : n + 1 - (128 - t.pre.toNat) = n - (128 - (t.pre + 1).toNat) := by omega
      have window : t.window - (128 - t.pre.toNat) = t.window - 1 - (128 - (t.pre + 1).toNat) := by omega
      rw [rest, window]
      have moved := baseClock_pre { t with window := t.window - 1 - (128 - (t.pre + 1).toNat) } (t.pre + 1)
      exact (pastWrap_pre _ _ _).symm.trans (congrArg _ moved.symm)

theorem clocks_zero (t : Timer) : Timer.clocks 0 t = t := by
  rw [clocks_inside (by have := t.pre.isLt; omega)]
  exact congrArg (fun p => ({ t with pre := p } : Timer)) (add_zero _)

/-- `n` CLC periods at once are `n` single ones (R397, R447). -/
theorem clocks_eq_iterate (n : Nat) (t : Timer) : Timer.clocks n t = Timer.clc^[n] t := by
  induction n generalizing t with
  | zero => exact clocks_zero t
  | succ n ih => rw [clocks_succ, ih, Function.iterate_succ_apply]

/-! ### The registers of the timer -/

/-- The registers of the timer and its request are as before; its prescalers and its window may have moved. -/
structure SameCount (t u : Timer) : Prop where
  limit : u.limit = t.limit
  count : u.count = t.count
  csr : u.csr = t.csr
  req : u.req = t.req

theorem SameCount.refl (t : Timer) : SameCount t t := ⟨rfl, rfl, rfl, rfl⟩

theorem SameCount.trans {t u v : Timer} (h : SameCount t u) (g : SameCount u v) : SameCount t v :=
  ⟨g.limit.trans h.limit, g.count.trans h.count, g.csr.trans h.csr, g.req.trans h.req⟩

theorem SameCount.run {t u : Timer} (h : SameCount t u) : u.run = t.run := congrArg (BitVec.getLsbD · 4) h.csr

theorem SameCount.spClock {t u : Timer} (h : SameCount t u) : u.spClock = t.spClock :=
  congrArg (BitVec.getLsbD · 0) h.csr

/-- An event looks at TVE_CSR and the request only. -/
theorem SameCount.event {t u : Timer} (h : SameCount t u) : SameCount t.event u.event := by
  have mon : u.mon = t.mon := congrArg (BitVec.getLsbD · 2) h.csr
  refine ⟨?_, ?_, ?_, ?_⟩
  · rw [event_limit, event_limit, h.limit]
  · rw [event_count, event_count, h.count]
  · rw [event_csr, event_csr, mon, h.req, h.csr]
  · rw [event_req, event_req, mon, h.req]

/-- A count tick looks at the registers only. -/
theorem SameCount.tick {t u : Timer} (h : SameCount t u) : SameCount t.tick u.tick := by
  have capture : u.cap = t.cap := congrArg (BitVec.getLsbD · 1) h.csr
  have os : u.os = t.os := congrArg (BitVec.getLsbD · 3) h.csr
  by_cases one : t.count = 1
  · cases cap : t.cap with
    | true =>
      rw [tick_capture cap, tick_capture (capture.trans cap)]
      exact ⟨h.limit, congrArg (· - 1) h.count, h.csr, h.req⟩
    | false =>
      rw [tick_reload one cap, tick_reload (h.count.trans one) (capture.trans cap), event_os, event_os, os]
      exact ⟨h.event.limit, h.event.limit, by rw [h.event.csr], h.event.req⟩
  · rw [tick_of_ne one, tick_of_ne (by rwa [h.count])]
    exact ⟨h.limit, congrArg (· - 1) h.count, h.csr, h.req⟩

/-- A count tick leaves the bits of TVE_CSR but FL and RUN. -/
theorem tick_bit (t : Timer) {k : Nat} (h7 : k ≠ 7) (h4 : k ≠ 4) : t.tick.csr.getLsbD k = t.csr.getLsbD k := by
  by_cases one : t.count = 1
  · cases cap : t.cap with
    | true => rw [tick_capture cap]
    | false =>
      rw [tick_reload_bit one cap]
      simp [h7, h4]
  · rw [tick_of_ne one]

/-! ### No count clock -/

/-- The base clock moves only its stages where it is not a count clock: in the middle of a period of the selected clock, with
RUN = 0, and with SP = 1 (R391, R392). -/
theorem baseClock_idle {t : Timer} (h : t.selected = false ∨ t.run = false ∨ t.spClock = true) :
    t.baseClock = t.divided := by
  rw [baseClock_divided]
  obtain middle | stopped | sp := h
  · rw [middle]; rfl
  · rw [countClock_stopped (t := t.divided) stopped, ite_self]
  · rw [sp, Bool.not_true, Bool.and_false]; rfl

/-- One period of the selected clock with RUN = 1 and SP = 0 is a count tick (R391, R392). -/
theorem baseClock_counts {t : Timer} (selected : t.selected = true) (run : t.run = true) (sp : t.spClock = false) :
    t.baseClock = t.divided.tick := by
  rw [baseClock_divided, selected, sp]
  exact if_pos run

/-- A CLC period in which the base clock is no count clock leaves the registers (R392). -/
theorem clc_idle {t : Timer} (h : t.run = false ∨ t.spClock = true) : SameCount t t.clc := by
  by_cases wraps : t.pre = 127
  · rw [clc_wraps wraps, baseClock_idle (t := t.wrapped) (.inr h)]
    exact ⟨rfl, rfl, rfl, rfl⟩
  · rw [clc_inside wraps]
    exact ⟨rfl, rfl, rfl, rfl⟩

theorem iterate_clc_idle (n : Nat) {t : Timer} (h : t.run = false ∨ t.spClock = true) : SameCount t (Timer.clc^[n] t) := by
  induction n generalizing t with
  | zero => exact .refl t
  | succ n ih =>
    have first := clc_idle h
    rw [Function.iterate_succ_apply]
    exact first.trans (ih (by rwa [first.run, first.spClock]))

/-! ### The period of the count clock -/

/-- How many periods of the base clock one period of the selected clock has (R391). -/
def Timer.ratio (t : Timer) : Nat := (if t.d4 then 4 else 1) * (if t.d16 then 16 else 1)

/-- How many periods of the base clock have passed since the last of the selected clock. -/
def Timer.passed (t : Timer) : Nat :=
  (if t.d4 then t.div4.toNat else 0) + (if t.d4 then 4 else 1) * (if t.d16 then t.div16.toNat else 0)

/-- The stages count the periods of the base clock, and the last of them is one of the selected clock (R391). -/
theorem passed_divided (t : Timer) :
    (t.selected = true ↔ t.passed + 1 = t.ratio) ∧ t.divided.passed = if t.selected then 0 else t.passed + 1 := by
  have last4 : (t.div4 == 3) = decide (t.div4.toNat = 3) := decide_eq_decide.2 BitVec.toNat_eq
  have last16 : (t.div16 == 15) = decide (t.div16.toNat = 15) := decide_eq_decide.2 BitVec.toNat_eq
  have next4 : (t.div4 + 1).toNat = (t.div4.toNat + 1) % 4 := BitVec.toNat_add t.div4 1
  have next16 : (t.div16 + 1).toNat = (t.div16.toNat + 1) % 16 := BitVec.toNat_add t.div16 1
  have bound4 : t.div4.toNat < 4 := t.div4.isLt
  have bound16 : t.div16.toNat < 16 := t.div16.isLt
  have moved : t.divided.passed = (if t.d4 then (t.div4 + 1).toNat else 0) +
      (if t.d4 then 4 else 1) * (if t.d16 then (if t.quarter then t.div16 + 1 else t.div16).toNat else 0) := rfl
  rw [moved, apply_ite BitVec.toNat, next4, next16, Timer.passed, Timer.ratio, Timer.selected, Timer.quarter, last4, last16]
  cases t.d4 with
  | false =>
    cases t.d16 with
    | false => simp
    | true => grind
  | true =>
    cases t.d16 with
    | false => grind
    | true => grind

/-- How many CLC periods have passed since the last period of the selected clock. -/
def Timer.phase (t : Timer) : Nat := t.pre.toNat + 128 * t.passed

theorem countPeriod_eq (t : Timer) : countPeriod t = 128 * t.ratio := Nat.mul_assoc _ _ _

/-- The period of the count clock depends on D4 and D16 only. -/
theorem countPeriod_congr {t u : Timer} (d4 : u.csr.getLsbD 6 = t.csr.getLsbD 6)
    (d16 : u.csr.getLsbD 5 = t.csr.getLsbD 5) : countPeriod u = countPeriod t := by
  rw [countPeriod, d4, d16, countPeriod]

theorem SameCount.countPeriod {t u : Timer} (h : SameCount t u) : countPeriod u = countPeriod t := by
  refine countPeriod_congr ?_ ?_
  · rw [h.csr]
  · rw [h.csr]

theorem passed_lt (t : Timer) : t.passed < t.ratio := by
  have bound4 : t.div4.toNat < 4 := t.div4.isLt
  have bound16 : t.div16.toNat < 16 := t.div16.isLt
  rw [Timer.passed, Timer.ratio]
  split_ifs <;> omega

theorem phase_lt (t : Timer) : t.phase < countPeriod t := by
  have bound : t.pre.toNat < 128 := t.pre.isLt
  have passed := passed_lt t
  rw [Timer.phase, countPeriod_eq]
  omega

theorem event_stages (t : Timer) : t.event.pre = t.pre ∧ t.event.div4 = t.div4 ∧ t.event.div16 = t.div16 := by
  rw [Timer.event]
  split
  · exact ⟨rfl, rfl, rfl⟩
  · exact ⟨rfl, rfl, rfl⟩

theorem tick_stages (t : Timer) : t.tick.pre = t.pre ∧ t.tick.div4 = t.div4 ∧ t.tick.div16 = t.div16 := by
  rw [Timer.tick]
  split
  · split
    · exact ⟨rfl, rfl, rfl⟩
    · exact event_stages t
  · exact ⟨rfl, rfl, rfl⟩

/-- A count tick leaves the phase. -/
theorem phase_tick (t : Timer) : t.tick.phase = t.phase := by
  obtain ⟨pre, div4, div16⟩ := tick_stages t
  have d4 : t.tick.d4 = t.d4 := tick_bit t (by decide) (by decide)
  have d16 : t.tick.d16 = t.d16 := tick_bit t (by decide) (by decide)
  rw [Timer.phase, Timer.passed, pre, div4, div16, d4, d16]
  rfl

/-- Within a period of the count clock a CLC period moves the phase on and leaves the registers (R391). -/
theorem clc_within {t : Timer} (h : t.phase + 1 < countPeriod t) : SameCount t t.clc ∧ t.clc.phase = t.phase + 1 := by
  rw [countPeriod_eq, Timer.phase] at h
  by_cases wraps : t.pre = 127
  · obtain ⟨last, next⟩ := passed_divided t
    have pre : t.pre.toNat = 127 := by rw [wraps]; rfl
    have middle : t.selected = false := by
      rw [Bool.eq_false_iff, ne_eq, last]
      omega
    rw [clc_wraps wraps, baseClock_idle (t := t.wrapped) (.inl middle)]
    refine ⟨⟨rfl, rfl, rfl, rfl⟩, ?_⟩
    show 0 + 128 * t.divided.passed = _
    rw [next, middle, if_neg (by decide), Timer.phase, pre]
    omega
  · rw [clc_inside wraps]
    refine ⟨⟨rfl, rfl, rfl, rfl⟩, ?_⟩
    show (t.pre + 1).toNat + 128 * t.passed = _
    rw [toNat_pre_succ wraps, Timer.phase]
    omega

/-- With RUN = 1 and SP = 0 the last CLC period of a period of the count clock is a count tick (R391, R392). -/
theorem clc_last {t : Timer} (run : t.run = true) (sp : t.spClock = false) (h : t.phase + 1 = countPeriod t) :
    SameCount t.tick t.clc ∧ t.clc.phase = 0 := by
  have bound : t.pre.toNat < 128 := t.pre.isLt
  have passed := passed_lt t
  rw [countPeriod_eq, Timer.phase] at h
  have wraps : t.pre = 127 := BitVec.eq_of_toNat_eq (by show t.pre.toNat = 127; omega)
  obtain ⟨last, next⟩ := passed_divided t
  have selected : t.selected = true := last.2 (by omega)
  rw [clc_wraps wraps, baseClock_counts (t := t.wrapped) selected run sp]
  have same : SameCount t t.wrapped.divided := ⟨rfl, rfl, rfl, rfl⟩
  refine ⟨same.tick, ?_⟩
  rw [phase_tick]
  show 0 + 128 * t.divided.passed = _
  rw [next, if_pos selected]

/-- CLC periods that end before the next count clock leave the registers. -/
theorem iterate_clc_within (k : Nat) {t : Timer} (h : t.phase + k < countPeriod t) :
    SameCount t (Timer.clc^[k] t) ∧ (Timer.clc^[k] t).phase = t.phase + k := by
  induction k with
  | zero => exact ⟨.refl t, rfl⟩
  | succ k ih =>
    obtain ⟨same, phase⟩ := ih (by omega)
    obtain ⟨same', phase'⟩ := clc_within (t := Timer.clc^[k] t) (by rw [phase, same.countPeriod]; omega)
    rw [Function.iterate_succ_apply']
    exact ⟨same.trans same', by rw [phase', phase]; omega⟩

/-- One period of the count clock, begun anywhere in it, is one count tick (R391, R392). -/
theorem iterate_clc_period {t : Timer} (run : t.run = true) (sp : t.spClock = false) :
    SameCount t.tick (Timer.clc^[countPeriod t] t) := by
  have bound := phase_lt t
  obtain ⟨j, whole⟩ := Nat.exists_eq_add_of_lt bound
  have split : Timer.clc^[countPeriod t] t = Timer.clc^[t.phase] (Timer.clc^[j] t).clc := by
    rw [← Function.iterate_succ_apply' Timer.clc, ← Function.iterate_add_apply, whole, add_assoc]
  obtain ⟨before, phase⟩ := iterate_clc_within j (t := t) (by omega)
  obtain ⟨tick, zero⟩ := clc_last (t := Timer.clc^[j] t) (by rw [before.run, run]) (by rw [before.spClock, sp])
    (by rw [phase, before.countPeriod]; omega)
  have counted : SameCount t.tick (Timer.clc^[j] t).clc := before.tick.trans tick
  have period : countPeriod (Timer.clc^[j] t).clc = countPeriod t :=
    counted.countPeriod.trans (countPeriod_congr (tick_bit t (by decide) (by decide)) (tick_bit t (by decide) (by decide)))
  obtain ⟨after, _⟩ := iterate_clc_within t.phase (t := (Timer.clc^[j] t).clc) (by rw [zero, period]; omega)
  rw [split]
  exact counted.trans after

/-- Settles O59: single periods by `clocks_eq_iterate`; of them `iterate_clc_idle` and `iterate_clc_period` speak. -/
theorem clocksAreSinglePeriods : Obligations.ClocksAreSinglePeriods := by
  refine ⟨clocks_eq_iterate, fun n t idle => ?_, fun t run sp => ?_⟩
  · obtain ⟨limit, count, csr, req⟩ := iterate_clc_idle n (t := t) idle
    rw [clocks_eq_iterate]
    exact ⟨limit, count, csr, req⟩
  · obtain ⟨limit, count, csr, req⟩ := iterate_clc_period (t := t) run sp
    rw [clocks_eq_iterate]
    exact ⟨limit, count, csr, req⟩

end Sys2Proof.Machine
end

section
/-! The entries in place of a fetched instruction: an interrupt through the table (O20), nIRQ1 (O23), and an acknowledge read
that nobody answers (O22); the bus timeout (O25) and the double error (O26). -/

namespace Sys2Proof.Machine

/-! ### Interrupts in place of a fetched instruction -/

/-- The saved PC of an entry that corrects PC after a fetch is the address of the instruction (R361). -/
theorem reg_pc_fetched (s : State) (w : Word) : (fetched s w).reg .pc - 2 = s.reg .pc := reg_pc_correct_fetched s w

/-- Settles O20: the user entry of `conclude_userEntry_rearm`, after a fetch. -/
theorem interruptEntry : Obligations.InterruptEntry := by
  intro s w v va rr h run poll power answer table room
  obtain ⟨m, e⟩ := step_userEntry h run poll power answer
  obtain ⟨t, next, entered⟩ := conclude_userEntry_rearm (s := fetched s w) table rr m
    (userRoom_congr (s := s) rfl rfl rfl rfl rfl rfl room)
  rw [reg_pc_fetched] at entered
  exact ⟨t, e.trans next, entered⟩

/-- Settles O23: the pult entry of `conclude_pultEntry_ready`, after a fetch. -/
theorem haltRequestEntry : Obligations.HaltRequestEntry := by
  intro s w h run poll power answer ready room
  obtain ⟨m, e⟩ := (step_dispatch h run).1 poll
  rw [answer, onAnswer_pult, polled_none (s := fetched s w) power rfl] at e
  obtain ⟨t, next, entered⟩ := conclude_pultEntry_ready m ready room
  rw [reg_pc_fetched] at entered
  exact ⟨t, e.trans next, entered⟩

/-! ### The forced poll of an error -/

/-- The forced poll of an error enters what the matrix answers, after the latch it names is cleared (R341, R348). -/
theorem forcedEntry_answer {s : State} (power : s.ints.acok = true) {a : Answer} (answer : matrix s = a) :
    ∃ m, forcedEntry s = enter a { s.rearm a.rearm with micro := m } := by
  obtain ⟨m, e⟩ := poll_eq s s.micro
  rw [answer, polled_live power] at e
  exact ⟨m, by rw [forcedEntry, show poll s = _ from e]⟩

/-- The request of an acknowledge read without reply is answered first (R343, R348). -/
theorem matrix_iato {s : State} (power : s.ints.acok = true) (iato : s.ints.iato = true) :
    matrix s = ⟨0b011, .iackTimeout, 0b000⟩ := by
  rw [matrix, if_neg (ne_false_of_eq_true power), if_pos iato]

/-- The double error comes next (R348). -/
theorem matrix_dble {s : State} (power : s.ints.acok = true) (iato : s.ints.iato = false) (dble : s.ints.dble = true) :
    matrix s = ⟨0b011, .doubleError, 0b000⟩ := by
  rw [matrix, if_neg (ne_false_of_eq_true power), if_neg (by rw [iato]; decide), if_pos dble]

/-- What the poll answers to a bus timeout: a pult entry with PSW11 = 1, which ВМ1А corrects, and with PSW10 = 1, else a user
entry (R341, R348, R352). -/
def State.timeoutAnswer (s : State) : Answer :=
  if s.psw11 then ⟨if s.cfg.variant = .vm1g then 0b011 else 0b010, .halt, 0b000⟩
  else if s.psw10 then ⟨0b011, .halt, 0b000⟩
  else ⟨0b101, .timeout, 0b000⟩

theorem matrix_qbto {s : State} (power : s.ints.acok = true) (iato : s.ints.iato = false) (dble : s.ints.dble = false)
    (qbto : s.ints.qbto = true) : matrix s = s.timeoutAnswer := by
  rw [matrix, if_neg (ne_false_of_eq_true power), if_neg (by rw [iato]; decide), if_neg (by rw [dble]; decide),
    if_pos qbto, State.timeoutAnswer]

theorem timeoutAnswer_user {s : State} (psw10 : s.psw10 = false) (psw11 : s.psw11 = false) :
    s.timeoutAnswer = ⟨0b101, .timeout, 0b000⟩ := by
  rw [State.timeoutAnswer, psw11, psw10]
  rfl

theorem timeoutAnswer_pult {s : State} (high : s.psw10 = true ∨ s.psw11 = true) :
    s.timeoutAnswer = ⟨if s.cfg.variant = .vm1a ∧ s.psw11 = true then 0b010 else 0b011, .halt, 0b000⟩ := by
  rw [State.timeoutAnswer]
  cases psw11 : s.psw11 with
  | true => cases s.cfg.variant <;> rfl
  | false =>
    have psw10 : s.psw10 = true := high.resolve_right (by rw [psw11]; decide)
    rw [psw10]
    simp

/-- The answers 010 and 011 are pult entries, of which the first corrects PC (R27, R40). -/
theorem enter_pult (c : Prop) [Decidable c] (v : Vsel) (rr : BitVec 3) (s : State) :
    enter ⟨if c then 0b010 else 0b011, v, rr⟩ s = pultEntry v (decide c) s := by
  by_cases h : c
  · rw [if_pos h, decide_eq_true h]; rfl
  · rw [if_neg h, decide_eq_false h]; rfl

theorem reg_pc_correct (s : State) (c : Prop) [Decidable c] :
    (s.correctPc (decide c)).reg .pc = if c then s.reg .pc - 2 else s.reg .pc := by
  by_cases h : c
  · rw [decide_eq_true h, if_pos h]; rfl
  · rw [decide_eq_false h, if_neg h]; rfl

/-! ### The outcomes of an error -/

theorem raiseTimeout_ok {s t : State} {k : BusKind} (h : forcedEntry (s.noteTimeout k) = .ok () t) :
    raiseTimeout k s = .next t := by
  rw [raiseTimeout, enterError, h]

theorem raiseTimeout_fails {s t : State} {k j : BusKind} (h : forcedEntry (s.noteTimeout k) = .abort (.timeout j) t) :
    raiseTimeout k s = lastAttempt (t.noteTimeout j) := by
  rw [raiseTimeout, enterError, h]

theorem lastAttempt_ok {s t : State} (h : forcedEntry s = .ok () t) : lastAttempt s = .next t := by
  rw [lastAttempt, h]

theorem lastAttempt_fails {s t : State} {k : BusKind} (h : forcedEntry s = .abort (.timeout k) t) :
    lastAttempt s = .next (t.park k) := by
  rw [lastAttempt, h]

/-! ### The record of a bus timeout -/

/-- `s` with QTO set, and the next instruction to be fetched with a poll (R341). -/
def State.timedOut (s : State) : State :=
  { s with per := { s.per with errFlags := s.per.errFlags ||| 0x10 }
           seq := { s.seq with irLoaded := false, pollEnabled := true } }

/-- `s` without a prefetched word, the hidden registers left out. -/
def State.lostWord (s : State) (m : Micro) : State := { s with seq := { s.seq with shadow := none }, micro := m }

/-- A first error, its request cleared by the poll: of the record only QTO is left (R341, R348). -/
theorem noteTimeout_cleared {s : State} (h : NoError s) :
    ∃ m, (s.noteTimeout .data).rearm 0b000 = s.timedOut.lostWord m := by
  obtain ⟨_, qbto, iato, _, uerr, _⟩ := id h
  refine ⟨_, state_ext rfl rfl rfl rfl rfl ?_ ?_ rfl rfl rfl rfl rfl⟩
  · rw [State.noteTimeout, noteError_eq h]
    exact interrupts_ext rfl rfl rfl rfl rfl uerr.symm qbto.symm iato.symm rfl
  · rw [State.noteTimeout, noteError_eq h]
    rfl

/-- A bus timeout where no error is pending is answered by the bits of PSW (R341, R348). -/
theorem forcedEntry_timeout {s : State} (h : NoError s) :
    ∃ m, forcedEntry (s.noteTimeout .data) = enter s.timeoutAnswer (s.timedOut.lostWord m) := by
  obtain ⟨power, _, iato, dble, _, _⟩ := id h
  have answer : matrix (s.noteTimeout .data) = s.timeoutAnswer := by
    rw [State.noteTimeout, noteError_eq h]
    exact matrix_qbto power (by exact (Bool.or_false _).trans iato) dble rfl
  have clears : s.timeoutAnswer.rearm = 0b000 := by
    rw [State.timeoutAnswer]
    split
    · rfl
    · split
      · rfl
      · rfl
  obtain ⟨m, cleared⟩ := noteTimeout_cleared h
  obtain ⟨m', e⟩ := forcedEntry_answer (by exact power) answer
  rw [clears, cleared] at e
  exact ⟨m', e⟩

/-- A pult entry does not look at a prefetched word, and leaves none. -/
theorem pultEntry_lostWord {s : State} (v : Vsel) (correct : Bool) (m : Micro) (ready : PultReady s)
    (room : PultRoom (s.pultWith true) (vectorAddr s.cfg.ncpu v)) :
    ∃ t, pultEntry v correct (s.lostWord m) = .ok () t ∧
      PultEntered (s.pultWith true) t ((s.correctPc correct).reg .pc) (vectorAddr s.cfg.ncpu v) := by
  have lost : (s.lostWord m).pultWith true = (s.pultWith true).lostWord m := by
    rw [State.lostWord, pultWith_hidden, State.lostWord, (pultWith_frame s true).1]
  obtain ⟨t, run, entered⟩ := pultEntry_ready v correct (s := s.lostWord m) ready (by rw [lost]; exact room)
  rw [lost] at entered
  have pc : ((s.lostWord m).correctPc correct).reg .pc = (s.correctPc correct).reg .pc := by
    cases correct
    · rfl
    · rfl
  rw [pc] at entered
  exact ⟨t, run, entered⟩

/-- Settles O25: the forced poll answers by the bits of PSW (`forcedEntry_timeout`), and its entry completes. -/
theorem timeoutEntersByPswBits : Obligations.TimeoutEntersByPswBits := by
  refine ⟨fun s h psw10 psw11 room => ?_, fun s x h high hx ready room => ?_⟩
  · obtain ⟨m, e⟩ := forcedEntry_timeout h
    rw [timeoutAnswer_user psw10 psw11] at e
    obtain ⟨t, run, entered⟩ := userEntry_ram (v := .timeout) (by decide) false (s := s.timedOut.lostWord m)
      (userRoom_congr (s := s) rfl rfl rfl rfl rfl rfl room)
    exact ⟨t, raiseTimeout_ok (e.trans run), entered⟩
  · obtain ⟨m, e⟩ := forcedEntry_timeout h
    rw [timeoutAnswer_pult high, enter_pult] at e
    obtain rfl : x = s.timedOut := hx
    obtain ⟨t, run, entered⟩ := pultEntry_lostWord .halt (decide (s.cfg.variant = .vm1a ∧ s.psw11 = true)) m ready room
    rw [reg_pc_correct] at entered
    exact ⟨t, raiseTimeout_ok (e.trans run), entered⟩

end Sys2Proof.Machine
end
section
/-! The double error: a bus timeout whose own entry fails (O26). -/

namespace Sys2Proof.Machine

/-! ### A second error -/

/-- QTO is bit 4 of CPU_ERROR, one of the bits that make the next error a double one (R53, R341). -/
theorem errorPending_of_qto {s : State} (qto : s.per.errFlags.getLsbD 4 = true) : s.errorPending = true := by
  have bit : (s.per.errFlags &&& 0xD2).getLsbD 4 = true := by
    rw [BitVec.getLsbD_and, qto]
    rfl
  refine bne_iff_ne.2 fun zero => ?_
  rw [zero] at bit
  exact absurd bit (by decide)

theorem qto_timedOut (s : State) : s.timedOut.per.errFlags.getLsbD 4 = true := by
  show (s.per.errFlags ||| 0x10).getLsbD 4 = true
  rw [BitVec.getLsbD_or]
  exact Bool.or_true _

theorem qto_twiceFailed (s : State) : (twiceFailed s).per.errFlags.getLsbD 4 = true := by
  show (s.per.errFlags ||| 0x11).getLsbD 4 = true
  rw [BitVec.getLsbD_or]
  exact Bool.or_true _

/-- The bits of a second error contain those of the first. -/
theorem twiceFailed_per (s : State) :
    (twiceFailed s.timedOut).per = (twiceFailed s).per ∧ (twiceFailed (twiceFailed s)).per = (twiceFailed s).per := by
  refine ⟨peripheral_ext rfl rfl rfl rfl ?_, peripheral_ext rfl rfl rfl rfl ?_⟩
  · exact BitVec.or_assoc _ _ _
  · exact BitVec.or_assoc _ _ _

/-- A bus timeout while QTO is set is the double error (R341, R372). -/
theorem noteTimeout_twice {s : State} (qto : s.per.errFlags.getLsbD 4 = true) :
    ∃ m, s.noteTimeout .data =
      { (twiceFailed s).lostWord m with ints := { (twiceFailed s).ints with qbto := true } } := by
  have pending := errorPending_of_qto qto
  refine ⟨_, state_ext rfl rfl rfl rfl rfl (interrupts_ext rfl rfl rfl rfl rfl rfl rfl ?_ ?_)
    (peripheral_ext rfl rfl rfl rfl ?_) rfl rfl rfl rfl rfl⟩
  · exact Bool.or_false _
  · show (s.ints.dble || s.errorPending) = true
    rw [pending, Bool.or_true]
  · show s.per.errFlags ||| 0x10 ||| (if s.errorPending then 1 else 0) = s.per.errFlags ||| 0x11
    rw [pending]
    exact BitVec.or_assoc _ _ _

/-- The double error is answered by a pult entry (R348, R372). -/
theorem forcedEntry_dble {s : State} (power : s.ints.acok = true) (iato : s.ints.iato = false)
    (dble : s.ints.dble = true) : ∃ m, forcedEntry s = pultEntry .doubleError false { s.rearm 0b000 with micro := m } :=
  forcedEntry_answer power (matrix_dble power iato dble)

/-! ### Entries that fail -/

theorem noReply_congr {s t : State} (cfg : t.cfg = s.cfg) (plat : t.plat = s.plat) (inputs : t.inputs = s.inputs)
    (hung : t.seq.hung = s.seq.hung) (a : Word) : t.noReply a = s.noReply a := by
  rw [State.noReply, State.noReply, quiet_congr inputs hung, slaveAt_congr cfg plat, State.ownBlock, State.chipAt, cfg,
    plat]
  rfl

/-- A push that nothing answers: SP is decremented (R360). -/
theorem push_timesOut {s : State} (absent : s.noReply (s.reg .sp - 2) = true) (w : State → Word) :
    TimesOut (push w s) (s.setReg .sp (s.reg .sp - 2)) :=
  ⟨_, writeWord_noReply (s := s.setReg .sp (s.reg .sp - 2)) absent _⟩

/-- A push to RAM, the hidden registers left out (R360). -/
theorem push_gives {s : State} (ram : s.ramWord (s.reg .sp - 2) = true) (w : State → Word) :
    Gives (push w s) () ((s.setReg .sp (s.reg .sp - 2)).putWord (s.reg .sp - 2) (w (s.setReg .sp (s.reg .sp - 2)))) :=
  ⟨_, push_ram ram w⟩

/-- `s` after the push of PSW (R360). -/
def State.pswPushed (s : State) : State :=
  (s.setReg .sp (s.reg .sp - 2)).putWord (s.reg .sp - 2) (fullPsw s)

/-- The second push goes to the word below the first. -/
theorem pswPushed_sp (s : State) : s.pswPushed.reg .sp - 2 = s.reg .sp - 4 :=
  show s.reg .sp - 2 - 2 = s.reg .sp - 4 by bv_omega

/-- A user entry through 000004 whose first push is made (R360). -/
theorem userEntry_pswPushed {s : State} (first : s.ramWord (s.reg .sp - 2) = true) :
    ∃ m, userEntry .timeout false s =
      (savesPc .timeout (push (fun s => s.reg .pc) { s.pswPushed with micro := m })).andThen fun _ s =>
        (tableVector .timeout s).andThen fun va s => loadVector false va s := by
  obtain ⟨m, run⟩ := push_gives first State.pswRead
  exact ⟨m, by rw [userEntry, run]; rfl⟩

theorem timesOut_of {α : Type} {r : Res α} {s t : State} (run : r = .abort (.timeout .data) t)
    (same : t = { s with micro := t.micro }) : TimesOut r s := ⟨t.micro, run.trans (congrArg _ same)⟩

/-- The user entry for a bus timeout that fails leaves the state that `EntryFails` names (R341, R360). -/
theorem userEntry_fails {s u : State} (h : EntryFails s u) : TimesOut (userEntry .timeout false s) u := by
  obtain ⟨_, ⟨first, rfl⟩ | ⟨first, second, rfl⟩ | ⟨first, second, vector, rfl⟩⟩ := h
  · obtain ⟨m, run⟩ := push_timesOut first State.pswRead
    exact ⟨m, by rw [userEntry, run]; rfl⟩
  · obtain ⟨m, entry⟩ := userEntry_pswPushed first
    let t : State := { s.pswPushed with micro := m }
    have sp : t.reg .sp - 2 = s.reg .sp - 4 := pswPushed_sp s
    have absent : t.noReply (t.reg .sp - 2) = true := by
      rw [sp]
      exact (noReply_congr (s := s) rfl rfl rfl rfl _).trans second
    obtain ⟨m', run⟩ := push_timesOut absent fun s => s.reg .pc
    rw [run, (savesPc_table (by decide) _).1 .data, sp] at entry
    exact timesOut_of entry rfl
  · obtain ⟨m, entry⟩ := userEntry_pswPushed first
    let t : State := { s.pswPushed with micro := m }
    have sp : t.reg .sp - 2 = s.reg .sp - 4 := pswPushed_sp s
    have ram : t.ramWord (t.reg .sp - 2) = true := by
      rw [sp]
      exact (ramWord_congr (s := s) rfl rfl rfl rfl _).trans second
    obtain ⟨m', run⟩ := push_gives ram fun s => s.reg .pc
    rw [sp] at run
    let v : State := { (t.setReg .sp (s.reg .sp - 4)).putWord (s.reg .sp - 4) (s.reg .pc) with micro := m' }
    have absent : (v.showVector .timeout).noReply 0o4 = true := (noReply_congr (s := s) rfl rfl rfl rfl _).trans vector
    have load : loadVector false 0o4 (v.showVector .timeout) =
        .abort (.timeout .data) ((v.showVector .timeout).latch .readWord 0o4) := by
      rw [loadVector, readWord_noReply absent]
      rfl
    rw [run, savesPc_ok] at entry
    exact timesOut_of (entry.trans load) rfl

/-- Where nothing answers at 177716, a pult entry fails before it changes anything (R365). -/
theorem pultEntry_noReply {s : State} (absent : s.noReply 0o177716 = true) (v : Vsel) (correct : Bool) :
    TimesOut (pultEntry v correct s) s :=
  ⟨(s.latch .rmwWord 0o177716).micro, by rw [pultEntry, setPultBit, rmwWord_noReply absent]; rfl⟩

/-! ### The entry of the double error -/

/-- `EntryFails` tells of a state that differs from the one before in SP and memory only. -/
theorem entryFails_frame {s u : State} (h : EntryFails s u) :
    u.cfg = s.cfg ∧ u.psw = s.psw ∧ u.seq = s.seq ∧ u.ints = s.ints ∧ u.per = s.per ∧ u.timer = s.timer ∧
    u.plat = s.plat ∧ u.inputs = s.inputs ∧ u.reg .pc = s.reg .pc := by
  obtain ⟨_, ⟨_, rfl⟩ | ⟨_, _, rfl⟩ | ⟨_, _, _, rfl⟩⟩ := h
  · exact ⟨rfl, rfl, rfl, rfl, rfl, rfl, rfl, rfl, rfl⟩
  · exact ⟨rfl, rfl, rfl, rfl, rfl, rfl, rfl, rfl, rfl⟩
  · exact ⟨rfl, rfl, rfl, rfl, rfl, rfl, rfl, rfl, rfl⟩

/-- The record of the timeout does not decide whether its entry fails. -/
theorem entryFails_timedOut {s u : State} (h : EntryFails s u) (m : Micro) :
    EntryFails (s.timedOut.lostWord m) (u.timedOut.lostWord m) := by
  have ram : ∀ a, (s.timedOut.lostWord m).ramWord a = s.ramWord a := ramWord_congr rfl rfl rfl rfl
  have absent : ∀ a, (s.timedOut.lostWord m).noReply a = s.noReply a := noReply_congr rfl rfl rfl rfl
  obtain ⟨wf, ⟨first, rfl⟩ | ⟨first, second, rfl⟩ | ⟨first, second, vector, rfl⟩⟩ := h
  · exact ⟨wf, .inl ⟨(absent _).trans first, rfl⟩⟩
  · exact ⟨wf, .inr (.inl ⟨(ram _).trans first, (absent _).trans second, rfl⟩)⟩
  · exact ⟨wf, .inr (.inr ⟨(ram _).trans first, (ram _).trans second, (absent _).trans vector, rfl⟩)⟩

/-- The poll after a second error: a pult entry, and of the record DBLE and the bits of CPU_ERROR are left (R348, R372). -/
theorem forcedEntry_twice {s : State} (power : s.ints.acok = true) (uerr : s.ints.uerr = false)
    (qbto : s.ints.qbto = false) (iato : s.ints.iato = false) (qto : s.per.errFlags.getLsbD 4 = true) :
    ∃ m, forcedEntry (s.noteTimeout .data) = pultEntry .doubleError false ((twiceFailed s).lostWord m) := by
  obtain ⟨m, noted⟩ := noteTimeout_twice qto
  rw [noted]
  obtain ⟨m', e⟩ := forcedEntry_dble
    (s := { (twiceFailed s).lostWord m with ints := { (twiceFailed s).ints with qbto := true } }) power iato rfl
  refine ⟨m', e.trans (congrArg (pultEntry .doubleError false) ?_)⟩
  exact state_ext rfl rfl rfl rfl rfl
    (interrupts_ext rfl rfl rfl rfl rfl uerr.symm qbto.symm iato.symm rfl) rfl rfl rfl rfl rfl rfl

/-- A bus timeout whose entry fails is followed at once by one attempt of the pult entry through 160006 (R341, R372). -/
theorem raiseTimeout_double {s u : State} (h : NoError s) (psw10 : s.psw10 = false) (psw11 : s.psw11 = false)
    (fails : EntryFails s u) : ∃ e m, raiseTimeout .data s = lastAttempt e ∧
      forcedEntry e = pultEntry .doubleError false ((twiceFailed u).lostWord m) := by
  obtain ⟨m, entry⟩ := forcedEntry_timeout h
  rw [timeoutAnswer_user psw10 psw11] at entry
  obtain ⟨m', failed⟩ := userEntry_fails (entryFails_timedOut fails m)
  obtain ⟨_, _, _, ints, _⟩ := entryFails_frame fails
  obtain ⟨power, qbto, iato, _, uerr, _⟩ := h
  rw [← ints] at power qbto iato uerr
  obtain ⟨m'', again⟩ := forcedEntry_twice (s := u.timedOut.lostWord m') power uerr qbto iato (qto_timedOut u)
  have same : (twiceFailed (u.timedOut.lostWord m')).lostWord m'' = (twiceFailed u).lostWord m'' :=
    state_ext rfl rfl rfl rfl rfl rfl (twiceFailed_per u).1 rfl rfl rfl rfl rfl
  rw [same] at again
  exact ⟨_, m'', raiseTimeout_fails (entry.trans failed), again⟩

/-- An attempt of the entry of the double error, where nothing answers at 177716 (R372, D13). -/
theorem lastAttempt_noReply {e x : State} {v : Vsel} {c : Bool} (entry : forcedEntry e = pultEntry v c x)
    (absent : x.noReply 0o177716 = true) : ∃ m, lastAttempt e = .next (State.park { x with micro := m } .data) := by
  obtain ⟨m, failed⟩ := pultEntry_noReply absent v c
  exact ⟨m, lastAttempt_fails (entry.trans failed)⟩

/-- What parking leaves where QTO is set (R372, D13). -/
theorem park_twice {s : State} (qto : s.per.errFlags.getLsbD 4 = true) :
    ∃ m, s.park .data = { (twiceFailed s).lostWord m with
      ints := { (twiceFailed s).ints with qbto := true }
      seq := { (twiceFailed s).seq with shadow := none, retry := true } } := by
  obtain ⟨m, noted⟩ := noteTimeout_twice qto
  exact ⟨m, by rw [State.park, noted]; rfl⟩

/-- A step that attempts the entry of the double error again (R372, D13). -/
theorem step_retry {s : State} (h : AboutToRetry s) : ∃ e m, step s = lastAttempt e ∧
    forcedEntry e = pultEntry .doubleError false { attempted s with micro := m } := by
  obtain ⟨quiet, dclo, hlt, retry, power, iato, dble, _⟩ := h
  obtain ⟨m, e⟩ := forcedEntry_dble (s := { s with seq := { s.seq with retry := false } }) power iato dble
  refine ⟨_, m, ?_, e.trans (congrArg (pultEntry .doubleError false) ?_)⟩
  · rw [step_quiet (quiet_iff.1 quiet).1, cycle, held_false quiet dclo, hlt, retry]
    rfl
  · exact state_ext rfl rfl rfl rfl rfl (interrupts_ext rfl rfl rfl rfl rfl rfl rfl iato.symm rfl) rfl rfl rfl rfl rfl rfl

/-! ### The vector of the double error does not answer -/

theorem wf_pultWith {s : State} (wf : s.mem.wf = true) (on : Bool) : (s.pultWith on).mem.wf = true := by
  rw [State.pultWith]
  split
  · exact wf
  · exact wf_putWord s wf _ _

theorem pultWith_per (s : State) (on : Bool) : (s.pultWith on).per = s.per := by
  rw [State.pultWith]
  split
  · rfl
  · rfl

theorem fullPsw_pultWith (s : State) (on : Bool) : fullPsw (s.pultWith on) = fullPsw s := by
  rw [fullPsw, (pultWith_frame s on).2, pultWith_cfg, fullPsw]

/-- The hidden registers before a store do not matter. -/
theorem Stored.of_micro {s t : State} {a w : Word} {m : Micro} (h : Stored { s with micro := m } t a w) :
    Stored s t a w :=
  ⟨h.cfg, h.regs, h.psw, h.seq, h.ints, h.per, h.timer, h.plat, h.inputs, h.wf, h.read⟩

/-- The requests that the poll clears and the pult bit do not meet. -/
theorem pultWith_attempted (s : State) (on : Bool) : (attempted s).pultWith on = attempted (s.pultWith on) := by
  rw [State.pultWith, State.pultWith]
  show (if s.cfg.ncpu = 0 then _ else _) = _
  split
  · rfl
  · rfl

/-- A pult entry whose save cells are RAM and whose vector nothing answers: PSW and PC are saved (R365). -/
theorem pultEntry_noVector {s : State} (ready : PultReady s) (first : (s.pultWith true).ramWord 0o177676 = true)
    (second : (s.pultWith true).ramWord 0o177674 = true) (vector : (s.pultWith true).noReply 0o160006 = true) :
    ∃ t u, Stored (s.pultWith true) t 0o177676 (fullPsw s) ∧ Stored t u 0o177674 (s.reg .pc) ∧
      TimesOut (pultEntry .doubleError false s) u := by
  obtain ⟨m, bit⟩ := setPultBit_ready ready true
  obtain ⟨_, wf, _⟩ := ready
  let v : State := { s.pultWith true with micro := m }
  obtain ⟨t, writes, psw⟩ := writeWord_stored (s := v) (a := 0o177676) first (wf_pultWith wf true) (fullPsw s)
  obtain ⟨u, writes', pc⟩ := writeWord_stored ((psw.ramWord _).trans second) psw.wf (s.reg .pc)
  have reg : t.reg .pc = s.reg .pc := (reg_congr psw.regs .pc).trans (reg_congr (pultWith_regs s true) .pc)
  have absent : (u.showVector .doubleError).noReply 0o160006 = true :=
    (noReply_congr (s := v) (pc.cfg.trans psw.cfg) (pc.plat.trans psw.plat) (pc.inputs.trans psw.inputs)
      (congrArg Sequencer.hung (pc.seq.trans psw.seq)) _).trans vector
  have load : loadVector true 0o160006 (u.showVector .doubleError) =
      .abort (.timeout .data) ((u.showVector .doubleError).latch .readWord 0o160006) := by
    rw [loadVector, readWord_noReply absent]
    rfl
  refine ⟨t, u, psw.of_micro, pc, timesOut_of (t := (u.showVector .doubleError).latch .readWord 0o160006) ?_ rfl⟩
  rw [pultEntry, bit]
  show ((waitsAt 0x14 (writeWord 0o177676 (fullPsw (s.pultWith true)) v)).andThen _) = _
  rw [fullPsw_pultWith, writes]
  show ((savesPc .doubleError (writeWord 0o177674 (t.reg .pc) t)).andThen _) = _
  rw [reg, writes', savesPc_ok]
  exact load

/-- What the two save cells of the pult hold, and every other byte, after both stores. -/
theorem saved_cells {s t u : State} {psw pc : Word} (first : Stored s t 0o177676 psw) (second : Stored t u 0o177674 pc) :
    u.memWord 0o177676 = psw ∧ u.memWord 0o177674 = pc ∧
    ∀ b, b ≠ 0o177676 → b ≠ 0o177677 → b ≠ 0o177674 → b ≠ 0o177675 → u.readByteAt b = s.readByteAt b := by
  refine ⟨?_, second.memWord, fun b h6 h7 h4 h5 => ?_⟩
  · rw [← first.memWord]
    refine congrArg₂ mkWord ?_ ?_
    · rw [second.read, if_neg (by decide), if_neg (by decide)]
    · rw [second.read, if_neg (by decide), if_neg (by decide)]
  · rw [second.read, first.read]
    exact (if_neg h5).trans ((if_neg h4).trans ((if_neg h7).trans (if_neg h6)))

/-- Settles O26: the failed entry of `raiseTimeout_double` and the attempts of `step_retry`, each by what answers. -/
theorem doubleTimeoutEntersPult : Obligations.DoubleTimeoutEntersPult := by
  refine ⟨fun s u x h psw10 psw11 fails hx => ?_, fun s h ready room => ?_, fun s h _ absent => ?_,
    fun s v h ready hv first second vector => ?_⟩
  · subst hx
    obtain ⟨e, m, raised, entry⟩ := raiseTimeout_double h psw10 psw11 fails
    obtain ⟨cfg, psw, seq, _, _, timer, plat, inputs, pc⟩ := entryFails_frame fails
    refine ⟨fun ready room => ?_, fun _ absent => ?_⟩
    · obtain ⟨t, run, entered⟩ := pultEntry_lostWord .doubleError false m ready room
      exact ⟨t, raised.trans (lastAttempt_ok (entry.trans run)), pc ▸ entered⟩
    · have absent' : ((twiceFailed u).lostWord m).noReply 0o177716 = true :=
        (noReply_congr cfg plat inputs (congrArg Sequencer.hung seq) _).trans absent
      obtain ⟨m', parked⟩ := lastAttempt_noReply entry absent'
      obtain ⟨m'', e⟩ := park_twice (s := { (twiceFailed u).lostWord m with micro := m' }) (qto_twiceFailed u)
      rw [e] at parked
      exact ⟨_, raised.trans parked, rfl, rfl, psw, sameMemory_of rfl rfl rfl, rfl, (twiceFailed_per u).2, timer, plat, cfg⟩
  · obtain ⟨e, m, attempt, entry⟩ := step_retry h
    have hidden := pultWith_micro (attempted s) true m
    obtain ⟨t, run, entered⟩ := pultEntry_ready .doubleError false (s := { attempted s with micro := m }) ready
      (by rw [hidden]; exact room)
    rw [hidden] at entered
    exact ⟨t, attempt.trans (lastAttempt_ok (entry.trans run)), entered⟩
  · obtain ⟨e, m, attempt, entry⟩ := step_retry h
    obtain ⟨m', parked⟩ := lastAttempt_noReply entry (by exact absent)
    obtain ⟨_, _, _, retry, _, _, dble, qto⟩ := h
    obtain ⟨m'', e⟩ := park_twice (s := { attempted s with micro := m' }) qto
    refine ⟨m'', attempt.trans (parked.trans (congrArg Host.Outcome.next (e.trans ?_)))⟩
    exact state_ext rfl rfl rfl (sequencer_ext rfl rfl rfl rfl rfl rfl retry.symm rfl) rfl
      (interrupts_ext rfl rfl rfl rfl rfl rfl rfl rfl dble.symm) rfl rfl rfl rfl rfl rfl
  · subst hv
    obtain ⟨e, m, attempt, entry⟩ := step_retry h
    obtain ⟨_, _, _, _, _, _, _, qto⟩ := h
    let x : State := { attempted s with micro := m }
    have bit : x.pultWith true = { attempted (s.pultWith true) with micro := m } := by
      rw [← pultWith_attempted]
      exact pultWith_micro (attempted s) true m
    obtain ⟨t, u, psw, pc, m', failed⟩ := pultEntry_noVector (s := x) ready (by rw [bit]; exact first)
      (by rw [bit]; exact second) (by rw [bit]; exact vector)
    obtain ⟨cell6, cell4, others⟩ := saved_cells psw pc
    rw [bit] at psw others
    have per : u.per = s.per := pc.per.trans (psw.per.trans (pultWith_per s true))
    rw [← per] at qto
    obtain ⟨m'', parked⟩ := park_twice (s := { u with micro := m' }) qto
    refine ⟨_, attempt.trans ((lastAttempt_fails (entry.trans failed)).trans (congrArg Host.Outcome.next parked)), rfl,
      pc.regs.trans (psw.regs.trans (pultWith_regs s true)), pc.psw.trans (psw.psw.trans (pultWith_frame s true).2),
      (memWord_congr (s := u) rfl rfl rfl _).trans cell6, (memWord_congr (s := u) rfl rfl rfl _).trans cell4,
      pc.plat.trans psw.plat, fun b h6 h7 h4 h5 => ?_⟩
    exact (readByteAt_congr (s := u) rfl rfl rfl b).trans ((others b h6 h7 h4 h5).trans (readByteAt_congr rfl rfl rfl b))

end Sys2Proof.Machine
end
section
/-! The acknowledge read that nobody answers (O22). -/

namespace Sys2Proof.Machine

/-! ### A map that the pult bit does not switch -/

/-- What serves an address, where the map does not switch, does not depend on the select registers (R87, R365). -/
theorem ramWord_fixed {s t : State} (fixed : s.fixedMap = true) (cfg : t.cfg = s.cfg) (map : t.plat.map = s.plat.map)
    (chips : t.plat.chips = s.plat.chips) (quiet : t.quiet = s.quiet) (a : Word) : t.ramWord a = s.ramWord a := by
  have slave : t.slaveAt a = s.slaveAt a := by
    rw [State.slaveAt, regionAt_fixed fixed map, State.slaveAt]
  rw [State.ramWord, State.ramByte, State.isRam, State.ownBlock, State.chipAt, quiet, slave, cfg, chips]
  rfl

theorem readByteAt_fixed {s t : State} (fixed : s.fixedMap = true) (mem : t.mem = s.mem)
    (map : t.plat.map = s.plat.map) (b : Word) : t.readByteAt b = s.readByteAt b := by
  rw [State.readByteAt, State.cellOf, State.bankAt, regionAt_fixed fixed map, mem]
  rfl

/-- On processor 0 the pult bit is in the register behind nSEL1 (R59). -/
theorem pultWith_first {s : State} (first : s.cfg.ncpu = 0) (on : Bool) :
    s.pultWith on = { s with plat := { s.plat with sel1 := pultWord on s.plat.sel1 } } := if_pos first

/-- With a map that does not switch a pult entry finds its save cells and vector where they were (R365). -/
theorem pultRoom_fixed {s : State} {va : Word} (fixed : s.fixedMap = true) (first : s.cfg.ncpu = 0)
    (room : PultRoom s va) : PultRoom (s.pultWith true) va := by
  have ram : ∀ a, (s.pultWith true).ramWord a = s.ramWord a := by
    rw [pultWith_first first]
    exact ramWord_fixed fixed rfl rfl rfl rfl
  have wf : (s.pultWith true).mem.wf = s.mem.wf := by rw [pultWith_first first]
  rw [PultRoom, ram, ram, ram, ram, wf]
  exact room

/-! ### The acknowledge read -/

/-- An acknowledge read that nobody answers, after the pushes in RAM (R99, R343). -/
theorem userEntry_ext_silent {s : State} (correct : Bool) (silent : s.plat.iack = []) (room : StackRoom s) :
    ∃ t, userEntry .ext correct s = .abort (.timeout .iack) t ∧ Pushed s t ((s.correctPc correct).reg .pc) := by
  obtain ⟨wf, first, second⟩ := room
  obtain ⟨t, run, pushed⟩ := pushes_ram wf first second correct 0x14 .ext
  have quiet : t.quiet = true :=
    (quiet_congr pushed.inputs (congrArg Sequencer.hung pushed.seq)).trans (ramWord_iff.1 first).1
  have begins : tenure (t.latchOp .ackRead) = .ok () (t.latchOp .ackRead) := tenure_quiet quiet
  have empty : (t.latchOp .ackRead).plat.iack = [] := (congrArg Platform.iack pushed.plat).trans silent
  have ack : vectorOf .ext t = .abort (.timeout .iack) (t.latchOp .ackRead) := by
    rw [vectorOf, if_pos rfl, ackRead, begins, andThen_ok, takeAck, empty]
    rfl
  refine ⟨t.latchOp .ackRead, ?_, pushed.hidden _⟩
  rw [userEntry_eq, run, andThen_ok, ack, andThen_abort]

/-- An acknowledge read without reply is answered by a pult entry (R343, R348). -/
theorem forcedEntry_iato {s : State} (power : s.ints.acok = true) :
    ∃ m, forcedEntry (s.noteTimeout .iack) =
      pultEntry .iackTimeout false { (s.noteTimeout .iack).rearm 0b000 with micro := m } :=
  forcedEntry_answer (s := s.noteTimeout .iack) power (matrix_iato power (Bool.or_true _))

/-! ### The save cells -/

theorem ne_of_isOdd {a b : Word} (h : isOdd a ≠ isOdd b) : a ≠ b := fun e => h (congrArg isOdd e)

/-- A word at an even address that is neither save cell of the pult holds none of their bytes. -/
theorem apart_from_cells {a : Word} (even : isOdd a = false) (h4 : a ≠ 0o177674) (h6 : a ≠ 0o177676) :
    (a ≠ 0o177676 ∧ a ≠ 0o177677 ∧ a ≠ 0o177674 ∧ a ≠ 0o177675) ∧
    (a + 1 ≠ 0o177676 ∧ a + 1 ≠ 0o177677 ∧ a + 1 ≠ 0o177674 ∧ a + 1 ≠ 0o177675) := by
  have odd : isOdd (a + 1) = true := by rw [isOdd_succ, even]; rfl
  refine ⟨⟨h6, ne_of_isOdd (by rw [even]; decide), h4, ne_of_isOdd (by rw [even]; decide)⟩,
    ne_of_isOdd (by rw [odd]; decide), fun e => h6 (by bv_omega), ne_of_isOdd (by rw [odd]; decide),
    fun e => h4 (by bv_omega)⟩

/-- A pult entry leaves the words apart from its save cells, where the map does not switch. -/
theorem PultEntered.memWord {s t : State} {ret va a : Word} (h : PultEntered (s.pultWith true) t ret va)
    (fixed : s.fixedMap = true) (first : s.cfg.ncpu = 0) (even : isOdd a = false) (h4 : a ≠ 0o177674)
    (h6 : a ≠ 0o177676) : t.memWord a = s.memWord a := by
  obtain ⟨_, _, _, _, _, frame, _⟩ := h
  obtain ⟨⟨a1, a2, a3, a4⟩, b1, b2, b3, b4⟩ := apart_from_cells even h4 h6
  have same : ∀ b, (s.pultWith true).readByteAt b = s.readByteAt b := by
    rw [pultWith_first first]
    exact readByteAt_fixed fixed rfl rfl
  exact congrArg₂ mkWord ((frame a a1 a2 a3 a4).trans (same a)) ((frame _ b1 b2 b3 b4).trans (same _))

/-- The pult entry of an acknowledge read without reply, on processor 0 with a map that does not switch (R343, R365). -/
theorem raiseTimeout_iack {s : State} (power : s.ints.acok = true) (first : s.cfg.ncpu = 0)
    (kind : s.cfg.sel1Kind = .register) (fixed : s.fixedMap = true) (room : PultRoom s 0o160012) :
    ∃ t, raiseTimeout .iack s = .next t ∧ t.memWord 0o177676 = fullPsw s ∧ t.memWord 0o177674 = s.reg .pc ∧
      t.reg .pc = t.memWord 0o160012 ∧ t.psw = t.memWord 0o160014 &&& 0xFCFF ∧
      t.plat.sel1 = s.plat.sel1 ||| 0o10 ∧ (∀ q, q ≠ .pc → t.reg q = s.reg q) ∧
      ∀ a, isOdd a = false → a ≠ 0o177674 → a ≠ 0o177676 → t.memWord a = s.memWord a := by
  obtain ⟨m, entry⟩ := forcedEntry_iato power
  let z : State := { (s.noteTimeout .iack).rearm 0b000 with micro := m }
  have roomz : PultRoom z 0o160012 := pultRoom_congr (s := s) rfl rfl rfl rfl rfl room
  obtain ⟨wf, cell, _⟩ := id roomz
  have ready : PultReady z := ⟨(ramWord_iff.1 cell).1, wf, fun _ => kind, fun other => absurd first other⟩
  obtain ⟨t, run, entered⟩ := pultEntry_ready .iackTimeout false ready (pultRoom_fixed fixed first roomz)
  have apart := fun a => entered.memWord (a := a) fixed first
  obtain ⟨cell6, cell4, pc, psw, regs, _, _, _, _, _, _, plat, _⟩ := entered
  refine ⟨t, raiseTimeout_ok (entry.trans run), cell6.trans (fullPsw_pultWith z true), cell4, pc, psw, ?_,
    fun q hq => (regs q hq).trans (reg_congr (pultWith_regs z true) q), fun a even h4 h6 => ?_⟩
  · rw [plat, pultWith_first (s := z) first]
    rfl
  · exact (apart a even h4 h6).trans (memWord_congr (s := s) rfl rfl rfl a)

/-- Settles O22: the entry of `userEntry_ext_silent` fails after its pushes, and the pult entry of `raiseTimeout_iack`
follows it. -/
theorem iackTimeout : Obligations.IackTimeout := by
  intro s w h run poll power answer silent kind fixed ⟨_, stack2, stack4, _⟩ ⟨wf, cells⟩ h2c h2p h4c h4p
  have first : s.cfg.ncpu = 0 := matrix_ext (s := fetched s w) (by rw [answer])
  obtain ⟨m, e⟩ := step_userEntry h run poll power answer
  let u : State := { fetched s w with micro := m }
  have ram : ∀ a, u.ramWord a = s.ramWord a := ramWord_congr rfl rfl rfl rfl
  obtain ⟨t, failed, pushed⟩ := userEntry_ext_silent true (s := u) silent
    ⟨wf, (ram _).trans stack2, (ram _).trans stack4⟩
  have pc : (u.correctPc true).reg .pc = s.reg .pc := reg_pc_correct_fetched s w
  rw [pc] at pushed
  have room : PultRoom t 0o160012 := by
    have ram' : ∀ a, t.ramWord a = s.ramWord a := fun a =>
      (ramWord_congr pushed.cfg pushed.plat pushed.inputs (congrArg Sequencer.hung pushed.seq) a).trans (ram a)
    rw [PultRoom, ram', ram', ram', ram']
    exact ⟨pushed.wf, cells⟩
  have psw : fullPsw t = fullPsw s := by
    rw [fullPsw, pushed.psw, pushed.cfg]
    rfl
  obtain ⟨t', next, cell6, cell4, vpc, vpsw, bit, regs, apart⟩ := raiseTimeout_iack
    (by rw [pushed.ints]; exact power) (by rw [pushed.cfg]; exact first) (by rw [pushed.cfg]; exact kind)
    (by rw [State.fixedMap, pushed.plat]; exact fixed) room
  obtain ⟨_, _, even2⟩ := ramWord_iff.1 stack2
  obtain ⟨_, _, even4⟩ := ramWord_iff.1 stack4
  refine ⟨t', e.trans ((congrArg conclude failed).trans next), (regs _ (by decide)).trans pushed.sp,
    (apart _ even2 h2c h2p).trans pushed.first, (apart _ even4 h4c h4p).trans pushed.second, cell6.trans psw,
    cell4.trans pushed.pc, vpc, vpsw, ?_, fun q hsp hpc => ?_⟩
  · rw [bit, pushed.plat]
    rfl
  · exact (regs q hpc).trans ((pushed.regs q hsp hpc).trans (reg_setReg_ne s hpc _))

end Sys2Proof.Machine
end
